-- ==== Sys2Proof/Word.lean ====
section
/-! DEFINITION. The 72-bit word (R8) and its plainest constructors. -/

namespace Sys2Proof

/-- A word: the tag in bits [71:64] and the datum in bits [63:0], one unit (R8). -/
structure Word where
  tag : BitVec 8
  datum : BitVec 64
deriving DecidableEq, Repr

namespace Word

/-- FIX (0x00): a two's-complement integer. -/
def fix (d : BitVec 64) : Word := ⟨0x00#8, d⟩
/-- FLT (0x02): a binary64 pattern. -/
def flt (d : BitVec 64) : Word := ⟨0x02#8, d⟩
/-- QTY (0x03). -/
def qty (d : BitVec 64) : Word := ⟨0x03#8, d⟩
/-- INST (0x04). -/
def inst (d : BitVec 64) : Word := ⟨0x04#8, d⟩
/-- SPAN (0x05). -/
def span (d : BitVec 64) : Word := ⟨0x05#8, d⟩
/-- CONST (0x06), values of Table 02-3. -/
def const (n : Nat) : Word := ⟨0x06#8, BitVec.ofNat 64 n⟩
/-- RAW (0x07). -/
def raw (d : BitVec 64) : Word := ⟨0x07#8, d⟩
/-- INSTR (0x0A). -/
def instr (d : BitVec 64) : Word := ⟨0x0A#8, d⟩
/-- RETA (0x0B). -/
def reta (d : BitVec 64) : Word := ⟨0x0B#8, d⟩
/-- PTE (0x0C). -/
def pte (d : BitVec 64) : Word := ⟨0x0C#8, d⟩
/-- CLMP (0x0D). -/
def clmp (d : BitVec 64) : Word := ⟨0x0D#8, d⟩
/-- HDR (0x80). -/
def hdr (d : BitVec 64) : Word := ⟨0x80#8, d⟩
/-- FWD (0x81). -/
def fwd (d : BitVec 64) : Word := ⟨0x81#8, d⟩
/-- FILL (0x82). -/
def fill (d : BitVec 64) : Word := ⟨0x82#8, d⟩
/-- PENDING (0xFD), naming a result register in [3:0] (R24). -/
def pending (n : Nat) : Word := ⟨0xFD#8, BitVec.ofNat 64 n⟩
/-- CONST:NIL. -/
def nil : Word := const 0
/-- CONST:TRUE. -/
def true : Word := const 1
/-- CONST:ABSENT (R4). -/
def absent : Word := const 3
/-- CONST:EMPTY. -/
def empty : Word := const 5
/-- RAW:0. -/
def zero : Word := raw 0#64
/-- The word of memory that was never written: all 72 bits set (R27). -/
def uninit : Word := ⟨0xFF#8, 0xFFFFFFFFFFFFFFFF#64⟩

end Word
end Sys2Proof
end

