-- ==== Sys2Proof/Syntax.lean ====
section
/-! DEFINITION. The commands of the block: one constructor of `Instr` for each row of spec/opcode_table.json.
The rows are the indivisible steps of 95_what_each_step_holds.md. A step of the Ryular cores carries a header that
names the core; a step of another unit names the unit. What comes from outside the device (a frame, a packet, a host
buffer) and a choice that the spec leaves to the device's timing are operands. -/

namespace Sys2Proof

/-- What SECDED finds in one word (R251, R252). (DESIGN CHOICE, log 23) -/
inductive Secded where
  | clean
  | corrected
  | lost
deriving DecidableEq, Repr

/-- What SECDED finds in the words that an agent beside the cores reads: the errors, by address (R252). (DESIGN CHOICE, log 23) -/
abbrev Ecc := List (BitVec 40 × Secded)

/-- A word of the control store of a core, of its patch-match table or of its dispatch tables (R261, R263, R268). -/
inductive StoreRef where
  | word (a : BitVec 14)
  | patch (i : Fin 32)
  | decode (op : BitVec 7)
  | cls (tag : BitVec 8)
  | pair (i : BitVec 11)
deriving DecidableEq, Repr

/-- A parity or SECDED error that protection finds in the microwords or accesses of an instruction (Table 02-14, R245, R246, R252, R265). (DESIGN CHOICE, log 23) -/
inductive ArrayErr where
  | reg (w : Fin 32)
  | result (k : Fin 4)
  | special (sr : BitVec 8)
  | drawer (i : Fin 64)
  | stackWord (va : BitVec 48)
  | l1 (line : BitVec 37)
  | l2Data (sector : BitVec 36)
  | l2Tag (blk : BitVec 34)
  | offcut (sector : BitVec 36)
  | tlb (world : Fin 2) (va : BitVec 48)
  | sharedTlb (world : Fin 2) (va : BitVec 48)
  | walkCache (world : Fin 2) (level prefix_ : Nat)
  | walk2Cache (world : Fin 2) (ia : Nat)
  | directory (blk : BitVec 34)
  | memory (pa : BitVec 40) (e : Secded)
  | store (word : StoreRef) (taken : Bool) (copies : BitVec 4)
deriving DecidableEq, Repr

/-- The common part of an instruction of a core: the core, the guard fields of Table 04-1, the number of microcycles and
stall half-cycles that it lasts (R201), which the spec leaves to microcode and caches, and a parity error met in it. (DEDUCED, log 21; DESIGN CHOICE, log 54; DESIGN CHOICE, log 123) -/
structure Hdr where
  core : Fin 32
  gp : Fin 16
  gs : Bool
  mc : Nat := 1
  err : Option ArrayErr := none
  wait : Bool := false
deriving DecidableEq, Repr

/-- Who makes a store or a load of a register: a core (its running world and level), or Favar (also for the debug BAR,
R208, R359). (DEDUCED, log 121) -/
inductive Agent where
  | core (c : Fin 32)
  | favar
deriving DecidableEq, Repr

/-- The origin of a command of a cut list (R290): list n, or the trigger queue. -/
inductive ActSrc where
  | list (n : Fin 16)
  | trigger
deriving DecidableEq, Repr

/-- A beacon as received on a port (R283): the master's id and priority, the sender's hops, STATE and stamp in ps, and
the arrival stamp in ps. -/
structure Beacon where
  master : BitVec 12
  mprio : BitVec 4
  hops : BitVec 5
  state : BitVec 3
  stamp : Int
  arrival : Int
deriving DecidableEq, Repr

/-- A host buffer as Favar's DMA returns it (R364, R365, R384): the bytes, or a failed read; before a poisoned completion some bytes have
come. -/
inductive HostBuf where
  | bytes (bs : List (BitVec 8))
  | timeout
  | poisoned (bs : List (BitVec 8))
deriving DecidableEq, Repr

/-- The payload of a Kamion packet that is routed (Table 17-1, classes 2 to 4). A broadcast trigger carries the sequence
number by which its flood is known. -/
inductive PktBody where
  | trigger (world : Fin 2) (action : Word) (target : BitVec 64) (bcast : Option (BitVec 16))
  | message (world : Fin 2) (queue : Fin 16) (w : Word)
  | bulk (world : Fin 2) (ring : Fin 8) (ws : List Word)
deriving DecidableEq, Repr

/-- A routed packet (R391). -/
structure Packet where
  origin : BitVec 12
  dest : BitVec 12
  body : PktBody
deriving DecidableEq, Repr

/-- What becomes of a received link packet's CRC after the retries of R393. -/
inductive CrcResult where
  | good (retries : Nat)
  | payloadBad
  | bad
deriving DecidableEq, Repr

/-- What arrives before training ends: the far end's TRAIN frame (R387). -/
structure TrainFrame where
  id : BitVec 12
  port : BitVec 3
  gen2 : Bool
  proto2 : Bool
deriving DecidableEq, Repr

/-- What Favar finds in the board section of flash, in the strap pins and in the DRAM training at a cold boot
(R250, R422, R429, R443). -/
structure BootEnv where
  straps : BitVec 16
  rails : Vector (BitVec 16) 4
  memCfg : Vector (BitVec 6) 4
  memOk : BitVec 4
  boardOk : Bool
  kmCfg : BitVec 24
  wdLimit : BitVec 16
  fwReady : BitVec 2
  readBack : Bool
deriving DecidableEq, Repr

/-- A received Ethernet frame, by what R385 distinguishes. -/
inductive EthFrame where
  | arpRequest
  | icmpEcho
  | pause (quanta : BitVec 16)
  | fragment
  | other
deriving DecidableEq, Repr

/-- The transport of a PTP message (Table 12-3). -/
inductive PtpTransport where
  | udp4
  | udp6
  | ethernet
deriving DecidableEq, Repr

/-- What the header of a PTP message carries beside its kind: its version and domain, and how it came. -/
structure PtpHdr where
  version : BitVec 4 := 2
  domain : BitVec 8 := 0
  transport : PtpTransport := .udp4
deriving DecidableEq, Repr

/-- What a logger sends in answer to datagrams, with the address that it comes from (R375). -/
structure Sent (α : Type) where
  src : BitVec 32
  data : α
deriving DecidableEq, Repr

/-- A PTP message that the device sends of its own (Table 12-3). -/
inductive PtpKind where
  | sync
  | followUp
  | announce
  | delayReq
  | pdelayReq
deriving DecidableEq, Repr

/-- A received PTP message other than a Sync measurement, by what R285 distinguishes. -/
inductive PtpMsg where
  | delayReq
  | pdelayReq
  | announce (identity : BitVec 64) (priority1 clockClass priority2 : BitVec 8)
  | followUp
  | unsupported
deriving DecidableEq, Repr

/-- A write of the integrator to OTP (R427). -/
inductive OtpWrite where
  | customerKey (hash : BitVec 384)
  | debug (v : BitVec 2)
deriving DecidableEq, Repr

/-- The target of a store that is not a row of its own (R456): a device register by physical word address, or a byte
offset of BAR0 by the host (Table 16-2). -/
inductive StoreTarget where
  | reg (a : Agent) (pa : BitVec 40)
  | bar0 (off : BitVec 20) (size8 : Bool)
deriving DecidableEq, Repr

/-- The commands: one constructor per row of the table. (DESIGN CHOICE, log 119; DESIGN CHOICE, log 123) -/
inductive Instr where
  -- control transfer (R95 to R106)
  | nop (h : Hdr)
  | b (h : Hdr) (off : BitVec 20)
  | call (h : Hdr) (off : BitVec 20)
  | calli (h : Hdr) (wa : Fin 32)
  | ret (h : Hdr)
  | loop (h : Hdr) (wc : Fin 32) (stop : BitVec 15)
  | lit (h : Hdr) (wd : Fin 32)
  | trap (h : Hdr) (imm : BitVec 15)
  | brk (h : Hdr) (imm : BitVec 15)
  | eret (h : Hdr)
  | hold (h : Hdr) (imm : BitVec 15)
  | fence (h : Hdr)
  | fenceI (h : Hdr)
  | tlbiVa (h : Hdr) (wa : Fin 32)
  | tlbiWorld (h : Hdr)
  | tlbiWorldg (h : Hdr)
  -- moves, tags, time and conversion (R107 to R113)
  | mov (h : Hdr) (wd wa : Fin 32)
  | movi (h : Hdr) (wd : Fin 32) (imm : BitVec 15)
  | typeof (h : Hdr) (wd wa : Fin 32)
  | tagset (h : Hdr) (wd wa wb : Fin 32)
  | mfs (h : Hdr) (w : Fin 32) (wt : Bool) (sr : BitVec 8)
  | mts (h : Hdr) (w : Fin 32) (wt : Bool) (sr : BitVec 8)
  | now (h : Hdr) (wd : Fin 32)
  | cvtToflt (h : Hdr) (wd wa : Fin 32)
  | cvtToint (h : Hdr) (wd wa : Fin 32)
  | cvtToqty (h : Hdr) (wd wa wb : Fin 32)
  | cvtStrip (h : Hdr) (wd wa wb : Fin 32)
  | cvtTospan (h : Hdr) (wd wa : Fin 32)
  | cvtSpanq (h : Hdr) (wd wa : Fin 32)
  | cvtToinst (h : Hdr) (wd wa : Fin 32)
  -- arithmetic and logic (R115 to R122)
  | add (h : Hdr) (wd wa wb : Fin 32)
  | sub (h : Hdr) (wd wa wb : Fin 32)
  | mul (h : Hdr) (wa wb : Fin 32)
  | div (h : Hdr) (wa wb : Fin 32)
  | neg (h : Hdr) (wd wa : Fin 32)
  | logadd (h : Hdr) (wd wa wb : Fin 32)
  | addi (h : Hdr) (wd : Fin 32) (imm : BitVec 15)
  | and (h : Hdr) (wd wa wb : Fin 32)
  | or (h : Hdr) (wd wa wb : Fin 32)
  | xor (h : Hdr) (wd wa wb : Fin 32)
  | andn (h : Hdr) (wd wa wb : Fin 32)
  | shl (h : Hdr) (wd wa wb : Fin 32)
  | shr (h : Hdr) (wd wa wb : Fin 32)
  | sar (h : Hdr) (wd wa wb : Fin 32)
  | not (h : Hdr) (wd wa : Fin 32)
  | cmpeq (h : Hdr) (aw : Bool) (pd : Fin 16) (wa wb : Fin 32)
  | cmpne (h : Hdr) (aw : Bool) (pd : Fin 16) (wa wb : Fin 32)
  | cmplt (h : Hdr) (aw : Bool) (pd : Fin 16) (wa wb : Fin 32)
  | cmple (h : Hdr) (aw : Bool) (pd : Fin 16) (wa wb : Fin 32)
  | cmpgt (h : Hdr) (aw : Bool) (pd : Fin 16) (wa wb : Fin 32)
  | cmpge (h : Hdr) (aw : Bool) (pd : Fin 16) (wa wb : Fin 32)
  | tageq (h : Hdr) (aw : Bool) (pd : Fin 16) (wa wb : Fin 32)
  | pand (h : Hdr) (pd : Fin 16) (na : Bool) (pa : Fin 16) (nb : Bool) (pb : Fin 16)
  | por (h : Hdr) (pd : Fin 16) (na : Bool) (pa : Fin 16) (nb : Bool) (pb : Fin 16)
  | pxor (h : Hdr) (pd : Fin 16) (na : Bool) (pa : Fin 16) (nb : Bool) (pb : Fin 16)
  | pmov (h : Hdr) (pd : Fin 16) (na : Bool) (pa : Fin 16)
  -- memory (R123 to R129)
  | ldw (h : Hdr) (wd wa : Fin 32) (off : BitVec 10)
  | ldws (h : Hdr) (wd wa : Fin 32) (off : BitVec 10)
  | stw (h : Hdr) (ws wa : Fin 32) (off : BitVec 10)
  | ldx (h : Hdr) (wd wa : Fin 32) (off : BitVec 10)
  | stx (h : Hdr) (ws wa : Fin 32) (off : BitVec 10)
  | ldf (h : Hdr) (wd wa wb : Fin 32)
  | stf (h : Hdr) (ws wa wb : Fin 32)
  | ldb (h : Hdr) (wd wa wb : Fin 32)
  | stb (h : Hdr) (ws wa wb : Fin 32)
  | lds (h : Hdr) (wd : Fin 32) (imm : BitVec 15)
  | sts (h : Hdr) (ws : Fin 32) (imm : BitVec 15)
  | spadj (h : Hdr) (imm : BitVec 15)
  | alloc (h : Hdr) (wd wa wb : Fin 32)
  -- scheduling, clamps, saves, lathes and links (R130 to R138)
  | wait (h : Hdr) (wd wa : Fin 32)
  | signal (h : Hdr) (wa : Fin 32)
  | clamp (h : Hdr) (wd wa : Fin 32) (off : BitVec 10)
  | unclamp (h : Hdr) (wa : Fin 32) (off : BitVec 10)
  | savel (h : Hdr)
  | saveu (h : Hdr)
  | restl (h : Hdr)
  | restu (h : Hdr)
  | stm (h : Hdr) (wa wb : Fin 32) (steps : Nat)
  | ldm (h : Hdr) (wa wb : Fin 32) (steps : Nat)
  | lathe (h : Hdr) (wd wa wb : Fin 32)
  | send (h : Hdr) (wa wb : Fin 32)
  | recv (h : Hdr) (wd wa : Fin 32)
  -- completions and background work of a core
  | mulComplete (c : Fin 32)
  | divComplete (c : Fin 32)
  | stackSpill (c : Fin 32)
  | storeBufferDrain (c : Fin 32)
  | cardQueueDrain (k : Fin 8)
  -- entries, the Jig and deadlines
  | interruptEntry (c : Fin 32)
  | fastInterruptEntry (c : Fin 32)
  | guardAbortEntry (c : Fin 32)
  | jigSwitch (c : Fin 32)
  | holdExpiry (c : Fin 32)
  | waitDeadline (c : Fin 32) (slot : Fin 64)
  | clampDeadline (c : Fin 32) (slot : Fin 64)
  | recvDeadline (c : Fin 32) (slot : Fin 64)
  | slotLoad (a : Agent) (c : Fin 32) (slot : Fin 64) (v : BitVec 64)
  | slotPark (a : Agent) (c : Fin 32) (slot : Fin 64) (v : BitVec 64)
  | slotReady (a : Agent) (c : Fin 32) (slot : Fin 64) (v : BitVec 64)
  | slotUnload (a : Agent) (c : Fin 32) (slot : Fin 64) (v : BitVec 64)
  | evBindWrite (a : Agent) (line : Fin 256) (v : BitVec 64)
  | jigWatchdogExpiry (c : Fin 32)
  | edctlRelease (a : Agent) (c : Fin 32) (v : BitVec 64)
  -- heap and Planer
  | cchStart (a : Agent) (w : Fin 2) (v : BitVec 64)
  | cchSync (a : Agent) (w : Fin 2) (v : BitVec 64)
  | boardMapReload (c : Fin 32) (w : Fin 2)
  | cchGive (a : Agent) (w : Fin 2) (v : BitVec 64)
  | planerFlip (w : Fin 2)
  | planerCopy (w : Fin 2)
  | planerDrain (w : Fin 2)
  | planerSweep (w : Fin 2)
  | planerRelease (w : Fin 2)
  | coreFlip (c : Fin 32) (w : Fin 2)
  | twRetry (a : Agent) (w : Fin 2) (v : BitVec 64)
  -- caches and memory ports
  | l2FillComplete (k : Fin 8) (sector : BitVec 36) (pos : Fin 16) (e : Secded)
  | writebackAck (k : Fin 8) (sector : BitVec 36)
  | cleanDelayExpiry (k : Fin 8) (sector : BitVec 36)
  | ageSweep (k : Fin 8)
  | patrolScrub (p : Fin 4) (e : Secded)
  | arbiterGrant (p : Fin 4)
  | portwdBite (p : Fin 4)
  -- safety controls and veneers
  | safeFailsafe (a : Agent) (v : BitVec 64)
  | safeFsClear (a : Agent) (v : BitVec 64)
  | gsvcMissClear (a : Agent) (v : BitVec 64)
  | veneerCoreCommit (c : Fin 32)
  | seamLimitExpiry (c : Fin 32)
  -- Imtur
  | imtMeasurement (offset : Int)
  | imtSourceLoss (ppm : Nat := 0)
  | beaconSend
  | beaconReceive (p : Fin 8) (bc : Beacon)
  | kamionDelayExchange (p : Fin 8) (toward back : BitVec 32)
  | backupMasterTakeover
  | ppsOutPulse
  -- cut lists
  | cutListActivation (n : Fin 16)
  | cutNop (src : ActSrc) (ecc : Secded)
  | laneStart (src : ActSrc)
  | laneStop (src : ActSrc)
  | driveCommit (src : ActSrc)
  | driveMute (src : ActSrc)
  | cutEvent (src : ActSrc)
  | cutHinge (src : ActSrc)
  | hingePulseEnd (pin : Fin 64)
  | gaugeSnap (src : ActSrc)
  | commitTables (src : ActSrc)
  | veneerCommit (src : ActSrc)
  | ktrig (n : Fin 16) (ecc : Secded)
  | triggerArrival (origin : BitVec 12) (w : Fin 2) (action : Word) (target : BitVec 64)
  | clCommit (a : Agent) (n : Fin 16) (v : BitVec 64)
  | clCancel (a : Agent) (n : Fin 16) (v : BitVec 64)
  -- sensor lanes
  | tdmFrame (n : Fin 32) (bits : Nat) (codes : List (BitVec 32))
  | spiConversion (n : Fin 32) (codes : List (BitVec 32))
  | lsl2Frame (n : Fin 32) (ovld : Bool) (cnt : BitVec 32) (codes : List (BitVec 32)) (side : BitVec 24) (crcOk : Bool)
  | slCommit (a : Agent) (v : BitVec 64)
  | slStart (a : Agent) (v : BitVec 64)
  | slStop (a : Agent) (v : BitVec 64)
  | slConfigApply (n : Fin 32)
  -- drive lanes and abort inputs
  | dlShadowWrite (a : Agent) (n : Fin 16) (v : BitVec 64)
  | dlShadowCheckDone (n : Fin 16) (ecc : Ecc := [])
  | driveSampleOutput (n : Fin 16) (ecc : Ecc := [])
  | driveUnderrun (n : Fin 16)
  | driveRampComplete (n : Fin 16)
  | dlSoftstop (a : Agent) (n : Fin 16) (v : BitVec 64)
  | dlResume (a : Agent) (n : Fin 16) (v : BitVec 64)
  | dlCommit (a : Agent) (v : BitVec 64)
  | dlConfigApply (n : Fin 16)
  | abortInAssert (pinB : Bool)
  | abortInRelease (pinB : Bool)
  -- lathes and Marquetry
  | latheVop (n : Fin 8) (ecc : Ecc := [])
  | latheFft (n : Fin 8) (ecc : Ecc := [])
  | latheIfft (n : Fin 8) (ecc : Ecc := [])
  | latheWspec (n : Fin 8) (ecc : Ecc := [])
  | latheFir (n : Fin 8) (ecc : Ecc := [])
  | latheBiquad (n : Fin 8) (ecc : Ecc := [])
  | latheResample (n : Fin 8) (ecc : Ecc := [])
  | latheTrack (n : Fin 8) (ecc : Ecc := [])
  | lathePvx (n : Fin 8) (count : Nat) (ecc : Ecc := [])
  | latheJobEnd (n : Fin 8) (parity : List Nat)
  | latheSrcwaitTimeout (n : Fin 8)
  | mqBlockCode (n : Fin 32) (choice : List (Fin 4 × Fin 32)) (ecc : Ecc := [])
  | mqRetentionTrigger (k : Fin 4) (stamp : BitVec 64)
  | mqRetentionClose (k : Fin 4)
  -- gauges
  | gaugeTick (n : Fin 32)
  | gtCntWrite (a : Agent) (n : Fin 32) (v : BitVec 64)
  | gtCmpWrite (a : Agent) (n : Fin 32) (v : BitVec 64)
  | gtEnable (a : Agent) (n : Fin 32) (v : BitVec 64)
  | gtPreWrite (a : Agent) (n : Fin 32) (v : BitVec 64)
  | gtCfgWrite (a : Agent) (n : Fin 32) (v : BitVec 64)
  | gaugeCapture (n : Fin 32) (rising : Bool)
  | gtCapPop (a : Agent) (n : Fin 32)
  | gtpCapPop (a : Agent) (k : Fin 16)
  -- Favar: mailbox and commands
  | fvDoorbell (v : BitVec 64)
  | hello
  | caps
  | health (tjMax tjMin : BitVec 16)
  | eventSub
  | crashRead
  | worldPartition (buf : HostBuf)
  | imageLoad (buf : HostBuf)
  | imageVerify
  | worldStart
  | worldStop
  | laneSet (buf : HostBuf)
  | driveSet (buf : HostBuf)
  | cutLoad (buf : HostBuf)
  | cutCommit
  | timeSource
  | timeStatus
  | kamionMap (buf : HostBuf)
  | logOpen
  | logClose
  | veneerStage (buf : HostBuf)
  | veneerApply
  | fwStage (buf : HostBuf)
  | fwSwap
  | checkpoint
  | worldMsg
  | busyCompletion (i : Nat)
  | fvLogackWrite (v : BitVec 64)
  | logPush (ecc : Ecc := [])
  | logDatagramSend (ecc : Ecc := [])
  | logAckReceive (m : Sent (BitVec 64))
  | logNakReceive (m : Sent (List (BitVec 64 × BitVec 64)))
  | logAckTimeout
  | logKeepalive
  | mbxGo (a : Agent) (w : Fin 2) (v : BitVec 64)
  | mbxReply (w : Fin 2)
  | mbxDeadlineTimeout (w : Fin 2)
  | mbxPop (a : Agent) (w : Fin 2) (v : BitVec 64)
  | favarWatchdogExpiry
  | deviceWatchdogExpiry
  | fwSwapFallback
  | fwSlotFallback
  -- Kamion
  | kamionTrain (p : Fin 8) (f : TrainFrame)
  | kamionLinkDown (p : Fin 8)
  | kamionPacketRoute (p : Fin 8) (pkt : Packet) (crc : CrcResult)
  | linkStateNotice (p : Fin 8) (dev : BitVec 12) (port : Fin 8) (up : Bool)
  | abortVoteReceive (p : Fin 8) (origin : BitVec 12) (seq : BitVec 16)
  | kmAbortSend (a : Agent) (v : BitVec 64)
  | routingTableApply
  | messageArrival (origin : BitVec 12) (w : Fin 2) (q : Fin 16) (word : Word)
  | kmDmaGo (a : Agent) (w : Fin 2) (v : BitVec 64)
  | kmDmaJob (w : Fin 2) (ecc : Ecc := [])
  | kmDmaJobEnd (w : Fin 2) (refused : Bool)
  | kmDmaLostTimeout (w : Fin 2)
  | bulkLanding (w : Fin 2) (ring : Fin 8) (ws : List Word)
  | kmLandingEnable (a : Agent) (w : Fin 2) (k : Fin 8) (v : BitVec 64)
  -- power, reset and boot
  | pwrSleep (a : Agent) (d : Fin 141) (v : BitVec 64)
  | pwrWake (a : Agent) (d : Fin 141) (v : BitVec 64)
  | domainRampDone (d : Fin 141)
  | porNRelease (env : BootEnv)
  | warmNAssert
  | warmRestart
  | perstNAssert
  | brownout
  | thermalWarn (temp : BitVec 16)
  | debugHalt (c : Fin 32)
  -- hinge pins
  | hingeSlotBoundary (pin : Fin 64)
  | hingeInputEdge (pin : Fin 64) (level : Bool)
  | hngCommit (a : Agent) (bank : Fin 4) (v : BitVec 64)
  | hngCommitApply (bank : Fin 4)
  | uartTxWrite (a : Agent) (bank : Fin 4) (v : BitVec 64)
  | uartCharSent (bank : Fin 4)
  | uartCharReceived (bank : Fin 4) (byte : BitVec 8) (ferr perr : Bool)
  | uartRxPop (a : Agent) (bank : Fin 4)
  | owReset (a : Agent) (bank : Fin 4) (v : BitVec 64)
  | owWrite (a : Agent) (bank : Fin 4) (v : BitVec 64)
  | owRead (a : Agent) (bank : Fin 4) (v : BitVec 64)
  | owDone (bank : Fin 4) (data : BitVec 8) (present : Bool)
  -- stores without a row of their own, supplies, links and OTP
  | registerWrite (t : StoreTarget) (v : Word)
  | porNAssert
  | vaonVioLoss
  | vaonVioValid
  | laneLinkUp (n : Fin 32)
  | laneLinkDown (n : Fin 32)
  | imtVoteMismatch (c0 c1 c2 : BitVec 64)
  | pcieLinkChange (up : Bool)
  | ethLinkChange (port : Fin 2) (up : Bool)
  | ethFrameReceive (port : Fin 2) (f : EthFrame)
  | ptpMessageReceive (port : Fin 2) (m : PtpMsg) (x : PtpHdr := {})
  | otpWrite (w : OtpWrite)
  | svnFloorRaise
  | debugResume (c : Fin 32)
deriving DecidableEq, Repr

end Sys2Proof
end

