-- ==== Sys2Proof/Decode.lean ====
section
/-! DEFINITION. The words of the Ryular instructions (R63, R64, R91 and the entries R95 to R138): an encoder and a decoder
of one 32-bit slot, and the table words of the block (the table gives no row bits). -/

namespace Sys2Proof

/-- The special-register numbers of Table 04-4. -/
def srDefined (sr : BitVec 8) : Bool :=
  decide (sr.toNat ≤ 0x0D) || (decide (0x10 ≤ sr.toNat) && decide (sr.toNat ≤ 0x1B)) || sr == 0x1F#8

/-- The result registers, for which WT is honoured (R80). -/
def srResult (sr : BitVec 8) : Bool := decide (8 ≤ sr.toNat) && decide (sr.toNat ≤ 11)

/-- A slot: guard, opcode and the 20 bits of its format (Table 04-1). -/
def slotOf (h : Hdr) (op : BitVec 7) (low : BitVec 20) : BitVec 32 :=
  ((BitVec.ofFin h.gp ++ BitVec.ofBool h.gs) ++ op) ++ low

/-- Format R (Table 04-2). -/
def fmtR (d a b : BitVec 5) (fn : BitVec 5) : BitVec 20 := ((d ++ a) ++ b) ++ fn
/-- Format I. -/
def fmtI (d : BitVec 5) (imm : BitVec 15) : BitVec 20 := d ++ imm
/-- Format M. -/
def fmtM (d a : BitVec 5) (off : BitVec 10) : BitVec 20 := (d ++ a) ++ off
/-- Format C. -/
def fmtC (aw : Bool) (pd : BitVec 4) (a b : BitVec 5) : BitVec 20 := (((BitVec.ofBool aw ++ pd) ++ a) ++ b) ++ 0#5
/-- Format P. -/
def fmtP (pd : BitVec 4) (na : Bool) (pa : BitVec 4) (nb : Bool) (pb : BitVec 4) (fn : BitVec 5) : BitVec 20 :=
  (((((0#1 ++ pd) ++ BitVec.ofBool na) ++ pa) ++ BitVec.ofBool nb) ++ pb) ++ fn
/-- Format S. -/
def fmtS (w : BitVec 5) (wt : Bool) (sr : BitVec 8) : BitVec 20 := ((w ++ BitVec.ofBool wt) ++ 0#6) ++ sr

/-- A register number as a field. -/
def rb (r : Fin 32) : BitVec 5 := BitVec.ofFin r
/-- A predicate number as a field. -/
def pb4 (p : Fin 16) : BitVec 4 := BitVec.ofFin p

/-- The 32 bits of a Ryular instruction (Table 05-1); none for the commands that are no instruction. -/
def encode32 : Instr → Option (BitVec 32)
  | .nop h => some (slotOf h 0x01 0#20)
  | .b h off => some (slotOf h 0x02 off)
  | .call h off => some (slotOf h 0x03 off)
  | .calli h a => some (slotOf h 0x04 (fmtR 0 (rb a) 0 0))
  | .ret h => some (slotOf h 0x05 0#20)
  | .loop h c stop => some (slotOf h 0x06 (fmtI (rb c) stop))
  | .lit h d => some (slotOf h 0x07 (fmtI (rb d) 0))
  | .trap h imm => some (slotOf h 0x08 (fmtI 0 imm))
  | .brk h imm => some (slotOf h 0x09 (fmtI 0 imm))
  | .eret h => some (slotOf h 0x0A 0#20)
  | .hold h imm => some (slotOf h 0x0B (fmtI 0 imm))
  | .fence h => some (slotOf h 0x0C (fmtR 0 0 0 0))
  | .fenceI h => some (slotOf h 0x0C (fmtR 0 0 0 1))
  | .tlbiVa h a => some (slotOf h 0x0D (fmtR 0 (rb a) 0 0))
  | .tlbiWorld h => some (slotOf h 0x0D (fmtR 0 0 0 1))
  | .tlbiWorldg h => some (slotOf h 0x0D (fmtR 0 0 0 2))
  | .mov h d a => some (slotOf h 0x10 (fmtR (rb d) (rb a) 0 0))
  | .movi h d imm => some (slotOf h 0x11 (fmtI (rb d) imm))
  | .typeof h d a => some (slotOf h 0x12 (fmtR (rb d) (rb a) 0 0))
  | .tagset h d a b => some (slotOf h 0x13 (fmtR (rb d) (rb a) (rb b) 0))
  | .mfs h w wt sr => some (slotOf h 0x14 (fmtS (rb w) wt sr))
  | .mts h w wt sr => some (slotOf h 0x15 (fmtS (rb w) wt sr))
  | .now h d => some (slotOf h 0x16 (fmtR (rb d) 0 0 0))
  | .cvtToflt h d a => some (slotOf h 0x17 (fmtR (rb d) (rb a) 0 0))
  | .cvtToint h d a => some (slotOf h 0x17 (fmtR (rb d) (rb a) 0 1))
  | .cvtToqty h d a b => some (slotOf h 0x17 (fmtR (rb d) (rb a) (rb b) 2))
  | .cvtStrip h d a b => some (slotOf h 0x17 (fmtR (rb d) (rb a) (rb b) 3))
  | .cvtTospan h d a => some (slotOf h 0x17 (fmtR (rb d) (rb a) 0 4))
  | .cvtSpanq h d a => some (slotOf h 0x17 (fmtR (rb d) (rb a) 0 5))
  | .cvtToinst h d a => some (slotOf h 0x17 (fmtR (rb d) (rb a) 0 6))
  | .add h d a b => some (slotOf h 0x20 (fmtR (rb d) (rb a) (rb b) 0))
  | .sub h d a b => some (slotOf h 0x21 (fmtR (rb d) (rb a) (rb b) 0))
  | .mul h a b => some (slotOf h 0x22 (fmtR 0 (rb a) (rb b) 0))
  | .div h a b => some (slotOf h 0x23 (fmtR 0 (rb a) (rb b) 0))
  | .neg h d a => some (slotOf h 0x24 (fmtR (rb d) (rb a) 0 0))
  | .logadd h d a b => some (slotOf h 0x25 (fmtR (rb d) (rb a) (rb b) 0))
  | .addi h d imm => some (slotOf h 0x26 (fmtI (rb d) imm))
  | .and h d a b => some (slotOf h 0x27 (fmtR (rb d) (rb a) (rb b) 0))
  | .or h d a b => some (slotOf h 0x27 (fmtR (rb d) (rb a) (rb b) 1))
  | .xor h d a b => some (slotOf h 0x27 (fmtR (rb d) (rb a) (rb b) 2))
  | .andn h d a b => some (slotOf h 0x27 (fmtR (rb d) (rb a) (rb b) 3))
  | .shl h d a b => some (slotOf h 0x27 (fmtR (rb d) (rb a) (rb b) 4))
  | .shr h d a b => some (slotOf h 0x27 (fmtR (rb d) (rb a) (rb b) 5))
  | .sar h d a b => some (slotOf h 0x27 (fmtR (rb d) (rb a) (rb b) 6))
  | .not h d a => some (slotOf h 0x27 (fmtR (rb d) (rb a) 0 7))
  | .cmpeq h aw pd a b => some (slotOf h 0x30 (fmtC aw (pb4 pd) (rb a) (rb b)))
  | .cmpne h aw pd a b => some (slotOf h 0x31 (fmtC aw (pb4 pd) (rb a) (rb b)))
  | .cmplt h aw pd a b => some (slotOf h 0x32 (fmtC aw (pb4 pd) (rb a) (rb b)))
  | .cmple h aw pd a b => some (slotOf h 0x33 (fmtC aw (pb4 pd) (rb a) (rb b)))
  | .cmpgt h aw pd a b => some (slotOf h 0x34 (fmtC aw (pb4 pd) (rb a) (rb b)))
  | .cmpge h aw pd a b => some (slotOf h 0x35 (fmtC aw (pb4 pd) (rb a) (rb b)))
  | .tageq h aw pd a b => some (slotOf h 0x36 (fmtC aw (pb4 pd) (rb a) (rb b)))
  | .pand h pd na pa nb pb => some (slotOf h 0x37 (fmtP (pb4 pd) na (pb4 pa) nb (pb4 pb) 0))
  | .por h pd na pa nb pb => some (slotOf h 0x37 (fmtP (pb4 pd) na (pb4 pa) nb (pb4 pb) 1))
  | .pxor h pd na pa nb pb => some (slotOf h 0x37 (fmtP (pb4 pd) na (pb4 pa) nb (pb4 pb) 2))
  | .pmov h pd na pa => some (slotOf h 0x37 (fmtP (pb4 pd) na (pb4 pa) false 0 3))
  | .ldw h d a off => some (slotOf h 0x40 (fmtM (rb d) (rb a) off))
  | .stw h s a off => some (slotOf h 0x41 (fmtM (rb s) (rb a) off))
  | .ldws h d a off => some (slotOf h 0x42 (fmtM (rb d) (rb a) off))
  | .ldx h d a off => some (slotOf h 0x43 (fmtM (rb d) (rb a) off))
  | .stx h s a off => some (slotOf h 0x44 (fmtM (rb s) (rb a) off))
  | .ldf h d a b => some (slotOf h 0x45 (fmtR (rb d) (rb a) (rb b) 0))
  | .stf h s a b => some (slotOf h 0x46 (fmtR (rb s) (rb a) (rb b) 0))
  | .ldb h d a b => some (slotOf h 0x47 (fmtR (rb d) (rb a) (rb b) 0))
  | .stb h s a b => some (slotOf h 0x48 (fmtR (rb s) (rb a) (rb b) 0))
  | .lds h d imm => some (slotOf h 0x49 (fmtI (rb d) imm))
  | .sts h s imm => some (slotOf h 0x4A (fmtI (rb s) imm))
  | .spadj h imm => some (slotOf h 0x4B (fmtI 0 imm))
  | .alloc h d a b => some (slotOf h 0x4C (fmtR (rb d) (rb a) (rb b) 0))
  | .wait h d a => some (slotOf h 0x50 (fmtR (rb d) (rb a) 0 0))
  | .signal h a => some (slotOf h 0x51 (fmtR 0 (rb a) 0 0))
  | .clamp h d a off => some (slotOf h 0x52 (fmtM (rb d) (rb a) off))
  | .unclamp h a off => some (slotOf h 0x53 (fmtM 0 (rb a) off))
  | .savel h => some (slotOf h 0x54 0#20)
  | .saveu h => some (slotOf h 0x55 0#20)
  | .restl h => some (slotOf h 0x56 0#20)
  | .restu h => some (slotOf h 0x57 0#20)
  | .stm h a b _ => some (slotOf h 0x58 (fmtR 0 (rb a) (rb b) 0))
  | .ldm h a b _ => some (slotOf h 0x59 (fmtR 0 (rb a) (rb b) 0))
  | .lathe h d a b => some (slotOf h 0x60 (fmtR (rb d) (rb a) (rb b) 0))
  | .send h a b => some (slotOf h 0x61 (fmtR 0 (rb a) (rb b) 0))
  | .recv h d a => some (slotOf h 0x62 (fmtR (rb d) (rb a) 0 0))
  | _ => none

/-- The opcode of a slot. -/
def slotOp (w : BitVec 32) : BitVec 7 := w.extractLsb' 20 7
/-- Bits [19:0] of a slot. -/
def slotLow (w : BitVec 32) : BitVec 20 := w.extractLsb' 0 20
/-- GP of a slot. -/
def slotGp (w : BitVec 32) : Fin 16 := (w.extractLsb' 28 4).toFin
/-- GS of a slot. -/
def slotGs (w : BitVec 32) : Bool := w.getLsbD 27

/-- The field [19:15]. -/
def lowD (x : BitVec 20) : Fin 32 := (x.extractLsb' 15 5).toFin
/-- The field [14:10]. -/
def lowA (x : BitVec 20) : Fin 32 := (x.extractLsb' 10 5).toFin
/-- The field [9:5]. -/
def lowB (x : BitVec 20) : Fin 32 := (x.extractLsb' 5 5).toFin
/-- The field [4:0]. -/
def lowFn (x : BitVec 20) : Nat := (x.extractLsb' 0 5).toNat
/-- The field [14:0]. -/
def lowImm (x : BitVec 20) : BitVec 15 := x.extractLsb' 0 15
/-- The field [9:0]. -/
def lowOff (x : BitVec 20) : BitVec 10 := x.extractLsb' 0 10

/-- i if the condition holds, else an illegal encoding. -/
def legalIf (ok : Bool) (i : Instr) : Option Instr := if ok then some i else none

/-- A conversion of OP 0x17. -/
def decodeCvt (h : Hdr) (x : BitVec 20) : Option Instr :=
  match lowFn x with
  | 0 => legalIf (lowB x == 0) (.cvtToflt h (lowD x) (lowA x))
  | 1 => legalIf (lowB x == 0) (.cvtToint h (lowD x) (lowA x))
  | 2 => some (.cvtToqty h (lowD x) (lowA x) (lowB x))
  | 3 => some (.cvtStrip h (lowD x) (lowA x) (lowB x))
  | 4 => legalIf (lowB x == 0) (.cvtTospan h (lowD x) (lowA x))
  | 5 => legalIf (lowB x == 0) (.cvtSpanq h (lowD x) (lowA x))
  | 6 => legalIf (lowB x == 0) (.cvtToinst h (lowD x) (lowA x))
  | _ => none

/-- A bitwise instruction of OP 0x27. -/
def decodeBits (h : Hdr) (x : BitVec 20) : Option Instr :=
  match lowFn x with
  | 0 => some (.and h (lowD x) (lowA x) (lowB x))
  | 1 => some (.or h (lowD x) (lowA x) (lowB x))
  | 2 => some (.xor h (lowD x) (lowA x) (lowB x))
  | 3 => some (.andn h (lowD x) (lowA x) (lowB x))
  | 4 => some (.shl h (lowD x) (lowA x) (lowB x))
  | 5 => some (.shr h (lowD x) (lowA x) (lowB x))
  | 6 => some (.sar h (lowD x) (lowA x) (lowB x))
  | 7 => legalIf (lowB x == 0) (.not h (lowD x) (lowA x))
  | _ => none

/-- A compare of format C. -/
def decodeC (op : Bool → Fin 16 → Fin 32 → Fin 32 → Instr) (x : BitVec 20) : Option Instr :=
  legalIf (lowFn x == 0) (op (x.getLsbD 19) (x.extractLsb' 15 4).toFin (lowA x) (lowB x))

/-- A predicate operation of OP 0x37. -/
def decodeP (h : Hdr) (x : BitVec 20) : Option Instr :=
  let pd := (x.extractLsb' 15 4).toFin
  let pa := (x.extractLsb' 10 4).toFin
  let pb := (x.extractLsb' 5 4).toFin
  if x.getLsbD 19 then none
  else match lowFn x with
    | 0 => some (.pand h pd (x.getLsbD 14) pa (x.getLsbD 9) pb)
    | 1 => some (.por h pd (x.getLsbD 14) pa (x.getLsbD 9) pb)
    | 2 => some (.pxor h pd (x.getLsbD 14) pa (x.getLsbD 9) pb)
    | 3 => legalIf (!x.getLsbD 9 && pb == 0) (.pmov h pd (x.getLsbD 14) pa)
    | _ => none

/-- MFS and MTS. -/
def decodeS (op : Fin 32 → Bool → BitVec 8 → Instr) (x : BitVec 20) : Option Instr :=
  let sr := x.extractLsb' 0 8
  let wt := x.getLsbD 14
  legalIf (x.extractLsb' 8 6 == 0 && srDefined sr && (!wt || srResult sr)) (op (lowD x) wt sr)

/-- The instruction that a slot of 32 bits encodes, without its guard check; none where R64 makes it illegal. The
microcycles, the parity error, the wait and the transfers done, which no encoding holds, are given. (DEDUCED, log 50) -/
def decode32 (core : Fin 32) (mc : Nat) (err : Option ArrayErr) (wait : Bool) (steps : Nat) (w : BitVec 32) : Option Instr :=
  let h : Hdr := ⟨core, slotGp w, slotGs w, mc, err, wait⟩
  let x := slotLow w
  let d := lowD x
  let a := lowA x
  let b := lowB x
  let fn := lowFn x
  match (slotOp w).toNat with
  | 0x01 => legalIf (x == 0) (.nop h)
  | 0x02 => some (.b h x)
  | 0x03 => some (.call h x)
  | 0x04 => legalIf (d == 0 && b == 0 && fn == 0) (.calli h a)
  | 0x05 => legalIf (x == 0) (.ret h)
  | 0x06 => legalIf (lowImm x != 0) (.loop h d (lowImm x))
  | 0x07 => legalIf (lowImm x == 0) (.lit h d)
  | 0x08 => legalIf (d == 0) (.trap h (lowImm x))
  | 0x09 => legalIf (d == 0) (.brk h (lowImm x))
  | 0x0A => legalIf (x == 0) (.eret h)
  | 0x0B => legalIf (d == 0) (.hold h (lowImm x))
  | 0x0C =>
    if d == 0 && a == 0 && b == 0 then
      match fn with
      | 0 => some (.fence h)
      | 1 => some (.fenceI h)
      | _ => none
    else none
  | 0x0D =>
    if d == 0 && b == 0 then
      match fn with
      | 0 => some (.tlbiVa h a)
      | 1 => legalIf (a == 0) (.tlbiWorld h)
      | 2 => legalIf (a == 0) (.tlbiWorldg h)
      | _ => none
    else none
  | 0x10 => legalIf (b == 0 && fn == 0) (.mov h d a)
  | 0x11 => some (.movi h d (lowImm x))
  | 0x12 => legalIf (b == 0 && fn == 0) (.typeof h d a)
  | 0x13 => legalIf (fn == 0) (.tagset h d a b)
  | 0x14 => decodeS (Instr.mfs h) x
  | 0x15 => decodeS (Instr.mts h) x
  | 0x16 => legalIf (a == 0 && b == 0 && fn == 0) (.now h d)
  | 0x17 => decodeCvt h x
  | 0x20 => legalIf (fn == 0) (.add h d a b)
  | 0x21 => legalIf (fn == 0) (.sub h d a b)
  | 0x22 => legalIf (d == 0 && fn == 0) (.mul h a b)
  | 0x23 => legalIf (d == 0 && fn == 0) (.div h a b)
  | 0x24 => legalIf (b == 0 && fn == 0) (.neg h d a)
  | 0x25 => legalIf (fn == 0) (.logadd h d a b)
  | 0x26 => some (.addi h d (lowImm x))
  | 0x27 => decodeBits h x
  | 0x30 => decodeC (Instr.cmpeq h) x
  | 0x31 => decodeC (Instr.cmpne h) x
  | 0x32 => decodeC (Instr.cmplt h) x
  | 0x33 => decodeC (Instr.cmple h) x
  | 0x34 => decodeC (Instr.cmpgt h) x
  | 0x35 => decodeC (Instr.cmpge h) x
  | 0x36 => decodeC (Instr.tageq h) x
  | 0x37 => decodeP h x
  | 0x40 => some (.ldw h d a (lowOff x))
  | 0x41 => some (.stw h d a (lowOff x))
  | 0x42 => some (.ldws h d a (lowOff x))
  | 0x43 => some (.ldx h d a (lowOff x))
  | 0x44 => some (.stx h d a (lowOff x))
  | 0x45 => legalIf (fn == 0) (.ldf h d a b)
  | 0x46 => legalIf (fn == 0) (.stf h d a b)
  | 0x47 => legalIf (fn == 0) (.ldb h d a b)
  | 0x48 => legalIf (fn == 0) (.stb h d a b)
  | 0x49 => some (.lds h d (lowImm x))
  | 0x4A => some (.sts h d (lowImm x))
  | 0x4B => legalIf (d == 0) (.spadj h (lowImm x))
  | 0x4C => legalIf (fn == 0) (.alloc h d a b)
  | 0x50 => legalIf (b == 0 && fn == 0) (.wait h d a)
  | 0x51 => legalIf (d == 0 && b == 0 && fn == 0) (.signal h a)
  | 0x52 => some (.clamp h d a (lowOff x))
  | 0x53 => legalIf (d == 0) (.unclamp h a (lowOff x))
  | 0x54 => legalIf (x == 0) (.savel h)
  | 0x55 => legalIf (x == 0) (.saveu h)
  | 0x56 => legalIf (x == 0) (.restl h)
  | 0x57 => legalIf (x == 0) (.restu h)
  | 0x58 => legalIf (d == 0 && fn == 0) (.stm h a b steps)
  | 0x59 => legalIf (d == 0 && fn == 0) (.ldm h a b steps)
  | 0x60 => legalIf (fn == 0) (.lathe h d a b)
  | 0x61 => legalIf (d == 0 && fn == 0) (.send h a b)
  | 0x62 => legalIf (b == 0 && fn == 0) (.recv h d a)
  | _ => none

/-- Whether a slot is a legal instruction (R64), whatever its guard. (DEDUCED, log 50) -/
def legal32 (w : BitVec 32) : Bool := (decode32 0 0 none false 0 w).isSome

/-- The command that a word of the table spells: the table gives no row any bits, so none. (DEDUCED, log 3) -/
def decodeTableWord (_nbits _w : Nat) : Option Instr := none

end Sys2Proof
end

