-- ==== Sys2Proof/Machine/Bits.lean ====
section
/-! DEFINITION. Bit fields, sign extension, byte order and updates of vectors: the plain helpers of every other file. -/

namespace Sys2Proof.Machine

/-- Field [lo + len - 1 : lo] of a bit vector. -/
def fld {n : Nat} (x : BitVec n) (lo len : Nat) : BitVec len := x.extractLsb' lo len

/-- Bit k of a bit vector. -/
def bit {n : Nat} (x : BitVec n) (k : Nat) : Bool := x.getLsbD k

/-- x with field [lo + len - 1 : lo] replaced by v. -/
def setFld {n len : Nat} (x : BitVec n) (lo : Nat) (v : BitVec len) : BitVec n :=
  (x &&& ~~~(((BitVec.allOnes len).setWidth n) <<< lo)) ||| ((v.setWidth n) <<< lo)

/-- x with bit k set to b. -/
def setBit {n : Nat} (x : BitVec n) (k : Nat) (b : Bool) : BitVec n := setFld x k (BitVec.ofBool b)

/-- A one-bit field at position k of a 64-bit register. -/
def fbit (k : Nat) (b : Bool) : BitVec 64 := if b then 1#64 <<< k else 0#64

/-- A field v placed at position lo of a 64-bit register. -/
def put {n : Nat} (lo : Nat) (v : BitVec n) : BitVec 64 := (v.setWidth 64) <<< lo

/-- A number placed at position lo of a 64-bit register. -/
def putN (lo v : Nat) : BitVec 64 := BitVec.ofNat 64 (v * 2 ^ lo)

/-- x sign-extended to 64 bits (sext of Table 05-2). -/
def sext {n : Nat} (x : BitVec n) : BitVec 64 := x.signExtend 64

/-- Byte b (0 to 7) of a datum (R18). -/
def byteOf (d : BitVec 64) (b : Nat) : BitVec 8 := fld d (8 * b) 8

/-- A datum with byte b replaced (R18). -/
def setByte (d : BitVec 64) (b : Nat) (v : BitVec 8) : BitVec 64 := setFld d (8 * b) v

/-- The little-endian number in a list of bytes. -/
def leNat : List (BitVec 8) → Nat
  | [] => 0
  | b :: bs => b.toNat + 256 * leNat bs

/-- The first n bytes from offset k of a byte string, little-endian. -/
def leAt (bs : List (BitVec 8)) (k n : Nat) : Nat := leNat ((bs.drop k).take n)

/-- n bytes of a number, little-endian. -/
def leBytes : Nat → Nat → List (BitVec 8)
  | 0, _ => []
  | n + 1, v => BitVec.ofNat 8 v :: leBytes n (v / 256)

/-- The 64-bit datums in a list of bytes, eight bytes each, little-endian; a last partial datum is padded with zeros. -/
def leWords : Nat → List (BitVec 8) → List (BitVec 64)
  | 0, _ => []
  | _ + 1, [] => []
  | n + 1, b :: bs => BitVec.ofNat 64 (leAt (b :: bs) 0 8) :: leWords n ((b :: bs).drop 8)

/-- The bytes of datums, each little-endian. -/
def wordBytes (ws : List (BitVec 64)) : List (BitVec 8) := ws.flatMap fun w => leBytes 8 w.toNat

/-- v with element i replaced. -/
def vset {α : Type} {n : Nat} (v : Vector α n) (i : Fin n) (x : α) : Vector α n := v.set i.val x i.isLt

/-- v with element i passed through f. -/
def vmod {α : Type} {n : Nat} (v : Vector α n) (i : Fin n) (f : α → α) : Vector α n := vset v i (f v[i])

/-- A number as an index below n, wrapping; n is not zero. -/
def idx (n : Nat) (k : Nat) [NeZero n] : Fin n := Fin.ofNat n k

/-- Add one, saturating at all ones. -/
def satInc {n : Nat} (x : BitVec n) : BitVec n := if x = BitVec.allOnes n then x else x + 1

/-- The number of bits set among the low k. -/
def popcount {n : Nat} (x : BitVec n) : Nat → Nat
  | 0 => 0
  | k + 1 => popcount x k + (if bit x k then 1 else 0)

/-- The indices of the bits set among [n-1:0], ascending. -/
def bitsOf {m : Nat} (x : BitVec m) (n : Nat) : List Nat := (List.range n).filter fun k => bit x k

/-- The element of a list with the least key, the first on ties. -/
def minBy {α : Type} (key : α → Nat) : List α → Option α
  | [] => none
  | a :: as =>
    match minBy key as with
    | none => some a
    | some b => if key a ≤ key b then some a else some b

/-- a divided by b, rounded up. -/
def cdiv (a b : Nat) : Nat := (a + b - 1) / b

end Sys2Proof.Machine
end

