-- ==== Sys2Proof/Machine/Float.lean ====
section
/-! DEFINITION. Binary floats by exact value: the formats of binary64, FP32 and the QTY value field, and rounding under
STAT.RM (R15, R16, R37, R38, R39, Table 02-5, Table 03-2). -/

namespace Sys2Proof.Machine

/-- A binary format: widths of its exponent and fraction. -/
structure Fmt where
  ew : Nat
  fw : Nat
deriving DecidableEq, Repr

/-- binary64 (FLT). -/
def Fmt.f64 : Fmt := ⟨11, 52⟩
/-- FP32. -/
def Fmt.f32 : Fmt := ⟨8, 23⟩
/-- The 40-bit QTY value field (Table 02-4). -/
def Fmt.qty : Fmt := ⟨8, 31⟩

/-- The value of a float: a finite magnitude with a sign (zeros included), an infinity, or a NaN whose fraction is
aligned to 52 bits. -/
inductive FVal where
  | fin (neg : Bool) (mag : Rat)
  | inf (neg : Bool)
  | nan (neg : Bool) (frac : BitVec 52)
deriving DecidableEq, Repr

/-- The exponent bias of a format. -/
def Fmt.bias (f : Fmt) : Nat := 2 ^ (f.ew - 1) - 1

/-- The exponent field of infinities and NaNs. -/
def Fmt.emax (f : Fmt) : Nat := 2 ^ f.ew - 1

/-- 2 to an integer power. -/
def pow2 (e : Int) : Rat := if 0 ≤ e then (2 ^ e.toNat : Nat) else 1 / (2 ^ (-e).toNat : Nat)

/-- The value of a bit pattern of a format (the low 1 + ew + fw bits). -/
def Fmt.decode (f : Fmt) (bits : Nat) : FVal :=
  let frac := bits % 2 ^ f.fw
  let e := (bits / 2 ^ f.fw) % 2 ^ f.ew
  let neg := (bits / 2 ^ (f.fw + f.ew)) % 2 = 1
  if e = f.emax then
    if frac = 0 then .inf neg else .nan neg (BitVec.ofNat 52 (frac * 2 ^ (52 - f.fw)))
  else if e = 0 then .fin neg ((frac : Rat) * pow2 (1 - (f.bias : Int) - f.fw))
  else .fin neg (((2 ^ f.fw + frac : Nat) : Rat) * pow2 ((e : Int) - f.bias - f.fw))

/-- The floor of the base-2 logarithm of a positive rational. -/
def ilog2 (x : Rat) : Int :=
  let k : Int := (x.num.natAbs.log2 : Int) - (x.den.log2 : Int)
  if pow2 k ≤ x then k else k - 1

/-- Whether a magnitude with integer part q and remainder r (in units of the last place) is rounded up, by STAT.RM
(Table 03-2); a reserved encoding rounds to nearest even (R37). -/
def roundUp (rm : BitVec 3) (neg : Bool) (q : Nat) (r : Rat) : Bool :=
  if r = 0 then false
  else if rm = 1 then false
  else if rm = 2 then !neg
  else if rm = 3 then neg
  else if rm = 4 then decide (1 / 2 ≤ r)
  else decide (1 / 2 < r) || (decide (r = 1 / 2) && q % 2 = 1)

/-- The largest finite pattern (without its sign). -/
def Fmt.maxFin (f : Fmt) : Nat := f.emax * 2 ^ f.fw - 1

/-- The pattern of an infinity (without its sign). -/
def Fmt.infBits (f : Fmt) : Nat := f.emax * 2 ^ f.fw

/-- The sign bit of a format as a number. -/
def Fmt.sign (f : Fmt) (neg : Bool) : Nat := if neg then 2 ^ (f.ew + f.fw) else 0

/-- A magnitude rounded once to a format, with overflow and underflow as Table 02-5 states. -/
def Fmt.round (f : Fmt) (rm : BitVec 3) (neg : Bool) (mag : Rat) : Nat :=
  if mag = 0 then f.sign neg
  else
    let emin : Int := 1 - (f.bias : Int)
    let e := max (ilog2 mag) emin
    let t := mag / pow2 (e - f.fw)
    let q := t.floor.toNat
    let up := roundUp rm neg q (t - q)
    let m := if up then q + 1 else q
    -- m < 2^(fw+1); the encoding is linear in m, so a carry moves into the exponent
    let bits := ((e - emin).toNat) * 2 ^ f.fw + m
    if f.infBits ≤ bits then
      f.sign neg + (if rm = 1 ∨ (rm = 2 ∧ neg) ∨ (rm = 3 ∧ !neg) then f.maxFin else f.infBits)
    else f.sign neg + bits

/-- A value encoded in a format; a NaN keeps its sign and upper fraction bits, with the quiet bit set (R16). -/
def Fmt.encode (f : Fmt) (rm : BitVec 3) : FVal → Nat
  | .fin neg mag => f.round rm neg mag
  | .inf neg => f.sign neg + f.infBits
  | .nan neg frac =>
    f.sign neg + f.infBits + ((frac.toNat / 2 ^ (52 - f.fw)) ||| 2 ^ (f.fw - 1))

/-- The default NaN: positive, quiet, with no other fraction bit (R39). -/
def FVal.defaultNan : FVal := .nan false (1#52 <<< 51)

/-- An integer as a float value; zero is positive. -/
def FVal.ofRat (x : Rat) : FVal := .fin (decide (x < 0)) (if x < 0 then -x else x)

/-- The signed rational of a finite value. -/
def FVal.toRat : FVal → Rat
  | .fin neg mag => if neg then -mag else mag
  | _ => 0

def FVal.isNan : FVal → Bool
  | .nan _ _ => true
  | _ => false

def FVal.isFin : FVal → Bool
  | .fin _ _ => true
  | _ => false

def FVal.neg : FVal → FVal
  | .fin n m => .fin (!n) m
  | .inf n => .inf (!n)
  | .nan n f => .nan (!n) f

/-- The sign of an exact sum that is zero (R38, IEEE 754): that of both operands when equal, else negative only when
rounding toward minus infinity. -/
def zeroSign (rm : BitVec 3) (a b : Bool) : Bool := if a = b then a else decide (rm = 3)

/-- The exact sum of two values, before rounding. -/
def FVal.add (rm : BitVec 3) : FVal → FVal → FVal
  | .nan n f, _ => .nan n f
  | _, .nan n f => .nan n f
  | .inf a, .inf b => if a = b then .inf a else .defaultNan
  | .inf a, _ => .inf a
  | _, .inf b => .inf b
  | .fin na a, .fin nb b =>
    let x := (FVal.fin na a).toRat + (FVal.fin nb b).toRat
    if x = 0 then .fin (zeroSign rm na nb) 0 else .ofRat x

/-- a - b: a NaN operand is kept as it is, otherwise the sum with the sign of b inverted. -/
def FVal.sub (rm : BitVec 3) (a b : FVal) : FVal :=
  if b.isNan then (if a.isNan then a else b) else a.add rm b.neg

/-- The exact product. -/
def FVal.mul : FVal → FVal → FVal
  | .nan n f, _ => .nan n f
  | _, .nan n f => .nan n f
  | .inf a, .inf b => .inf (a ^^ b)
  | .inf a, .fin b m => if m = 0 then .defaultNan else .inf (a ^^ b)
  | .fin a m, .inf b => if m = 0 then .defaultNan else .inf (a ^^ b)
  | .fin a x, .fin b y => .fin (a ^^ b) (x * y)

/-- The exact quotient. -/
def FVal.div : FVal → FVal → FVal
  | .nan n f, _ => .nan n f
  | _, .nan n f => .nan n f
  | .inf _, .inf _ => .defaultNan
  | .inf a, .fin b _ => .inf (a ^^ b)
  | .fin a _, .inf b => .fin (a ^^ b) 0
  | .fin a x, .fin b y =>
    if y = 0 then (if x = 0 then .defaultNan else .inf (a ^^ b)) else .fin (a ^^ b) (x / y)

/-- Exact order of two values that are not NaN: less, equal or greater. -/
def FVal.cmp : FVal → FVal → Option Ordering
  | .nan _ _, _ => none
  | _, .nan _ _ => none
  | .inf a, .inf b => some (if a = b then .eq else if a then .lt else .gt)
  | .inf a, _ => some (if a then .lt else .gt)
  | _, .inf b => some (if b then .gt else .lt)
  | a, b => some (if a.toRat < b.toRat then .lt else if a.toRat = b.toRat then .eq else .gt)

/-- A rational rounded to an integer under STAT.RM. -/
def roundInt (rm : BitVec 3) (x : Rat) : Int :=
  let neg := decide (x < 0)
  let mag := if x < 0 then -x else x
  let q := mag.floor.toNat
  let m : Int := if roundUp rm neg q (mag - q) then (q + 1 : Nat) else (q : Nat)
  if neg then -m else m

/-- binary64 bits of a value. -/
def toF64 (rm : BitVec 3) (v : FVal) : BitVec 64 := BitVec.ofNat 64 (Fmt.f64.encode rm v)
/-- QTY value field of a value. -/
def toQ40 (rm : BitVec 3) (v : FVal) : BitVec 40 := BitVec.ofNat 40 (Fmt.qty.encode rm v)
/-- FP32 bits of a value. -/
def toF32 (rm : BitVec 3) (v : FVal) : BitVec 32 := BitVec.ofNat 32 (Fmt.f32.encode rm v)
def ofF64 (b : BitVec 64) : FVal := Fmt.f64.decode b.toNat
def ofQ40 (b : BitVec 40) : FVal := Fmt.qty.decode b.toNat
def ofF32 (b : BitVec 32) : FVal := Fmt.f32.decode b.toNat

end Sys2Proof.Machine
end

