-- ==== Sys2Proof/Config.lean ====
section
/-! DEFINITION. What an implementation fixes, and the free values: constants without a body, of which nothing can be
proved but what holds for every value. -/

namespace Sys2Proof

/-- A fresh value that the spec leaves open, for the n-th draw (the field `drawn` of State). (DESIGN CHOICE, log 19) -/
opaque Config.free : Nat → BitVec 64

/-- The value field of LOGADD on two finite levels (R52 fixes it to within two units in the last place, not exactly):
by rounding mode and the operands' value fields. -/
opaque Config.logaddQ : BitVec 3 → BitVec 64 → BitVec 64 → BitVec 40

/-- As `logaddQ`, when the result is delivered in binary64 (R50). -/
opaque Config.logaddF : BitVec 3 → BitVec 64 → BitVec 64 → BitVec 64

/-- A sample word of a lathe function whose order of rounding the spec does not fix (R332): by function number, the draw,
the output, and the index of the word. -/
opaque Config.latheSample : Nat → Nat → Nat → Nat → BitVec 64

/-- Whether an inexact quotient is rounded up where the spec names the unit of a result and not its rounding (the interval of
R308, the ramp codes of Table 13-6): by numerator and denominator. (DESIGN CHOICE, log 75) -/
opaque Config.openRound : Int → Nat → Bool

/-- SHA-384. (DESIGN CHOICE, log 24) -/
opaque Config.sha384 : List (BitVec 8) → BitVec 384

/-- Whether an ECDSA P-384 signature over a message is valid under a public key. (DESIGN CHOICE, log 24) -/
opaque Config.sigValid : List (BitVec 8) → List (BitVec 8) → List (BitVec 8) → Bool

/-- The CODE of an event of a class (R371 and Table 16-13A give the classes and not the codes): by class and kind of
event. (DESIGN CHOICE, log 25) -/
opaque Config.eventCode : Nat → Nat → BitVec 16

end Sys2Proof
end

