-- ==== Sys2Proof/Machine/State.lean ====
section
/-! DEFINITION. The state of the LB7420 as plain data: every register, buffer, queue and pin the spec gives, each with
its reset value as the default of its field, and the queue of waiting commands. A register that software reads and
writes whole is kept as its 64-bit datum; fields that hardware writes are kept apart and composed at a load. -/

namespace Sys2Proof.Machine

open Sys2Proof

/-- Why the block stops with a fault: never, since the spec gives every access a result (R457) and every loss a
behaviour (Table 02-14). -/
inductive Fault where
deriving DecidableEq, Repr

/-- Why a command is refused. -/
inductive Refusal where
  /-- Raised by the dispatcher for a command without a meaning. Safe: nothing is claimed of it. -/
  | notModelled (mnemonic : String)
deriving DecidableEq, Repr

/-! ## Cores and contexts -/

/-- Causes that are written to CAUSE.CODE (Table 08-6). -/
inductive Cause where
  | tagMismatch | unitMismatch | unitKind | unitRange | allocFail | divZero | pendingUse | poisonUse | uninitUse
  | tagReserved | illegalInstr | illegalGuard | privilege | stackFormat | stackOverflow | stackInvalid
  | fetchFault | loadFault | storeFault | accessFlag | dirtyFlag | clampDeadlock | clampTimeout | waitTimeout
  | unitAbsent | interrupt | fastInterrupt | guardAbort | syscall | breakpoint
deriving DecidableEq, Repr

/-- The lower half of the running context (Table 07-2) but for W0 to W15 order: general registers, predicates, PC, loop
registers, stacks, allocation region, exception registers and depth; and the flip marks of W0 to W15 (R154). (DESIGN CHOICE, log 6; DESIGN CHOICE, log 7; DESIGN CHOICE, log 34) -/
structure LowerHalf where
  w : Vector Word 16 := Vector.replicate 16 Word.nil
  marks : BitVec 16 := 0
  pred : BitVec 16 := 1
  pc : BitVec 49 := 0
  stat : BitVec 64 := 0
  lc : BitVec 64 := 0
  ls : BitVec 64 := 0
  le : BitVec 64 := 0
  spU : BitVec 64 := 0
  slimU : BitVec 64 := 0
  spS : BitVec 64 := 0
  slimS : BitVec 64 := 0
  allocp : BitVec 64 := 0
  allocl : BitVec 64 := 0
  epc : BitVec 64 := 0
  estat : BitVec 64 := 0
  cause : BitVec 64 := 0
  faddr : BitVec 64 := 0
  finfo : BitVec 64 := 0
  depth : BitVec 5 := 0
  self : BitVec 48 := 0
deriving DecidableEq, Repr

/-- The upper half in the register file: W16 to W31 as visible, the result registers, and the flip marks of W16 to W31,
PRODLO, PRODHI, QUO and REM (R154, R166, R180). (DESIGN CHOICE, log 6) -/
structure UpperHalf where
  w : Vector Word 16 := Vector.replicate 16 Word.nil
  prodlo : Word := Word.nil
  prodhi : Word := Word.nil
  quo : Word := Word.nil
  rem : Word := Word.nil
  marks : BitVec 20 := 0
deriving DecidableEq, Repr

/-- One word waiting in a core's store buffer (R84), with the card it must mark when it becomes visible (R152). -/
structure StoreEntry where
  pa : BitVec 40
  word : Word
  card : Option (Fin 2 × Nat) := none
  slot : Fin 64 := 0
  region : BitVec 39 := 0
  page : Nat × Nat := (0, 0)
deriving DecidableEq, Repr

/-- A dirty stack word still in the stack buffer (R76). -/
structure StackEntry where
  va : BitVec 48
  word : Word
deriving DecidableEq, Repr

/-- A dirty stack word of a context that was switched out, to be spilled in the background (R76). -/
structure SpillEntry where
  world : Fin 2
  slot : Fin 64
  user : Bool
  va : BitVec 48
  word : Word
deriving DecidableEq, Repr

/-- A combined TLB entry (R230): the page base in the virtual space, its log2 size, the two leaves and their levels. -/
structure TlbEntry where
  world : Fin 2
  base : BitVec 48
  size : Nat
  leaf1 : Option (BitVec 64 × Nat)
  leaf2 : BitVec 64
  level2 : Nat
  pa : BitVec 40
deriving DecidableEq, Repr

/-- A line of the L1 instruction cache: PA[39:3] and its 8 words (Table 10-1). -/
structure L1Line where
  line : BitVec 37
  words : Vector Word 8
deriving DecidableEq, Repr

/-- A stage-1 walk-cache entry (Table 09-9): the table entry met at a level above the last for an address. -/
structure WalkEntry where
  world : Fin 2
  level : Nat
  prefix_ : Nat
  entry : BitVec 64
deriving DecidableEq, Repr

/-- A stage-2 walk-cache entry (Table 09-9): the stage-2 leaf and its level under which an address of a stage-1 table lies. -/
structure Walk2Entry where
  world : Fin 2
  base : Nat
  leaf : BitVec 64
  level : Nat
deriving DecidableEq, Repr

/-- What a blocked context waits for, with its deadline and blocking stamp (R130, R132, R138). (DESIGN CHOICE, log 18) -/
inductive Block where
  | wait (deadline : Option (BitVec 64))
  | clamp (pa : BitVec 40) (deadline : Option (BitVec 64)) (stamp : BitVec 64)
  | recv (deadline : Option (BitVec 64))
deriving DecidableEq, Repr

/-- Slot states (Table 07-3). -/
inductive SlotState where
  | empty | ready | running | waiting | clamped | receiving | parked
deriving DecidableEq, Repr

/-- A Jig slot: the register JIG_Cc_Ss (Table 07-4) and the Jig's own records of the context (R161, R169, R210): whether its
record was lost (R228), where the unscanned part of each of its stacks begins (R155), and clamps granted to code that a handler of
it keeps from running, by depth (R186). (DESIGN CHOICE, log 18) -/
structure Slot where
  handle : BitVec 48 := 0
  prio : BitVec 4 := 0
  state : SlotState := .empty
  world : BitVec 2 := 0
  err : Bool := false
  readySince : Nat := 0
  depth : BitVec 5 := 0
  frames : BitVec 5 := 0
  block : Option Block := none
  blockDepth : BitVec 5 := 0
  timedOut : Bool := false
  granted : Bool := false
  grants : List (BitVec 5 × BitVec 40) := []
  abort : List (BitVec 8) := []
  stackInvalid : List (BitVec 64) := []
  parkDue : Bool := false
  holdRem : BitVec 64 := 0
  lost : Bool := false
  unscanU : Option Nat := none
  unscanS : Option Nat := none
deriving DecidableEq, Repr

/-- A veneer bank of a core with its set of matches: each a base microaddress and the offset in the bank (R261, R268); the level of
the package that they hold. -/
structure VenBank where
  level : BitVec 16 := 0
  words : List (BitVec 168) := []
  patches : List (BitVec 13 × BitVec 9) := []
deriving DecidableEq, Repr

/-- The base microcode image: its release, the key, the bytes that its signature covers, and what it loads (R264). (DESIGN CHOICE,
log 63) -/
structure MicroImage where
  release : BitVec 16 := 0
  key : List (BitVec 8) := []
  body : List (BitVec 8) := []
  sig : List (BitVec 8) := []
  words : List (BitVec 168) := []
  decode : List (BitVec 14) := []
  classes : List (BitVec 4) := []
  pairs : List (BitVec 14) := []
deriving DecidableEq, Repr

/-- The base control store of a core, its dispatch tables and its two veneer banks (R261, R263). -/
structure MicroStore where
  base : List (BitVec 168) := []
  decode : List (BitVec 14) := []
  classes : List (BitVec 4) := []
  pairs : List (BitVec 14) := []
  banks : Vector VenBank 2 := Vector.replicate 2 {}
deriving DecidableEq, Repr

/-- The sequencer of a core: the microaddress and the microstack, its newest entry first (R260). -/
structure Sequencer where
  addr : BitVec 14 := 0
  stack : List (BitVec 14) := []
deriving DecidableEq, Repr

/-- A microcode-side part of a core (chapter 11): level, banks, and the flags of VEN_Cc_STATE. -/
structure CoreVeneer where
  mcver : BitVec 32 := 0
  bank : Bool := false
  pending : Bool := false
  since : BitVec 64 := 0
  abandoned : Bool := false
  forced : Bool := false
deriving DecidableEq, Repr

/-- A core: register files, buffers, Jig part, emergency drawer, translation caches. (DESIGN CHOICE, log 8) -/
structure Core where
  lo : LowerHalf := {}
  hi : UpperHalf := {}
  lathe : Vector Word 34 := Vector.replicate 34 Word.nil
  fastW : Vector Word 8 := Vector.replicate 8 Word.nil
  fastP : BitVec 4 := 0
  fastMarks : BitVec 8 := 0
  bank : Bool := false
  mulFly : Option (Word × Word) := none
  divFly : Option (Word × Word) := none
  running : Bool := false
  slot : Fin 64 := 0
  fresh : Bool := false
  holdCount : Nat := 0
  holdWait : Bool := false
  hx : Vector Bool 2 := Vector.replicate 2 false
  lzSlot : Fin 64 := 0
  lzDepth : BitVec 5 := 0
  lzNone : Bool := true
  llSlot : Fin 64 := 0
  llDepth : BitVec 5 := 0
  llNone : Bool := true
  slots : Vector Slot 64 := Vector.replicate 64 {}
  switches : BitVec 64 := 0
  wdLimit : BitVec 24 := 0
  wdForce : Bool := false
  wdFired : Bool := false
  wdStart : BitVec 64 := 0
  wdSet : BitVec 64 := 0
  wdDone : Bool := false
  drawer : Vector Word 64 := Vector.replicate 64 Word.nil
  drawerFull : Bool := false
  storeBuf : List StoreEntry := []
  stackBufU : List StackEntry := []
  stackBufS : List StackEntry := []
  spills : List SpillEntry := []
  stackMarks : List (BitVec 48) := []
  fetchBuf : List (BitVec 48 × Word) := []
  waits : Bool := false
  awaits : Option (BitVec 36) := none
  lostReads : List (BitVec 36) := []
  l1i : List L1Line := []
  l1d : List (BitVec 37) := []
  itlb : List TlbEntry := []
  dtlb : List TlbEntry := []
  bmap : Vector (List (BitVec 64)) 2 := Vector.replicate 2 []
  reload : Vector Bool 2 := Vector.replicate 2 false
  flipDue : Vector Bool 2 := Vector.replicate 2 false
  flipped : Vector Bool 2 := Vector.replicate 2 false
  ven : CoreVeneer := {}
  store : MicroStore := {}
  seq : Option Sequencer := none
  breaks : List (BitVec 14 × BitVec 2) := []
  dbgCount : Nat := 0
  amid : Bool := false
  halted : Bool := false
  haltAt : BitVec 64 := 0
  stopped : Bool := false
  reordered : Bool := false
deriving DecidableEq, Repr

/-- An event line: JIG_EVn_BIND and JIG_EVn_STAMP (Table 07-4). -/
structure EvLine where
  core : Fin 32 := 0
  slot : Fin 64 := 0
  en : Bool := false
  swr : Bool := false
  latched : Bool := false
  ovf : Bool := false
  world : BitVec 2 := 0
  stamp : BitVec 64 := 0
deriving DecidableEq, Repr

/-- Interrupt routing of a line: JIG_IRQn (Table 08-8A). -/
structure Irq where
  core : Fin 32 := 0
  slot : Fin 64 := 0
  en : Bool := false
  fast : Bool := false
  pend : Bool := false
  world : BitVec 2 := 0
deriving DecidableEq, Repr

/-- The Jig's device-wide part. -/
structure Jig where
  ev : Vector EvLine 256 := Vector.replicate 256 {}
  irq : Vector Irq 256 := Vector.replicate 256 {}
  dropped : BitVec 32 := 0
  order : Nat := 0
deriving DecidableEq, Repr

/-! ## Heap -/

/-- Planer phases (Table 06-4). -/
inductive Phase where
  | idle | flip | copy | drain | sweep | release
deriving DecidableEq, Repr

/-- The heap registers of a world (Table 06-3), its translation registers (Table 09-8) and the Planer's own places. -/
structure Heap where
  kind : Bool := false
  promoteAge : BitVec 4 := 2
  phase : Phase := .idle
  syncBusy : Bool := false
  poolEmpty : Bool := false
  stranded : Bool := false
  lapse : Bool := false
  giveLost : Bool := false
  lobad : Bool := false
  cycles : BitVec 32 := 0
  base : BitVec 32 := 0
  count : BitVec 18 := 0
  bmap : BitVec 40 := 0
  cards : BitVec 40 := 0
  seen : BitVec 40 := 0
  poolAddr : BitVec 40 := 0
  poolSize : BitVec 24 := 0
  poolHead : BitVec 32 := 0
  poolTail : BitVec 32 := 0
  lofree : BitVec 48 := 0
  nchunk : BitVec 5 := 11
  slow : BitVec 64 := 0
  nursery : Option (BitVec 32 × Nat) := none
  survivor : Option (BitVec 32 × Nat) := none
  oldTo : Option (BitVec 32 × Nat) := none
  toSpace : List (BitVec 48 × Nat) := []
  fullCycle : Bool := false
  live : Nat := 0
  workDone : Bool := false
  cycleOrd : Nat := 0
  seenQ : List (BitVec 48) := []
  ctxQ : List (BitVec 48) := []
  ctxDone : List (BitVec 48) := []
  largeCond : List Nat := []
  afaddr : BitVec 48 := 0
  afinfo : BitVec 64 := 0
  phHeld : Bool := false
  afValid : Bool := false
deriving DecidableEq, Repr

/-! ## Caches and ports -/

/-- L2 sector states (Table 10-2). -/
inductive SectorState where
  | invalid | filling | clean | dirty | cleaning
deriving DecidableEq, Repr

/-- A block of an L2: block address PA[39:6], way, age, and its four sectors with the tick of their last store, whether a prefetch
brought them and no demand has used them (R241), and whether a store waits for their fill (R238). -/
structure L2Block where
  blk : BitVec 34
  way : Fin 16
  age : BitVec 2
  sectors : Vector SectorState 4 := Vector.replicate 4 .invalid
  lastStore : Vector Nat 4 := Vector.replicate 4 0
  fresh : Vector Bool 4 := Vector.replicate 4 false
  owed : Vector Bool 4 := Vector.replicate 4 false
deriving DecidableEq, Repr

/-- States of an offcut-buffer entry (R242). -/
inductive OffcutState where
  | clean | dirty | issued
deriving DecidableEq, Repr

/-- A stride tracker of the grain prefetcher (R241). -/
structure Tracker where
  core : Fin 32
  slot : Fin 64
  region : BitVec 39
  last : BitVec 40
  stride : Int := 0
  seen : Nat := 1
deriving DecidableEq, Repr

/-- The memory side of a cluster: L2, offcut buffer, prefetcher, card queue, registers of Table 10-5. (DESIGN CHOICE, log 8) -/
structure Cluster where
  cfg : BitVec 64 := 0x0000018333003204#64
  blocks : List L2Block := []
  lastSweep : BitVec 64 := 0
  offcut : List (BitVec 36 × OffcutState) := []
  trackers : List Tracker := []
  sharedTlb : List TlbEntry := []
  walkCache : List WalkEntry := []
  walk2Cache : List Walk2Entry := []
  cardQueue : List (Fin 2 × Nat) := []
  perrL1 : BitVec 16 := 0
  perrL2 : BitVec 16 := 0
  perrOc : BitVec 16 := 0
  recalls : BitVec 32 := 0
  cancels : BitVec 32 := 0
deriving DecidableEq, Repr

/-- A request waiting at a memory port with the tick of its arrival, or in flight with that of its grant (R254): whether it is a
prefetch, and what a write carries, which for a write-back is what its cluster has changed in the sector up to its issue (R244). -/
structure PortReq where
  requester : Fin 13
  at_ : BitVec 64
  write : Bool
  sector : BitVec 36
  prefetch : Bool := false
  data : List (Nat × Word) := []
deriving DecidableEq, Repr

/-- A memory port: registers of Table 10-8, the arbiter's queue and the transfers granted and not yet complete. (DESIGN CHOICE, log 10) -/
structure Port where
  cap : BitVec 2 := 0
  ranks : Bool := false
  rate : BitVec 3 := 0
  trained : Bool := false
  wdLimit : BitVec 16 := 20
  lastReq : BitVec 4 := 0
  bites : BitVec 16 := 0
  ce : BitVec 32 := 0
  ueLast : BitVec 40 := 0
  ueCount : BitVec 24 := 0
  scrubPeriod : BitVec 16 := 24
  passes : BitVec 32 := 0
  scrubPos : BitVec 40 := 0
  queue : List PortReq := []
  granted : List PortReq := []
  lost : List (Fin 13 × BitVec 36) := []
  dir : List (BitVec 34 × Fin 16) := []
  scrubSince : BitVec 64 := 0
  scrubAt : Option (BitVec 64) := none
deriving DecidableEq, Repr

/-! ## Worlds and the partition -/

/-- World states (Table 16-6). -/
inductive WorldState where
  | empty | loaded | verified | running | stopping | restarting
deriving DecidableEq, Repr

/-- An initial context of an image or a restart record (Table 16-7, Table 16-16A). -/
structure InitCtx where
  va : BitVec 48
  core : Fin 32
  slot : Fin 64
  prio : BitVec 4
deriving DecidableEq, Repr

/-- What Favar keeps of a loaded image (Table 16-7). -/
structure Image where
  format : BitVec 16 := 0
  mcverMin : BitVec 32 := 0
  entry : BitVec 49 := 0
  key : List (BitVec 8) := []
  body : List (BitVec 8) := []
  sig : List (BitVec 8) := []
  ctxs : List InitCtx := []
deriving DecidableEq, Repr

/-- A checkpoint slot (R376): the ranges' words by intermediate address, the record's place, and the INST of the copy. (DEDUCED, log 96) -/
structure Checkpoint where
  inst : BitVec 64
  record : BitVec 40
  words : List (BitVec 40 × Word)
  crcOk : Bool := true
deriving DecidableEq, Repr

/-- A receive queue of a world (Table 17-5, R400): register fields and entries (stamp, origin, word). -/
structure RecvQueue where
  core : Fin 32 := 0
  slot : Fin 64 := 0
  en : Bool := false
  line : BitVec 8 := 0
  lev : Bool := false
  dropped : BitVec 16 := 0
  entries : List (BitVec 64 × Word) := []
deriving DecidableEq, Repr

/-- A bulk transfer job (R401): what GO took, whether the engine has sent it, and its error once the job can end. -/
structure DmaJob where
  src : Word
  dev : BitVec 12
  ring : Fin 8
  sent : Bool := false
  ended : Bool := false
  error : BitVec 4 := 0
  sentAt : BitVec 64 := 0
deriving DecidableEq, Repr

/-- A landing ring (Table 17-5, R402). -/
structure LandRing where
  base : BitVec 40 := 0
  size : BitVec 24 := 0
  wr : BitVec 24 := 0
  seq : BitVec 32 := 0
  rd : BitVec 24 := 0
  rdEn : Bool := false
  en : Bool := false
  line : BitVec 8 := 0
  lev : Bool := false
  refused : BitVec 16 := 0
deriving DecidableEq, Repr

/-- The internal mailbox of a world (Table 16-18). -/
structure Mailbox where
  req : Vector Word 16 := Vector.replicate 16 Word.nil
  cmd : BitVec 16 := 0
  nwords : BitVec 5 := 0
  busy : Bool := false
  seq : BitVec 32 := 0
  deadline : Word := Word.nil
  rep : Vector Word 16 := Vector.replicate 16 Word.nil
  repStatus : BitVec 8 := 0
  repWords : BitVec 5 := 0
  done : Bool := false
  late : Bool := false
  repSeq : BitVec 32 := 0
  rept : BitVec 64 := 0
  inbox : List (List Word) := []
  goSeq : BitVec 32 := 0
  goDeadline : Word := Word.nil
  result : Option (BitVec 8 × List Word) := none
deriving DecidableEq, Repr

/-- What belongs to a world: registers that never travel with a context (R166), partition (Table 08-2), heap, Kamion
and mailbox parts, image, checkpoint. (DESIGN CHOICE, log 7) -/
structure World where
  state : WorldState := .empty
  entry : BitVec 64 := 0
  s1root : BitVec 64 := 0
  s2root : BitVec 64 := 0
  ctxcfg : BitVec 64 := 0
  holdmax : BitVec 64 := 0
  dramBase : BitVec 40 := 0
  dramSize : BitVec 40 := 0
  loadGrant : BitVec 16 := 0
  storeGrant : BitVec 16 := 0
  unitFirst : Vector (BitVec 8) 16 := Vector.replicate 16 0
  unitLast : Vector (BitVec 8) 16 := Vector.replicate 16 0
  ssRead : Bool := false
  heap : Heap := {}
  image : Image := {}
  ckpt : Option Checkpoint := none
  stage2Faults : BitVec 32 := 0
  rq : Vector RecvQueue 16 := Vector.replicate 16 {}
  dmaSrc : Word := Word.nil
  dmaDev : BitVec 12 := 0
  dmaRing : BitVec 3 := 0
  dmaRefused : Bool := false
  dmaLine : BitVec 8 := 0
  dmaLev : Bool := false
  dmaJobs : List DmaJob := []
  dmaDone : BitVec 32 := 0
  dmaLastErr : BitVec 4 := 0
  lr : Vector LandRing 8 := Vector.replicate 8 {}
  mbx : Mailbox := {}
deriving DecidableEq, Repr

/-- Core assignment of the partition record, word 0 (Table 16-12). -/
inductive CoreUse where
  | unused | test | guard | shared
deriving DecidableEq, Repr

/-! ## Safety controls -/

/-- The SAFE block (Table 08-12), with the filtered ABORT_IN inputs and what holds the pins apart from registers. -/
structure Safe where
  mute : Bool := true
  abortOut : Bool := false
  driveEn : Bool := false
  level : BitVec 8 := 0
  safeval : BitVec 8 := 0
  fs : Bool := false
  reason : BitVec 4 := 0
  gsvcMiss : Bool := false
  ainA : Bool := false
  ainB : Bool := false
  gsvcCore : Fin 32 := 0
  gsvcSlot : Fin 64 := 0
  gsvcEn : Bool := false
  aborts : BitVec 32 := 0
  firstAbort : Option (Bool × BitVec 64) := none
deriving DecidableEq, Repr

/-! ## Veneers -/

/-- The staged package of VEN_STAGE and the counters of Table 11-7; Favar's copies of the base image and of the active package (R264);
and the package with a commit record in flash (R275). -/
structure Veneer where
  level : BitVec 16 := 0
  staged : Bool := false
  armed : Bool := false
  package : List (BitVec 8) := []
  active : List (BitVec 8) := []
  image : MicroImage := {}
  recorded : List (BitVec 8) := []
  seamLimit : BitVec 16 := 100
  force : Bool := false
  csRecov : BitVec 16 := 0
  csFavar : BitVec 16 := 0
  ignored : BitVec 16 := 0
  committed : BitVec 16 := 0
  base : BitVec 16 := 0
  rollout : Bool := false
deriving DecidableEq, Repr

/-! ## Imtur and cut lists -/

/-- Imtur states (Table 12-1). -/
inductive ImtState where
  | free | acquire | locked | holdover | slewing
deriving DecidableEq, Repr

/-- A Kamion delay measurement of a port (IMT_KMp_DELAY). -/
structure KmDelay where
  delay : BitVec 32 := 0
  at_ : BitVec 64 := 0
  valid : Bool := false
deriving DecidableEq, Repr

/-- The beacon received last on a port (R283). -/
structure PortBeacon where
  master : BitVec 12 := 0
  mprio : BitVec 4 := 0
  hops : BitVec 5 := 0
  at_ : BitVec 64 := 0
  valid : Bool := false
deriving DecidableEq, Repr

/-- Imtur: the count and the registers of Table 12-1, and the servo's own record (R281, R282). -/
structure Imtur where
  started : Bool := false
  count : BitVec 64 := 0
  src : BitVec 64 := 0
  trim : Int := 0
  state : ImtState := .free
  stepped : Bool := false
  voteFix : Bool := false
  err : BitVec 16 := 0xFFFF
  holdAt : BitVec 64 := 0
  errAtHold : BitVec 16 := 0xFFFF
  holdFu : Nat := 0
  offset : BitVec 48 := 0
  cfg : BitVec 64 := 0x0000006403E80032#64
  pps : BitVec 64 := 0x0000000000020064#64
  refsec : BitVec 64 := 0
  fixes : BitVec 32 := 0
  last : BitVec 2 := 0
  kmDelay : Vector KmDelay 8 := Vector.replicate 8 {}
  kmAsym : Vector (BitVec 32) 8 := Vector.replicate 8 0
  bcMaster : BitVec 12 := 0
  bcPrio : BitVec 4 := 0
  bcHops : BitVec 5 := 0
  bcUport : BitVec 3 := 0
  bcValid : Bool := false
  bcAt : BitVec 64 := 0
  seenBc : Vector PortBeacon 8 := Vector.replicate 8 {}
  bcLast : BitVec 64 := 0
  lockedEver : Bool := false
  trimLog : List (BitVec 64 × Int) := []
  lockTrim : Int := 0
  refAt : BitVec 64 := 0
  annAt : BitVec 64 := 0
  offsets : List Nat := []
  good : Nat := 0
  ppsOut : Bool := false
  ppsEnd : BitVec 64 := 0
  isMaster : Bool := false
  ptp : BitVec 64 := 0
  ptpMaster : BitVec 64 := 0
  ptpKey : Option Nat := none
deriving DecidableEq, Repr

/-- An action of a list's old copy that was deferred when the list was activated anew (R293): its index, action word, tick,
own instant, payload of a KTRIG, and whether its first word was unusable. -/
structure DeferredAct where
  entry : Nat
  action : Word
  due : Nat
  inst : Nat
  payload : Option (Word × Word)
  bad : Bool
deriving DecidableEq, Repr

/-- A cut list: registers of Table 12-7 and how far it has run: the boundary of its activation, the first tick at which its
next entry may run, the frame it runs in cyclic mode, and the actions still deferred from its old copy. -/
structure CutList where
  base : BitVec 14 := 0
  cap : BitVec 15 := 0
  world : BitVec 2 := 0
  scfg : BitVec 64 := 0x0000000000010000#64
  acfg : BitVec 64 := 0
  pending : Bool := false
  pendAt : BitVec 64 := 0
  next : BitVec 15 := 0
  done : Bool := false
  cutLate : Bool := false
  errs : BitVec 16 := 0
  stale : BitVec 16 := 0
  lateness : BitVec 32 := 0
  lateEntry : BitVec 15 := 0
  errCode : BitVec 3 := 0
  errEntry : BitVec 15 := 0
  started : Bool := false
  actAt : BitVec 64 := 0
  lastDue : Nat := 0
  lastRun : Nat := 0
  frame : Nat := 0
  deferred : List DeferredAct := []
deriving DecidableEq, Repr

/-- A trigger waiting in the trigger queue (R292), with the tick at which it is due. -/
structure Trig where
  world : Fin 2
  action : Word
  target : BitVec 64
  due : Nat
deriving DecidableEq, Repr

/-- The trigger queue register CL_TRIGQ and its entries; the count of actions run in the present tick (R290). -/
structure TrigQ where
  queue : List Trig := []
  cutLate : Bool := false
  acceptT : Bool := false
  acceptG : Bool := false
  lateness : BitVec 22 := 0
  dropped : BitVec 16 := 0
  lastErr : BitVec 3 := 0
  ranAt : BitVec 64 := 0
  ran : Nat := 0
  stepFrom : BitVec 64 := 0
  stepAt : BitVec 64 := 0
deriving DecidableEq, Repr

/-! ## Sensor and drive lanes -/

/-- One channel of a sensor lane: DELAY, DIM and SCALE (Table 13-3). -/
structure Chan where
  delay : BitVec 32 := 0
  dim : BitVec 64 := 0
  scale : BitVec 64 := 0x3FF0000000000000#64
deriving DecidableEq, Repr

/-- One frame of an open block period: its stamp unless it was inserted for a gap, whether its samples are marked
(R309), its codes, and what LSTAT keeps of it. -/
structure OpenFrame where
  stamp : Option (BitVec 64)
  marked : Bool
  codes : List (BitVec 32)
  crcBad : Bool := false
  ovld : Bool := false
deriving DecidableEq, Repr

/-- A TEDS image of a channel (R313). -/
structure Teds where
  bytes : Vector (BitVec 8) 128 := Vector.replicate 128 0
  got : BitVec 128 := 0
  complete : Bool := false
  changed : Bool := false
deriving DecidableEq, Repr

/-- A sensor lane (Table 13-3) with its active configuration and the open block period. -/
structure SensorLane where
  cfg : BitVec 64 := 0x0000001000026080#64
  ivl : BitVec 64 := 0
  acfg : BitVec 64 := 0
  aivl : BitVec 64 := 0
  chans : Vector Chan 16 := Vector.replicate 16 {}
  achans : Vector Chan 16 := Vector.replicate 16 {}
  ringBase : BitVec 40 := 0
  ringSize : BitVec 24 := 0
  wr : BitVec 24 := 0
  seq : BitVec 32 := 0
  rd : BitVec 24 := 0
  rdEn : Bool := false
  run : Bool := false
  link : Bool := false
  ovr : Bool := false
  crc : Bool := false
  gap : Bool := false
  resync : Bool := false
  rate : Bool := false
  cfgstop : Bool := false
  cfgerr : Bool := false
  cpend : Bool := false
  cpendAt : BitVec 64 := 0
  badfr : BitVec 32 := 0
  overruns : BitVec 16 := 0
  resyncs : BitVec 16 := 0
  teds : Vector Teds 16 := Vector.replicate 16 {}
  opened : List OpenFrame := []
  gridStart : BitVec 64 := 0
  gridIndex : Nat := 0
  lastCnt : Option (BitVec 32) := none
deriving DecidableEq, Repr

/-- Drive-lane states (Table 13-6). -/
inductive DriveState where
  | idle | run | ramp | stopped
deriving DecidableEq, Repr

/-- A drive block as the lane took it: first sample address, COUNT, LOOP and SCALE. -/
structure DriveBlock where
  samples : BitVec 40
  count : Nat
  loop_ : Bool
  scale : BitVec 64
  ahead : List Word := []
deriving DecidableEq, Repr

/-- A drive lane (Table 13-5) with its active configuration, blocks and output. -/
structure DriveLane where
  cfg : BitVec 64 := 0x001E848000000012#64
  ivl : BitVec 64 := 0
  dim : BitVec 64 := 0
  gain : BitVec 64 := 0
  acfg : BitVec 64 := 0
  aivl : BitVec 64 := 0
  adim : BitVec 64 := 0
  again : BitVec 64 := 0
  ringBase : BitVec 40 := 0
  ringSize : BitVec 24 := 0
  offset : BitVec 24 := 0
  loop_ : Bool := false
  pend : Bool := false
  checking : Bool := false
  shadow : Option DriveBlock := none
  current : Option DriveBlock := none
  lmute : Bool := false
  state : DriveState := .idle
  armed : Bool := false
  underrun : Bool := false
  badblk : Bool := false
  poison : Bool := false
  ignored : Bool := false
  cfgerr : Bool := false
  nan : Bool := false
  pos : BitVec 32 := 0
  lastCommit : BitVec 64 := 0
  clips : BitVec 32 := 0
  underruns : BitVec 16 := 0
  ignores : BitVec 16 := 0
  cpend : Bool := false
  cpendAt : BitVec 64 := 0
  lastCode : Int := 0
  nextK : Nat := 0
  rampFrom : Int := 0
  rampAt : BitVec 64 := 0
  rampK : Nat := 0
  lowDone : Bool := false
  storedAt : Option (BitVec 64) := none
  oldPend : Bool := false
  oldShadow : Option DriveBlock := none
deriving DecidableEq, Repr

/-! ## Lathes and Marquetry -/

/-- Where a job of a piece of code came from (R328): core, slot, depth. -/
structure CodeId where
  core : Fin 32
  slot : Fin 64
  depth : BitVec 5
deriving DecidableEq, Repr

/-- What a lathe job leaves when it ends: the code of Table 14-6, the runs of field words, the runs of sample words, the
LSTAT of each result, and FADDR and FINFO of a fault. -/
structure LatheResult where
  code : BitVec 8
  heads : List (BitVec 48 × List Word) := []
  samples : List (BitVec 48 × List Word) := []
  lstats : List (BitVec 48 × BitVec 64) := []
  fault : Option (BitVec 48 × BitVec 64) := none
deriving DecidableEq, Repr

/-- An accepted lathe job (R327, R330): the descriptor as read at acceptance, the scalar operand as a binary64 value with
its wide dimension, the tick at which the job came to the head of its queue, and its result once computed. -/
structure LatheJob where
  serial : BitVec 32
  world : Fin 2
  user : Bool
  owner : CodeId
  func : BitVec 64
  descOk : Bool
  srcs : List (BitVec 48)
  outs : List (BitVec 48)
  accs : List (BitVec 48)
  state : Option (BitVec 48)
  p1 : Word
  p2 : Word
  p3 : Word
  scalar : Option (BitVec 64 × BitVec 64) := none
  scalarFirst : Bool := false
  doneLine : Option (BitVec 8)
  errLine : Option (BitVec 8)
  accEmpty : List Bool := []
  startedAt : BitVec 64 := 0
  result : Option LatheResult := none
deriving DecidableEq, Repr

/-- A lathe (Table 14-7) and its queue. -/
structure Lathe where
  queue : List LatheJob := []
  serial : BitVec 32 := 0
  srcwaitLimit : BitVec 24 := 100000
  jobs : BitVec 64 := 0
  errs : BitVec 16 := 0
  lastErr : BitVec 64 := 0
  lastFaddr : BitVec 48 := 0
  lastFinfo : BitVec 64 := 0
  perr : BitVec 32 := 0
deriving DecidableEq, Repr

/-- A retention window (Table 14-9, R342). -/
structure RetWindow where
  lanes : BitVec 32 := 0
  line : BitVec 8 := 0
  en : Bool := false
  isOpen : Bool := false
  pre : BitVec 48 := 0
  post : BitVec 48 := 0
  last : BitVec 64 := 0
  until_ : BitVec 64 := 0
  from_ : BitVec 64 := 0
deriving DecidableEq, Repr

/-- A segment held in the retention ring: offset, lane, START, END, words, and whether a window has copied it. -/
structure RetSeg where
  off : Nat
  lane : Fin 32
  start : BitVec 64
  stop : BitVec 64
  words : List Word
  copied : Bool := false
deriving DecidableEq, Repr

/-- Marquetry (Table 14-9), the segments in its rings, and the retained segments overwritten before a window took them. -/
structure Marquetry where
  en : Bool := false
  full : Bool := false
  logBase : BitVec 40 := 0
  logSize : BitVec 40 := 0
  logWr : BitVec 40 := 0
  logRd : BitVec 40 := 0
  seq : BitVec 64 := 0
  retBase : BitVec 40 := 0
  retSize : BitVec 40 := 0
  retWr : Nat := 0
  dropped : BitVec 16 := 0
  trunc : BitVec 16 := 0
  samplesIn : BitVec 64 := 0
  wordsOut : BitVec 64 := 0
  chsel : Vector (BitVec 64) 8 := Vector.replicate 8 0
  chret : Vector (BitVec 64) 8 := Vector.replicate 8 0
  ret : Vector RetWindow 4 := Vector.replicate 4 {}
  pos : Vector (BitVec 40) 32 := Vector.replicate 32 0
  gap : Vector Bool 32 := Vector.replicate 32 false
  segs : List (BitVec 64 × Nat × Nat) := []
  retSegs : List RetSeg := []
  gone : List (Fin 32 × BitVec 64 × BitVec 64) := []
deriving DecidableEq, Repr

/-! ## Gauges -/

/-- A capture entry: count, stamp, OVF (R353). -/
structure Capture where
  count : BitVec 64
  stamp : BitVec 64
  ovf : Bool := false
deriving DecidableEq, Repr

/-- A gauge (Table 15-1) with its accumulator, capture queue, the captures of the present Imtur tick (R354), output and the
stores of the present counter tick. -/
structure Gauge where
  cfg : BitVec 64 := 0
  pre : BitVec 64 := 0x0000000000010000#64
  en : Bool := false
  cnt : BitVec 32 := 0
  reload : BitVec 32 := 0
  cmp : BitVec 32 := 0
  ivl : BitVec 32 := 0
  zf : Bool := false
  cf : Bool := false
  capovf : Bool := false
  lastovf : Bool := false
  cfgerr : Bool := false
  lost : BitVec 16 := 0
  capt : BitVec 64 := 0
  snap : BitVec 32 := 0
  acc : Nat := 0
  due : Nat := 0
  queue : List Capture := []
  late : List Capture := []
  lateAt : BitVec 64 := 0
  out : Bool := false
  cntStored : Option (BitVec 32) := none
  cmpStored : Bool := false
deriving DecidableEq, Repr

/-! ## Favar -/

/-- A mailbox slot of BAR0 (Table 16-4). -/
structure MbSlot where
  cmd : BitVec 16 := 0
  own : Bool := false
  done : Bool := false
  irq : Bool := false
  seq : BitVec 32 := 0
  len : BitVec 32 := 0
  status : BitVec 32 := 0
  payload : List (BitVec 64) := []
  taken : Bool := false
deriving DecidableEq, Repr

/-- The origin of a request that Favar serves: a mailbox slot or a world (R364, R382). -/
inductive ReqFrom where
  | slot (s : Fin 16)
  | world (w : Fin 2)
deriving DecidableEq, Repr

/-- A request in Favar's order (R364); `bad` marks a length that no payload has. -/
structure FvReq where
  from_ : ReqFrom
  cmd : BitVec 16
  seq : BitVec 32
  payload : List (BitVec 64)
  irq : Bool := false
  bad : Bool := false
deriving DecidableEq, Repr

/-- The classes of R364 within which only one command may be outstanding. -/
inductive CmdClass where
  | world (w : Fin 2)
  | partition
  | lanes
  | log
  | veneer
  | firmware
  | checkpoint (w : Fin 2)
deriving DecidableEq, Repr

/-- What a command that returned BUSY still has to do. -/
inductive BusyWork where
  | partition (record : List (BitVec 64))
  | imageLoad (w : Fin 2) (bytes : List (BitVec 8))
  | imageVerify (w : Fin 2)
  | worldStop (w : Fin 2)
  | logClose (limit : BitVec 32) (since : BitVec 64)
  | veneerStage (package : List (BitVec 8))
  | veneerApply
  | fwStage (bytes : List (BitVec 8))
  /-- The ranges' words as they stood at acceptance, by intermediate address. -/
  | checkpoint (w : Fin 2) (at_ : BitVec 64) (record : BitVec 40) (early : List (BitVec 40 × Word)) (valid : Bool)
deriving DecidableEq, Repr

/-- A command outstanding after BUSY. -/
structure BusyOp where
  from_ : ReqFrom
  cmd : BitVec 16
  seq : BitVec 32
  cls : CmdClass
  work : BusyWork
deriving DecidableEq, Repr

/-- An entry of the event ring (Table 16-13). -/
structure EvEntry where
  cls : BitVec 16
  code : BitVec 16
  seq : BitVec 32
  stamp : BitVec 64
  status : BitVec 32
  slot : BitVec 8
  data : List (BitVec 64)
deriving DecidableEq, Repr

/-- A crash record's words (Table 16-16). -/
structure CrashRec where
  kind : BitVec 8
  words : List (BitVec 64)
deriving DecidableEq, Repr

/-- A firmware image in a flash slot, by the fields of its header that behaviour depends on (R430). (DESIGN CHOICE, log 9) -/
structure FwImage where
  version : BitVec 32 := 0
  svn : BitVec 8 := 0
  raise : Bool := false
  valid : Bool := false
deriving DecidableEq, Repr

/-- A datagram kept until it is released (R374, R375): DSEQ, SEGSEQ, WOFF, first, last, datums. -/
structure Datagram where
  dseq : BitVec 64
  segseq : BitVec 64
  woff : Nat
  first : Bool
  last : Bool
  words : List (BitVec 64)
deriving DecidableEq, Repr

/-- An open log stream (Table 16-14, R373 to R375): what LOG_OPEN chose, the next segment to carry, the host ring with the
segments written there, the datagrams of Ethernet, and the timers. -/
structure LogStream where
  transport : BitVec 2 := 0
  acked : Bool := false
  hostRing : BitVec 64 := 0
  hostSize : BitVec 64 := 0
  hostOff : Nat := 0
  hostSegs : List (BitVec 64 × Nat × Nat) := []
  next : BitVec 64 := 0
  woff : Nat := 0
  dseq : BitVec 64 := 0
  held : List Datagram := []
  lastAcked : Option (BitVec 64) := none
  ackTimeout : BitVec 16 := 1000
  ackFrom : BitVec 64 := 0
  dataFrom : BitVec 64 := 0
  mtu9000 : Bool := false
  written : BitVec 64 := 0
  dataDue : Bool := false
  dataAt : Option (BitVec 64) := none
deriving DecidableEq, Repr

/-- Favar: BAR0 registers (Table 16-3), slots, event ring, requests, flash, OTP, crash records, log stream. (DESIGN CHOICE, log 9; DESIGN CHOICE, log 11) -/
structure Favar where
  ready : Bool := false
  swap : Bool := false
  restart : Bool := false
  minor : BitVec 8 := 0
  major : BitVec 8 := 0
  fwver : BitVec 32 := 0
  slots : Vector MbSlot 16 := Vector.replicate 16 {}
  ignored : BitVec 32 := 0
  head : BitVec 11 := 0
  tail : BitVec 11 := 0
  lost : BitVec 32 := 0
  overflowDue : Bool := false
  overflowCount : BitVec 32 := 0
  ring : List (Nat × EvEntry) := []
  logack : BitVec 64 := 0
  winBase : Vector (BitVec 40) 8 := Vector.replicate 8 0
  winSrc : Vector (BitVec 8) 8 := Vector.replicate 8 0
  msixMask : BitVec 32 := 0xFFFFFFFF
  msixTable : Vector (BitVec 96) 32 := Vector.replicate 32 0
  msixPend : BitVec 32 := 0
  queue : List FvReq := []
  busy : List BusyOp := []
  subs : BitVec 16 := 0
  evNo : BitVec 32 := 0
  coalesce : List (Nat × Nat × Nat × BitVec 64) := []
  latched : List EvEntry := []
  partitioned : Bool := false
  use : Vector CoreUse 32 := Vector.replicate 32 .unused
  crash : List CrashRec := []
  crashFlash : List CrashRec := []
  fwA : FwImage := {}
  fwB : FwImage := {}
  activeB : Bool := false
  preferB : Bool := false
  stagedFw : Bool := false
  fwGood : BitVec 2 := 0
  svnFloor : Nat := 0
  readySince : BitVec 64 := 0
  telaustHash : BitVec 384 := 0
  customerHash : BitVec 384 := 0
  customerSet : Bool := false
  debugOtp : BitVec 2 := 0
  vcoreSet : BitVec 8 := 0
  restarts : BitVec 32 := 0
  fatals : BitVec 32 := 0
  restartReason : BitVec 4 := 0
  restartDue : Bool := false
  restartEnd : Option (BitVec 64) := none
  noRestore : Bool := false
  prior : Vector WorldState 2 := Vector.replicate 2 .empty
  fatalAt : BitVec 64 := 0
  fatalDetail : BitVec 64 := 0
  fatalCluster : Fin 8 := 0
  stage : Option (BitVec 64) := none
  swapAt : BitVec 64 := 0
  swapNew : Bool := false
  mcKey : List (BitVec 8) := []
  mcA : MicroImage := {}
  mcB : MicroImage := {}
  serial : BitVec 128 := 0
  mac : Vector (BitVec 48) 2 := Vector.replicate 2 0
  pcieUp : Bool := false
  ethUp : Vector Bool 2 := Vector.replicate 2 false
  ethPaused : Vector (BitVec 64) 2 := Vector.replicate 2 0
  stream : Option LogStream := none
  restricted : Bool := false
  restartAt : BitVec 64 := 0
deriving DecidableEq, Repr

/-! ## Kamion -/

/-- A Kamion port (Table 17-5). (DESIGN CHOICE, log 110) -/
structure KmPort where
  en : Bool := true
  gen2 : Bool := false
  proto2 : Bool := true
  trained : Bool := false
  runGen2 : Bool := false
  runProto2 : Bool := false
  nbrId : BitVec 12 := 0
  nbrPort : BitVec 3 := 0
  down : Bool := false
  retries : BitVec 16 := 0
  poisoned : BitVec 16 := 0
  downs : BitVec 16 := 0
  retryBuf : List Packet := []
deriving DecidableEq, Repr

/-- An override entry KM_OVRk. -/
structure KmOvr where
  dest : BitVec 12 := 0
  port : BitVec 3 := 0
  valid : Bool := false
deriving DecidableEq, Repr

/-- The KM block's device-wide part: the registers of Table 17-5, the routing in effect (R392), and what the device keeps of
votes, broadcast triggers and link-state notices. -/
structure Kamion where
  ports : Vector KmPort 8 := Vector.replicate 8 {}
  id : BitVec 12 := 0
  confirmed : Bool := false
  routed : Bool := false
  shape : BitVec 64 := 0x000000FFFFFF0000#64
  accept : Bool := true
  aout : Bool := false
  abOrigin : BitVec 12 := 0
  abSeq : BitVec 16 := 0
  abStamp : BitVec 64 := 0
  noroute : BitVec 16 := 0
  unconf : BitVec 16 := 0
  aborts : BitVec 16 := 0
  ovr : Vector KmOvr 64 := Vector.replicate 64 {}
  mySeq : BitVec 16 := 0
  trigSeq : BitVec 16 := 0
  votes : List (BitVec 12 × BitVec 16 × BitVec 64) := []
  floods : List (BitVec 12 × BitVec 16 × BitVec 64) := []
  links : List (BitVec 12 × Fin 8 × Bool) := []
  ashape : BitVec 64 := 0x000000FFFFFF0000#64
  aovr : Vector KmOvr 64 := Vector.replicate 64 {}
  routeAt : Option (BitVec 64) := none
  tableIn : Bool := false
  retrain : BitVec 8 := 0
deriving DecidableEq, Repr

/-! ## Power, pins and hinge pins -/

/-- STATE of a power domain (Table 18-3). -/
inductive DomState where
  | off | ramp | on | loading
deriving DecidableEq, Repr

/-- A switched domain PWR_Dd. -/
structure Dom where
  onReq : Bool := true
  state : DomState := .on
  err : Bool := false
deriving DecidableEq, Repr

/-- The power controller (Table 18-3, R452), supplies and reset pins. (DESIGN CHOICE, log 10) -/
structure Power where
  dom : Vector Dom 141 := Vector.replicate 141 {}
  rampQ : List (Fin 141) := []
  sleepWr : BitVec 32 := 0
  last : BitVec 3 := 0
  wdLimit : BitVec 16 := 2000
  wdFired : Bool := false
  vmon : Vector (BitVec 16) 12 := Vector.replicate 12 0
  warn : BitVec 16 := 1000
  warned : Bool := false
  tjmax : BitVec 16 := 0x8000
  supplied : Bool := true
  porLow : Bool := true
  brown : Bool := false
deriving DecidableEq, Repr

/-- Which leaf drives or last drove a pin. -/
inductive Driver where
  | none_ | a | b
deriving DecidableEq, Repr

/-- A hinge pin (Table 19-4) and the internal state of its leaves (R434, R438). -/
structure Hinge where
  cfg : BitVec 64 := 0
  slots : BitVec 64 := 0
  acfg : BitVec 64 := 0
  aslots : BitVec 64 := 0
  out : Bool := false
  inp : Bool := false
  edgef : Bool := false
  fsen : Bool := false
  fslvl : Bool := false
  ball : Bool := false
  trig : Bool := false
  pulseEnd : Option (BitVec 64) := none
  pulseBack : Bool := false
  slotNow : Fin 16 := 0
  lastDriver : Driver := .none_
  driven : Option Bool := none
  breakEnd : BitVec 64 := 0
deriving DecidableEq, Repr

/-- One-wire operations (R441). -/
inductive OwOp where
  | none_ | reset | write | read
deriving DecidableEq, Repr

/-- A hinge bank: phase map, commit, UART and one-wire master (Table 19-4). -/
structure HBank where
  map : BitVec 16 := 0
  amap : BitVec 16 := 0
  cpend : Bool := false
  cpendAt : BitVec 64 := 0
  cfgerr : Bool := false
  v33 : Bool := false
  dead : Bool := false
  ucfg : BitVec 64 := 0x0000000000001000#64
  tx : List (BitVec 8) := []
  rx : List (BitVec 8 × Bool × Bool) := []
  ovr : Bool := false
  owData : BitVec 8 := 0
  owOp : OwOp := .none_
  owPresent : Bool := false
  owLine : BitVec 8 := 0
  owLev : Bool := false
  owAt : BitVec 64 := 0
  phaseOut : Bool := false
  rxLate : List (BitVec 8 × Bool × Bool) := []
  rxLateAt : BitVec 64 := 0
deriving DecidableEq, Repr

/-- What the block sends over its interfaces: the model's own record, newest first. (DESIGN CHOICE, log 20) -/
inductive Emission where
  | beacon (p : Fin 8) (master : BitVec 12) (mprio : BitVec 4) (hops : BitVec 5) (state : BitVec 3) (stamp : BitVec 64)
  | vote (p : Fin 8) (origin : BitVec 12) (seq : BitVec 16)
  | notice (p : Fin 8) (dev : BitVec 12) (port : Fin 8) (up : Bool)
  | packet (p : Fin 8) (vc : Fin 4) (pkt : Packet)
  | landed (w : Fin 2) (ring : Fin 8) (taken : Bool)
  | driveCode (n : Fin 16) (pos : BitVec 32) (code : Int)
  | muteChar (n : Fin 16)
  | hostWrite (addr : BitVec 64) (words : List (BitVec 64))
  | datagram (kind : BitVec 8) (d : Datagram) (resent : Bool)
  | gone (dseq : BitVec 64)
  | keepalive (dseq : BitVec 64)
  | msix (v : Fin 32)
  | uart (bank : Fin 4) (byte : BitVec 8)
  | oneWire (bank : Fin 4) (op : OwOp) (data : BitVec 8)
  | arpReply (port : Fin 2)
  | echoReply (port : Fin 2)
  | ptpReply (port : Fin 2) (m : PtpMsg)
  | ptpSend (port : Fin 2) (k : PtpKind)
  | spiStart (n : Fin 32)
deriving DecidableEq, Repr

/-- The whole block. (DESIGN CHOICE, log 120) -/
structure State where
  pending : List Instr := []
  variantL : Bool := false
  absentWrites : BitVec 32 := 0
  mem : List (Nat × Word) := []
  stale : List (Nat × Word) := []
  unmapped : BitVec 32 := 0
  twPerr : BitVec 32 := 0
  cores : Vector Core 32 := Vector.replicate 32 {}
  jig : Jig := {}
  clusters : Vector Cluster 8 := Vector.replicate 8 {}
  ports : Vector Port 4 := Vector.replicate 4 {}
  worlds : Vector World 2 := Vector.replicate 2 {}
  safe : Safe := {}
  ven : Veneer := {}
  imt : Imtur := {}
  cuts : Vector CutList 16 := Vector.replicate 16 {}
  cutActive : List (Nat × Word) := []
  cutFixed : BitVec 32 := 0
  trigq : TrigQ := {}
  sl : Vector SensorLane 32 := Vector.replicate 32 {}
  dl : Vector DriveLane 16 := Vector.replicate 16 {}
  lathes : Vector Lathe 8 := Vector.replicate 8 {}
  mq : Marquetry := {}
  gauges : Vector Gauge 32 := Vector.replicate 32 {}
  gtSnapT : BitVec 64 := 0
  fv : Favar := {}
  km : Kamion := {}
  pwr : Power := {}
  hng : Vector Hinge 64 := Vector.replicate 64 {}
  banks : Vector HBank 4 := Vector.replicate 4 {}
  straps : BitVec 16 := 0
  allocLog : List (Nat × Nat) := []
  out : List Emission := []
  drawn : Nat := 0
deriving DecidableEq, Repr

/-- The device held in cold reset, POR_N low (R418, R433): every register at its reset value, memory with nothing
listed, no command waiting. -/
def State.reset : State := {}

end Sys2Proof.Machine
end

