-- ==== Sys2Proof/Machine/Tags.lean ====
section
/-! DEFINITION. Tag classes, malformed words, the checks of R30 on one word, and the object kinds of Table 06-1. -/

namespace Sys2Proof.Machine

open Sys2Proof

/-- The tag classes of Table 11-5. -/
inductive Cls where
  | fix | big | rat | flt | qty | wqty | inst | span | sblk | imm | ptr | mach | pending | poison | uninit | reserved
deriving DecidableEq, Repr

/-- The class of a tag code (Table 02-2, Table 11-5). -/
def clsOf (t : BitVec 8) : Cls :=
  match t.toNat with
  | 0x00 => .fix
  | 0x01 => .imm
  | 0x02 => .flt
  | 0x03 => .qty
  | 0x04 => .inst
  | 0x05 => .span
  | 0x06 => .imm
  | 0x07 => .imm
  | 0x08 => .imm
  | 0x09 => .imm
  | 0x0A => .mach
  | 0x0B => .mach
  | 0x0C => .mach
  | 0x0D => .mach
  | 0x0E => .mach
  | 0x40 => .ptr
  | 0x41 => .ptr
  | 0x42 => .ptr
  | 0x43 => .big
  | 0x44 => .rat
  | 0x45 => .wqty
  | 0x46 => .sblk
  | 0x47 => .ptr
  | 0x48 => .ptr
  | 0x49 => .ptr
  | 0x4A => .ptr
  | 0x4B => .ptr
  | 0x4C => .ptr
  | 0x80 => .mach
  | 0x81 => .mach
  | 0x82 => .mach
  | 0xFD => .pending
  | 0xFE => .poison
  | 0xFF => .uninit
  | _ => .reserved

/-- Whether a tag is a defined pointer tag (Table 02-10). -/
def isPtrTag (t : BitVec 8) : Bool := decide (0x40 ≤ t.toNat) && decide (t.toNat ≤ 0x4C)

/-- Whether a tag is a defined immediate tag. -/
def isImmTag (t : BitVec 8) : Bool := decide (t.toNat ≤ 0x0E)

/-- Whether a word's datum breaks the "Valid when" column of Table 02-2 (R12). A PTE is judged by the walker only. -/
def malformed (w : Word) : Bool :=
  let d := w.datum
  match w.tag.toNat with
  | 0x01 => fld d 21 43 != 0 || decide (0x10FFFF < (fld d 0 21).toNat) ||
      (decide (0xD800 ≤ (fld d 0 21).toNat) && decide ((fld d 0 21).toNat ≤ 0xDFFF))
  | 0x03 => fld d 1 2 == 3 || bit d 0
  | 0x06 => decide (5 < d.toNat)
  | 0x0B => fld d 49 12 != 0 || bit d 63
  | 0x0D => fld d 11 4 != 0 || fld d 32 32 != 0
  | 0x0E => fld d 4 4 != 0 || fld d 26 38 != 0
  | 0x80 => fld d 52 12 != 0
  | 0x81 => fld d 48 16 != 0
  | 0x82 => fld d 40 24 != 0
  | 0xFD => decide (3 < d.toNat)
  | _ => isPtrTag w.tag && fld d 48 16 != 0

/-- Steps 1 to 4 of R30 on one word: TAG_RESERVED, UNINIT_USE, POISON_USE, PENDING_USE. -/
def chkWord (w : Word) : Option Cause :=
  match clsOf w.tag with
  | .reserved => some .tagReserved
  | .uninit => some .uninitUse
  | .poison => some .poisonUse
  | .pending => some .pendingUse
  | _ => none

/-- The malformed-word cause of step 5 of R30: UNIT_KIND for a QTY, TAG_MISMATCH otherwise (R12). -/
def malCause (w : Word) : Option Cause :=
  if malformed w then some (if w.tag = 0x03 then .unitKind else .tagMismatch) else none

/-- Steps 1 to 4 of R30 and then the malformed-word check. -/
def chkFull (w : Word) : Option Cause :=
  match chkWord w with
  | some c => some c
  | none => malCause w

/-- The checks on a loaded word (lchk of Table 05-2): reserved tags (R11), UNINIT (R28), HDR and FILL (R23). FWD is
followed by the barrier; one that is left is TAG_MISMATCH as a heap-internal word. -/
def lchkWord (w : Word) : Option Cause :=
  match clsOf w.tag with
  | .reserved => some .tagReserved
  | .uninit => some .uninitUse
  | _ => if w.tag == 0x80 || w.tag == 0x81 || w.tag == 0x82 then some .tagMismatch else none

/-- Whether a word is one of the heap-internal words HDR, FWD and FILL (Table 02-11). -/
def heapInternal (w : Word) : Bool := w.tag == 0x80 || w.tag == 0x81 || w.tag == 0x82

/-- The checks on a word that microcode uses as an object's header: steps 1 to 4 of R30, then a sound HDR (R11, R12). (DEDUCED,
log 132) -/
def hdrCheck (w : Word) : Option Cause :=
  match chkWord w with
  | some c => some c
  | none => if w.tag != 0x80 || malformed w then some .tagMismatch else none

/-- chk on a word to be stored, with POISON exempt (R124, R128). -/
def schkWord (w : Word) : Option Cause :=
  match clsOf w.tag with
  | .reserved => some .tagReserved
  | .uninit => some .uninitUse
  | .pending => some .pendingUse
  | _ => none

/-- The pointer tag of an object kind (Table 06-1). -/
def kindTag (k : Nat) : Option (BitVec 8) :=
  match k with
  | 0x01 => some 0x40
  | 0x02 => some 0x41
  | 0x03 => some 0x42
  | 0x04 => some 0x43
  | 0x05 => some 0x44
  | 0x06 => some 0x45
  | 0x07 => some 0x46
  | 0x08 => some 0x47
  | 0x09 => some 0x48
  | 0x0A => some 0x49
  | 0x0B => some 0x4A
  | 0x0C => some 0x4B
  | 0x0D => some 0x4C
  | _ => none

/-- Whether objects of a kind never move (Table 06-1): SBLK, CODE, DRAWER, CONTEXT. -/
def kindPinned (k : Nat) : Bool := k == 0x07 || k == 0x09 || k == 0x0C || k == 0x0D

/-- The LENGTH of a header word. -/
def hdrLen (w : Word) : Nat := (fld w.datum 0 40).toNat
/-- The KIND of a header word. -/
def hdrKind (w : Word) : Nat := (fld w.datum 40 8).toNat
/-- The AGE of a header word. -/
def hdrAge (w : Word) : Nat := (fld w.datum 48 4).toNat
/-- A header word (Table 02-11). -/
def mkHdr (len kind age : Nat) : Word :=
  Word.hdr (BitVec.ofNat 64 (len % 2 ^ 40 + (kind % 256) * 2 ^ 40 + (age % 16) * 2 ^ 48))

/-- The code of a cause (Table 08-6). -/
def Cause.code : Cause → BitVec 8
  | .tagMismatch => 0x01
  | .unitMismatch => 0x02
  | .unitKind => 0x03
  | .unitRange => 0x04
  | .allocFail => 0x05
  | .divZero => 0x06
  | .pendingUse => 0x07
  | .poisonUse => 0x08
  | .uninitUse => 0x09
  | .tagReserved => 0x0A
  | .illegalInstr => 0x0B
  | .illegalGuard => 0x0C
  | .privilege => 0x0D
  | .stackFormat => 0x0E
  | .stackOverflow => 0x0F
  | .stackInvalid => 0x10
  | .fetchFault => 0x11
  | .loadFault => 0x12
  | .storeFault => 0x13
  | .accessFlag => 0x18
  | .dirtyFlag => 0x19
  | .clampDeadlock => 0x20
  | .clampTimeout => 0x21
  | .waitTimeout => 0x22
  | .unitAbsent => 0x28
  | .interrupt => 0x30
  | .fastInterrupt => 0x31
  | .guardAbort => 0x33
  | .syscall => 0x3C
  | .breakpoint => 0x3D

end Sys2Proof.Machine
end

