-- ==== Sys2Proof/Machine/Mem.lean ====
section
/-! DEFINITION. The first operations over the state: updates of one element, a tick, free values, power domains, and the words of
memory. -/

namespace Sys2Proof.Machine

open Sys2Proof

/-! ### Updates of one element -/

def State.modCore (s : State) (c : Fin 32) (f : Core → Core) : State := { s with cores := vmod s.cores c f }
def State.modCluster (s : State) (k : Fin 8) (f : Cluster → Cluster) : State := { s with clusters := vmod s.clusters k f }
def State.modPort (s : State) (p : Fin 4) (f : Port → Port) : State := { s with ports := vmod s.ports p f }
def State.modWorld (s : State) (w : Fin 2) (f : World → World) : State := { s with worlds := vmod s.worlds w f }
def State.modSl (s : State) (n : Fin 32) (f : SensorLane → SensorLane) : State := { s with sl := vmod s.sl n f }
def State.modDl (s : State) (n : Fin 16) (f : DriveLane → DriveLane) : State := { s with dl := vmod s.dl n f }
def State.modCut (s : State) (n : Fin 16) (f : CutList → CutList) : State := { s with cuts := vmod s.cuts n f }
def State.modLathe (s : State) (n : Fin 8) (f : Lathe → Lathe) : State := { s with lathes := vmod s.lathes n f }
def State.modGauge (s : State) (n : Fin 32) (f : Gauge → Gauge) : State := { s with gauges := vmod s.gauges n f }
def State.modHinge (s : State) (p : Fin 64) (f : Hinge → Hinge) : State := { s with hng := vmod s.hng p f }
def State.modBank (s : State) (b : Fin 4) (f : HBank → HBank) : State := { s with banks := vmod s.banks b f }
def State.modKm (s : State) (p : Fin 8) (f : KmPort → KmPort) : State :=
  { s with km := { s.km with ports := vmod s.km.ports p f } }
def State.modHeap (s : State) (w : Fin 2) (f : Heap → Heap) : State :=
  s.modWorld w fun x => { x with heap := f x.heap }
def State.modSlot (s : State) (c : Fin 32) (k : Fin 64) (f : Slot → Slot) : State :=
  s.modCore c fun x => { x with slots := vmod x.slots k f }
def State.slot (s : State) (c : Fin 32) (k : Fin 64) : Slot := s.cores[c].slots[k]
def State.emit (s : State) (e : Emission) : State := { s with out := e :: s.out }

/-- The Imtur count (R277). -/
def State.now (s : State) : BitVec 64 := s.imt.count

/-- One tick of Imtur time, once the count has been started at a cold boot; a pulse on IMT_PPS_OUT ends after its width
(R277, R286). (DESIGN CHOICE, log 2) -/
def tick (s : State) : State :=
  if s.imt.started then
    let t := s.imt.count + 1
    { s with imt := { s.imt with count := t, ppsOut := s.imt.ppsOut && decide (t.toNat < s.imt.ppsEnd.toNat) } }
  else s

/-- The next free value (the spec leaves it open), and the draw counted. (DESIGN CHOICE, log 19) -/
def drawFree (s : State) : BitVec 64 × State := (Config.free s.drawn, { s with drawn := s.drawn + 1 })

/-! ### Power domains (R412, R413) -/

/-- Whether the switched part of the device is supplied and out of cold reset. -/
def State.alive (s : State) : Bool := s.pwr.supplied && !s.pwr.porLow && !s.pwr.brown

/-- Whether switched domain d is ON. -/
def State.domOn (s : State) (d : Nat) : Bool :=
  if h : d < 141 then s.alive && s.pwr.dom[d].state == .on else false

/-! ### Memory (R8, R27, R249, R457) -/

/-- The word at an address of a sorted list; an unlisted address reads UNINIT. (DEDUCED, log 12) -/
def memGet : List (Nat × Word) → Nat → Word
  | [], _ => Word.uninit
  | (b, w) :: r, a => if a = b then w else if a < b then Word.uninit else memGet r a

/-- Put a word at an address, keeping the list sorted and free of UNINIT entries. (DEDUCED, log 12) -/
def memPut : List (Nat × Word) → Nat → Word → List (Nat × Word)
  | [], a, w => if w = Word.uninit then [] else [(a, w)]
  | (b, v) :: r, a, w =>
    if a < b then (if w = Word.uninit then (b, v) :: r else (a, w) :: (b, v) :: r)
    else if a = b then (if w = Word.uninit then r else (a, w) :: r)
    else (b, v) :: memPut r a w

/-- Every address of a list lies above a bound and the list is sorted, without an UNINIT entry. -/
def memAbove : Option Nat → List (Nat × Word) → Bool
  | _, [] => true
  | lo, (b, v) :: r =>
    (match lo with
      | none => true
      | some l => decide (l < b)) && decide (v ≠ Word.uninit) && memAbove (some b) r

/-- The canonical form of memory: addresses strictly rising, no entry equal to what an unlisted address reads as. -/
def memWf (m : List (Nat × Word)) : Bool := memAbove none m

/-- The words of one port, by the CAP field of Table 10-8. -/
def portWords (cap : BitVec 2) : Nat :=
  match cap.toNat with
  | 0 => 2 ^ 29
  | 1 => 2 ^ 30
  | _ => 2 ^ 31

/-- Whether a physical address lies in populated DRAM (R249). -/
def State.inDram (s : State) (pa : Nat) : Bool := decide (pa < 4 * portWords s.ports[0].cap)

/-- The sample store. -/
def inSampleStore (pa : Nat) : Bool := decide (0xE000000000 ≤ pa) && decide (pa ≤ 0xE0001FFFFF)
/-- The shadow copy of the cut-list memory. -/
def inCutMem (pa : Nat) : Bool := decide (0xE100000000 ≤ pa) && decide (pa ≤ 0xE100007FFF)
/-- The register blocks and everything above them. -/
def inRegs (pa : Nat) : Bool := decide (0xF000000000 ≤ pa)

/-- Whether a physical address names a word of memory. -/
def State.mapped (s : State) (pa : Nat) : Bool := s.inDram pa || inSampleStore pa || inCutMem pa

/-- A read of memory by any agent (R457): an address that names nothing reads UNINIT and is counted; above the register
base it reads RAW:0. -/
def State.readPhys (s : State) (pa : Nat) : Word × State :=
  if s.mapped pa then (memGet s.mem pa, s)
  else if inRegs pa then (Word.zero, s)
  else (Word.uninit, { s with unmapped := satInc s.unmapped })

/-- The word at a physical address, as a value only. -/
def State.peek (s : State) (pa : Nat) : Word :=
  if s.mapped pa then memGet s.mem pa else if inRegs pa then Word.zero else Word.uninit

/-- The store of a word in memory by any agent (R457). -/
def State.writePhys (s : State) (pa : Nat) (w : Word) : State :=
  if s.mapped pa then { s with mem := memPut s.mem pa w }
  else if inRegs pa then s
  else { s with unmapped := satInc s.unmapped }

end Sys2Proof.Machine
end

