-- ==== Sys2Proof/Machine/L2.lean ====
section
/-! DEFINITION. The second-level caches, their offcut buffers, the directories and the request queues of the memory ports, and
what an access of a core or of another agent does to them (R235 to R255). -/

namespace Sys2Proof.Machine

open Sys2Proof

/-- Why a cluster asks for a sector (R239 to R241): a demand access; LDWS or a stash; a prefetch. -/
inductive Want where
  | demand | stream | prefetch
deriving DecidableEq, Repr

/-! ### Sectors and blocks -/

/-- The cluster of a core. -/
def clusterOf (c : Fin 32) : Fin 8 := idx 8 (c.val / 4)

/-- The sector number of a physical address. -/
def sectorOf (pa : Nat) : BitVec 36 := BitVec.ofNat 36 (pa / 16)
/-- The block of a sector. -/
def sectorBlk (x : BitVec 36) : BitVec 34 := x.extractLsb' 2 34
/-- The place of a sector in its block. -/
def sectorIx (x : BitVec 36) : Fin 4 := (x.extractLsb' 0 2).toFin
/-- Sector i of a block. -/
def blkSector (b : BitVec 34) (i : Fin 4) : BitVec 36 := b.setWidth 36 * 4 + BitVec.ofNat 36 i.val
/-- The port that serves a sector: PA[7:6] (R246). -/
def sectorPort (x : BitVec 36) : Fin 4 := (x.extractLsb' 2 2).toFin
/-- The L2 set of a block: PA[13:6]. -/
def blkSet (b : BitVec 34) : BitVec 8 := b.extractLsb' 0 8
/-- The set of an L1 line: PA[9:3]. -/
def l1Set (l : BitVec 37) : BitVec 7 := l.extractLsb' 0 7

/-- The state of a sector in a cluster's L2. -/
def Cluster.sector (k : Cluster) (x : BitVec 36) : SectorState :=
  match k.blocks.find? fun b => b.blk == sectorBlk x with
  | some b => b.sectors[sectorIx x]
  | none => .invalid

/-- The state of a sector in a cluster's offcut buffer. -/
def Cluster.offcutOf (k : Cluster) (x : BitVec 36) : Option OffcutState := (k.offcut.find? fun e => e.1 == x).map (·.2)

/-- Apply a function to the block of a sector, if present. -/
def Cluster.modBlk (k : Cluster) (x : BitVec 36) (f : L2Block → L2Block) : Cluster :=
  { k with blocks := k.blocks.map fun b => if b.blk == sectorBlk x then f b else b }

/-- Set the state of a sector that the L2 holds. -/
def Cluster.setSector (k : Cluster) (x : BitVec 36) (st : SectorState) : Cluster :=
  k.modBlk x fun b => { b with sectors := vset b.sectors (sectorIx x) st }

/-- Set the state of an entry of the offcut buffer. -/
def Cluster.setOffcut (k : Cluster) (x : BitVec 36) (st : OffcutState) : Cluster :=
  { k with offcut := k.offcut.map fun e => if e.1 == x then (x, st) else e }

/-- A sector becomes Invalid; a block without a valid or filling sector leaves its way (R239). -/
def Cluster.clearSector (k : Cluster) (x : BitVec 36) : Cluster :=
  let k := k.setSector x .invalid
  { k with blocks := k.blocks.filter fun b => b.sectors.toList.any fun t => t != .invalid }

/-- The number of Dirty and Cleaning sectors of an L2 (CCH_Lk_STATUS.DIRTY). -/
def Cluster.dirtyCount (k : Cluster) : Nat :=
  (k.blocks.map fun b => (b.sectors.toList.filter fun t => t == .dirty || t == .cleaning).length).foldl (· + ·) 0

/-- The sectors of an L2 in a state, with the tick of their last store. -/
def Cluster.inState (c : Cluster) (st : SectorState) : List (Nat × BitVec 36) :=
  c.blocks.flatMap fun b => (List.finRange 4).filterMap fun i =>
    if b.sectors[i] == st then some (b.lastStore[i], blkSector b.blk i) else none

/-- The sector of an L2 in a state whose last store is oldest. -/
def Cluster.oldest (c : Cluster) (st : SectorState) : Option (BitVec 36) :=
  (minBy (fun e : Nat × BitVec 36 => e.1) (c.inState st)).map fun e => e.2

/-- Whether a sector was brought by a prefetch that no demand has used yet (R241). -/
def Cluster.isFresh (k : Cluster) (x : BitVec 36) : Bool := k.blocks.any fun b => b.blk == sectorBlk x && b.fresh[sectorIx x]

/-- Whether a store waits for the fill of a sector (R238). -/
def Cluster.isOwed (k : Cluster) (x : BitVec 36) : Bool := k.blocks.any fun b => b.blk == sectorBlk x && b.owed[sectorIx x]

/-- The DIRTY_CAP of a cluster (Table 10-5). -/
def Cluster.dirtyCap (k : Cluster) : Nat := (fld k.cfg 24 15).toNat

/-! ### Requests at the ports -/

/-- A request queued at a port. -/
def Port.request (p : Port) (r : PortReq) : Port := { p with queue := p.queue ++ [r] }

/-- Remove a requester's waiting requests for a sector. -/
def Port.cancel (p : Port) (req : Fin 13) (x : BitVec 36) (write : Bool) : Port :=
  { p with queue := p.queue.filter fun r => !(r.requester == req && r.sector == x && r.write == write) }

/-- Remove a requester's requests for a sector, those in flight too. -/
def Port.withdraw (p : Port) (req : Fin 13) (x : BitVec 36) (write : Bool) : Port :=
  { p.cancel req x write with granted := p.granted.filter fun r => !(r.requester == req && r.sector == x && r.write == write) }

/-- A requester's waiting prefetch of a sector becomes a demand request. -/
def Port.promote (p : Port) (req : Fin 13) (x : BitVec 36) : Port :=
  { p with queue := p.queue.map fun r => if r.requester == req && r.sector == x then { r with prefetch := false } else r }

/-- The requester index of a cluster (Table 10-7). -/
def clusterReq (k : Fin 8) : Fin 13 := ⟨k.val, Nat.lt_of_lt_of_le k.isLt (by decide)⟩

/-! ### What DRAM holds behind dirty data -/

/-- Forget what DRAM held before the stores to a sector: its write-back has reached DRAM. -/
def State.dropStale (s : State) (x : BitVec 36) : State :=
  { s with stale := s.stale.filter fun e => BitVec.ofNat 36 (e.1 / 16) != x }

/-- Put back what DRAM holds for a sector whose dirty data is lost (R245). (DESIGN CHOICE, log 13) -/
def State.restoreStale (s : State) (x : BitVec 36) : State :=
  let old := s.stale.filter fun e => BitVec.ofNat 36 (e.1 / 16) == x
  (old.foldl (fun (s : State) (e : Nat × Word) => { s with mem := memPut s.mem e.1 e.2 }) s).dropStale x

/-- The words of a sector in which DRAM differs, as they stand now: what a write-back issued now carries. -/
def State.carried (s : State) (x : BitVec 36) : List (Nat × Word) :=
  (s.stale.filter fun e => BitVec.ofNat 36 (e.1 / 16) == x).map fun e => (e.1, memGet s.mem e.1)

/-- DRAM takes what a write-back carries: a word stored since its issue is still ahead of it (R244). (DESIGN CHOICE, log 13) -/
def State.renewStale (s : State) (data : List (Nat × Word)) : State :=
  { s with stale := s.stale.filterMap fun e =>
      match data.find? fun d => d.1 == e.1 with
      | some d => if d.2 = memGet s.mem e.1 then none else some d
      | none => some e }

/-- What DRAM holds at an address is remembered when a store to a Dirty sector first differs from it. (DESIGN CHOICE, log 13) -/
def State.noteStale (s : State) (a : Nat) (w : Word) : State :=
  if memGet s.mem a = w then s
  else if s.stale.any fun e => e.1 == a then s else { s with stale := (a, memGet s.mem a) :: s.stale }

/-! ### Leaving the L2 -/

/-- Remove every L1 line of a cluster's cores that lies in a sector (R236). -/
def State.invalL1 (s : State) (k : Fin 8) (x : BitVec 36) : State :=
  [0, 1, 2, 3].foldl (fun s j => s.modCore (idx 32 (4 * k.val + j)) fun c =>
    { c with
      l1i := c.l1i.filter fun e => BitVec.ofNat 36 (e.line.toNat / 2) != x
      l1d := c.l1d.filter fun l => BitVec.ofNat 36 (l.toNat / 2) != x }) s

/-- The write-back of a sector by a cluster that its port holds, in flight before waiting. -/
def State.writeOf (s : State) (k : Fin 8) (x : BitVec 36) : Option PortReq :=
  let p := s.ports[sectorPort x]
  (p.granted ++ p.queue).find? fun r => r.requester == clusterReq k && r.write && r.sector == x

/-- A write-back has reached DRAM: with no later one under way Cleaning becomes Clean, and an offcut entry is clean (R242, R244). -/
def State.ackWrite (s : State) (k : Fin 8) (r : PortReq) : State :=
  let x := r.sector
  let s := s.modPort (sectorPort x) fun p => { p with queue := p.queue.erase r, granted := p.granted.erase r }
  let last := (s.writeOf k x).isNone
  let s := s.modCluster k fun c =>
    let c := if last && c.sector x == .cleaning then c.setSector x .clean else c
    if last then c.setOffcut x .clean else c
  s.renewStale r.data

/-- The wait for the write-back of a sector, if one is under way. (DESIGN CHOICE, log 15) -/
def State.awaitWrite (s : State) (k : Fin 8) (x : BitVec 36) : State :=
  match s.writeOf k x with
  | some r => s.ackWrite k r
  | none => s

/-- A sector leaves a cluster for an owner elsewhere: a dirty offcut entry passes its data and its write-back is cancelled, an issued
one passes once its write-back is acknowledged; no copy stays, in L1 neither (R236, R246, Table 10-4). -/
def State.dropSector (s : State) (k : Fin 8) (x : BitVec 36) : State :=
  let c := s.clusters[k]
  if c.sector x == .invalid && (c.offcutOf x).isNone then s
  else
    let s := match c.offcutOf x with
      | some .dirty =>
        (s.modPort (sectorPort x) fun p => p.cancel (clusterReq k) x true).modCluster k fun c =>
          { c with cancels := c.cancels + 1 }
      | some .issued => s.awaitWrite k x
      | _ => s
    let s := s.modCluster k fun c => { c.clearSector x with offcut := c.offcut.filter fun e => e.1 != x }
    (s.modPort (sectorPort x) fun p => p.withdraw (clusterReq k) x false).invalL1 k x

/-- Remove a sector from every cluster but one. -/
def State.dropOthers (s : State) (k : Option (Fin 8)) (x : BitVec 36) : State :=
  (List.finRange 8).foldl (fun s j => if some j = k then s else s.dropSector j x) s

/-- A full offcut buffer makes room: the oldest clean entry is freed; with none clean, the eviction waits until the oldest entry's
write-back is acknowledged (R242). (DESIGN CHOICE, log 15) -/
def State.offcutRoom (s : State) (k : Fin 8) : State :=
  if s.clusters[k].offcut.length < 16 then s
  else
    let free (x : BitVec 36) (s : State) : State :=
      s.modCluster k fun c => { c with offcut := c.offcut.filter fun e => e.1 != x }
    match s.clusters[k].offcut.find? fun e => e.2 == .clean with
    | some e => free e.1 s
    | none =>
      match s.clusters[k].offcut with
      | e :: _ => free e.1 (s.awaitWrite k e.1)
      | [] => s

/-- Evict one valid sector of a victim block into the offcut buffer; the write-back of a Dirty sector is queued (R242). (DEDUCED, log 5) -/
def State.evictSector (s : State) (k : Fin 8) (x : BitVec 36) (st : SectorState) : State :=
  let push (o : OffcutState) : State :=
    ((s.offcutRoom k).modCluster k fun c => { c with offcut := c.offcut ++ [(x, o)] }).invalL1 k x
  match st with
  | .clean => push .clean
  | .dirty =>
    (push .dirty).modPort (sectorPort x) fun p =>
      p.request { requester := clusterReq k, at_ := s.now, write := true, sector := x, data := s.carried x }
  | .cleaning => push .issued
  | _ => s

/-! ### The directory (R246) -/

/-- Whether a cluster holds a sector, in its L2 or its offcut buffer: what a directory entry records. -/
def Cluster.holds (k : Cluster) (x : BitVec 36) : Bool := k.sector x != .invalid || (k.offcutOf x).isSome

/-- Whether any cluster holds a sector of a block. -/
def State.blkHeld (s : State) (b : BitVec 34) : Bool :=
  s.clusters.toList.any fun k => (List.finRange 4).any fun i => k.holds (blkSector b i)

/-- The cluster that owns a sector: the one in which it is changed. -/
def State.owner (s : State) (x : BitVec 36) : Option (Fin 8) :=
  (List.finRange 8).find? fun k =>
    let c := s.clusters[k]
    c.sector x == .dirty || c.sector x == .cleaning || c.isOwed x ||
      c.offcutOf x == some .dirty || c.offcutOf x == some .issued

/-- A cluster's changed data of a sector reaches DRAM, and the sector stays there Clean. (DEDUCED, log 150) -/
def State.writeBack (s : State) (k : Fin 8) (x : BitVec 36) : State :=
  let c := s.clusters[k]
  if c.sector x == .dirty || c.sector x == .cleaning || c.offcutOf x == some .dirty || c.offcutOf x == some .issued then
    ((s.modPort (sectorPort x) fun p => p.withdraw (clusterReq k) x true).modCluster k fun c =>
      (if c.sector x == .invalid then c else c.setSector x .clean).setOffcut x .clean).dropStale x
  else s

/-- The block is recalled from every holder: Dirty sectors are written back and every copy is invalidated (R246). -/
def State.recallBlock (s : State) (b : BitVec 34) : State :=
  (List.finRange 4).foldl (fun (s : State) (i : Fin 4) => (List.finRange 8).foldl (fun (s : State) (k : Fin 8) =>
    (s.writeBack k (blkSector b i)).dropSector k (blkSector b i)) s) s

/-- The directory set of a block at its port: the low bits of its local number. (DESIGN CHOICE, log 151) -/
def dirSet (b : BitVec 34) : BitVec 10 := b.extractLsb' 2 10

/-- The directory of a port has an entry for a block before a cluster takes a sector of it: one held already, a free way of the set,
or the way of an entry whose block is recalled from every holder. (DESIGN CHOICE, log 151) -/
def State.dirEnter (s : State) (b : BitVec 34) : State :=
  let p : Fin 4 := (b.extractLsb' 0 2).toFin
  if s.ports[p].dir.any fun e => e.1 == b then s
  else
    let s := s.modPort p fun x => { x with dir := x.dir.filter fun e => dirSet e.1 != dirSet b || s.blkHeld e.1 }
    let set := s.ports[p].dir.filter fun e => dirSet e.1 == dirSet b
    match (List.finRange 16).find? fun w => !(set.any fun e => e.2 == w) with
    | some w => s.modPort p fun x => { x with dir := x.dir ++ [(b, w)] }
    | none =>
      let (f, s) := drawFree s
      let w : Fin 16 := (f.extractLsb' 0 4).toFin
      let s := (set.filter fun e => e.2 == w).foldl (fun (s : State) e => s.recallBlock e.1) s
      s.modPort p fun x => { x with dir := (x.dir.filter fun e => !(dirSet e.1 == dirSet b && e.2 == w)) ++ [(b, w)] }

/-! ### Entering the L2 -/

/-- The burst of a fill has arrived: the sector is Clean, or Dirty where a store waited for it; the loads that waited can go on
(R237, R238). -/
def State.endFill (s : State) (k : Fin 8) (x : BitVec 36) : State :=
  let s := s.modPort (sectorPort x) fun p => p.withdraw (clusterReq k) x false
  let s := s.modCluster k fun c => c.modBlk x fun b =>
    { b with sectors := vset b.sectors (sectorIx x) (if b.owed[sectorIx x] then .dirty else .clean)
             owed := vset b.owed (sectorIx x) false }
  [0, 1, 2, 3].foldl (fun s j => s.modCore (idx 32 (4 * k.val + j)) fun c =>
    if c.awaits = some x then { c with awaits := none } else c) s

/-- The way a new block of a set takes: the lowest free way, else the way of the oldest block without a Filling sector,
the lowest on ties (R239); only the ways that are powered (Table 18-2). -/
def Cluster.victim (c : Cluster) (on : Fin 16 → Bool) (b : BitVec 34) : Option (Fin 16 × Option L2Block) :=
  let set := c.blocks.filter fun x => blkSet x.blk == blkSet b
  match (List.finRange 16).find? fun w => on w && !(set.any fun x => x.way == w) with
  | some w => some (w, none)
  | none =>
    let cand := set.filter fun x => !(x.sectors.toList.any fun t => t == .filling)
    match minBy (fun x : L2Block => (3 - x.age.toNat) * 16 + x.way.val) cand with
    | some x => some (x.way, some x)
    | none => none

/-- Whether a way of a cluster is powered. -/
def State.wayOn (s : State) (k : Fin 8) (w : Fin 16) : Bool := s.domOn (32 + 4 * k.val + w.val / 4)

/-- With every way of a set Filling, the access waits for the fills of the block in the lowest way (R238). (DESIGN CHOICE, log 15) -/
def State.waitWay (s : State) (k : Fin 8) (b : BitVec 34) : State :=
  let c := s.clusters[k]
  if (c.victim (s.wayOn k) b).isSome then s
  else match minBy (fun x : L2Block => x.way.val) (c.blocks.filter fun x => blkSet x.blk == blkSet b) with
    | none => s
    | some y => (List.finRange 4).foldl (fun (s : State) (i : Fin 4) =>
        if y.sectors[i] == .filling then s.endFill k (blkSector y.blk i) else s) s

/-- Place a sector in a cluster's L2 in a state, with the age of its kind of request (R239, R240); a victim block is evicted. Where no
way is powered nothing is placed. -/
def State.placeSector (s : State) (k : Fin 8) (x : BitVec 36) (st : SectorState) (want : Want) : State :=
  let b := sectorBlk x
  let pre := decide (want = .prefetch)
  if s.clusters[k].blocks.any fun e => e.blk == b then
    s.modCluster k fun c => c.modBlk x fun e =>
      { e with
        sectors := vset e.sectors (sectorIx x) st
        lastStore := vset e.lastStore (sectorIx x) s.now.toNat
        fresh := vset e.fresh (sectorIx x) pre
        owed := vset e.owed (sectorIx x) false
        age := if want = .demand then 0 else e.age }
  else
    let s := (s.dirEnter b).waitWay k b
    match s.clusters[k].victim (s.wayOn k) b with
    | none => s
    | some (w, old) =>
      let s := match old with
        | none => s
        | some o =>
          let s := (List.finRange 4).foldl
            (fun (s : State) (i : Fin 4) => s.evictSector k (blkSector o.blk i) o.sectors[i]) s
          s.modCluster k fun c => { c with blocks := c.blocks.filter fun e => e.blk != o.blk }
      s.modCluster k fun c => { c with blocks := c.blocks ++
        [{ blk := b, way := w, age := if want = .demand then 0 else 3
           sectors := vset (Vector.replicate 4 .invalid) (sectorIx x) st
           lastStore := vset (Vector.replicate 4 0) (sectorIx x) s.now.toNat
           fresh := vset (Vector.replicate 4 false) (sectorIx x) pre }] }

/-! ### Eager cleaning (R244) -/

/-- Issue the write-back of a Dirty sector: it becomes Cleaning, and the port has the request. -/
def State.issueClean (s : State) (k : Fin 8) (x : BitVec 36) : State :=
  if s.clusters[k].sector x == .dirty then
    (s.modCluster k fun c => c.setSector x .cleaning).modPort (sectorPort x) fun p =>
      p.request { requester := clusterReq k, at_ := s.now, write := true, sector := x, data := s.carried x }
  else s

/-- With DIRTY_CAP sectors dirty, the write-back of the one whose last store is oldest is issued. -/
def State.keepCap (s : State) (k : Fin 8) : State :=
  if s.clusters[k].dirtyCount ≥ s.clusters[k].dirtyCap then
    match s.clusters[k].oldest .dirty with
    | some y => s.issueClean k y
    | none => s
  else s

/-- A store that would turn a further Clean sector Dirty waits until fewer than DIRTY_CAP are, at most n acknowledgements long.
(DESIGN CHOICE, log 15) -/
def State.roomDirty (k : Fin 8) : Nat → State → State
  | 0, s => s
  | n + 1, s =>
    let c := s.clusters[k]
    if c.dirtyCount < c.dirtyCap then s
    else match c.oldest .cleaning with
      | some y => State.roomDirty k n (s.awaitWrite k y)
      | none =>
        match c.oldest .dirty with
        | some y => State.roomDirty k n ((s.issueClean k y).awaitWrite k y)
        | none => s

/-- A sector that takes a store is Dirty, and its last store is now; a store to a Filling sector waits for the burst. -/
def State.markDirty (s : State) (k : Fin 8) (x : BitVec 36) : State :=
  let s := match s.clusters[k].sector x with
    | .clean => State.roomDirty k s.clusters[k].dirtyCount s
    | _ => s
  s.modCluster k fun c => c.modBlk x fun e =>
    let e := { e with lastStore := vset e.lastStore (sectorIx x) s.now.toNat }
    if e.sectors[sectorIx x] == .filling then { e with owed := vset e.owed (sectorIx x) true }
    else { e with sectors := vset e.sectors (sectorIx x) .dirty }

/-! ### Requests of a cluster -/

/-- Recall a sector from the offcut buffer or the eviction queue (R243, Table 10-4). (DEDUCED, log 5) -/
def State.recall (s : State) (k : Fin 8) (x : BitVec 36) (o : OffcutState) (want : Want) : State :=
  let s := s.modCluster k fun c =>
    { c with offcut := c.offcut.filter fun e => e.1 != x, recalls := c.recalls + 1
             cancels := if o == .dirty then c.cancels + 1 else c.cancels }
  let s := if o == .dirty then State.roomDirty k s.clusters[k].dirtyCount
      (s.modPort (sectorPort x) fun p => p.cancel (clusterReq k) x true) else s
  ((s.placeSector k x (match o with
    | .dirty => .dirty
    | _ => .clean) want).modCluster k fun c => c.modBlk x fun e =>
      if want = .demand then e else { e with age := 3 }).keepCap k

/-- A request of a cluster for a sector of DRAM: hit, recall, or a miss that starts a fill, for which another cluster's changed data
is written back (R237 to R243, R246). A demand joins a prefetch that is under way, before every other prefetch (R241). -/
def State.l2Request (s : State) (k : Fin 8) (x : BitVec 36) (want : Want) : State :=
  if s.clusters[k].sector x != .invalid then
    if want = .demand then
      let s := s.modCluster k fun c => c.modBlk x fun e => { e with age := 0, fresh := vset e.fresh (sectorIx x) false }
      s.modPort (sectorPort x) fun p => p.promote (clusterReq k) x
    else s
  else match s.clusters[k].offcutOf x with
    | some o => s.recall k x o want
    | none =>
      let s := match s.owner x with
        | some j => s.writeBack j x
        | none => s
      let s := s.placeSector k x .filling want
      if s.clusters[k].sector x == .filling then
        s.modPort (sectorPort x) fun p => p.request
          { requester := clusterReq k, at_ := s.now, write := false, sector := x, prefetch := decide (want = .prefetch) }
      else s

/-! ### The grain prefetcher (R241) -/

/-- Confirm or reset a stride tracker by an access. -/
def Tracker.access (t : Tracker) (pa : BitVec 40) : Tracker :=
  let d : Int := (pa.toNat : Int) - t.last.toNat
  if d ≠ 0 ∧ t.seen = 1 then { t with last := pa, stride := d, seen := 2 }
  else if d ≠ 0 ∧ d = t.stride then { t with last := pa, seen := min 3 (t.seen + 1) }
  else { t with last := pa, stride := 0, seen := 1 }

/-- The first four distinct sectors beyond that of a that a + k × stride reaches, within a page. -/
def strideSectors (a : Int) (stride : Int) (lo hi : Int) : Nat → Int → List (BitVec 36) → List (BitVec 36)
  | 0, _, acc => acc
  | n + 1, k, acc =>
    let p := a + k * stride
    if p < lo ∨ hi ≤ p ∨ acc.length ≥ 4 then acc
    else
      let x := sectorOf p.toNat
      strideSectors a stride lo hi n (k + 1)
        (if x = sectorOf a.toNat ∨ x ∈ acc then acc else acc ++ [x])

/-- A prefetch is dropped when the sector is present, Filling or in the offcut buffer; else it is a streaming fill. -/
def State.prefetch (s : State) (k : Fin 8) (x : BitVec 36) : State :=
  if !(s.inDram (x.toNat * 16)) || s.clusters[k].holds x then s else s.l2Request k x .prefetch

/-- Prefetch the next sector in ascending address order, within the page. -/
def State.nextSector (s : State) (k : Fin 8) (pa : BitVec 40) (page : Nat × Nat) : State :=
  let n := (pa.toNat / 16 + 1) * 16
  if n < page.2 then s.prefetch k (sectorOf n) else s

/-- The grain prefetcher at a demand miss or a hit on a prefetched sector: the tracker of the key, or the least
recently used one, is moved to the front; a confirmed one prefetches; else the next sector, when NEXT_EN is 1. -/
def State.grain (s : State) (c : Fin 32) (slot : Fin 64) (region : BitVec 39) (pa : BitVec 40) (page : Nat × Nat) : State :=
  let k := clusterOf c
  let cl := s.clusters[k]
  if !(bit cl.cfg 39) then
    if bit cl.cfg 40 then s.nextSector k pa page else s
  else
    let mine (t : Tracker) : Bool := t.core == c && t.slot == slot && t.region == region
    let t := match cl.trackers.find? mine with
      | some t => t.access pa
      | none => { core := c, slot := slot, region := region, last := pa }
    let s := s.modCluster k fun cl =>
      { cl with trackers := (t :: cl.trackers.filter fun x => !(mine x)).take 16 }
    if t.seen = 3 then
      (strideSectors pa.toNat t.stride page.1 page.2 64 1 []).foldl (fun s x => s.prefetch k x) s
    else if bit cl.cfg 40 then s.nextSector k pa page else s

/-- Whether the prefetcher watches a demand access: it misses, or hits a prefetched sector not yet used. -/
def Cluster.watches (k : Cluster) (x : BitVec 36) : Bool := k.sector x == .invalid || k.isFresh x

/-- The 512-word code region of the instruction that a core executes: the key of a tracker. -/
def State.codeRegion (s : State) (c : Fin 32) : BitVec 39 := fld s.cores[c].lo.pc 10 39

/-! ### Accesses of a core -/

/-- A demand read of a core in its L2: hit, recall or fill, the demand before the prefetches that it leads to (R238, R241). -/
def State.l2Read (s : State) (c : Fin 32) (pa : BitVec 40) (stream : Bool) (page : Nat × Nat) : State :=
  let k := clusterOf c
  let x := sectorOf pa.toNat
  let watched := s.clusters[k].watches x
  let s := s.l2Request k x (if stream then .stream else .demand)
  if watched then s.grain c s.cores[c].slot (s.codeRegion c) pa page else s

/-- The lines of an L1 data cache with one more, at most four of a set (Table 10-1). (DESIGN CHOICE, log 152) -/
def l1Add (l : List (BitVec 37)) (y : BitVec 37) : List (BitVec 37) :=
  y :: ((l.filter fun z => z != y && l1Set z == l1Set y).take 3 ++ l.filter fun z => l1Set z != l1Set y)

/-- A load of a core from cacheable DRAM: the L2, and a line of the L1 data cache of a sector that the L2 holds (R236). -/
def State.cacheRead (s : State) (c : Fin 32) (pa : BitVec 40) (stream : Bool) (page : Nat × Nat) : State :=
  if s.inDram pa.toNat then
    let s := s.l2Read c pa stream page
    if s.clusters[clusterOf c].sector (sectorOf pa.toNat) == .invalid then s
    else s.modCore c fun y => { y with l1d := l1Add y.l1d (fld pa 3 37) }
  else s

/-- A store, or the write of an atomic update, becomes visible to every agent at once (R84, R246): every other holder is
invalidated, the sector is Dirty in the storing cluster, and DIRTY_CAP is kept (R244). -/
def State.storeVisible (s : State) (k : Fin 8) (pa : BitVec 40) (w : Word) : State :=
  let a := pa.toNat
  let x := sectorOf a
  if s.inDram a then
    (((((s.dropOthers (some k) x).l2Request k x .demand).noteStale a w).markDirty k x).keepCap k).writePhys a w
  else s.writePhys a w

/-- A store of a core becomes visible, and the prefetcher sees its miss (R241); the key is that of the storing instruction. -/
def State.storeWatched (s : State) (c : Fin 32) (e : StoreEntry) : State :=
  let watched := s.inDram e.pa.toNat && s.clusters[clusterOf c].watches (sectorOf e.pa.toNat)
  let s := s.storeVisible (clusterOf c) e.pa e.word
  if watched then s.grain c e.slot e.region e.pa e.page else s

/-! ### Accesses of the other agents (R247, R254) -/

/-- A write by an agent beside the cores: every cached copy is invalidated. (DESIGN CHOICE, log 14) -/
def State.dmaWrite (s : State) (pa : Nat) (w : Word) : State :=
  let s := if s.inDram pa then (s.dropOthers none (sectorOf pa)).dropStale (sectorOf pa) else s
  s.writePhys pa w

/-- A run of words written by an agent beside the cores. -/
def State.dmaWrites (s : State) (pa : Nat) : List Word → State
  | [] => s
  | w :: ws => State.dmaWrites (s.dmaWrite pa w) (pa + 1) ws

/-- A sample-plane write to a stash cluster: the sector is installed there as a streaming fill, Dirty and owned, and every other copy
is invalidated (R247). -/
def State.stashWrite (s : State) (k : Fin 8) (pa : Nat) (w : Word) : State :=
  if s.inDram pa then
    let x := sectorOf pa
    let s := s.dropOthers (some k) x
    let s := if (s.clusters[k].offcutOf x).isSome then s.dropSector k x else s.invalL1 k x
    let s := (s.modPort (sectorPort x) fun p => p.withdraw (clusterReq k) x false).noteStale pa w
    let s := match s.clusters[k].sector x with
      | .dirty => s
      | .cleaning => s
      | _ => State.roomDirty k s.clusters[k].dirtyCount s
    ((s.placeSector k x .dirty .stream).keepCap k).writePhys pa w
  else s.dmaWrite pa w

/-- A transfer of an agent waits at the port of a sector: one request for all the words of one direction. (DESIGN CHOICE, log 15) -/
def State.agentRequest (s : State) (a : Fin 13) (write : Bool) (pa : Nat) (data : List (Nat × Word)) : State :=
  if s.inDram pa then
    let x := sectorOf pa
    s.modPort (sectorPort x) fun p =>
      let same (r : PortReq) : Bool := r.requester == a && r.write == write && r.sector == x
      if p.queue.any same then { p with queue := p.queue.map fun r => if same r then { r with data := r.data ++ data } else r }
      else p.request { requester := a, at_ := s.now, write := write, sector := x, data := data }
  else s

/-- A write by the agent of a requester index (Table 10-7). -/
def State.agentWrite (s : State) (a : Fin 13) (pa : Nat) (w : Word) : State :=
  (s.dmaWrite pa w).agentRequest a true pa [(pa, w)]

/-- A run of words written by an agent. -/
def State.agentWrites (s : State) (a : Fin 13) (pa : Nat) : List Word → State
  | [] => s
  | w :: ws => State.agentWrites (s.agentWrite a pa w) a (pa + 1) ws

/-- POISON of an origin at a physical address (R25): 1 DRAM, 2 PORT_WATCHDOG, 3 SAMPLE_STORE. -/
def poisonAt (origin pa : Nat) : Word := ⟨0xFE#8, putN 0 origin ||| putN 8 pa⟩

/-- POISON with origin DRAM at a physical address (R25). -/
def poisonDram (pa : Nat) : Word := poisonAt 1 pa

/-- The word that an agent reads at a physical address, as a value only: POISON where the port watchdog has dropped its read (R255). -/
def State.agentPeek (s : State) (a : Fin 13) (pa : Nat) : Word :=
  if s.inDram pa && s.ports[sectorPort (sectorOf pa)].lost.any fun e => e == (a, sectorOf pa) then poisonAt 2 pa else s.peek pa

/-- What a read of an agent does beside delivering the word: its transfer waits at the port, a dropped read is made good, and an
address that names nothing is counted (R249, R254, R457). -/
def State.noteRead (s : State) (a : Fin 13) (pa : Nat) : State :=
  let s := (s.readPhys pa).2
  (if s.inDram pa then s.modPort (sectorPort (sectorOf pa)) fun p =>
      { p with lost := p.lost.filter fun e => e != (a, sectorOf pa) } else s).agentRequest a false pa []

/-- The reads of n words from an address. -/
def State.noteReads (s : State) (a : Fin 13) (pa n : Nat) : State :=
  (List.range n).foldl (fun (s : State) i => s.noteRead a (pa + i)) s

end Sys2Proof.Machine
end

