-- ==== Sys2Proof/Machine/Ops.lean ====
section
/-! DEFINITION. The named operations over the state: cards, store buffers, the event ring of Favar, event lines and interrupts,
blocked contexts, mute and the fail-safe state. -/

namespace Sys2Proof.Machine

open Sys2Proof

/-! ### Cards (R145, R151, R152) -/

/-- Set the card bit of a card of a world's window in memory. -/
def State.setCard (s : State) (w : Fin 2) (card : Nat) : State :=
  let a := s.worlds[w].heap.cards.toNat + card / 64
  let (v, s) := s.readPhys a
  s.writePhys a (Word.raw (setBit v.datum (card % 64) true))

/-- The card queue of a cluster sets the oldest card (R152). -/
def State.drainCard (s : State) (k : Fin 8) : State :=
  match s.clusters[k].cardQueue with
  | [] => s
  | (w, card) :: r => (s.setCard w card).modCluster k fun c => { c with cardQueue := r }

/-- The card queue takes a card; a store that finds it full waits until one entry has drained (R152). -/
def State.queueCard (s : State) (k : Fin 8) (e : Fin 2 × Nat) : State :=
  let s := if s.clusters[k].cardQueue.length < 64 then s else s.drainCard k
  s.modCluster k fun c => { c with cardQueue := c.cardQueue ++ [e] }

/-! ### Store buffers (R84) -/

/-- The oldest store of a core's store buffer becomes visible. -/
def State.drainStore (s : State) (c : Fin 32) : State :=
  match s.cores[c].storeBuf with
  | [] => s
  | e :: r =>
    let s := s.modCore c fun x => { x with storeBuf := r }
    let s := match e.card with
      | some m => s.queueCard (clusterOf c) m
      | none => s
    s.storeWatched c e

/-- Every store of a core becomes visible, in order. -/
def State.drainStores (s : State) (c : Fin 32) : State :=
  s.cores[c].storeBuf.foldl (fun s _ => s.drainStore c) s

/-- A store of a core enters the store buffer of 8 words; a full buffer drains its oldest word first. -/
def State.pushStore (s : State) (c : Fin 32) (e : StoreEntry) : State :=
  let s := if s.cores[c].storeBuf.length < 8 then s else s.drainStore c
  s.modCore c fun x => { x with storeBuf := x.storeBuf ++ [e] }

/-- What a core reads at a physical address of memory: the youngest of its own stores not yet visible, else memory. -/
def State.coreRead (s : State) (c : Fin 32) (pa : BitVec 40) : Word × State :=
  match s.cores[c].storeBuf.reverse.find? fun e => e.pa == pa with
  | some e => (e.word, s)
  | none => s.readPhys pa.toNat

/-! ### Favar's event ring (R371) -/

/-- Entries free in the event ring. -/
def Favar.ringFree (f : Favar) : Nat := 2047 - (f.head - f.tail).toNat

/-- Write one entry at HEAD. -/
def Favar.ringPut (f : Favar) (e : EvEntry) : Favar :=
  { f with ring := (f.head.toNat, e) :: f.ring.filter (fun x => x.1 != f.head.toNat), head := f.head + 1 }

/-- Post an entry: completions always; another event only while more than 64 entries are free, else it is dropped and
counted in LOST; one OVERFLOW entry tells how many when space returns. -/
def Favar.postEntry (f : Favar) (e : EvEntry) (always : Bool) : Favar :=
  if always then (if f.ringFree = 0 then f else f.ringPut e)
  else if f.ringFree ≤ 64 then
    { f with lost := satInc f.lost, overflowDue := true, overflowCount := satInc f.overflowCount }
  else f.ringPut e

/-- Post the OVERFLOW entry that is due, once space has returned. (DESIGN CHOICE, log 104) -/
def Favar.postOverflow (f : Favar) (now : BitVec 64) : Favar :=
  if f.overflowDue && decide (64 < f.ringFree) then
    { f.ringPut { cls := 15, code := 0, seq := f.evNo, stamp := now, status := 0, slot := 0
                  data := [f.overflowCount.setWidth 64] } with
      overflowDue := false, overflowCount := 0, evNo := f.evNo + 1 }
  else f

/-- Signal an MSI-X vector: a masked one stays pending (R384). (DESIGN CHOICE, log 11) -/
def State.msix (s : State) (v : Fin 32) : State :=
  if bit s.fv.msixMask v.val then { s with fv := { s.fv with msixPend := setBit s.fv.msixPend v.val true } }
  else s.emit (.msix v)

/-- Post an entry in the event ring; vector 0 signals it. -/
def State.postRing (s : State) (e : EvEntry) (always : Bool) : State :=
  let f := s.fv.postEntry e always
  let s' := { s with fv := f }
  if f.head = s.fv.head then s' else s'.msix 0

/-- Whether events of a class are posted under the negotiated version (R366): those introduced in 3.x are not under 2.x. -/
def Favar.classShown (f : Favar) (cls : Nat) : Bool := !(f.major == 2 && (cls == 6 || cls == 9 || cls == 11))

/-- Post an event of Favar's, or keep it while FW_SWAP is in progress (Table 16-17). -/
def State.postEvent (s : State) (cls : Nat) (code : BitVec 16) (data : List (BitVec 64)) : State :=
  let e : EvEntry := { cls := BitVec.ofNat 16 cls, code := code, seq := s.fv.evNo, stamp := s.now
                       status := 0, slot := 0, data := data }
  if s.fv.swap then { s with fv := { s.fv with latched := s.fv.latched ++ [e], evNo := s.fv.evNo + 1 } }
  else
    let s := ({ s with fv := s.fv.postOverflow s.now }).postRing { e with seq := (s.fv.postOverflow s.now).evNo } false
    { s with fv := { s.fv with evNo := s.fv.evNo + 1 } }

/-- An event of a class (Table 16-13A), by its kind within the class and its unit: dropped when its class is not subscribed;
events of one class from one unit are coalesced to one entry in each millisecond, with their count. (DESIGN CHOICE, log 25; DESIGN CHOICE, log 104; DEDUCED, log 130) -/
def State.event (s : State) (cls code unit : Nat) (data : List (BitVec 64)) : State :=
  if !(bit s.fv.subs cls && s.fv.classShown cls) then s
  else
    let last := s.fv.coalesce.find? fun e => e.1 == cls && e.2.1 == unit
    let rest := s.fv.coalesce.filter fun e => !(e.1 == cls && e.2.1 == unit)
    match last with
    | some (_, _, n, t) =>
      if (s.now - t).toNat < 1000000 then
        { s with fv := { s.fv with coalesce := (cls, unit, n + 1, t) :: rest } }
      else post rest n
    | none => post rest 0
where
  /-- Post one entry, with the occurrences held back since the last one of this class and unit. -/
  post (rest : List (Nat × Nat × Nat × BitVec 64)) (n : Nat) : State :=
    ({ s with fv := { s.fv with coalesce := (cls, unit, 0, s.now) :: rest } }).postEvent cls (Config.eventCode cls code)
      (data ++ [BitVec.ofNat 64 (n + 1)])

/-- What SECDED finds at a word of a port (SECDED_CORRECTION, R252). A word that is POISON already is not lost again (R33). -/
def State.secded (s : State) (p : Fin 4) (pa : Nat) (e : Secded) : State :=
  match e with
  | .clean => s
  | .corrected => s.modPort p fun x => { x with ce := satInc x.ce }
  | .lost =>
    if (s.peek pa).tag = 0xFE then s
    else
      let s := s.modPort p fun x => { x with ueLast := BitVec.ofNat 40 pa, ueCount := satInc x.ueCount }
      ({ s with mem := memPut s.mem pa (poisonDram pa) }).event 5 1 p.val [BitVec.ofNat 64 pa]

/-- What SECDED finds at a word of DRAM or of the sample store when it is read (R32, R33, R252). The spec names no counter
for the sample store. (DEDUCED, log 141) -/
def State.memErr (s : State) (pa : Nat) (e : Secded) : State :=
  if s.inDram pa then s.secded (sectorPort (BitVec.ofNat 36 (pa / 16))) pa e
  else if inSampleStore pa && e == .lost && (s.peek pa).tag != 0xFE then
    { s with mem := memPut s.mem pa (poisonAt 3 pa) }
  else s

/-- What SECDED finds in the words that an agent reads: an error is handled before the words are delivered (R252). -/
def State.memErrs (s : State) (l : Ecc) : State := l.foldl (fun (s : State) e => s.memErr e.1.toNat e.2) s

/-! ### Event lines, interrupts and blocked contexts (R168, R172, R199) -/

/-- A context becomes READY, after all that became READY before. (DESIGN CHOICE, log 55) -/
def State.makeReady (s : State) (c : Fin 32) (k : Fin 64) : State :=
  { (s.modSlot c k fun x => { x with state := .ready, readySince := s.jig.order }) with
    jig := { s.jig with order := s.jig.order + 1 } }

/-- A clamp word with WAITERS changed by -1 (R168, R132). -/
def lessWaiter (w : Word) : Word :=
  { w with datum := setFld w.datum 16 (fld w.datum 16 16 - 1) }

/-- Take a context out of the waiters of the clamp at a physical address. -/
def State.unwait (s : State) (c : Fin 32) (pa : BitVec 40) : State :=
  let w := s.peek pa.toNat
  if w.tag = 0x0D ∧ fld w.datum 16 16 ≠ 0 then s.storeVisible (clusterOf c) pa (lessWaiter w) else s

/-- Abandon a blocking instruction: it is taken back to its start, and its waiter record is removed (R168). (DEDUCED, log 56) -/
def State.abandonBlock (s : State) (c : Fin 32) (k : Fin 64) : State :=
  let x := s.slot c k
  let s := match x.state, x.block with
    | .clamped, some (.clamp pa _ _) => s.unwait c pa
    | _, _ => s
  s.modSlot c k fun y => { y with block := none, timedOut := false, granted := false }

/-- Whether a stamp lies at or before a deadline; with no deadline every stamp does. -/
def atOrBefore (stamp : BitVec 64) : Option (BitVec 64) → Bool
  | none => true
  | some d => decide (stamp.toNat ≤ d.toNat)

def SlotState.blocked : SlotState → Bool
  | .waiting => true
  | .clamped => true
  | .receiving => true
  | _ => false

/-- JIG_DROPPED counts one more event, saturating. -/
def State.countDropped (s : State) : State := { s with jig := { s.jig with dropped := satInc s.jig.dropped } }

/-- Set PEND of line n (R199). -/
def State.setPend (s : State) (n : Fin 256) (b : Bool) : State :=
  { s with jig := { s.jig with irq := vmod s.jig.irq n fun q => { q with pend := b } } }

/-- An event on a line routed as an interrupt (INTERRUPT_PEND, R199). (DEDUCED, log 56) -/
def State.pendInterrupt (s : State) (n : Fin 256) : State :=
  let q := s.jig.irq[n]
  if q.pend then s.countDropped
  else
    let x := s.slot q.core q.slot
    match x.state with
    | .empty => s.countDropped
    | .waiting => ((s.setPend n true).abandonBlock q.core q.slot).makeReady q.core q.slot
    | .clamped => ((s.setPend n true).abandonBlock q.core q.slot).makeReady q.core q.slot
    | .receiving => ((s.setPend n true).abandonBlock q.core q.slot).makeReady q.core q.slot
    | _ => s.setPend n true

/-- An event on a line not routed as an interrupt (EVENT_LATCH, R172). -/
def State.latchEvent (s : State) (n : Fin 256) (stamp : BitVec 64) : State :=
  let e := s.jig.ev[n]
  if !e.en then s.countDropped
  else if e.latched then
    { s with jig := { s.jig with ev := vset s.jig.ev n { e with ovf := true } } }
  else
    let s := { s with jig := { s.jig with ev := vset s.jig.ev n { e with latched := true, stamp := stamp } } }
    let x := s.slot e.core e.slot
    match x.state, x.block with
    | .waiting, some (.wait d) => if atOrBefore stamp d then s.makeReady e.core e.slot else s
    | _, _ => s

/-- An event line raised with a stamp. The Jig is asleep in cold reset, and then nothing is raised. -/
def State.raiseAt (s : State) (n : Fin 256) (stamp : BitVec 64) : State :=
  if s.jig.irq[n].en then s.pendInterrupt n else s.latchEvent n stamp

/-- An event line raised at the present tick. -/
def State.raise (s : State) (n : Fin 256) : State := s.raiseAt n s.now

/-- The Guard event on line 252, posted by Favar as class GUARD. -/
def State.guardEvent (s : State) (kind unit : Nat) : State := (s.raise 252).event 3 kind unit []

/-! ### Drive mute, ABORT_IN and the fail-safe state (R209, R320 to R322) -/

/-- Whether a drive lane is muted (R320). -/
def State.laneMuted (s : State) (n : Fin 16) : Bool :=
  s.safe.mute || s.dl[n].lmute || s.safe.ainA || s.safe.ainB

/-- A muted lane in RUN or RAMP enters STOPPED; a mute character is sent at once in LSL-2 (R320). -/
def State.muteLane (s : State) (n : Fin 16) : State :=
  let l := s.dl[n]
  if s.laneMuted n then
    let s := match l.state with
      | .run => s.modDl n fun x => { x with state := .stopped, lastCode := 0 }
      | .ramp => s.modDl n fun x => { x with state := .stopped, lastCode := 0 }
      | _ => s
    if bit l.acfg 0 then s.emit (.muteChar n) else s
  else s

/-- Every muted lane acts on its mute (DRIVE_LANE_MUTE). -/
def State.muteLanes (s : State) : State :=
  if s.variantL then s else (List.finRange 16).foldl (fun s n => s.muteLane n) s

/-- Each hinge pin with FSEN = 1 takes OUT := FSLVL (R442). -/
def State.pinsFailSafe (s : State) : State :=
  { s with hng := s.hng.map fun (p : Hinge) => if p.fsen then { p with out := p.fslvl } else p }

/-- The fail-safe state: MUTE, ABORT_OUT, LEVEL, DRIVE_EN and FS in one tick, with a REASON (FAIL_SAFE_APPLY, R209). A
change of FV_STATUS.FS signals vector 2. (DEDUCED, log 125) -/
def State.failSafe (s : State) (reason : BitVec 4) : State :=
  let was := s.safe.fs
  let s := { s with safe := { s.safe with mute := true, abortOut := true, level := s.safe.safeval, driveEn := false
                                          fs := true, reason := reason } }
  let s := (s.pinsFailSafe.muteLanes).event 3 1 0 [reason.setWidth 64]
  if was then s else s.msix 2

/-- A fatal event: issue stops on every core, the fail-safe state is applied, and Favar owes a warm restart with a crash
record of cause MACHINE_CHECK (FATAL_EVENT, R207); the detail and the cluster are those of the record (Table 16-16). A
fatal event during a restart, or within 10 s of the end of one, takes away the restore (R425). (DEDUCED, log 125) -/
def State.fatal (s : State) (reason : BitVec 4) (detail : BitVec 64) (k : Fin 8) : State :=
  let s := { s with cores := s.cores.map fun (c : Core) => { c with stopped := true } }
  let s := s.failSafe reason
  let soon := match s.fv.restartEnd with
    | some t => decide ((s.now - t).toNat < 10000000000)
    | none => false
  { s with fv := { s.fv with restartDue := true, restartReason := reason, fatals := s.fv.fatals + 1, fatalAt := s.now
                             fatalDetail := detail, fatalCluster := k
                             noRestore := s.fv.noRestore || s.fv.restart || soon } }

end Sys2Proof.Machine
end

