-- ==== Sys2Proof/Machine/CutQueue.lean ====
section
/-! DEFINITION. The order in which cut lists take their entries (R288, R290, R291): the entry that a list has reached, the
tick at which it is due, and stale entries. -/

namespace Sys2Proof.Machine

open Sys2Proof

/-- LEN of the active configuration, at most CAP. -/
def CutList.len (l : CutList) : Nat := min (fld l.acfg 0 15).toNat l.cap.toNat
/-- MODE of the active configuration: cyclic. -/
def CutList.cyclic (l : CutList) : Bool := bit l.acfg 15
/-- PERIOD, with 0 taken as 1. -/
def CutList.period (l : CutList) : Nat := max 1 (fld l.acfg 16 16).toNat

/-- The first frame from f on in which a cyclic list runs: f mod PERIOD = PHASE. -/
def CutList.frameFrom (l : CutList) (f : Nat) : Nat :=
  let p := l.period
  f + (((fld l.acfg 32 16).toNat % p + p - f % p) % p)

/-- The two words of entry i in the active copy. -/
def State.cutEntry (s : State) (l : CutList) (i : Nat) : Word × Word :=
  (memGet s.cutActive (2 * (l.base.toNat + i)), memGet s.cutActive (2 * (l.base.toNat + i) + 1))

/-- OP of an action word. -/
def cutOp (a : Word) : Nat := (fld a.datum 0 8).toNat
/-- LATEOK of an action word. -/
def cutLateOk (a : Word) : Bool := bit a.datum 8
/-- Whether an action word is a KTRIG. -/
def isKtrig (a : Word) : Bool := a.tag == 0x07 && cutOp a == 0x0A

/-- The entry that a list has reached: its index, action, due tick and own instant, the payload of a KTRIG, whether its
first word is unusable, whether it is skipped as stale, and whether it belongs to the old copy. -/
structure CutHead where
  entry : Nat
  action : Word
  due : Nat
  inst : Nat
  payload : Option (Word × Word)
  bad : Bool
  skip : Bool
  old : Bool
deriving DecidableEq, Repr

/-- The own instant of a first word, if it suits the list. -/
def CutList.instant (l : CutList) (w : Word) : Option Nat :=
  if l.cyclic then
    if w.tag = 0x05 ∧ w.datum.toNat < 10000 then some (l.frame * 10000 + w.datum.toNat) else none
  else if w.tag = 0x04 then some w.datum.toNat else none

/-- The tick that stands for the boundary of R291 for an instant: the activation, or a forward step that skipped it. (DESIGN CHOICE, log 73; DEDUCED, log 128) -/
def State.cutStart (s : State) (l : CutList) (i : Nat) : Nat :=
  let b := l.actAt.toNat
  let t := s.trigq
  if b ≤ t.stepFrom.toNat ∧ t.stepFrom.toNat < i ∧ i < t.stepAt.toNat then t.stepAt.toNat else b

/-- The tick at which an entry with an instant is due by R291, none where it is skipped; `first` says that the entry comes
under the activation rule. An entry that falls before the tick at which its predecessor was due, or after that and before the tick at
which the predecessor ran, waits for a late predecessor: it runs at that one's tick or is skipped; one due with its predecessor is deferred
with it (R290). (DEDUCED, log 128) -/
def cutDue (b i last ran : Nat) (first late : Bool) : Option Nat :=
  let due : Option Nat :=
    if !first ∨ b + 200 ≤ i then some i
    else if b ≤ i ∨ late = true then some (b + 200)
    else none
  match due with
  | none => none
  | some d => if d < last ∨ (last < d ∧ d < ran) then (if late then some (max last ran) else none) else some d

/-- The entry that a list has reached in its active copy. -/
def State.cutHeadNew (s : State) (n : Fin 16) : Option CutHead :=
  let l := s.cuts[n]
  let i := l.next.toNat
  if !l.started || l.done || decide (l.len ≤ i) then none
  else
    let (w, a) := s.cutEntry l i
    let payload := if isKtrig a && decide (i + 1 < l.len) then some (s.cutEntry l (i + 1)) else none
    match l.instant w with
    | none =>
      let due := if i ≠ 0 then l.lastDue
        else if l.cyclic ∧ l.actAt.toNat / 10000 ≠ l.frame then max l.lastDue (l.frame * 10000)
        else max l.lastDue (l.actAt.toNat + 200)
      some ⟨i, a, due, due, payload, true, false, false⟩
    | some t =>
      let b := s.cutStart l t
      match cutDue b t l.lastDue l.lastRun (!l.cyclic || decide (t < b + 200)) (cutLateOk a) with
      | some d => some ⟨i, a, d, t, payload, false, false, false⟩
      | none => some ⟨i, a, t, t, payload, false, true, false⟩

/-- The next action of a list: deferred actions of its old copy come first; an entry to be skipped is none. -/
def State.cutHead (s : State) (n : Fin 16) : Option CutHead :=
  match s.cuts[n].deferred with
  | d :: _ => some ⟨d.entry, d.action, d.due, d.inst, d.payload, d.bad, false, true⟩
  | [] => (s.cutHeadNew n).filter fun h => !h.skip

/-- A list goes past k entries; an absolute list is done after its last one, a cyclic one goes on in its next frame. -/
def CutList.pass (l : CutList) (k : Nat) : CutList :=
  let i := l.next.toNat + k
  if i < l.len then { l with next := BitVec.ofNat 15 i }
  else if l.cyclic then { l with next := 0, frame := l.frameFrom (l.frame + 1) }
  else { l with next := BitVec.ofNat 15 i, done := true }

/-- Entries that the head takes with it: a KTRIG takes its payload. -/
def CutHead.takes (h : CutHead) : Nat := if h.payload.isSome then 2 else 1

/-- Stale entries that a list has reached are skipped and counted. -/
def State.cutSettle (s : State) (n : Fin 16) : Nat → State
  | 0 => s
  | fuel + 1 =>
    match s.cutHeadNew n with
    | some h =>
      if h.skip then
        State.cutSettle (s.modCut n fun l => { l.pass h.takes with stale := satInc l.stale }) n fuel
      else s
    | none => s

/-- Every list skips the stale entries it has reached. -/
def State.cutSettleAll (s : State) : State :=
  (List.finRange 16).foldl (fun (s : State) n => s.cutSettle n 131072) s

end Sys2Proof.Machine
end

