-- ==== Sys2Proof/Machine/Translate.lean ====
section
/-! DEFINITION. Address translation (chapter 09): roots, trees, the walk of both stages with its checks in order, fault
reports, the translation caches and their invalidation. -/

namespace Sys2Proof.Machine

open Sys2Proof

/-- Access kinds (Table 09-4). -/
inductive Acc where
  | read | write | rmw | fetch
deriving DecidableEq, Repr

/-- ACC of FINFO. -/
def Acc.code : Acc → Nat
  | .read => 0
  | .write => 1
  | .rmw => 2
  | .fetch => 3

/-- KIND of FINFO (Table 09-7). -/
inductive FKind where
  | notValid | permission | size | format | walkDevice | walkPoison | access | dirty
deriving DecidableEq, Repr

def FKind.code : FKind → Nat
  | .notValid => 1
  | .permission => 2
  | .size => 3
  | .format => 4
  | .walkDevice => 5
  | .walkPoison => 6
  | .access => 7
  | .dirty => 8

/-- A translation fault (R225). -/
structure TrFault where
  stage : Nat
  level : Nat
  kind : FKind
  s1table : Option Nat := none
  iaddr : BitVec 40 := 0
deriving DecidableEq, Repr

/-- FINFO of a fault, for an access kind and a source (Table 09-6). -/
def TrFault.finfo (f : TrFault) (acc : Acc) (src : Nat) : BitVec 64 :=
  putN 0 f.stage ||| putN 2 f.level ||| putN 5 f.kind.code ||| fbit 9 f.s1table.isSome ||| putN 10 acc.code |||
  putN 12 src ||| putN 15 (f.s1table.getD 0) ||| (if f.stage = 2 then put 24 f.iaddr else 0)

/-- The cause of a fault by its access kind (Table 09-7). -/
def Acc.cause : Acc → Cause
  | .read => .loadFault
  | .write => .storeFault
  | .rmw => .storeFault
  | .fetch => .fetchFault

/-- The cause for SRC 0 (R226). -/
def TrFault.cause (f : TrFault) (acc : Acc) : Cause :=
  match f.kind with
  | .access => .accessFlag
  | .dirty => .dirtyFlag
  | _ => acc.cause

/-! ### PTE fields (Table 09-3) -/

def pteV (e : BitVec 64) : Bool := bit e 0
def pteL (e : BitVec 64) : Bool := bit e 1
def pteR (e : BitVec 64) : Bool := bit e 2
def pteW (e : BitVec 64) : Bool := bit e 3
def pteX (e : BitVec 64) : Bool := bit e 4
def pteU (e : BitVec 64) : Bool := bit e 5
def pteSE (e : BitVec 64) : Bool := bit e 6
def pteA (e : BitVec 64) : Bool := bit e 7
def pteD (e : BitVec 64) : Bool := bit e 8
def pteG (e : BitVec 64) : Bool := bit e 9
def pteS (e : BitVec 64) : Nat := (fld e 10 6).toNat
def pteOA (e : BitVec 64) : Nat := (fld e 16 40).toNat

/-- Levels of a tree from LEVELS (Table 09-1). -/
def rootLevels (r : BitVec 64) : Nat := 3 + (fld r 40 2).toNat

/-- Span of a tree of N levels (Table 09-2). -/
def treeSpan (n : Nat) : Nat := if n = 3 then 36 else if n = 4 then 45 else 48

/-- The index of an address at level k of a tree of N levels (Table 09-2). -/
def treeIndex (a n k : Nat) : Nat :=
  if n = 5 ∧ k = 0 then (a / 2 ^ 45) % 8 else (a / 2 ^ (9 * (n - k))) % 512

/-- The checks of R216 and R218 on a valid leaf at a level whose slots span 2^L words. -/
def leafCheck (st l : Nat) (e : BitVec 64) : Option FKind :=
  let s := pteS e
  if s < 9 ∨ 36 < s ∨ s < l ∨ l + 9 < s then some .size
  else if pteOA e % 2 ^ s ≠ 0 then some .format
  else if pteW e && !pteR e then some .format
  else if st = 2 ∧ (pteU e || pteG e) then some .format
  else none

/-- The check of R215 (and R218) on a valid table entry. -/
def tableCheck (e : BitVec 64) : Bool := fld e 2 14 == 0 && pteOA e % 512 == 0

/-- The checks on a leaf for an access (R221, R223), in the order of R224. -/
def permCheck (st : Nat) (user : Bool) (acc : Acc) (e : BitVec 64) : Option FKind :=
  let need := match acc with
    | .read => pteR e
    | .write => pteW e
    | .rmw => pteR e && pteW e
    | .fetch => pteX e
  let u := st = 2 || (if user then pteU e else !(acc == .fetch && pteU e))
  if !(need && u) then some .permission
  else if !pteA e then some .access
  else if (acc == .write || acc == .rmw) && !pteD e then some .dirty
  else none

/-- One level of a walk on an entry word: a leaf, the next table, or a fault. -/
def walkEntry (st n k : Nat) (w : Word) : Except TrFault (BitVec 64 ⊕ Nat) :=
  if w.tag = 0xFE then .error { stage := st, level := k, kind := .walkPoison }
  else if w.tag ≠ 0x0C then .error { stage := st, level := k, kind := .format }
  else
    let e := w.datum
    if !pteV e then .error { stage := st, level := k, kind := .notValid }
    else if pteL e then
      match leafCheck st (9 * (n - k)) e with
      | some f => .error { stage := st, level := k, kind := f }
      | none => .ok (.inl e)
    else if k + 1 < n ∧ tableCheck e then .ok (.inr (pteOA e))
    else .error { stage := st, level := k, kind := .format }

/-- The stage-2 walk from a table at level k, with fuel for the levels left. -/
def walk2 (s : State) (n : Nat) (ia : Nat) : Nat → Nat → Nat → Except TrFault (BitVec 64 × Nat)
  | 0, k, _ => .error { stage := 2, level := k, kind := .format, iaddr := BitVec.ofNat 40 ia }
  | fuel + 1, k, t =>
    let slot := t + treeIndex ia n k
    if inRegs slot then .error { stage := 2, level := k, kind := .walkDevice, iaddr := BitVec.ofNat 40 ia }
    else match walkEntry 2 n k (s.peek slot) with
      | .error f => .error { f with iaddr := BitVec.ofNat 40 ia }
      | .ok (.inl e) => .ok (e, k)
      | .ok (.inr t') => walk2 s n ia fuel (k + 1) t'

/-- The whole stage-2 walk of an intermediate address: leaf and its level. -/
def stage2 (s : State) (w : Fin 2) (ia : Nat) : Except TrFault (BitVec 64 × Nat) :=
  let r := s.worlds[w].s2root
  let n := rootLevels r
  if fld r 40 2 = 3 ∨ fld r 0 9 ≠ 0 then .error { stage := 2, level := 0, kind := .format, iaddr := BitVec.ofNat 40 ia }
  else if 2 ^ treeSpan n ≤ ia then .error { stage := 2, level := 0, kind := .notValid, iaddr := BitVec.ofNat 40 ia }
  else walk2 s n ia n 0 (fld r 0 40).toNat

/-- The output of a leaf for an input address. -/
def leafOut (e : BitVec 64) (a : Nat) : Nat := pteOA e + a % 2 ^ pteS e

/-- Whether a stage-2 walk-cache entry covers an intermediate address of a world. -/
def Walk2Entry.covers (e : Walk2Entry) (w : Fin 2) (ia : Nat) : Bool :=
  e.world == w && decide (ia / 2 ^ pteS e.leaf = e.base / 2 ^ pteS e.leaf)

/-- The stage-2 leaf of an intermediate address, from the stage-2 walk cache or by a walk. -/
def stage2Kept (s : State) (w : Fin 2) (kept : List Walk2Entry) (ia : Nat) : Except TrFault (BitVec 64 × Nat) :=
  match kept.find? fun e => e.covers w ia with
  | some e => .ok (e.leaf, e.level)
  | none => stage2 s w ia

/-- The stage-2 translation of the slot of a stage-1 table at level k (R219): it needs R and checks A. -/
def tableSlot (s : State) (w : Fin 2) (kept : List Walk2Entry) (k slot : Nat) : Except TrFault (Nat × Walk2Entry) :=
  match stage2Kept s w kept slot with
  | .error f => .error { f with s1table := some k }
  | .ok (e, l) =>
    let bad (f : FKind) : Except TrFault (Nat × Walk2Entry) :=
      .error { stage := 2, level := l, kind := f, s1table := some k, iaddr := BitVec.ofNat 40 slot }
    if !pteR e then bad .permission
    else if !pteA e then bad .access
    else
      let p := leafOut e slot
      if pteSE e || inRegs p then .error { stage := 1, level := k, kind := .walkDevice } else .ok (p, ⟨w, slot, e, l⟩)

/-- What the walk caches hold or take: table entries of stage 1, and stage-2 leaves of their tables. -/
structure WalkMet where
  one : List WalkEntry := []
  two : List Walk2Entry := []
deriving DecidableEq, Repr

/-- The stage-1 walk from a table at level k; entries of the walk caches stand for what they were read from. The result carries what
the walk met. -/
def walk1 (s : State) (w : Fin 2) (cache : WalkMet) (n va : Nat) :
    Nat → Nat → Nat → WalkMet → Except TrFault (BitVec 64 × Nat × WalkMet)
  | 0, k, _, _ => .error { stage := 1, level := k, kind := .format }
  | fuel + 1, k, t, met =>
    let pre := va / 2 ^ (9 * (n - k))
    let read : Except TrFault (Word × List Walk2Entry) :=
      match cache.one.find? fun e => e.world == w && e.level == k && e.prefix_ == pre with
      | some e => .ok (Word.pte e.entry, [])
      | none =>
        match tableSlot s w cache.two k (t + treeIndex va n k) with
        | .error f => .error f
        | .ok (p, e) => .ok (s.peek p, [e])
    match read with
    | .error f => .error f
    | .ok (word, es) =>
      let met := { met with two := es ++ met.two }
      match walkEntry 1 n k word with
      | .error f => .error f
      | .ok (.inl e) => .ok (e, k, met)
      | .ok (.inr t') => walk1 s w cache n va fuel (k + 1) t' { met with one := ⟨w, k, pre, word.datum⟩ :: met.one }

/-- A translation: physical address, side effects, and the combined entry it makes. -/
structure Tr where
  pa : BitVec 40
  se : Bool
  entry : TlbEntry
deriving DecidableEq, Repr

/-- The attributes of a combined entry for an access: the checks of both leaves, then the fetch rule. -/
def entryCheck (user : Bool) (acc : Acc) (e : TlbEntry) (va : Nat) : Except TrFault Tr :=
  let pa := e.pa.toNat + va % 2 ^ e.size
  let ia := match e.leaf1 with
    | some (l, _) => leafOut l va
    | none => va % 2 ^ 40
  let se1 := match e.leaf1 with
    | some (l, _) => pteSE l
    | none => false
  let se := se1 || pteSE e.leaf2 || inRegs pa
  let first : Option TrFault := match e.leaf1 with
    | some (l, k) => (permCheck 1 user acc l).map fun f => { stage := 1, level := k, kind := f }
    | none => none
  match first with
  | some f => .error f
  | none =>
    match permCheck 2 user acc e.leaf2 with
    | some f => .error { stage := 2, level := e.level2, kind := f, iaddr := BitVec.ofNat 40 ia }
    | none =>
      if acc == .fetch && se then
        if se1 then .error { stage := 1, level := (e.leaf1.map (·.2)).getD 0, kind := .permission }
        else .error { stage := 2, level := e.level2, kind := .permission, iaddr := BitVec.ofNat 40 ia }
      else .ok ⟨BitVec.ofNat 40 pa, se, e⟩

/-- translate of R219 by a walk of both stages, in the order of R224, and what the walk met. -/
def translateWalk (s : State) (w : Fin 2) (user : Bool) (cache : WalkMet) (acc : Acc) (va : BitVec 48) :
    Except TrFault (Tr × WalkMet) :=
  let v := va.toNat
  let r := s.worlds[w].s1root
  let one : Except TrFault (Option (BitVec 64 × Nat) × Nat × WalkMet) :=
    if !(bit r 42) then
      if fld va 40 8 ≠ 0 then .error { stage := 1, level := 0, kind := .notValid } else .ok (none, v, {})
    else if fld r 40 2 = 3 ∨ fld r 0 9 ≠ 0 then .error { stage := 1, level := 0, kind := .format }
    else if 2 ^ treeSpan (rootLevels r) ≤ v then .error { stage := 1, level := 0, kind := .notValid }
    else match walk1 s w cache (rootLevels r) v (rootLevels r) 0 (fld r 0 40).toNat {} with
      | .error f => .error f
      | .ok (e, k, met) =>
        match permCheck 1 user acc e with
        | some f => .error { stage := 1, level := k, kind := f }
        | none => .ok (some (e, k), leafOut e v, met)
  match one with
  | .error f => .error f
  | .ok (leaf1, ia, met) =>
    match stage2 s w ia with
    | .error f => .error f
    | .ok (e2, l2) =>
      let pa := leafOut e2 ia
      let s1 := match leaf1 with
        | some (e, _) => pteS e
        | none => 48
      let size := min s1 (pteS e2)
      let entry : TlbEntry :=
        { world := w, base := BitVec.ofNat 48 (v / 2 ^ size * 2 ^ size), size := size, leaf1 := leaf1, leaf2 := e2
          level2 := l2, pa := BitVec.ofNat 40 (pa / 2 ^ size * 2 ^ size) }
      match entryCheck user acc entry v with
      | .error f => .error f
      | .ok t => .ok (t, met)

/-! ### The table words that a walk reads (R220) -/

/-- The words that a stage-2 walk reads from a table at level k. -/
def path2 (s : State) (n : Nat) (ia : Nat) : Nat → Nat → Nat → List Nat
  | 0, _, _ => []
  | fuel + 1, k, t =>
    let slot := t + treeIndex ia n k
    if inRegs slot then []
    else slot :: (match walkEntry 2 n k (s.peek slot) with
      | .ok (.inr t') => path2 s n ia fuel (k + 1) t'
      | _ => [])

/-- The words that the stage-2 walk of an intermediate address reads. -/
def stage2Path (s : State) (w : Fin 2) (kept : List Walk2Entry) (ia : Nat) : List Nat :=
  let r := s.worlds[w].s2root
  let n := rootLevels r
  if (kept.any fun e => e.covers w ia) || decide (fld r 40 2 = 3 ∨ fld r 0 9 ≠ 0 ∨ 2 ^ treeSpan n ≤ ia) then []
  else path2 s n ia n 0 (fld r 0 40).toNat

/-- The words that a walk reads from a stage-1 table at level k. -/
def path1 (s : State) (w : Fin 2) (cache : WalkMet) (n va : Nat) : Nat → Nat → Nat → List Nat
  | 0, _, _ => []
  | fuel + 1, k, t =>
    let next (word : Word) : List Nat :=
      match walkEntry 1 n k word with
      | .error _ => []
      | .ok (.inl e) => stage2Path s w [] (leafOut e va)
      | .ok (.inr t') => path1 s w cache n va fuel (k + 1) t'
    match cache.one.find? fun e => e.world == w && e.level == k && e.prefix_ == va / 2 ^ (9 * (n - k)) with
    | some e => next (Word.pte e.entry)
    | none =>
      let slot := t + treeIndex va n k
      stage2Path s w cache.two slot ++ (match tableSlot s w cache.two k slot with
        | .error _ => []
        | .ok (p, _) => p :: next (s.peek p))

/-- The words that the walk of an address reads. -/
def walkPath (s : State) (w : Fin 2) (cache : WalkMet) (va : Nat) : List Nat :=
  let r := s.worlds[w].s1root
  if !(bit r 42) then stage2Path s w [] va
  else if fld r 40 2 = 3 ∨ fld r 0 9 ≠ 0 ∨ 2 ^ treeSpan (rootLevels r) ≤ va then []
  else path1 s w cache (rootLevels r) va (rootLevels r) 0 (fld r 0 40).toNat

/-- The walker reads words of tables through the L2 of a core's cluster (R220). -/
def State.readTables (s : State) (c : Fin 32) (l : List Nat) : State :=
  l.foldl (fun (s : State) a =>
    let s := (s.readPhys a).2
    if s.inDram a then s.l2Request (clusterOf c) (sectorOf a) .demand else s) s

/-! ### Translation caches (R230) -/

/-- Whether a combined entry covers an address of a world. -/
def TlbEntry.covers (e : TlbEntry) (w : Fin 2) (va : BitVec 48) : Bool :=
  e.world == w && decide (va.toNat / 2 ^ e.size = e.base.toNat / 2 ^ e.size)

/-- The page of the translation as a range of physical addresses. -/
def Tr.page (t : Tr) : Nat × Nat := (t.entry.pa.toNat, t.entry.pa.toNat + 2 ^ t.entry.size)

/-- The set of the shared TLB that an entry goes to. (DESIGN CHOICE, log 152) -/
def TlbEntry.set (e : TlbEntry) : Nat := e.base.toNat / 2 ^ e.size % 256

/-- The entries of a shared TLB with one more, at most eight of a set (Table 09-9). (DESIGN CHOICE, log 152) -/
def sharedAdd (l : List TlbEntry) (e : TlbEntry) : List TlbEntry :=
  e :: ((l.filter fun x => x.set == e.set).take 7 ++ l.filter fun x => x.set != e.set)

/-- Keep a translation in the TLBs of a core and its cluster, and what the walk met in the walk caches (R230). -/
def State.fillTlb (s : State) (c : Fin 32) (acc : Acc) (e : TlbEntry) (met : WalkMet) : State :=
  let s := s.modCore c fun x =>
    if acc == .fetch then { x with itlb := (e :: x.itlb).take 32 } else { x with dtlb := (e :: x.dtlb).take 64 }
  s.modCluster (clusterOf c) fun k =>
    { k with sharedTlb := sharedAdd k.sharedTlb e, walkCache := (met.one ++ k.walkCache).take 256
             walk2Cache := (met.two ++ k.walk2Cache).take 128 }

/-- A translation for a core: through a cached entry that covers the address, else by a walk. A fault found through a
cached entry is raised only after a fresh walk confirms it (R227). -/
def translate (s : State) (c : Fin 32) (w : Fin 2) (user : Bool) (acc : Acc) (va : BitVec 48) :
    Except TrFault Tr × State :=
  let core := s.cores[c]
  let tlb := (if acc == .fetch then core.itlb else core.dtlb) ++ s.clusters[clusterOf c].sharedTlb
  let fresh (cache : WalkMet) : Except TrFault Tr × State :=
    let s' := s.readTables c (walkPath s w cache va.toNat)
    match translateWalk s w user cache acc va with
    | .error f => (.error f, s')
    | .ok (t, met) => (.ok t, s'.fillTlb c acc t.entry met)
  match tlb.find? fun e => e.covers w va with
  | some e =>
    match entryCheck user acc e va.toNat with
    | .ok t => (.ok t, s)
    | .error _ => fresh {}
  | none =>
    match fresh ⟨s.clusters[clusterOf c].walkCache, s.clusters[clusterOf c].walk2Cache⟩ with
    | (.ok t, s') => (.ok t, s')
    | (.error _, _) => fresh {}

/-- Count a stage-2 fault that a world met, for HEALTH (R226). -/
def State.countStage2 (s : State) (w : Fin 2) (f : TrFault) : State :=
  if f.stage = 2 then s.modWorld w fun x => { x with stage2Faults := satInc x.stage2Faults } else s

/-! ### Invalidation (R106, R231) -/

/-- Keep only the cached translations of a core and its cluster that pass a test. -/
def State.filterTlb (s : State) (keep : TlbEntry → Bool) (keepWalk : WalkEntry → Bool) : State :=
  { s with
    cores := s.cores.map fun (x : Core) => { x with itlb := x.itlb.filter keep, dtlb := x.dtlb.filter keep }
    clusters := s.clusters.map fun (k : Cluster) =>
      { k with sharedTlb := k.sharedTlb.filter keep, walkCache := k.walkCache.filter keepWalk } }

/-- The G bit of a combined entry: that of its stage-1 leaf. -/
def TlbEntry.global (e : TlbEntry) : Bool :=
  match e.leaf1 with
  | some (l, _) => pteG l
  | none => false

/-- TLBI of form VA: every entry of the world that covers the address, and the walk-cache entries on its path. -/
def State.tlbiVa (s : State) (w : Fin 2) (va : BitVec 48) : State :=
  let n := rootLevels s.worlds[w].s1root
  s.filterTlb (fun e => !(e.covers w va))
    (fun e => !(e.world == w && e.prefix_ == va.toNat / 2 ^ (9 * (n - e.level))))

/-- TLBI of form WORLD. -/
def State.tlbiWorld (s : State) (w : Fin 2) : State :=
  s.filterTlb (fun e => !(e.world == w && !e.global)) (fun e => e.world != w)

/-- TLBI of form WORLDG. -/
def State.tlbiWorldg (s : State) (w : Fin 2) : State :=
  s.filterTlb (fun e => e.world != w) (fun e => e.world != w)

end Sys2Proof.Machine
end

