-- ==== Sys2Proof/Machine/Mach.lean ====
section
/-! DEFINITION. A running core: who runs, its registers, what ends an instruction early, and its accesses to memory
through translation, stack buffer and store buffer. -/

namespace Sys2Proof.Machine

open Sys2Proof

/-! ### The running context -/

/-- The slot of the running context. -/
def State.running (s : State) (c : Fin 32) : Slot := s.cores[c].slots[s.cores[c].slot]

/-- A two-bit world code as a world; 10 and 11 are reserved and read as Guard. -/
def worldIx (w : BitVec 2) : Fin 2 := if w = 0 then 0 else 1

/-- The world of the running context: the WORLD field of its slot (R189). -/
def State.world (s : State) (c : Fin 32) : Fin 2 := worldIx (s.running c).world

/-- The level of the running code: STAT.LVL, true for user. -/
def State.user (s : State) (c : Fin 32) : Bool := !(bit s.cores[c].lo.stat 13)

/-- Whether the running code is of the Guard supervisor level. -/
def State.gs (s : State) (c : Fin 32) : Bool := s.world c == 1 && !(s.user c)

/-- Whether the running code owns the upper half in the file (R179). -/
def Core.ownsUpper (x : Core) : Bool := !x.lzNone && x.lzSlot == x.slot && x.lzDepth == x.lo.depth
/-- Whether the running code owns the lathe state (R179). -/
def Core.ownsLathe (x : Core) : Bool := !x.llNone && x.llSlot == x.slot && x.llDepth == x.lo.depth

/-- STAT as read: LZU and LZL say whether the running code is not the owner (R179). (DEDUCED, log 36) -/
def Core.statVal (x : Core) : BitVec 64 := setBit (setBit x.lo.stat 3 (!x.ownsUpper)) 4 (!x.ownsLathe)

/-- The predicate file as visible, with the fast bank's P12 to P15 while it is in (R183) and P0 true (R65). -/
def Core.preds (x : Core) : BitVec 16 :=
  (if x.bank then setFld x.lo.pred 12 x.fastP else x.lo.pred) ||| 1

/-- Predicate k as read (R65). -/
def Core.pred (x : Core) (k : Fin 16) : Bool := bit x.preds k.val

/-- The predicate file written; P0 keeps its value (R65). -/
def Core.setPreds (x : Core) (v : BitVec 16) : Core :=
  let v := v ||| 1
  if x.bank then { x with fastP := fld v 12 4, lo := { x.lo with pred := setFld v 12 (fld x.lo.pred 12 4) } }
  else { x with lo := { x.lo with pred := v } }

/-- Predicate k written; a write to P0 is ignored (R65). -/
def Core.setPred (x : Core) (k : Fin 16) (b : Bool) : Core := x.setPreds (setBit x.preds k.val b)

/-- A general register as the file shows it (R183). -/
def Core.reg (x : Core) (r : Fin 32) : Word :=
  if h : r.val < 16 then x.lo.w[r.val]
  else if h2 : 24 ≤ r.val ∧ x.bank = true then x.fastW[r.val - 24]'(by omega)
  else x.hi.w[r.val - 16]'(by omega)

/-- A general register written; its flip mark goes. -/
def Core.setReg (x : Core) (r : Fin 32) (v : Word) : Core :=
  if h : r.val < 16 then
    { x with lo := { x.lo with w := x.lo.w.set r.val v h, marks := setBit x.lo.marks r.val false } }
  else if h2 : 24 ≤ r.val ∧ x.bank = true then
    { x with fastW := x.fastW.set (r.val - 24) v (by omega), fastMarks := setBit x.fastMarks (r.val - 24) false }
  else { x with hi := { x.hi with w := x.hi.w.set (r.val - 16) v (by omega)
                                  marks := setBit x.hi.marks (r.val - 16) false } }

/-- Whether a general register carries a flip mark (R154). -/
def Core.regMark (x : Core) (r : Fin 32) : Bool :=
  if r.val < 16 then bit x.lo.marks r.val
  else if 24 ≤ r.val ∧ x.bank = true then bit x.fastMarks (r.val - 24)
  else bit x.hi.marks (r.val - 16)

/-- PRODLO and PRODHI written; their flip marks go. -/
def UpperHalf.setProd (x : UpperHalf) (lo hi : Word) : UpperHalf :=
  { x with prodlo := lo, prodhi := hi, marks := setFld x.marks 16 (0 : BitVec 2) }
/-- QUO and REM written; their flip marks go. -/
def UpperHalf.setQuo (x : UpperHalf) (q r : Word) : UpperHalf :=
  { x with quo := q, rem := r, marks := setFld x.marks 18 (0 : BitVec 2) }

/-- A result register as it stands: 8 PRODLO, 9 PRODHI, 10 QUO, 11 REM (Table 04-4). -/
def UpperHalf.res (x : UpperHalf) (sr : BitVec 8) : Word :=
  match sr.toNat with
  | 8 => x.prodlo
  | 9 => x.prodhi
  | 10 => x.quo
  | _ => x.rem

/-- A result register written. -/
def UpperHalf.setRes (x : UpperHalf) (sr : BitVec 8) (w : Word) : UpperHalf :=
  match sr.toNat with
  | 8 => { x with prodlo := w, marks := setBit x.marks 16 false }
  | 9 => { x with prodhi := w, marks := setBit x.marks 17 false }
  | 10 => { x with quo := w, marks := setBit x.marks 18 false }
  | _ => { x with rem := w, marks := setBit x.marks 19 false }

/-- Whether a register belongs to the upper half (R180). -/
def Core.isUpper (x : Core) (r : Fin 32) : Bool := decide (16 ≤ r.val) && !(decide (24 ≤ r.val) && x.bank)

/-- The stack pointer of a level. (DESIGN CHOICE, log 34) -/
def Core.sp (x : Core) (user : Bool) : BitVec 64 := if user then x.lo.spU else x.lo.spS
/-- The stack limit of a level. -/
def Core.slim (x : Core) (user : Bool) : BitVec 64 := if user then x.lo.slimU else x.lo.slimS
def Core.setSp (x : Core) (user : Bool) (v : BitVec 64) : Core :=
  if user then { x with lo := { x.lo with spU := v } } else { x with lo := { x.lo with spS := v } }
/-- The dirty words of the stack buffer of a level. -/
def Core.stackBuf (x : Core) (user : Bool) : List StackEntry := if user then x.stackBufU else x.stackBufS
def Core.setStackBuf (x : Core) (user : Bool) (l : List StackEntry) : Core :=
  if user then { x with stackBufU := l } else { x with stackBufS := l }

/-- A RETA word of a PC, a world and a level (Table 02-7). -/
def mkReta (pc : BitVec 49) (w : Fin 2) (supervisor : Bool) : Word :=
  Word.reta (pc.setWidth 64 ||| fbit 61 supervisor ||| putN 62 w.val)

/-- The PC of a RETA datum. (DEDUCED, log 32) -/
def retaPc (d : BitVec 64) : BitVec 49 := fld d 0 49

/-! ### What ends an instruction early -/

/-- Why an instruction does not complete. -/
inductive Trap where
  /-- An exception: cause, FADDR and FINFO where the cause writes them, and EPC where it is not the instruction. -/
  | exc (x : Cause) (fault : Option (BitVec 48 × BitVec 64)) (epc : Option (BitVec 49))
  /-- A lazy transfer that cannot be made (R184): FADDR, FINFO, and the half that goes to the drawer with its owner's
  depth (true: lathe state). -/
  | lazyFail (faddr : BitVec 48) (finfo : BitVec 64) (half : Option (Bool × BitVec 5 × List Word))
  /-- The instruction blocks (WAIT, CLAMP, RECV). -/
  | block (st : SlotState) (b : Block)
  /-- The instruction is taken back to its start, to be executed again (R94). -/
  | stall
  /-- Nothing of it happens: the command does not describe what the core executes. -/
  | inapplicable
deriving DecidableEq, Repr

/-- A microcode sequence: it may end early, and what it did before stays. -/
abbrev M := EStateM Trap State

/-- Raise a cause with EPC naming the instruction. -/
def raiseC {α : Type} (x : Cause) : M α := throw (.exc x none none)

/-- Raise a cause if there is one. -/
def raiseIf (x : Option Cause) : M Unit :=
  match x with
  | some c => raiseC c
  | none => pure ()

/-- Raise a cause unless a condition holds. -/
def need (ok : Bool) (x : Cause) : M Unit := if ok then pure () else raiseC x

/-- Take the value of a pure check or raise its cause. -/
def liftE {α : Type} (e : Except Cause α) : M α :=
  match e with
  | .ok a => pure a
  | .error c => raiseC c

/-! ### Accesses -/

/-- A translation, with its fault as a value. -/
def xlTry (c : Fin 32) (w : Fin 2) (user : Bool) (acc : Acc) (va : BitVec 48) : M (Except TrFault Tr) := fun s =>
  match translate s c w user acc va with
  | (.ok t, s') => .ok (.ok t) s'
  | (.error f, s') => .ok (.error f) (s'.countStage2 w f)

/-- xl of Table 05-2 for the running code: a fault raises its cause by source (R226). -/
def xlSrc (c : Fin 32) (acc : Acc) (va : BitVec 48) (src : Nat) : M Tr := do
  let s ← get
  match ← xlTry c (s.world c) (s.user c) acc va with
  | .ok t => pure t
  | .error f =>
    let x := if src = 0 then f.cause acc else acc.cause
    throw (.exc x (some (va, f.finfo acc src)) none)

/-- xl with SRC 0. -/
def xl (c : Fin 32) (acc : Acc) (va : BitVec 48) : M Tr := xlSrc c acc va 0

/-- The world whose region holds a word of the cut-list shadow copy, if one does (R287). -/
def State.cutRegion (s : State) (w : Fin 2) (pa : Nat) : Bool :=
  let e := (pa - 0xE100000000) / 2
  s.cuts.toList.any fun l => decide (l.world.toNat = w.val) && decide (l.base.toNat ≤ e) &&
    decide (e < l.base.toNat + l.cap.toNat)

/-- Whether an access of a world meets no word: the cut-list memory outside the world's regions (R287). -/
def State.cutHidden (s : State) (w : Fin 2) (pa : Nat) : Bool := inCutMem pa && !(s.cutRegion w pa)

/-- A word of the stack buffers of a core, by virtual address (R76). (DESIGN CHOICE, log 17) -/
def Core.stackHit (x : Core) (va : BitVec 48) : Option Word :=
  match x.stackBufU.find? fun e => e.va == va with
  | some e => some e.word
  | none => (x.stackBufS.find? fun e => e.va == va).map (·.word)

/-- Replace a word held in the stack buffers. (DESIGN CHOICE, log 17) -/
def Core.stackPut (x : Core) (va : BitVec 48) (w : Word) : Core :=
  let put (l : List StackEntry) : List StackEntry := l.map fun e => if e.va == va then { e with word := w } else e
  { x with stackBufU := put x.stackBufU, stackBufS := put x.stackBufS }

/-- A load of a word of memory through a translation: stack buffer, then the core's own stores, then memory. A
side-effect access waits for every earlier access (R86); a cut-list word outside the world's regions reads NIL (R287). A load
whose burst has not come is taken back to its start, and one whose read PORTWD has dropped gets POISON (R238, R255). (DESIGN
CHOICE, log 147) -/
def loadMem (c : Fin 32) (t : Tr) (va : BitVec 48) (stream : Bool) : M Word := fun s =>
  match s.cores[c].stackHit va with
  | some w => .ok w s
  | none =>
    let s := if t.se then s.drainStores c else s
    if s.cutHidden (s.world c) t.pa.toNat then .ok Word.nil s
    else if t.se || !(s.inDram t.pa.toNat) then
      let (w, s) := s.coreRead c t.pa
      .ok w s
    else
      let s := s.cacheRead c t.pa stream t.page
      let x := sectorOf t.pa.toNat
      if x ∈ s.cores[c].lostReads then
        .ok (poisonAt 2 t.pa.toNat) (s.modCore c fun y => { y with lostReads := y.lostReads.filter fun z => z != x })
      else if s.cores[c].waits && s.clusters[clusterOf c].sector x == .filling then
        .error .stall (s.modCore c fun y => { y with awaits := some x })
      else
        let (w, s) := s.coreRead c t.pa
        .ok w s

/-- What the store buffer keeps of a store of the running instruction. -/
def State.storeOf (s : State) (c : Fin 32) (t : Tr) (w : Word) (card : Option (Fin 2 × Nat)) : StoreEntry :=
  ⟨t.pa, w, card, s.cores[c].slot, s.codeRegion c, t.page⟩

/-- A store of a word of memory through a translation. -/
def storeMem (c : Fin 32) (t : Tr) (va : BitVec 48) (w : Word) (card : Option (Fin 2 × Nat)) : M Unit := fun s =>
  match s.cores[c].stackHit va with
  | some _ => .ok () (s.modCore c fun x => x.stackPut va w)
  | none =>
    let s := if t.se then s.drainStores c else s
    if s.cutHidden (s.world c) t.pa.toNat then .ok () s
    else if t.se then .ok () (s.dmaWrite t.pa.toNat w)
    else .ok () (s.pushStore c (s.storeOf c t w card))

/-- The write of an atomic update for a world: the core's earlier stores are visible first, then the word at once; on a
side-effect page it goes past the caches (R86). -/
def atomicMem (c : Fin 32) (world : Fin 2) (t : Tr) (w : Word) (card : Option (Fin 2 × Nat)) : M Unit := fun s =>
  let s := s.drainStores c
  let s := match card with
    | some m => s.queueCard (clusterOf c) m
    | none => s
  if s.cutHidden world t.pa.toNat then .ok () s
  else if t.se then .ok () (s.dmaWrite t.pa.toNat w)
  else .ok () (s.storeWatched c (s.storeOf c t w none))

/-- The word at a translated address for a world, after the core's earlier stores are visible. -/
def atomicRead (c : Fin 32) (world : Fin 2) (t : Tr) : M Word := fun s =>
  let s := s.drainStores c
  if s.cutHidden world t.pa.toNat then .ok Word.nil s
  else
    let (w, s) := s.readPhys t.pa.toNat
    .ok w s

/-- A read of memory that microcode makes on a core's behalf (R211). (DESIGN CHOICE, log 31) -/
def microRead (c : Fin 32) (va : BitVec 48) (src : Nat) : M Word := do
  let t ← xlSrc c .read va src
  loadMem c t va false

/-- A write of memory that microcode makes on a core's behalf. (DESIGN CHOICE, log 31) -/
def microWrite (c : Fin 32) (va : BitVec 48) (w : Word) (src : Nat) : M Unit := do
  let t ← xlSrc c .write va src
  storeMem c t va w none

/-- SP of a level moved up by n words: what the stack buffer holds of them is no part of any frame any more (R75). (DEDUCED, log 33) -/
def Core.popStack (x : Core) (user : Bool) (n : Nat) : Core :=
  let lo := (x.sp user).toNat
  (x.setSp user (x.sp user + BitVec.ofNat 64 n)).setStackBuf user
    ((x.stackBuf user).filter fun e => decide (e.va.toNat < lo) || decide (lo + n ≤ e.va.toNat))

/-- Put a word into the stack buffer of a level (R76): the word held there is replaced, else it is the youngest. -/
def Core.pushStack (x : Core) (user : Bool) (va : BitVec 48) (w : Word) : Core :=
  if (x.stackBuf user).any fun e => e.va == va then
    x.setStackBuf user ((x.stackBuf user).map fun e => if e.va == va then { e with word := w } else e)
  else x.setStackBuf user (x.stackBuf user ++ [⟨va, w⟩])

end Sys2Proof.Machine
end

