-- ==== Sys2Proof/Machine/Heap.lean ====
section
/-! DEFINITION. Boards, cards, the read and write barriers, copying, and allocation (chapter 06). -/

namespace Sys2Proof.Machine

open Sys2Proof

/-- On whose behalf microcode or a Planer accesses memory: the core whose cluster it uses, the world and level of its
translation, and SRC of a fault. -/
structure Via where
  core : Fin 32
  world : Fin 2
  user : Bool
  src : Nat
deriving DecidableEq, Repr

/-- The running code of a core. -/
def State.via (s : State) (c : Fin 32) (src : Nat) : Via := ⟨c, s.world c, s.user c, src⟩

/-- A translation on someone's behalf (R226). -/
def xlVia (v : Via) (acc : Acc) (va : BitVec 48) : M Tr := do
  match ← xlTry v.core v.world v.user acc va with
  | .ok t => pure t
  | .error f =>
    let x := if v.src = 0 then f.cause acc else acc.cause
    throw (.exc x (some (va, f.finfo acc v.src)) none)

/-- A coherent read: the core's earlier stores are visible first. -/
def viaRead (v : Via) (va : BitVec 48) : M Word := do
  let t ← xlVia v .read va
  match (← get).cores[v.core].stackHit va with
  | some w => pure w
  | none => atomicRead v.core v.world t

/-- A coherent write, visible at once. -/
def viaWrite (v : Via) (va : BitVec 48) (w : Word) (card : Option (Fin 2 × Nat)) : M Unit := do
  let t ← xlVia v .write va
  match (← get).cores[v.core].stackHit va with
  | some _ => modify fun s => s.modCore v.core fun x => x.stackPut va w
  | none => atomicMem v.core v.world t w card

/-- Translate n words from an address upward, so that a fault is met before anything is changed. -/
def xlSpan (v : Via) (acc : Acc) : Nat → BitVec 48 → M Unit
  | 0, _ => pure ()
  | n + 1, va => do
    let _ ← xlVia v acc va
    xlSpan v acc n (va + 1)

/-! ### Boards (R141, R143, R144) -/

/-- The board of the window that holds an address, counted from BASE. -/
def Heap.board (h : Heap) (va : BitVec 48) : Option Nat :=
  let b := va.toNat / 65536
  if h.base.toNat ≤ b ∧ b < h.base.toNat + h.count.toNat then some (b - h.base.toNat) else none

/-- The OLD bit of a board in a core's copy of the map. -/
def Core.boardOld (x : Core) (w : Fin 2) (k : Nat) : Bool := bit (x.bmap[w].getD (k / 32) 0) (2 * (k % 32))
/-- The CONDEMNED bit of a board in a core's copy of the map. -/
def Core.boardCond (x : Core) (w : Fin 2) (k : Nat) : Bool := bit (x.bmap[w].getD (k / 32) 0) (2 * (k % 32) + 1)

/-- Whether an address lies on a condemned board, by a core's copy of the map. -/
def State.condemned (s : State) (c : Fin 32) (w : Fin 2) (va : BitVec 48) : Bool :=
  match s.worlds[w].heap.board va with
  | some k => s.cores[c].boardCond w k
  | none => false

/-- The two bits of a board in the map in memory: CONDEMNED, OLD. (DESIGN CHOICE, log 61) -/
def State.mapBits (s : State) (w : Fin 2) (k : Nat) : Bool × Bool :=
  let d := (s.peek (s.worlds[w].heap.bmap.toNat + k / 32)).datum
  (bit d (2 * (k % 32) + 1), bit d (2 * (k % 32)))

/-- The Planer or ALLOC changes the state of a board, in the map and in the cores' copies (R144). -/
def State.setBoard (s : State) (w : Fin 2) (k : Nat) (cond old : Bool) : State :=
  let a := s.worlds[w].heap.bmap.toNat + k / 32
  let upd (d : BitVec 64) : BitVec 64 := setBit (setBit d (2 * (k % 32)) old) (2 * (k % 32) + 1) cond
  let s := s.dmaWrite a (Word.raw (upd (s.peek a).datum))
  { s with cores := s.cores.map fun (x : Core) =>
    { x with bmap := vmod x.bmap w fun l => l.modify (k / 32) upd } }

/-- Take the next board of the pool ring (R146); none when it is empty, and then POOL_EMPTY is set (R150, R159). -/
def State.takePool (s : State) (w : Fin 2) : Option Nat × State :=
  let h := s.worlds[w].heap
  if h.poolHead = h.poolTail ∨ h.poolSize = 0 then (none, s.modHeap w fun h => { h with poolEmpty := true, lapse := h.lapse || h.phase != .idle })
  else
    let d := (s.peek (h.poolAddr.toNat + h.poolHead.toNat % h.poolSize.toNat)).datum
    (some (d.toNat % 2 ^ 32), s.modHeap w fun h => { h with poolHead := h.poolHead + 1 })

/-- Append a free board to the pool ring; a full ring, or one of SIZE 0, discards it and sets GIVE_LOST (R146). HEAD and TAIL
count entries without end, and an entry's place is its count modulo SIZE. (DESIGN CHOICE, log 58; DESIGN CHOICE, log 133) -/
def State.givePool (s : State) (w : Fin 2) (board : BitVec 32) : State :=
  let h := s.worlds[w].heap
  if h.poolSize = 0 ∨ h.poolSize.toNat ≤ (h.poolTail - h.poolHead).toNat then
    s.modHeap w fun h => { h with giveLost := true }
  else
    (s.dmaWrite (h.poolAddr.toNat + h.poolTail.toNat % h.poolSize.toNat) (Word.raw (board.setWidth 64))).modHeap w
      fun h => { h with poolTail := h.poolTail + 1 }

/-! ### The write barrier (R151) -/

/-- The card that a store of a word at an address must mark, if any. -/
def State.cardMark (s : State) (c : Fin 32) (w : Fin 2) (va : BitVec 48) (v : Word) : Option (Fin 2 × Nat) :=
  let h := s.worlds[w].heap
  if isPtrTag v.tag then
    match h.board (fld v.datum 0 48), h.board va with
    | some t, some l =>
      if !(s.cores[c].boardOld w t) && s.cores[c].boardOld w l then
        some (w, (va.toNat - h.base.toNat * 65536) / 64)
      else none
    | _, _ => none
  else none

/-- wb of Table 05-2: a store through the write barrier, after its translation. -/
def wbStore (c : Fin 32) (t : Tr) (va : BitVec 48) (v : Word) : M Unit := do
  let s ← get
  storeMem c t va v (s.cardMark c (s.world c) va v)

/-! ### Space for copies and chunks (R156, R159) -/

/-- Words of a board that hold a copy or chunk of a size at an alignment, or the need of another board. -/
def boardRoom (used size align : Nat) : Option Nat :=
  let a := cdiv used align * align
  if a + size ≤ 65536 then some a else none

/-- Write a FILL run over free words. -/
def fillRun (v : Via) (va : Nat) (n : Nat) : M Unit :=
  if n = 0 then pure () else viaWrite v (BitVec.ofNat 48 va) (Word.fill (BitVec.ofNat 64 n)) none

/-- Where boards in use for copies and chunks are kept. -/
inductive Area where
  | nursery | survivor | old
deriving DecidableEq, Repr

def Heap.area (h : Heap) : Area → Option (BitVec 32 × Nat)
  | .nursery => h.nursery
  | .survivor => h.survivor
  | .old => h.oldTo

def Heap.setArea (h : Heap) (a : Area) (x : Option (BitVec 32 × Nat)) : Heap :=
  match a with
  | .nursery => { h with nursery := x }
  | .survivor => { h with survivor := x }
  | .old => { h with oldTo := x }

/-- Reserve words of a board of an area, aligned; another board is taken from the pool when the current one is used up. The
free rest of the board, and the words skipped, are FILL runs (R142). With the pool empty ALLOC_FAIL is raised. -/
def reserve (v : Via) (a : Area) (size align : Nat) : M Nat := do
  let h := (← get).worlds[v.world].heap
  let cur := match h.area a with
    | some (b, used) => (boardRoom used size align).map fun p => (b, used, p)
    | none => none
  match cur with
  | some (b, used, p) =>
    fillRun v (b.toNat * 65536 + p + size) (65536 - (p + size))
    fillRun v (b.toNat * 65536 + used) (p - used)
    modify fun s => s.modHeap v.world fun h => h.setArea a (some (b, p + size))
    pure (b.toNat * 65536 + p)
  | none =>
    let (nb, s) := (← get).takePool v.world
    set s
    match nb with
    | none => raiseC .allocFail
    | some b =>
      fillRun v (b * 65536 + size) (65536 - size)
      modify fun s => (s.setBoard v.world (b - h.base.toNat) false (a == .old)).modHeap v.world fun h =>
        h.setArea a (some (BitVec.ofNat 32 b, size))
      pure (b * 65536)

/-- A reservation made last in an area is given back: its words are free again. -/
def release (v : Via) (a : Area) (size : Nat) : M Unit := do
  match (← get).worlds[v.world].heap.area a with
  | some (b, used) =>
    fillRun v (b.toNat * 65536 + (used - size)) (65536 - (used - size))
    modify fun s => s.modHeap v.world fun h => h.setArea a (some (b, used - size))
  | none => pure ()

/-! ### The read barrier (R147, R148) -/

/-- Move the Jig's waiter records of a copied clamp word to its new address (R161). -/
def State.moveWaiters (s : State) (old new : BitVec 40) : State :=
  { s with cores := s.cores.map fun (x : Core) =>
    { x with slots := x.slots.map fun (k : Slot) =>
      match k.block with
      | some (.clamp pa d t) => if pa = old then { k with block := some (.clamp new d t) } else k
      | _ => k } }

/-- Copy fields i + 1 to len of an object to its new place, moving waiter records of clamp words. -/
def copyFields (v : Via) (src dst : BitVec 48) : Nat → Nat → M Unit
  | 0, _ => pure ()
  | n + 1, i => do
    let a := src + BitVec.ofNat 48 (i + 1)
    let b := dst + BitVec.ofNat 48 (i + 1)
    let w ← viaRead v a
    let s ← get
    viaWrite v b w (s.cardMark v.core v.world b w)
    if w.tag = 0x0D then
      let ta ← xlVia v .read a
      let tb ← xlVia v .write b
      modify fun s => s.moveWaiters ta.pa tb.pa
    copyFields v src dst n (i + 1)

/-- Live words that the Planer has met in a cycle: at 60 % of the window, condition 2 of R163 is broken (R164). (DEDUCED, log
134) -/
def Heap.meet (h : Heap) (n : Nat) : Heap :=
  { h with live := h.live + n, lapse := h.lapse || decide (h.count.toNat * 65536 * 60 ≤ (h.live + n) * 100) }

/-- One slow path is counted (R150). -/
def Heap.slowPath (h : Heap) : Heap := { h with slow := h.slow + 1 }

/-- Set the seen bit of the card that holds the header of a large object; the object is scanned once (R148, R153). -/
def State.setSeen (s : State) (w : Fin 2) (va : BitVec 48) (n : Nat) : State :=
  let h := s.worlds[w].heap
  let k := (va.toNat - h.base.toNat * 65536) / 64
  let a := h.seen.toNat + k / 64
  let d := (s.peek a).datum
  if bit d (k % 64) then s
  else (s.dmaWrite a (Word.raw (setBit d (k % 64) true))).modHeap w fun h => { h.meet n with seenQ := h.seenQ ++ [va] }

/-- The address to which a FWD word leads; the access waits while the copy there is in progress (R148, R162). -/
def follow (v : Via) (w : Word) : M (BitVec 48) := do
  need (!(malformed w)) .tagMismatch
  let n : BitVec 48 := fld w.datum 0 48
  if (← viaRead v n).tag = 0x82 then throw .stall
  pure n

/-- Copy an object of a header to a reserved place: the FWD word stands in the old header while the fields are copied, and
the new header comes last (R148). -/
def copyObject (v : Via) (va nv : BitVec 48) (hd : Word) (age : Nat) : M Unit := do
  let len := hdrLen hd
  xlSpan v .write (len + 1) nv
  viaWrite v nv (Word.fill (BitVec.ofNat 64 (len + 1))) none
  viaWrite v va (Word.fwd (nv.setWidth 64)) none
  copyFields v va nv len 0
  viaWrite v nv { hd with datum := setFld hd.datum 48 (BitVec.ofNat 4 age) } none
  modify fun s => s.modHeap v.world fun h => { h.meet (len + 1) with toSpace := h.toSpace ++ [(nv, len)] }

/-- resolve of R148: the address of the object after the barrier, for a pointer into a condemned board. Every translation of a
copy is made before anything is changed; a copy that cannot be made gives its space back. A pointer to no header is left
as it is. (DESIGN CHOICE, log 135) -/
def resolveAddr (v : Via) (va : BitVec 48) : M (BitVec 48) := do
  modify fun s => s.modHeap v.world Heap.slowPath
  let hd ← viaRead v va
  if hd.tag = 0x81 then follow v hd
  else if hd.tag ≠ 0x80 then pure va
  else if 256 < hdrLen hd ∨ kindPinned (hdrKind hd) = true then
    let s ← get
    match s.worlds[v.world].heap.board va with
    | some k =>
      if !(s.cores[v.core].boardOld v.world k) then
        modify fun s => s.modHeap v.world fun h => { h with stranded := true, lapse := true }
    | none => pure ()
    modify fun s => s.setSeen v.world va (hdrLen hd + 1)
    if hdrKind hd = 0x0D then modify fun s => s.modHeap v.world fun h => { h with ctxQ := h.ctxQ ++ [va] }
    pure va
  else
    let heap := (← get).worlds[v.world].heap
    let age := min (hdrAge hd + 1) 15
    let area : Area := if heap.fullCycle || decide (heap.promoteAge.toNat ≤ age) then .old else .survivor
    xlSpan v .read (hdrLen hd + 1) va
    let _ ← xlVia v .rmw va
    let n ← reserve v area (hdrLen hd + 1) 1
    let nv := BitVec.ofNat 48 n
    tryCatch (copyObject v va nv hd age) fun t => do
      release v area (hdrLen hd + 1)
      throw t
    pure nv

/-- Whether a word points into a condemned board (R147). -/
def State.suspect (s : State) (v : Via) (w : Word) : Bool :=
  isPtrTag w.tag && s.condemned v.core v.world (fld w.datum 0 48)

/-- A pointer word after the read barrier's check (R147): one into a condemned board is resolved, any other is kept. -/
def resolveWord (v : Via) (w : Word) : M Word := do
  if (← get).suspect v w then
    let n ← resolveAddr v (fld w.datum 0 48)
    pure { w with datum := setFld w.datum 0 n }
  else pure w

/-- The source of a read-barrier copy: SRC 5, but that of the Jig, a lazy transfer or the Planer where it is theirs (R226). -/
def Via.copier (v : Via) : Via := if v.src = 0 then { v with src := 5 } else v

/-- rb of Table 05-2 on a word of memory that has been loaded: FWD words on a condemned board are followed, a pointer into a
condemned board is resolved and written back with swap through the write barrier. The address is that of the word finally
delivered. (DEDUCED, log 136) -/
def barrierWord (v : Via) : Nat → BitVec 48 → Word → M (BitVec 48 × Word)
  | 0, va, w => pure (va, w)
  | fuel + 1, va, w => do
    if w.tag = 0x81 && (← get).condemned v.core v.world va then
      modify fun s => s.modHeap v.world Heap.slowPath
      let n ← follow v.copier w
      let x ← viaRead v.copier n
      barrierWord v fuel n x
    else
      let r ← resolveWord v.copier w
      if r = w then pure (va, w)
      else
        let s ← get
        match s.cores[v.core].stackHit va with
        | some _ => set (s.modCore v.core fun x => x.stackPut va r)
        | none =>
          let t ← xlVia v.copier .rmw va
          atomicMem v.core v.world t r (s.cardMark v.core v.world va r)
        pure (va, r)

/-- The number of FWD words that a load follows at most: two copies of one object never stand in one chain of cycles. -/
def fwdFuel : Nat := 16

/-- A load through the read barrier at an address already translated (rb of Table 05-2). -/
def rbLoad (c : Fin 32) (t : Tr) (va : BitVec 48) (stream : Bool) : M (BitVec 48 × Word) := do
  let w ← loadMem c t va stream
  let v := (← get).via c 0
  if t.se then pure (va, w) else barrierWord v fwdFuel va w

/-! ### Allocation (R159, R160) -/

/-- The least n with 2^n not below a number. -/
def log2Up (x : Nat) : Nat := if x ≤ 1 then 0 else (x - 1).log2 + 1

/-- Set the allocation region of the running context. -/
def State.setRegion (s : State) (c : Fin 32) (p l : Nat) : State :=
  s.modCore c fun x => { x with lo := { x.lo with allocp := BitVec.ofNat 64 p, allocl := BitVec.ofNat 64 l } }

/-- ALLOC_REFILL: retire the region and take a new chunk that holds an object of a LENGTH (R159). -/
def allocRefill (c : Fin 32) (len : Nat) : M Unit := do
  let s ← get
  let v := s.via c 0
  let lo := s.cores[c].lo
  let n := max s.worlds[v.world].heap.nchunk.toNat (log2Up (len + 1))
  let a ← reserve v .nursery (2 ^ n) (2 ^ n)
  fillRun v a (2 ^ n)
  fillRun v lo.allocp.toNat (lo.allocl.toNat - lo.allocp.toNat)
  modify fun s => s.setRegion c a (a + 2 ^ n)

/-- Words allocated, for condition 1 of R163: above 200,000 in one millisecond the guarantee of every running cycle lapses
(R164). (DEDUCED, log 134) -/
def State.countAlloc (s : State) (n : Nat) : State :=
  let log := (s.allocLog.filter fun e => decide (s.now.toNat < e.1 + 1000000)) ++ [(s.now.toNat, n)]
  let s := { s with allocLog := log }
  if (log.map (·.2)).sum ≤ 200000 then s
  else { s with worlds := s.worlds.map fun (w : World) =>
    { w with heap := { w.heap with lapse := w.heap.lapse || w.heap.phase != .idle } } }

/-- Space for a small object from the region of the context: its header address; ALLOCP advances. -/
def allocSmall (c : Fin 32) (len : Nat) : M Nat := do
  let s ← get
  let lo := s.cores[c].lo
  let w := s.world c
  if lo.allocl.toNat < lo.allocp.toNat + len + 1 ∨ s.condemned c w (fld lo.allocp 0 48) = true then allocRefill c len
  let p := (← get).cores[c].lo.allocp.toNat
  modify fun s => s.modCore c fun x => { x with lo := { x.lo with allocp := BitVec.ofNat 64 (p + len + 1) } }
  pure p

/-- Walk the large-object free list over at most 16 runs for the first of a size: the run, its length, its next, and the place
of the link to it (none: the HEAD register). A malformed run ends the walk and sets LOBAD, also where a run before it
fits (R160). (DEDUCED, log 129) -/
def findRun (v : Via) (size : Nat) :
    Nat → Option Nat → Nat → Option (Nat × Nat × Nat × Option Nat) → M (Option (Nat × Nat × Nat × Option Nat))
  | 0, _, _, got => pure got
  | fuel + 1, link, a, got => do
    if a = 0 then pure got
    else
      let f ← viaRead v (BitVec.ofNat 48 a)
      let n ← viaRead v (BitVec.ofNat 48 (a + 1))
      if f.tag ≠ 0x82 ∨ n.tag ≠ 0x07 then
        modify fun s => s.modHeap v.world fun h => { h with lobad := true }
        pure got
      else
        let run := (fld f.datum 0 40).toNat
        let next := n.datum.toNat % 2 ^ 48
        findRun v size fuel (some (a + 1)) next
          (if got.isNone && decide (size ≤ run) then some (a, run, next, link) else got)

/-- Change the link to a run of the free list. -/
def setLink (v : Via) (link : Option Nat) (a : Nat) : M Unit :=
  match link with
  | none => modify fun s => s.modHeap v.world fun h => { h with lofree := BitVec.ofNat 48 a }
  | some p => viaWrite v (BitVec.ofNat 48 p) (Word.raw (BitVec.ofNat 64 a)) none

/-- LARGE_OBJECT_ALLOC: take a run for an object of a LENGTH from the large-object free list (R160). (DEDUCED, log 129) -/
def allocLarge (v : Via) (len : Nat) : M Nat := do
  let head := (← get).worlds[v.world].heap.lofree.toNat
  match ← findRun v (len + 1) 16 none head none with
  | none => raiseC .allocFail
  | some (a, run, next, link) =>
    xlSpan v .write (len + 1) (BitVec.ofNat 48 a)
    let used := cdiv (len + 1) 64 * 64
    let rest := (run - used) / 64 * 64
    if 64 ≤ run - used then
      viaWrite v (BitVec.ofNat 48 (a + used)) (Word.fill (BitVec.ofNat 64 rest)) none
      viaWrite v (BitVec.ofNat 48 (a + used + 1)) (Word.raw (BitVec.ofNat 64 next)) none
      fillRun v (a + len + 1) (used - (len + 1))
      fillRun v (a + used + rest) (run - used - rest)
      setLink v link (a + used)
    else
      fillRun v (a + len + 1) (run - (len + 1))
      setLink v link next
    pure a

/-- Write the words of an object's body from an address upward. -/
def writeBody (c : Fin 32) : BitVec 48 → List Word → M Unit
  | _, [] => pure ()
  | a, w :: ws => do
    let t ← xl c .write a
    wbStore c t a w
    writeBody c (a + 1) ws

/-- Allocate an object: header and body, from the region or a large-object board; its header address (R129). -/
def allocObj (c : Fin 32) (kind : Nat) (body : List Word) : M (BitVec 48) := do
  let len := body.length
  let a ← if 256 < len ∨ kindPinned kind = true then allocLarge ((← get).via c 0) len else allocSmall c len
  let va := BitVec.ofNat 48 a
  writeBody c va (mkHdr len kind 0 :: body)
  modify fun s => s.countAlloc (len + 1)
  pure va

/-- Make objects whole or leave ALLOCP and ALLOCL as they were, whatever ends the attempt (R35, R129). -/
def allocWhole {α : Type} (c : Fin 32) (m : M α) : M α := do
  let lo := (← get).cores[c].lo
  tryCatch m fun e => do
    modify fun s => s.setRegion c lo.allocp.toNat lo.allocl.toNat
    throw e

/-- Allocate one object so (R35, R129). -/
def allocSafe (c : Fin 32) (kind : Nat) (body : List Word) : M (BitVec 48) := allocWhole c (allocObj c kind body)

end Sys2Proof.Machine
end

