-- ==== Sys2Proof/Machine/Jig.lean ====
section
/-! DEFINITION. The Jig and the entry sequences of a core: stack spills, stack failure, exception entry, lazy transfers,
the switch, ranking and what is due at an instruction boundary (chapters 07 and 08). -/

namespace Sys2Proof.Machine

open Sys2Proof

/-! ### Jig and Planer faults (R228) -/

/-- JIG_PLANER_FAULT: record a fault of the Jig or a Planer and raise line 253. -/
def State.jigFault (s : State) (w : Fin 2) (faddr : BitVec 48) (finfo : BitVec 64) : State :=
  (s.modHeap w fun h => { h with afaddr := faddr, afinfo := finfo, afValid := true }).raise 253

/-- FADDR and FINFO of a trap, where it has them. -/
def Trap.fault : Trap → Option (BitVec 48 × BitVec 64)
  | .exc _ f _ => f
  | .lazyFail a i _ => some (a, i)
  | _ => none

/-! ### Rooms (R167, R181) -/

/-- The address of the room of code (slot, depth), if it has one. -/
def Slot.room (k : Slot) (depth : Nat) : Option (BitVec 48) :=
  if depth = 0 then some (k.handle + 45)
  else if depth ≤ k.frames.toNat then some (k.handle + BitVec.ofNat 48 (101 + 56 * (depth - 1)))
  else none

/-- The depth of the context in a slot: that of the core while it runs, else the one saved with it. -/
def Core.depthOf (x : Core) (k : Fin 64) : BitVec 5 := if x.running ∧ x.slot = k then x.lo.depth else x.slots[k].depth

/-- Whether code (slot, depth) is live: its context is resident and its depth is at least that (R181). -/
def Core.live (x : Core) (k : Fin 64) (d : BitVec 5) : Bool :=
  x.slots[k].state != .empty && decide (d.toNat ≤ (x.depthOf k).toNat)

/-- Accesses to a room or record on behalf of the context in a slot, as its supervisor. -/
def State.viaSlot (s : State) (c : Fin 32) (k : Fin 64) (src : Nat) : Via := ⟨c, worldIx (s.slot c k).world, false, src⟩

/-! ### Operations in flight (R58, R62) -/

/-- A MUL in flight completes into PRODLO and PRODHI. (DESIGN CHOICE, log 37) -/
def Core.mulDone (x : Core) : Core :=
  match x.mulFly with
  | some (a, b) => { x with hi := x.hi.setProd a b, mulFly := none }
  | none => x

/-- A DIV in flight completes into QUO and REM. -/
def Core.divDone (x : Core) : Core :=
  match x.divFly with
  | some (a, b) => { x with hi := x.hi.setQuo a b, divFly := none }
  | none => x

/-! ### Stack spills (R76) -/

/-- Spill one word of a running stack: a flip-marked one is resolved first (R154). -/
def spillWord (v : Via) (va : BitVec 48) (w : Word) : M Unit := do
  let r ← if va ∈ (← get).cores[v.core].stackMarks then resolveWord v w else pure w
  let t ← xlVia v .write va
  modify fun s => s.modCore v.core fun x => { x with stackMarks := x.stackMarks.filter fun a => a != va }
  storeMem v.core t va r none

/-- Spill the oldest dirty word of a level's stack buffer. The word leaves the buffer once it is in the store buffer. -/
def spillOldest (c : Fin 32) (user : Bool) : M Unit := do
  let s ← get
  match s.cores[c].stackBuf user with
  | [] => pure ()
  | e :: r =>
    modify fun s => s.modCore c fun x => x.setStackBuf user r
    tryCatch (spillWord { s.via c 1 with user := user } e.va e.word) fun t => do
      modify fun s => s.modCore c fun x => x.setStackBuf user (e :: x.stackBuf user)
      throw t

/-- Spill a level's stack buffer down to a number of words. -/
def spillDown (c : Fin 32) (user : Bool) (keep : Nat) : Nat → M Unit
  | 0 => pure ()
  | n + 1 => do
    if ((← get).cores[c].stackBuf user).length ≤ keep then pure ()
    else
      spillOldest c user
      spillDown c user keep n

/-- Spill every dirty word of both levels (FENCE, R76). -/
def spillAll (c : Fin 32) : M Unit := do
  spillDown c true 0 ((← get).cores[c].stackBufU.length)
  spillDown c false 0 ((← get).cores[c].stackBufS.length)

/-! ### Switching a context out and in (R165, R166, R173) -/

/-- The lower-half record of the running context (Table 07-2). -/
def State.lowerRecord (s : State) (c : Fin 32) (pc : BitVec 49) (holdrem : BitVec 64) : List Word :=
  let x := s.cores[c]
  let l := x.lo
  l.w.toList ++
    [Word.raw (x.preds.setWidth 64), mkReta pc (s.world c) (!(s.user c)), Word.raw x.statVal, Word.fix l.lc, Word.raw l.ls,
     Word.raw l.le, Word.raw l.spU, Word.raw l.slimU, Word.raw (l.depth.setWidth 64), Word.raw l.spS, Word.raw l.slimS,
     Word.raw l.allocp, Word.raw l.allocl, Word.reta l.epc, Word.raw l.estat, Word.raw l.cause, Word.raw l.faddr,
     Word.raw l.finfo, Word.fix holdrem, ⟨0x4C, l.self.setWidth 64⟩]

/-- The lower half that a record of 36 words gives. -/
def lowerOf (ws : List Word) : LowerHalf :=
  let d (i : Nat) : BitVec 64 := (ws.getD i Word.zero).datum
  { w := Vector.ofFn fun i => ws.getD i.val Word.nil
    pred := fld (d 16) 0 16 ||| 1, pc := retaPc (d 17), stat := d 18, lc := d 19, ls := d 20, le := d 21
    spU := d 22, slimU := d 23, depth := fld (d 24) 0 5, spS := d 25, slimS := d 26, allocp := d 27, allocl := d 28
    epc := d 29, estat := d 30, cause := d 31, faddr := d 32, finfo := d 33, self := fld (d 35) 0 48 }

/-- A word that hardware saves: a flip mark it carries is resolved first (R154); where that cannot be done the word is kept
and the object it is saved into is scanned again before the cycle ends (R157). (DESIGN CHOICE, log 137) -/
def savedWord (v : Via) (into : BitVec 48) (w : Word) : M Word :=
  tryCatch (resolveWord v w) fun _ => do
    modify fun s => s.modHeap v.world fun h => { h with seenQ := h.seenQ ++ [into] }
    pure w

/-- Store words from an address upward through the write barrier, into an object. -/
def putWords (v : Via) (into : BitVec 48) : BitVec 48 → List Word → M Unit
  | _, [] => pure ()
  | a, w :: ws => do
    let r ← savedWord v into w
    let s ← get
    viaWrite v a r (s.cardMark v.core v.world a r)
    putWords v into (a + 1) ws

/-- Load words from an address upward through the read barrier. -/
def getWords (v : Via) : Nat → BitVec 48 → M (List Word)
  | 0, _ => pure []
  | n + 1, a => do
    let w ← viaRead v a
    let (_, w) ← barrierWord v fwdFuel a w
    let ws ← getWords v n (a + 1)
    pure (w :: ws)

/-- The dirty stack words of the running context go to the background spill list (R76). -/
def Core.stackToSpills (x : Core) (w : Fin 2) : Core :=
  { x with
    spills := x.spills ++ (x.stackBufU.map fun e => ⟨w, x.slot, true, e.va, e.word⟩) ++
      (x.stackBufS.map fun e => ⟨w, x.slot, false, e.va, e.word⟩)
    stackBufU := [], stackBufS := [] }

/-- The background spills of a slot whose context runs again come back into the buffer of their level. -/
def Core.spillsBack (x : Core) (k : Fin 64) : Core :=
  let mine := x.spills.filter fun e => e.slot == k
  { x with
    spills := x.spills.filter fun e => e.slot != k
    stackBufU := (mine.filter fun e => e.user).map fun e => ⟨e.va, e.word⟩
    stackBufS := (mine.filter fun e => !e.user).map fun e => ⟨e.va, e.word⟩ }

/-- Park a slot with ERR after a fault of its lower-half transfer; the record is lost, and the context cannot resume (R228). -/
def State.parkErr (s : State) (c : Fin 32) (k : Fin 64) : State :=
  s.modSlot c k fun x => { x with state := .parked, err := true, parkDue := false, lost := true }

/-- The world whose code the fast bank of a core serves: the Guard world on a shared core (R199). -/
def State.bankWorld (s : State) (c : Fin 32) : Fin 2 := if s.fv.use[c] = .test then 0 else 1

/-- Switch the running context out, its slot taking a state: the lower half goes to SWREC (Table 07-6). A context with a park
due is at a boundary now, and is PARKED instead of READY (R168). -/
def State.switchOut (s : State) (c : Fin 32) (st : SlotState) (pc : BitVec 49) (holdrem : BitVec 64) : State :=
  let k := s.cores[c].slot
  let st := if (s.running c).parkDue && st == .ready then .parked else st
  let w := s.world c
  let rec_ := s.lowerRecord c pc holdrem
  let v := s.viaSlot c k 6
  let s := s.modSlot c k fun x => { x with depth := s.cores[c].lo.depth, holdRem := holdrem, parkDue := false }
  let s := s.modCore c fun x => { x.stackToSpills w with running := false, holdCount := 0, fresh := false, amid := false, fetchBuf := [] }
  let s := match st with
    | .ready => s.makeReady c k
    | _ => s.modSlot c k fun x => { x with state := st }
  match (putWords v (s.slot c k).handle ((s.slot c k).handle + 9) rec_).run s with
  | .ok _ s' => s'
  | .error t s' =>
    match t.fault with
    | some (a, i) => (s'.parkErr c k).jigFault w a i
    | none => s'.parkErr c k

/-- Park the running context at this boundary when that is due and no condition of R174 holds. -/
def State.settlePark (s : State) (c : Fin 32) : State :=
  let x := s.cores[c]
  if x.running && (s.running c).parkDue && !(bit x.lo.stat 15) && !x.bank then
    s.switchOut c .parked x.lo.pc 0
  else s

/-- Switch a READY context in: the lower half comes from SWREC through the read barrier; its slot goes to RUNNING, and a
window saved in HOLDREM reopens (R173, R174). -/
def State.switchIn (s : State) (c : Fin 32) (k : Fin 64) : State :=
  let v := s.viaSlot c k 6
  let w := worldIx (s.slot c k).world
  match (getWords v 36 ((s.slot c k).handle + 9)).run s with
  | .error t s' =>
    match t.fault with
    | some (a, i) => (s'.parkErr c k).jigFault w a i
    | none => s'.parkErr c k
  | .ok ws s' =>
    let lo := lowerOf ws
    let hold := (ws.getD 34 Word.zero).datum
    let lo := { lo with stat := setBit lo.stat 15 (hold != 0) }
    let s' := s'.modCore c fun x =>
      { ({ x with lo := lo } : Core).spillsBack k with
        running := true, slot := k, switches := x.switches + 1, wdStart := s'.now, wdDone := false, holdCount := hold.toNat
        holdWait := false, fresh := false, amid := false, fetchBuf := [] }
    s'.modSlot c k fun x => { x with state := .running, holdRem := 0 }

/-! ### Ranking (R169) -/

/-- The rank of a slot's context among those of its core: world, then priority. (DESIGN CHOICE, log 55) -/
def Slot.rank (k : Slot) : Nat := (if k.world = 1 then 16 else 0) + k.prio.toNat

/-- The READY context of a core that ranks highest; among equals the one READY longest. -/
def State.winner (s : State) (c : Fin 32) : Option (Fin 64) :=
  let ready := (List.finRange 64).filter fun k => (s.slot c k).state == .ready
  minBy (fun k => (31 - (s.slot c k).rank) * 2 ^ 64 + (s.slot c k).readySince) ready

/-- Whether a core is shared between the worlds. -/
def State.sharedCore (s : State) (c : Fin 32) : Bool := s.fv.use[c] == .shared

/-- Whether a HOLD window is open on a core. -/
def State.holdOpen (s : State) (c : Fin 32) : Bool := s.cores[c].running && bit s.cores[c].lo.stat 15

/-- Whether the context that ran last on an idle core left it inside a window or with the fast bank in; the Jig then defers a
switch to any other (R174). (DEDUCED, log 138) -/
def State.leftHeld (s : State) (c : Fin 32) : Bool :=
  (s.cores[c].holdWait || s.cores[c].bank) && (s.slot c s.cores[c].slot).state != .empty

/-- The context to which a switch is due now, if any: it outranks the running one, and R174 does not defer it. -/
def State.switchDue (s : State) (c : Fin 32) : Option (Fin 64) :=
  let x := s.cores[c]
  match s.winner c with
  | none => none
  | some k =>
    if !x.running then
      if !(s.leftHeld c) || (!x.bank && (s.slot c k).world == 1 && (s.slot c x.slot).world == 0) then some k
      else if (s.slot c x.slot).state == .ready then some x.slot else none
    else if x.bank || x.fresh then none
    else if (s.running c).rank < (s.slot c k).rank then
      if s.holdOpen c && !((s.slot c k).world == 1 && (s.running c).world == 0) then none else some k
    else none

/-- JIG_SWITCH: make the switch that is due. A Test window that a Guard context preempts is kept in HOLDREM (R174). -/
def State.jigSwitch (s : State) (c : Fin 32) : State :=
  match s.switchDue c with
  | none => s
  | some k =>
    let x := s.cores[c]
    let s := if x.running then
        s.switchOut c .ready x.lo.pc (if s.holdOpen c then BitVec.ofNat 64 x.holdCount else 0)
      else s
    s.switchIn c k

/-! ### What is due at a boundary (Table 08-7) -/

/-- Whether a line with a routing is pending as an interrupt for the running context of a core, of the kind asked for. FAST
counts as 0 for a Test-world slot on a core shared with the Guard world (R199). -/
def State.irqDue (s : State) (c : Fin 32) (fast : Bool) (q : Irq) : Bool :=
  q.en && q.pend && q.core == c && q.slot == s.cores[c].slot &&
    ((q.fast && !(s.sharedCore c && (s.running c).world == 0)) == fast)

/-- The lowest line pending for the running context. -/
def State.lowestIrq (s : State) (c : Fin 32) (fast : Bool) : Option (Fin 256) :=
  ((s.jig.irq.toList.zip (List.finRange 256)).find? fun e => s.irqDue c fast e.1).map (·.2)

/-- A delivery of rank 2 to the running context: GUARD_ABORT, or STACK_INVALID of another context (R197, R206); none before the
first instruction at ENTRY, which always executes (R195). (DEDUCED, log 52; DEDUCED, log 126) -/
def State.abortDue (s : State) (c : Fin 32) : Bool :=
  !s.cores[c].fresh && (!(s.running c).abort.isEmpty || !(s.running c).stackInvalid.isEmpty)

/-- FAST_INTERRUPT is due: none while a window is open, while the bank is in, or before the first instruction at ENTRY. (DEDUCED, log 52) -/
def State.fastDue (s : State) (c : Fin 32) : Option (Fin 256) :=
  let x := s.cores[c]
  if s.holdOpen c || x.bank || x.fresh then none else s.lowestIrq c true

/-- INTERRUPT is due: none while a window is open or before the first instruction at ENTRY. -/
def State.intDue (s : State) (c : Fin 32) : Option (Fin 256) :=
  if s.holdOpen c || s.cores[c].fresh then none else s.lowestIrq c false

/-- Whether a core can do anything: its domain is ON, issue is not stopped and no debug halt holds it. -/
def State.coreLive (s : State) (c : Fin 32) : Bool :=
  s.domOn c.val && !s.cores[c].stopped && !s.cores[c].halted

/-- Whether the boundary of a core is a seam at which a veneer commit is owed: no window is open, and it is none inside STM or LDM (R269,
R271). -/
def State.commitDue (s : State) (c : Fin 32) : Bool :=
  s.cores[c].ven.pending && !(s.holdOpen c) && !(s.cores[c].running && s.cores[c].amid)

/-- Whether the flip of the running world is due on a core (R154). -/
def State.flipNow (s : State) (c : Fin 32) : Bool := s.cores[c].running && s.cores[c].flipDue[s.world c]

/-- Whether the count of the open HOLD window has run out, and the window is about to close (R202). -/
def State.holdSpent (s : State) (c : Fin 32) : Bool := s.holdOpen c && s.cores[c].holdCount == 0

/-- Rank 7: the instruction at PC is what the core executes now. (DESIGN CHOICE, log 53) -/
def State.canIssue (s : State) (c : Fin 32) : Bool :=
  s.coreLive c && s.cores[c].running && !(s.abortDue c) && (s.switchDue c).isNone && (s.fastDue c).isNone &&
    (s.intDue c).isNone && !(s.commitDue c) && !(s.flipNow c) &&
    !(s.holdSpent c)

/-! ### Exception entry (R194) and stack failure (R204, R206) -/

/-- CAUSE (Table 08-3). -/
structure CauseRec where
  code : BitVec 8
  oworld : Nat
  osuper : Bool
  fast : Bool
  lzu : Bool
  lzl : Bool
  hx : Bool
  rz : Bool
  inner : BitVec 8
  arg : BitVec 8
  depth : BitVec 5
deriving DecidableEq, Repr

/-- The bits of CAUSE. -/
def CauseRec.bits (r : CauseRec) : BitVec 64 :=
  put 0 r.code ||| putN 8 r.oworld ||| fbit 10 r.osuper ||| fbit 11 r.fast ||| fbit 12 r.lzu ||| fbit 13 r.lzl |||
  fbit 14 r.hx ||| fbit 15 r.rz ||| put 16 r.inner ||| put 24 r.arg ||| put 32 r.depth

/-- What an entry is made for: cause, resume PC, ARG, whether the loop-end decision is owed by an instruction that
completed at LE (R79), and FADDR and FINFO where the cause writes them. -/
structure Entry where
  cause : Cause
  resume : BitVec 49
  arg : BitVec 8 := 0
  atLe : Bool := false
  fault : Option (BitVec 48 × BitVec 64) := none
deriving DecidableEq, Repr

/-- ESTAT of an entry: STAT as it was, with HW closed and LEND set when a decision is owed (R79, R194). -/
def Core.entryStat (x : Core) (e : Entry) : BitVec 64 :=
  let o := setBit x.statVal 15 false
  setBit o 6 (bit o 5 && (e.atLe || (e.resume.setWidth 64) == x.lo.le))

/-- STAT of a handler: supervisor, RNE, no loop, no transfer in progress (R194). -/
def handlerStat (fast : Bool) : BitVec 64 := fbit 13 true ||| fbit 14 fast

/-- The Guard service context named by SAFE_GSVC, if it is there (R210). -/
def State.gsvc (s : State) : Option (Fin 32 × Fin 64) :=
  let k := s.slot s.safe.gsvcCore s.safe.gsvcSlot
  if s.safe.gsvcEn && k.state != .empty && k.world == 1 then some (s.safe.gsvcCore, s.safe.gsvcSlot) else none

/-- A context that is blocked is taken back to the start of its instruction and becomes READY, for a delivery to it. -/
def State.wakeFor (s : State) (c : Fin 32) (k : Fin 64) : State :=
  if (s.slot c k).state.blocked then (s.abandonBlock c k).makeReady c k else s

/-- Clear the BOOK of the room of the running code (R182); a room that is not there or cannot be reached is left. -/
def State.clearBook (s : State) (c : Fin 32) : State :=
  match (s.running c).room s.cores[c].lo.depth.toNat with
  | none => s
  | some a =>
    match (viaWrite (s.viaSlot c s.cores[c].slot 4) a Word.zero none).run s with
    | .ok _ s' => s'
    | .error _ s' => s'

/-- The common end of an entry: registers, STAT and PC (R194). -/
def State.enterRegs (s : State) (c : Fin 32) (e : Entry) (code : BitVec 8) (rz : Bool) (inner : BitVec 8) : State :=
  let x := s.cores[c]
  let w := s.world c
  let lvl := !(s.user c)
  let fast := e.cause == .fastInterrupt
  let depth := if x.lo.depth = 31 then x.lo.depth else x.lo.depth + 1
  let cause : CauseRec :=
    { code := code, oworld := w.val, osuper := lvl, fast := fast, lzu := !x.ownsUpper, lzl := !x.ownsLathe
      hx := x.hx[w], rz := rz, inner := inner, arg := e.arg, depth := depth }
  let lo := { x.lo with
    epc := (mkReta e.resume w lvl).datum, estat := x.entryStat e, cause := cause.bits, depth := depth
    stat := handlerStat fast, pc := fld s.worlds[w].entry 0 49
    faddr := match e.fault with
      | some (a, _) => a.setWidth 64
      | none => x.lo.faddr
    finfo := match e.fault with
      | some (_, i) => i
      | none => x.lo.finfo }
  (s.modCore c fun x => { x with
    lo := lo, hx := vset x.hx w false, holdCount := 0, fresh := true, amid := false, bank := fast || x.bank }).clearBook c

/-- Words 0 to 9 of the emergency drawer and the lazy-save area (Table 08-9); the vector is filled up with CONST:NIL. Words 6 and
7 describe a failed access, and are 0 where none failed. (DESIGN CHOICE, log 139) -/
def State.drawerWords (s : State) (c : Fin 32) (e : Entry) (fault : BitVec 48 × BitVec 64)
    (half : Option (Bool × BitVec 5 × List Word)) (inner : BitVec 8) : List Word :=
  let x := s.cores[c]
  let w := s.world c
  let lvl := !(s.user c)
  let status : BitVec 64 := fbit 0 true ||| putN 1 w.val ||| fbit 3 lvl ||| putN 4 x.slot.val ||| fbit 10 half.isSome |||
    fbit 11 (match half with
      | some (l, _, _) => l
      | none => false) |||
    (match half with
      | some (_, d, _) => put 12 d
      | none => 0)
  let cause : CauseRec :=
    { code := Cause.stackInvalid.code, oworld := w.val, osuper := lvl, fast := e.cause == .fastInterrupt
      lzu := !x.ownsUpper, lzl := !x.ownsLathe, hx := x.hx[w], rz := false, inner := inner, arg := 0
      depth := if x.lo.depth = 31 then x.lo.depth else x.lo.depth + 1 }
  let lazy := match half with
    | some (_, _, ws) => ws
    | none => []
  [Word.raw status, Word.raw cause.bits, mkReta e.resume w lvl, Word.raw (x.entryStat e), Word.reta x.lo.epc,
   Word.raw x.lo.estat, Word.raw (fault.1.setWidth 64), Word.raw fault.2, Word.raw x.lo.spS, Word.raw x.lo.slimS] ++
  (lazy ++ List.replicate 34 Word.nil).take 34

/-- STACK_FAILURE: write the emergency drawer and deliver (R204, R206). -/
def State.stackFailure (s : State) (c : Fin 32) (e : Entry) (fault : BitVec 48 × BitVec 64)
    (half : Option (Bool × BitVec 5 × List Word)) (inner : BitVec 8) : State :=
  if s.cores[c].drawerFull then s.fatal 2 (putN 0 c.val) (clusterOf c)
  else
    let ws := s.drawerWords c e fault half inner
    let s := s.modCore c fun x =>
      { x with drawer := Vector.ofFn fun i => ws.getD i.val Word.nil, drawerFull := true }
    if s.user c then
      let e' := { e with fault := if fault.2 = 0 then none else some fault, arg := 0 }
      s.enterRegs c e' Cause.stackInvalid.code false inner
    else if s.world c = 1 then s.fatal 2 (putN 0 c.val) (clusterOf c)
    else
      let s := s.switchOut c .parked e.resume 0
      match s.gsvc with
      | none => ({ s with safe := { s.safe with gsvcMiss := true } }).event 3 3 0 []
      | some (gc, gk) =>
        (s.modSlot gc gk fun k => { k with stackInvalid := k.stackInvalid ++ [BitVec.ofNat 64 c.val] }).wakeFor gc gk

/-- EXCEPTION_ENTRY: the pushes are checked before any register changes; one that cannot be made is a stack failure
(R194). -/
def State.enter (s : State) (c : Fin 32) (e : Entry) : State :=
  let x := s.cores[c]
  let w := s.world c
  let sp := x.lo.spS
  let lim := x.lo.slimS.toNat
  let fail (f : BitVec 48 × BitVec 64) (s : State) : State := s.stackFailure c e f none e.cause.code
  if x.lo.depth = 31 ∨ fld sp 48 16 ≠ 0 then fail (0, 0) s
  else
    let red := decide (sp.toNat < lim + 2)
    if red && decide (sp.toNat + 64 < lim + 2) then fail (0, 0) s
    else if sp.toNat < 2 then fail (0, 0) s
    else
      let a1 : BitVec 48 := fld sp 0 48 - 1
      let a2 : BitVec 48 := fld sp 0 48 - 2
      let push : M Unit := do
        let v : Via := ⟨c, w, false, 3⟩
        let _ ← xlVia v .write a1
        let _ ← xlVia v .write a2
        spillDown c false 38 8
        modify fun s => s.modCore c fun x =>
          ((x.pushStack false a1 (Word.reta x.lo.epc)).pushStack false a2 (Word.raw x.lo.estat)).setSp false (sp - 2)
      match push.run s with
      | .error t s' => fail (t.fault.getD (0, 0)) s'
      | .ok _ s' =>
        if red then s'.enterRegs c e Cause.stackOverflow.code true e.cause.code
        else s'.enterRegs c e e.cause.code false 0

/-! ### GUARD_ABORT (R210) and other deliveries -/

/-- Make GUARD_ABORT pending for a context, behind those that are pending (R321); every open window on its core closes at once (R202). (DEDUCED, log 126) -/
def State.pendAbort (s : State) (c : Fin 32) (k : Fin 64) (arg : BitVec 8) : State :=
  let s := (s.modSlot c k fun x => { x with abort := x.abort ++ [arg] }).wakeFor c k
  if s.holdOpen c then
    let w := s.world c
    s.modCore c fun x => { x with
      lo := { x.lo with stat := setBit x.lo.stat 15 false }, holdCount := 0, hx := vset x.hx w true }
  else s

/-- GUARD_ABORT with an ARG: to the service context, and to every running Guard context on a core of the Guard world
(R210). (DEDUCED, log 126) -/
def State.guardAbort (s : State) (arg : BitVec 8) : State :=
  let svc := s.gsvc
  let s := match svc with
    | none => ({ s with safe := { s.safe with gsvcMiss := true } }).event 3 3 0 []
    | some (c, k) => s.pendAbort c k arg
  (List.finRange 32).foldl (fun (s : State) (c : Fin 32) =>
    if s.cores[c].running && s.world c == 1 && svc != some (c, s.cores[c].slot) &&
        (s.fv.use[c] == .guard || s.fv.use[c] == .shared) then
      s.pendAbort c s.cores[c].slot arg
    else s) s

/-! ### Lazy transfers (R180 to R184) -/

/-- The words of the upper half in the file, the main bank's W24 to W31 (R183). -/
def Core.upperWords (x : Core) : List Word := x.hi.w.toList ++ [x.hi.prodlo, x.hi.prodhi, x.hi.quo, x.hi.rem]

/-- The upper half that 20 words give. -/
def upperOf (ws : List Word) : UpperHalf :=
  { w := Vector.ofFn fun i => ws.getD i.val Word.nil
    prodlo := ws.getD 16 Word.nil, prodhi := ws.getD 17 Word.nil, quo := ws.getD 18 Word.nil, rem := ws.getD 19 Word.nil }

/-- BOOK of a room with a valid bit set or cleared. -/
def bookBit (w : Word) (k : Nat) (b : Bool) : Word := Word.raw (setBit w.datum k b)

/-- Put a half into the room of its owner and set its valid bit; a room that is missing, faults, or whose BOOK is POISON
sends it to the emergency drawer (R184). -/
def saveHalf (c : Fin 32) (k : Fin 64) (d : BitVec 5) (lathe : Bool) (ws : List Word) : M Unit := do
  let s ← get
  let v := s.viaSlot c k 4
  let off : BitVec 48 := if lathe then 21 else 1
  let drop : State → State := fun s => s.modCore c fun x =>
    if lathe then { x with llNone := true } else { x with lzNone := true }
  match (s.slot c k).room d.toNat with
  | none =>
    modify drop
    throw (.lazyFail 0 (putN 10 1 ||| putN 12 4) (some (lathe, d, ws)))
  | some a =>
    let put : M Unit := do
      let _ ← xlVia v .write a
      let book ← viaRead v a
      if book.tag = 0xFE then throw (.lazyFail a (putN 10 1 ||| putN 12 4) none)
      putWords v (s.slot c k).handle (a + off) ws
      viaWrite v a (bookBit book (if lathe then 1 else 0) true) none
    tryCatch put fun t => do
      modify drop
      let (fa, fi) := t.fault.getD (a, putN 10 1 ||| putN 12 4)
      throw (.lazyFail fa fi (some (lathe, d, ws)))

/-- Load a half from the running code's own room, if it holds one; none where there is nothing to load. A room that cannot
be read, or a POISON word of the record, is a failure of the lazy load (R184). -/
def loadHalf (c : Fin 32) (lathe : Bool) : M (Option (List Word)) := do
  let s ← get
  let k := s.cores[c].slot
  let v := s.viaSlot c k 4
  let n := if lathe then 34 else 20
  let off : BitVec 48 := if lathe then 21 else 1
  let bitNo := if lathe then 1 else 0
  match (s.running c).room s.cores[c].lo.depth.toNat with
  | none => pure none
  | some a =>
    let fetch : M (Option (List Word)) := do
      let book ← viaRead v a
      if book.tag = 0xFE then throw (.lazyFail a (putN 12 4) none)
      if !(bit book.datum bitNo) then pure none
      else
        let ws ← getWords v n (a + off)
        if ws.any fun w => w.tag == 0xFE then throw (.lazyFail a (putN 12 4) none)
        viaWrite v a (bookBit book bitNo false) none
        pure (some ws)
    tryCatch fetch fun t => do
      modify fun s => s.modCore c fun x => if lathe then { x with llNone := true } else { x with lzNone := true }
      let (fa, fi) := t.fault.getD (a, putN 12 4)
      throw (.lazyFail fa (setFld fi 10 (0 : BitVec 2)) none)

/-- LAZY_UPPER_TRANSFER: the first touch of the upper half by code that does not own it (R181). -/
def touchUpper (c : Fin 32) : M Unit := do
  let x := (← get).cores[c]
  if x.ownsUpper then pure ()
  else
    if !x.lzNone && x.live x.lzSlot x.lzDepth then
      modify fun s => s.modCore c fun x => x.mulDone.divDone
      saveHalf c x.lzSlot x.lzDepth false (← get).cores[c].upperWords
    let half ← loadHalf c false
    modify fun s => s.modCore c fun x =>
      { x with hi := (match half with
          | some ws => upperOf ws
          | none => {}), mulFly := none, divFly := none
               lzSlot := x.slot, lzDepth := x.lo.depth, lzNone := false }

/-- Whether a job number (R327) names a job that has not ended. -/
def State.jobLive (s : State) (w : Word) : Bool :=
  s.lathes[(fld w.datum 32 3).toFin].queue.any fun j => j.serial == fld w.datum 0 32

/-- A lathe-state area as reloaded: every OUT entry that names a job which has ended reads NIL (R328). -/
def State.freshArea (s : State) (ws : List Word) : Vector Word 34 :=
  Vector.ofFn fun i =>
    let w := ws.getD i.val Word.nil
    if 2 ≤ i.val ∧ w.tag = 0x00 ∧ s.jobLive w = false then Word.nil else w

/-- LAZY_LATHE_TRANSFER: the same for the lathe-state area of 34 words. -/
def touchLathe (c : Fin 32) : M Unit := do
  let x := (← get).cores[c]
  if x.ownsLathe then pure ()
  else
    if !x.llNone && x.live x.llSlot x.llDepth then
      saveHalf c x.llSlot x.llDepth true x.lathe.toList
    let half ← loadHalf c true
    modify fun s => s.modCore c fun x =>
      { x with lathe := (match half with
          | some ws => s.freshArea ws
          | none => Vector.replicate 34 Word.nil)
               llSlot := x.slot, llDepth := x.lo.depth, llNone := false }

end Sys2Proof.Machine
end

