-- ==== Sys2Proof/Machine/Flags.lean ====
section
/-! DEFINITION. Predicates written by compares (R65), the fields of STAT that software writes (R81), and the loop-end
decision (R78, R79). -/

namespace Sys2Proof.Machine

open Sys2Proof

/-- A compare writes Pd: its result, or with AW = 1 the AND of its result and the old value (R65). -/
def Core.writeCmp (x : Core) (pd : Fin 16) (aw r : Bool) : Core := x.setPred pd (if aw then r && x.pred pd else r)

/-- Write a predicate of a core. -/
def writeCmp (c : Fin 32) (pd : Fin 16) (aw r : Bool) : M Unit :=
  modify fun s => s.modCore c fun x => x.writeCmp pd aw r

/-- STAT after a write: at user level only RM is taken; reserved and read-only bits keep their value (R81, Table 04-5).
LZU and LZL are not held: they follow the owner (R179). (DEDUCED, log 36) -/
def statWrite (old v : BitVec 64) (user : Bool) : BitVec 64 :=
  if user then setFld old 0 (fld v 0 3)
  else
    let s := setFld old 0 (fld v 0 3)
    let s := setBit (setBit s 5 (bit v 5)) 6 (bit v 6)
    let s := setFld s 7 (fld v 7 6)
    setBit s 13 (bit v 13)

/-- Set STAT.LA. -/
def Core.setLa (x : Core) (b : Bool) : Core := { x with lo := { x.lo with stat := setBit x.lo.stat 5 b } }

/-- The decision of R78 for a natural next PC: LC counts down, and the loop goes back to LS or ends. -/
def Core.loopEnd (x : Core) (natural : BitVec 49) : BitVec 49 × Core :=
  let lc := x.lo.lc - 1
  let x := { x with lo := { x.lo with lc := lc } }
  if lc ≠ 0 then (fld x.lo.ls 0 49, x) else (natural, x.setLa false)

/-- Whether an instruction at a PC makes the loop-end decision when it completes (R78). -/
def Core.atLoopEnd (x : Core) (pc : BitVec 49) : Bool := bit x.lo.stat 5 && x.lo.le == pc.setWidth 64

/-- The next PC of an instruction that completes at a PC without transferring control (LOOP_END_DECISION). -/
def Core.loopNext (x : Core) (pc natural : BitVec 49) : BitVec 49 × Core :=
  if x.atLoopEnd pc then x.loopEnd natural else (natural, x)

end Sys2Proof.Machine
end

