-- ==== Sys2Proof/Machine/Micro.lean ====
section
/-! DEFINITION. Microcode: the fields of a microword, the sequencer, dispatch on tags, the control stores and their repair, and the
veneer packages as they are loaded (R258 to R268). -/

namespace Sys2Proof.Machine

open Sys2Proof

/-! ### The microword (Table 11-1) -/

/-- The fields of a microword. Each drives one resource of the core; a field of zero leaves its resource idle (R258). -/
structure MicroFields where
  cyc : BitVec 2
  seq : BitVec 4
  cond : BitVec 6
  next : BitVec 14
  asel : BitVec 6
  bsel : BitVec 6
  alu : BitVec 5
  tagop : BitVec 5
  tagexp : BitVec 8
  unit : BitVec 5
  flt : BitVec 6
  shf : BitVec 6
  mul : BitVec 3
  div : BitVec 2
  mem : BitVec 5
  madr : BitVec 3
  bar : BitVec 4
  stk : BitVec 4
  pred : BitVec 5
  loop : BitVec 3
  jig : BitVec 3
  lathe : BitVec 6
  csr : BitVec 8
  wdest : BitVec 6
  wen : BitVec 2
  trap : BitVec 6
  exc : BitVec 4
  sbus : BitVec 5
  xfer : BitVec 4
  dbg : BitVec 2
  const : BitVec 16
  rsvd : BitVec 3
deriving DecidableEq, Repr

/-- The fields of a 168-bit microword. -/
def microFields (m : BitVec 168) : MicroFields :=
  { cyc := fld m 166 2, seq := fld m 162 4, cond := fld m 156 6, next := fld m 142 14, asel := fld m 136 6, bsel := fld m 130 6
    alu := fld m 124 5, tagop := fld m 119 5, tagexp := fld m 111 8, unit := fld m 106 5, flt := fld m 100 6, shf := fld m 94 6
    mul := fld m 91 3, div := fld m 89 2, mem := fld m 84 5, madr := fld m 81 3, bar := fld m 77 4, stk := fld m 73 4
    pred := fld m 68 5, loop := fld m 65 3, jig := fld m 62 3, lathe := fld m 56 6, csr := fld m 48 8, wdest := fld m 42 6
    wen := fld m 40 2, trap := fld m 34 6, exc := fld m 30 4, sbus := fld m 25 5, xfer := fld m 21 4, dbg := fld m 19 2
    const := fld m 3 16, rsvd := fld m 0 3 }

/-- The phases that a microword lasts (Table 11-2). -/
def microPhases (m : BitVec 168) : Nat := (microFields m).cyc.toNat + 2

/-- Whether a microword may be loaded: no reserved bit (R259), no reserved SEQ, and DBG = 00, which signed microcode carries (R262). -/
def microOk (m : BitVec 168) : Bool :=
  (microFields m).rsvd == 0 && decide ((microFields m).seq.toNat ≤ 9) && (microFields m).dbg == 0

/-! ### The sequencer (Tables 11-3 and 11-4) -/

/-- What the rest of a core gives its sequencer in one microcycle: whether COND holds, the tags of buses A and B, and what an empty
microstack yields. -/
structure SeqIn where
  cond : Bool
  tagA : BitVec 8
  tagB : BitVec 8
  lost : BitVec 14
deriving DecidableEq, Repr

/-- The class of a tag in the class map of a core (R263). -/
def MicroStore.classOf (x : MicroStore) (tag : BitVec 8) : BitVec 4 := x.classes.getD tag.toNat 0

/-- The routine of the pair table for an operator group and two classes (R263). -/
def MicroStore.pair (x : MicroStore) (group : Nat) (a b : BitVec 4) : BitVec 14 :=
  x.pairs.getD (group * 256 + a.toNat * 16 + b.toNat) 0

/-- The microaddress and the microword that a read of a microaddress gives: a base microaddress that an active entry matches is read
at 0x2000 + its offset instead (R268); nothing above the active bank is addressable (R261). -/
def MicroStore.read (x : MicroStore) (bank : Bool) (a : BitVec 14) : BitVec 14 × BitVec 168 :=
  let y := x.banks[(if bank then 1 else 0 : Fin 2)]
  let a := if a.toNat < 0x2000 then
      match y.patches.find? fun e => e.1 == fld a 0 13 with
      | some e => 0x2000#14 + e.2.setWidth 14
      | none => a
    else a
  (a, if a.toNat < 0x2000 then x.base.getD a.toNat 0 else y.words.getD (a.toNat - 0x2000) 0)

/-- One operation of Table 11-3, at the microaddress that was read; none where the instruction ends, with END or TRAP. A fifth nested
call drops the oldest return address. (DESIGN CHOICE, log 155) -/
def MicroStore.seqNext (x : MicroStore) (group : Nat) (at_ : BitVec 14) (stack : List (BitVec 14)) (m : BitVec 168) (y : SeqIn) :
    Option Sequencer :=
  let f := microFields m
  match f.seq.toNat with
  | 0 => some ⟨at_ + 1, stack⟩
  | 1 => some ⟨f.next, stack⟩
  | 2 => some ⟨if y.cond then f.next else at_ + 1, stack⟩
  | 3 => some ⟨f.next, ((at_ + 1) :: stack).take 4⟩
  | 4 => some ⟨stack.headD y.lost, stack.tail⟩
  | 5 => some ⟨x.pair group (x.classOf y.tagA) 0, stack⟩
  | 6 => some ⟨x.pair group (x.classOf y.tagA) (x.classOf y.tagB), stack⟩
  | 9 => some ⟨if y.cond then at_ else at_ + 1, stack⟩
  | _ => none

/-- What the sequencer meets in its n-th microcycle from a draw on: the codes of COND, ASEL and BSEL are not given, so it is open.
(DESIGN CHOICE, log 155) -/
def seqIn (n : Nat) : SeqIn :=
  let f := Config.free n
  ⟨bit f 0, fld f 8 8, fld f 16 8, fld f 32 14⟩

/-- The DBG field of a microaddress in the debug overlay of a core; 01 reads as 00 unless OTP enables debug (R262). -/
def Core.dbgAt (x : Core) (fused : Bool) (a : BitVec 14) : BitVec 2 :=
  match x.breaks.find? fun e => e.1 == a with
  | some e => if e.2 == 1 && !fused then 0 else e.2
  | none => 0

/-- The course of the sequencer through so many microwords: a microbreak holds it before its microword issues, unless it is the one
that held it last; a counted microword counts (R260, R262). At the end of the instruction nothing of it is left. -/
def Core.course (x : Core) (fused : Bool) (group : Nat) : Nat → Bool → Sequencer → Nat → Core
  | 0, _, _, _ => { x with seq := none }
  | n + 1, held, q, d =>
    let (a, m) := x.store.read x.ven.bank q.addr
    let dbg := x.dbgAt fused a
    if dbg == 1 && !held then { x with seq := some ⟨a, q.stack⟩ }
    else
      let x := if dbg == 2 then { x with dbgCount := x.dbgCount + 1 } else x
      match x.store.seqNext group a q.stack m (seqIn d) with
      | some q => x.course fused group n false q (d + 1)
      | none => { x with seq := none }

/-- The operator group of a generic operator with its operands (R263); NEG has class 0 for Wb. -/
def operatorGroup : Instr → Option (Nat × Fin 32 × Option (Fin 32))
  | .add _ _ a b => some (0, a, some b)
  | .sub _ _ a b => some (1, a, some b)
  | .mul _ a b => some (2, a, some b)
  | .div _ a b => some (3, a, some b)
  | .neg _ _ a => some (4, a, none)
  | .logadd _ _ a b => some (5, a, some b)
  | .cmpeq _ _ _ a b => some (6, a, some b)
  | .cmpne _ _ _ a b => some (6, a, some b)
  | .cmplt _ _ _ a b => some (7, a, some b)
  | .cmple _ _ _ a b => some (7, a, some b)
  | .cmpgt _ _ _ a b => some (7, a, some b)
  | .cmpge _ _ _ a b => some (7, a, some b)
  | _ => none

/-- The operator group of an instruction and its first microaddress: a generic operator's from the pair table, by the classes of its
operands; any other's from the decode table, by its opcode (R263). -/
def Core.microEntry (x : Core) (i : Instr) : Nat × BitVec 14 :=
  let cls (r : Fin 32) : BitVec 4 := x.store.classOf (x.reg r).tag
  match operatorGroup i with
  | some (g, a, b) => (g, x.store.pair g (cls a) (match b with
      | some b => cls b
      | none => 0))
  | none => (0, match encode32 i with
    | some w => x.store.decode.getD (slotOp w).toNat 0
    | none => 0)

/-- The sequencer of a core goes through the microwords of an instruction: true where a microbreak holds it, and the core halts at the
boundary before the instruction, to go on from there (R262, R426). A core of the Guard world or a shared one never halts. (DESIGN CHOICE,
log 155) -/
def State.microCourse (s : State) (i : Instr) (h : Hdr) : Bool × State :=
  let x := s.cores[h.core]
  let fused := s.fv.debugOtp == 1 && s.fv.use[h.core] != .guard && s.fv.use[h.core] != .shared
  let (group, start) := x.microEntry i
  let y := x.course fused group h.mc x.seq.isSome (x.seq.getD ⟨start, []⟩) s.drawn
  let held := y.seq.isSome
  (held, s.modCore h.core fun _ => if held then { y with halted := true, haltAt := s.now } else y)

/-! ### Veneer packages and control stores (R264 to R268) -/

/-- Microword number i of a package: 21 bytes, bit 167 first. -/
def microAt (bs : List (BitVec 8)) (o : Nat) : BitVec 168 :=
  BitVec.ofNat 168 (((bs.drop o).take 21).foldl (fun n b => n * 256 + b.toNat) 0)

/-- A match entry of a package: base microaddress and offset. -/
def patchAt (bs : List (BitVec 8)) (i : Nat) : BitVec 13 × BitVec 9 :=
  let m := leAt bs (0x20 + 4 * i) 4
  (BitVec.ofNat 13 m, BitVec.ofNat 9 (m / 2 ^ 13))

/-- A bank with its matches as a package fills it (Table 11-6). -/
def packageBank (bs : List (BitVec 8)) : VenBank :=
  let nm := leAt bs 0xE 2
  { level := BitVec.ofNat 16 (leAt bs 0xA 2)
    words := (List.range (leAt bs 0xC 2)).map fun i => microAt bs (0x20 + 4 * nm + 21 * i)
    patches := (List.range nm).map (patchAt bs) }

/-- The bank of a level, from Favar's copies of the packages (R264). -/
def State.bankAt (s : State) (level : BitVec 16) : VenBank :=
  if level = 0 then {} else if s.ven.staged && s.ven.level == level then packageBank s.ven.package else packageBank s.ven.active

/-- The control store of a core as it is loaded: the base image and its tables, the package of a level in the active bank, and a
package that is staged and not at that level in the shadow bank (R264, R267, R412). -/
def State.storeAt (s : State) (level : BitVec 16) (bank : Bool) : MicroStore :=
  let x := s.ven.image
  let shadow := if s.ven.staged && s.ven.level != level then packageBank s.ven.package else {}
  let active := s.bankAt level
  { base := x.words, decode := x.decode, classes := x.classes, pairs := x.pairs
    banks := Vector.ofFn fun b => if (b == 1) == bank then active else shadow }

/-- A core with the shadow bank and the shadow set of matches replaced (R267). -/
def Core.setShadow (x : Core) (b : VenBank) : Core :=
  { x with store := { x.store with banks := vset x.store.banks (if x.ven.bank then 0 else 1) b } }

/-- A core with its active bank as given. -/
def MicroStore.setActive (x : MicroStore) (bank : Bool) (f : VenBank → VenBank) : MicroStore :=
  { x with banks := vmod x.banks (if bank then 1 else 0) f }

/-- The active bank of a control store. -/
def MicroStore.active (x : MicroStore) (bank : Bool) : VenBank := x.banks[(if bank then 1 else 0 : Fin 2)]

/-- One word of a list taken from another. -/
def copyAt {α : Type} (to_ from_ : List α) (i : Nat) : List α :=
  match from_[i]? with
  | some v => to_.set i v
  | none => to_

/-- Whether a word belongs to the veneer banks, which follow the level of a core. -/
def veneerRef : StoreRef → Bool
  | .word a => decide (0x2000 ≤ a.toNat)
  | .patch _ => true
  | _ => false

/-- A control store with one word rewritten from another (R265). -/
def MicroStore.repair (x : MicroStore) (bx : Bool) (y : MicroStore) (b : Bool) (r : StoreRef) : MicroStore :=
  match r with
  | .word a =>
    if a.toNat < 0x2000 then { x with base := copyAt x.base y.base a.toNat }
    else x.setActive bx fun k => { k with words := copyAt k.words (y.active b).words (a.toNat - 0x2000) }
  | .patch i => x.setActive bx fun k => { k with patches := copyAt k.patches (y.active b).patches i.val }
  | .decode op => { x with decode := copyAt x.decode y.decode op.toNat }
  | .cls t => { x with classes := copyAt x.classes y.classes t.toNat }
  | .pair i => { x with pairs := copyAt x.pairs y.pairs i.toNat }

/-- The other core of a cluster from which a word is rewritten: the first whose copy checks; for a veneer bank its active bank must
hold the same level. (DESIGN CHOICE, log 155) -/
def State.sibling (s : State) (c : Fin 32) (r : StoreRef) (copies : BitVec 4) : Option (Fin 32) :=
  (List.finRange 32).find? fun d => d != c && clusterOf d == clusterOf c && s.domOn d.val && bit copies (d.val % 4) &&
    (!(veneerRef r) || (s.cores[d].store.active s.cores[d].ven.bank).level == (s.cores[c].store.active s.cores[c].ven.bank).level)

/-- A parity error of a control store or a table (R265): fatal where the microword was the target of a taken transfer, with its
microaddress; otherwise the word is rewritten from a sibling whose copy checks, else from Favar's copy, and counted. -/
def State.storeErr (s : State) (c : Fin 32) (r : StoreRef) (taken : Bool) (copies : BitVec 4) : State :=
  let x := s.cores[c]
  let rewrite (y : MicroStore) (b : Bool) (s : State) : State :=
    s.modCore c fun z => { z with store := z.store.repair z.ven.bank y b r }
  match r, taken with
  | .word a, true => s.fatal 3 (a.setWidth 64) (clusterOf c)
  | _, _ =>
    match s.sibling c r copies with
    | some d => { rewrite s.cores[d].store s.cores[d].ven.bank s with ven := { s.ven with csRecov := satInc s.ven.csRecov } }
    | none => { rewrite (s.storeAt (fld x.ven.mcver 0 16) x.ven.bank) x.ven.bank s with
        ven := { s.ven with csFavar := satInc s.ven.csFavar } }

/-! ### The base image (R264) -/

/-- Steps 1 and 2 for a copy of the image: its key has the hash of OTP, the signature is valid under it, no microword has a reserved
bit, and the stores have the sizes of R261 and R263. -/
def Favar.imageOk (f : Favar) (x : MicroImage) : Bool :=
  x.key.length == 97 && Config.sha384 x.key == f.telaustHash && Config.sigValid x.key x.body x.sig &&
    decide (x.words.length ≤ 8192) && x.decode.length == 128 && x.classes.length == 256 && x.pairs.length == 2048 &&
    x.words.all fun m => (microFields m).rsvd == 0

/-- The copy that the boot uses: the first that verifies (Table 18-10). -/
def Favar.bootImage (f : Favar) : Option MicroImage :=
  if f.imageOk f.mcA then some f.mcA else if f.imageOk f.mcB then some f.mcB else none

end Sys2Proof.Machine
end

