-- ==== Sys2Proof/Machine/Operands.lean ====
section
/-! DEFINITION. The course of one instruction: fetch and tag check, legality, guard, privilege, operands, and what happens
at its boundary (R64 to R72, R76, R90, R94, R154). -/

namespace Sys2Proof.Machine

open Sys2Proof

/-! ### Parity errors met in an instruction (Table 02-14, R245, R265) -/

/-- POISON with origin CORE_ARRAY (R25). -/
def poisonCore : Word := ⟨0xFE#8, 0x04#64⟩

/-- A Dirty or Cleaning sector, or a dirty or issued offcut entry, is lost: DRAM keeps its earlier content, and the event
is fatal with REASON 0x1 (R245). -/
def State.dirtyLost (s : State) (k : Fin 8) (x : BitVec 36) : State :=
  ((s.restoreStale x).dropSector k x).fatal 1 (putN 4 x.toNat) k

/-- A parity error that protection finds. -/
def State.applyErr (s : State) (c : Fin 32) (e : ArrayErr) : State :=
  let k := clusterOf c
  match e with
  | .reg r => s.modCore c fun x => x.setReg r poisonCore
  | .result n => s.modCore c fun x => { x with hi := x.hi.setRes (BitVec.ofNat 8 (8 + n.val)) poisonCore }
  | .stackWord va => s.modCore c fun x => x.stackPut va poisonCore
  | .special _ => s
  | .drawer i => s.modCore c fun x => { x with drawer := vset x.drawer i poisonCore }
  | .l1 line =>
    (s.modCore c fun x =>
      { x with l1i := x.l1i.filter (fun e => e.line != line), l1d := x.l1d.filter fun y => y != line }).modCluster k
      fun x => { x with perrL1 := satInc x.perrL1 }
  | .l2Data x =>
    match s.clusters[k].sector x with
    | .clean => (s.dropSector k x).modCluster k fun y => { y with perrL2 := satInc y.perrL2 }
    | .dirty => s.dirtyLost k x
    | .cleaning => s.dirtyLost k x
    | _ => s
  | .l2Tag b =>
    let xs := (List.finRange 4).map fun i => blkSector b i
    let dirty := xs.filter fun x => s.clusters[k].sector x == .dirty || s.clusters[k].sector x == .cleaning
    match dirty with
    | [] =>
      if s.clusters[k].blocks.any fun y => y.blk == b then
        (xs.foldl (fun (s : State) x => s.dropSector k x) s).modCluster k fun y =>
          { y with blocks := y.blocks.filter fun z => z.blk != b, perrL2 := satInc y.perrL2 }
      else s
    | x :: _ =>
      (dirty.foldl (fun (s : State) x => (s.restoreStale x).dropSector k x) s).fatal 1 (putN 4 x.toNat) k
  | .offcut x =>
    match s.clusters[k].offcut.find? fun o => o.1 == x with
    | some (_, .clean) => s.modCluster k fun y =>
        { y with offcut := y.offcut.filter fun o => o.1 != x, perrOc := satInc y.perrOc }
    | some _ => s.dirtyLost k x
    | none => s
  | .tlb w va =>
    let s := s.modCore c fun x =>
      { x with itlb := x.itlb.filter (fun e => !(e.covers w va)), dtlb := x.dtlb.filter fun e => !(e.covers w va) }
    { s with twPerr := satInc s.twPerr }
  | .sharedTlb w va =>
    let s := s.modCluster k fun x => { x with sharedTlb := x.sharedTlb.filter fun e => !(e.covers w va) }
    { s with twPerr := satInc s.twPerr }
  | .walkCache w l p =>
    let s := s.modCluster k fun x =>
      { x with walkCache := x.walkCache.filter fun e => !(e.world == w && e.level == l && e.prefix_ == p) }
    { s with twPerr := satInc s.twPerr }
  | .walk2Cache w ia =>
    let s := s.modCluster k fun x => { x with walk2Cache := x.walk2Cache.filter fun e => !(e.covers w ia) }
    { s with twPerr := satInc s.twPerr }
  | .directory b => s.recallBlock b
  | .memory pa e => s.memErr pa.toNat e
  | .store r taken copies => s.storeErr c r taken copies

/-! ### Fetch (R70 to R72) -/

/-- The lines of an L1 instruction cache with one more: in a set of four lines it takes the place of any of them (Table 10-1). (DESIGN
CHOICE, log 152) -/
def State.l1iAdd (s : State) (c : Fin 32) (y : L1Line) : State :=
  let l := s.cores[c].l1i
  let set := l.filter fun z => l1Set z.line == l1Set y.line
  if set.length < 4 then s.modCore c fun x => { x with l1i := y :: x.l1i }
  else
    let (f, s) := drawFree s
    match set[f.toNat % set.length]? with
    | some z => s.modCore c fun x => { x with l1i := y :: x.l1i.erase z }
    | none => s

/-- The word of code at a translated address: from the L1 instruction cache, or by a line that enters it from the L2 (R236), where the
prefetcher sees only what is demanded (R241). An address outside DRAM is read as it stands. -/
def State.readCode (s : State) (c : Fin 32) (t : Tr) (demand : Bool) : Word × State :=
  let pa := t.pa.toNat
  let i : Fin 8 := (fld t.pa 0 3).toFin
  match s.cores[c].l1i.find? fun e => e.line == fld t.pa 3 37 with
  | some e => (e.words[i], s)
  | none =>
    if s.inDram pa then
      let s := if demand then s.l2Read c t.pa false t.page else s.l2Request (clusterOf c) (sectorOf pa) .demand
      let line : L1Line := ⟨fld t.pa 3 37, Vector.ofFn fun j => s.peek (pa / 8 * 8 + j.val)⟩
      (line.words[i], s.l1iAdd c line)
    else s.readPhys pa

/-- A word of code that the core has not been asked for enters the fetch buffer after the demanded one; a fault discards it (R229). -/
def State.fetchAhead (s : State) (c : Fin 32) (va : BitVec 48) : State :=
  if s.cores[c].fetchBuf.any fun e => e.1 == va then s
  else match translate s c (s.world c) (s.user c) .fetch va with
    | (.error _, _) => s
    | (.ok t, s) =>
      let (w, s) := s.readCode c t false
      s.modCore c fun x => { x with fetchBuf := (x.fetchBuf.take 1 ++ (va, w) :: x.fetchBuf.drop 1).take 8 }

/-- The words to which the branches of a fetched word may lead: those of B and CALL (R96, R97). -/
def branchTargets (c : Fin 32) (va : BitVec 48) (w : Word) : List (BitVec 48) :=
  [0, 1].filterMap fun (k : Nat) =>
    let pc : BitVec 49 := va.setWidth 49 <<< 1 ||| BitVec.ofNat 49 k
    match decode32 c 1 none false 0 (fld w.datum (32 * k) 32) with
    | some (.b _ off) => some (fld (pc + off.signExtend 49) 1 48)
    | some (.call _ off) => some (fld (pc + off.signExtend 49) 1 48)
    | _ => none

/-- What the front end fetches beside a demanded word: up to seven words in sequence and the branch targets in it, or any fewer (R70,
R229). (DESIGN CHOICE, log 153) -/
def State.speculate (s : State) (c : Fin 32) (va : BitVec 48) (w : Word) : State :=
  let (f, s) := drawFree s
  let next := (List.range (f.toNat % 8)).map fun i => va + BitVec.ofNat 48 (i + 1)
  let far := (branchTargets c va w).zipIdx.filterMap fun (a, i) => if bit f (3 + i) then some a else none
  (next ++ far).foldl (fun (s : State) a => s.fetchAhead c a) s

/-- The word at an address of code: from the fetch buffer, or through the L1 instruction cache; a miss of the fetch buffer also sets
the front end fetching ahead. -/
def fetchWord (c : Fin 32) (va : BitVec 48) : M Word := do
  let x := (← get).cores[c]
  match x.fetchBuf.find? fun e => e.1 == va with
  | some e => pure e.2
  | none =>
    let t ← xl c .fetch va
    let (w, s) := (← get).readCode c t true
    let s := s.modCore c fun x => { x with fetchBuf := ((va, w) :: x.fetchBuf).take 8 }
    set (s.speculate c va w)
    pure w

/-- The tag check of a fetched word (R70). (DEDUCED, log 22) -/
def fetchCheck (w : Word) : Option Cause :=
  match clsOf w.tag with
  | .reserved => some .tagReserved
  | .uninit => some .uninitUse
  | .poison => some .poisonUse
  | _ => if w.tag = 0x0A then none else some .illegalInstr

/-- The tag check of a literal (R71); a PENDING word is no literal. (DEDUCED, log 148) -/
def literalCheck (w : Word) : Option Cause :=
  match clsOf w.tag with
  | .reserved => some .tagReserved
  | .uninit => some .uninitUse
  | .poison => some .poisonUse
  | _ => if isImmTag w.tag then none else some .illegalInstr

/-- The word address of a PC (R68). -/
def pcWord (pc : BitVec 49) : BitVec 48 := fld pc 1 48

/-- The 32 bits of the slot that a PC names in its word. -/
def slotBits (pc : BitVec 49) (w : Word) : BitVec 32 := if bit pc 0 then fld w.datum 32 32 else fld w.datum 0 32

/-- The course of an instruction up to its guard (R66, steps 1 to 3): fetch, ILLEGAL_GUARD, ILLEGAL_INSTR, and whether the
guard selects execution. A command that is not the instruction at PC is inapplicable. (DEDUCED, log 22) -/
def frontEnd (i : Instr) (h : Hdr) : M Bool := do
  let pc := (← get).cores[h.core].lo.pc
  let w ← fetchWord h.core (pcWord pc)
  raiseIf (fetchCheck w)
  let b := slotBits pc w
  need (!(slotGp b == 0 && slotGs b)) .illegalGuard
  need (legal32 b) .illegalInstr
  if encode32 i ≠ some b then throw .inapplicable
  pure ((← get).cores[h.core].pred h.gp != h.gs)

/-! ### Registers as operands -/

/-- First touches of the registers that an instruction names (R180, R181). -/
def touch (c : Fin 32) (rs : List (Fin 32)) : M Unit := do
  let x := (← get).cores[c]
  if rs.any x.isUpper then touchUpper c

/-- A word register as an operand; a flip-marked word is resolved first, and the register takes the resolved word
(R154). -/
def rd (c : Fin 32) (r : Fin 32) : M Word := do
  let s ← get
  let w := s.cores[c].reg r
  if s.cores[c].regMark r then
    let v ← resolveWord (s.via c 5) w
    modify fun s => s.modCore c fun x => x.setReg r v
    pure v
  else pure w

/-- A register read for its tag only: TYPEOF and TAGEQ resolve nothing (R154), and every instruction checks its operands
before any is resolved (R92, R150). -/
def rdTag (c : Fin 32) (r : Fin 32) : M Word := do pure ((← get).cores[c].reg r)

/-- A register as the base of an access at a displacement: the access is translated before a flip-marked base is resolved
(R92, steps 3 and 4). -/
def rdBase (c : Fin 32) (acc : Acc) (r : Fin 32) (disp : BitVec 48) : M Word := do
  let x := (← get).cores[c]
  if x.regMark r then
    let _ ← xl c acc (fld (x.reg r).datum 0 48 + disp)
  rd c r

/-- A general register written. -/
def wr (c : Fin 32) (r : Fin 32) (w : Word) : M Unit := modify fun s => s.modCore c fun x => x.setReg r w

/-- chk of Table 05-2. -/
def chk (w : Word) : M Unit := raiseIf (chkWord w)

/-- The running core's state. -/
def core (c : Fin 32) : M Core := do pure (← get).cores[c]

/-- A deadline word (dl of Table 05-2): none for CONST:NIL; an INST itself; the count plus a SPAN. A sum below 0 lies in the
past and one above the count's range never comes. (DEDUCED, log 43) -/
def deadline (w : Word) : M (Option (BitVec 64)) := do
  if w = Word.nil then pure none
  else if w.tag = 0x04 then pure (some w.datum)
  else if w.tag = 0x05 then
    let t : Int := ((← get).now.toNat : Int) + w.datum.toInt
    pure (if t < 0 then some 0 else if 2 ^ 64 ≤ t then none else some (BitVec.ofInt 64 t))
  else raiseC .tagMismatch

/-! ### Completion -/

/-- How an instruction completes: in sequence, past a literal, with control transferred, or into the supervisor with EPC
naming the next sequential PC. -/
inductive Next where
  | seq
  | lit
  | go (pc : BitVec 49)
  | trap (x : Cause)
deriving DecidableEq, Repr

/-- The natural next PC: the next slot, or slot 0 of the word after a literal (R68, R71). -/
def naturalNext (pc : BitVec 49) : Next → BitVec 49
  | .lit => (pcWord pc + 2).setWidth 49 <<< 1
  | .go t => t
  | _ => pc + 1

/-- Set the PC of a core; the first instruction at ENTRY has been executed (R195). -/
def State.setPc (s : State) (c : Fin 32) (pc : BitVec 49) : State :=
  s.modCore c fun x => { x with lo := { x.lo with pc := pc }, fresh := false, amid := false }

/-- The PC after an instruction at a PC, with the loop-end decision where one is made (R78). -/
def State.advance (s : State) (c : Fin 32) (pc : BitVec 49) (n : Next) : State :=
  match n with
  | .go t => s.setPc c t
  | .trap _ => s.setPc c (pc + 1)
  | _ =>
    let (t, x) := s.cores[c].loopNext pc (naturalNext pc n)
    (s.modCore c fun _ => x).setPc c t

/-- One remaining flip-marked word of the running world, in DRAIN (FLIP_MARK_RESOLVE, R154): of a general register, a result
register, the stack buffer, or the fast bank. -/
def drainMark (c : Fin 32) : M Unit := do
  let s ← get
  let x := s.cores[c]
  let v := s.via c 5
  match (List.finRange 32).find? x.regMark with
  | some r => do
    let w ← resolveWord v (x.reg r)
    modify fun s => s.modCore c fun x => x.setReg r w
  | none =>
    match (List.range 4).find? fun k => bit x.hi.marks (16 + k) with
    | some k => do
      let sr : BitVec 8 := BitVec.ofNat 8 (8 + k)
      let w ← resolveWord v (x.hi.res sr)
      modify fun s => s.modCore c fun x => { x with hi := x.hi.setRes sr w }
    | none =>
      match x.stackMarks.find? fun a => (x.stackHit a).isSome with
      | some a => do
        let w ← resolveWord v ((x.stackHit a).getD Word.nil)
        modify fun s => s.modCore c fun x =>
          { x.stackPut a w with stackMarks := x.stackMarks.filter fun b => b != a }
      | none =>
        match (List.finRange 8).find? fun i => bit x.fastMarks i.val && s.bankWorld c == v.world with
        | some i => do
          let w ← resolveWord v x.fastW[i]
          modify fun s => s.modCore c fun x =>
            { x with fastW := vset x.fastW i w, fastMarks := setBit x.fastMarks i.val false }
        | none => pure ()

/-- The cause of a trap, where it is an exception. -/
def Trap.cause (t : Trap) : Option Cause :=
  match t with
  | .exc x _ _ => some x
  | _ => none

/-- The boundary after an instruction: excess stack words are spilled (R76), a mark is resolved in DRAIN, and a park that
is due is made. A spill fault is taken as STORE_FAULT with EPC naming the next instruction; a mark that cannot be resolved
stays, a fault of its copy being taken by its own cause (R226). (DESIGN CHOICE, log 53) -/
def State.boundary (s : State) (c : Fin 32) : State :=
  let spill : M Unit := do
    spillDown c true 32 ((← get).cores[c].stackBufU.length)
    spillDown c false 32 ((← get).cores[c].stackBufS.length)
  match spill.run s with
  | .error t s' => s'.enter c { cause := .storeFault, resume := s'.cores[c].lo.pc, fault := t.fault }
  | .ok _ s' =>
    if s'.worlds[s'.world c].heap.phase = .drain then
      match (drainMark c).run s' with
      | .ok _ t => t.settlePark c
      | .error e t =>
        match e.fault with
        | some f => t.enter c { cause := e.cause.getD .loadFault, resume := t.cores[c].lo.pc, fault := some f }
        | none => t.settlePark c
    else s'.settlePark c

/-- Whether something is delivered to a context that blocks: an interrupt that was deferred, or a delivery of rank 2 (R199,
R210). -/
def State.owed (s : State) (c : Fin 32) (k : Fin 64) : Bool :=
  (s.jig.irq.toList.any fun q => q.en && q.pend && q.core == c && q.slot == k) ||
    !(s.slot c k).abort.isEmpty || !(s.slot c k).stackInvalid.isEmpty

/-- A clamp that a context was granted for code at another depth stays granted to that code (R186). -/
def Slot.keepGrant (k : Slot) : Slot :=
  match k.block with
  | some (.clamp pa _ _) => if k.granted then { k with grants := (k.blockDepth, pa) :: k.grants } else k
  | _ => k

/-- Block the running context: its slot takes the state, and the instruction is taken back to its start (R94). A park that is
due is made at once, and a delivery that was deferred makes the context READY (R168, R199). An open window stays with the
core until the context returns or its count runs out (R174, R202). (DEDUCED, log 45; DEDUCED, log 138) -/
def State.blockContext (s : State) (c : Fin 32) (st : SlotState) (b : Block) : State :=
  let x := s.cores[c]
  let k := s.running c
  let hold := if s.holdOpen c then BitVec.ofNat 64 x.holdCount else 0
  let stays := !k.parkDue && !(s.owed c x.slot)
  let s := s.modSlot c x.slot fun k =>
    { (if k.blockDepth = x.lo.depth then k else k.keepGrant) with
      block := if stays then some b else none, blockDepth := x.lo.depth, timedOut := false, granted := false }
  (s.switchOut c (if k.parkDue then .parked else if stays then st else .ready) x.lo.pc hold).modCore c fun y =>
    { y with holdWait := hold != 0 }

/-- What follows when an instruction at a PC ends early; s is the state before the command. -/
def State.trapped (s s' : State) (c : Fin 32) (pc : BitVec 49) (t : Trap) : State :=
  match t with
  | .inapplicable => s
  | .stall => s'
  | .block st b => s'.blockContext c st b
  | .lazyFail a i half => s'.stackFailure c { cause := .stackInvalid, resume := pc } (a, i) half 0
  | .exc x f e => s'.enter c { cause := x, resume := e.getD pc, fault := f }

/-- The microcycles of an instruction count down an open HOLD window (R201). (DESIGN CHOICE, log 54) -/
def State.countHold (s : State) (c : Fin 32) (mc : Nat) : State :=
  if s.holdOpen c then s.modCore c fun x => { x with holdCount := x.holdCount - mc } else s

/-- An instruction that completes: the PC advances, a TRAP enters, and the boundary follows. -/
def State.complete (s : State) (c : Fin 32) (pc : BitVec 49) (n : Next) : State :=
  match n with
  | .trap x =>
    let atLe := s.cores[c].atLoopEnd pc
    (s.advance c pc n).enter c { cause := x, resume := pc + 1, atLe := atLe }
  | _ => (s.advance c pc n).boundary c

/-- The record of a blocked instruction goes when the code that blocked completes an instruction: the blocked one itself, or
one that a handler has put in its place. -/
def State.dropBlock (s : State) (c : Fin 32) (depth : BitVec 5) : State :=
  let k := s.running c
  if k.block.isSome && k.blockDepth == depth then
    s.modSlot c s.cores[c].slot fun x => { x with block := none, timedOut := false, granted := false }
  else s

/-- The course of one instruction of a core: applicable only where the core executes the instruction at its PC now; the
guard, the level, the body, and what follows. (DEDUCED, log 21) -/
def runNow (i : Instr) (h : Hdr) (priv : Bool) (body : M Next) (s : State) : State :=
  if !s.canIssue h.core then s
  else
    let pc := s.cores[h.core].lo.pc
    let depth := s.cores[h.core].lo.depth
    let s0 := match h.err with
      | some e => s.applyErr h.core e
      | none => s
    if s0.cores[h.core].stopped then s0
    else match (frontEnd i h).run s0 with
      | .error t s1 => s.trapped s1 h.core pc t
      | .ok false s1 =>
        ((s1.countHold h.core h.mc).dropBlock h.core depth).complete h.core pc (match i with
          | .lit _ _ => .lit
          | _ => .seq)
      | .ok true s1 =>
        let (held, s1) := s1.microCourse i h
        if held then s1
        else
          let s2 := s1.countHold h.core h.mc
          if priv && s2.user h.core then s2.enter h.core { cause := .privilege, resume := pc }
          else match body.run s2 with
            | .ok n s3 => (s3.dropBlock h.core depth).complete h.core pc n
            | .error t s3 => s.trapped s3 h.core pc t

/-- The course of one instruction, which may find that what it waits for, a burst or room in a port's queue, is not there yet
(`wait` of the header). (DESIGN CHOICE, log 147) -/
def runInstr (i : Instr) (h : Hdr) (priv : Bool) (body : M Next) (s : State) : State :=
  if h.wait then
    (runNow i h priv body (s.modCore h.core fun x => { x with waits := true })).modCore h.core fun x =>
      { x with waits := false }
  else runNow i h priv body s

/-- The outcome of a command that always leads to a next state. -/
def ok (s : State) : Host.Outcome State Fault Refusal := .next s

end Sys2Proof.Machine
end

