-- ==== Sys2Proof/Machine/Who.lean ====
section
/-! DEFINITION. Loads and stores of device registers: who makes them, the grants of the partition (R458), absent units and
slept domains (R4, R413), and the access codes of Table 00-5. -/

namespace Sys2Proof.Machine

open Sys2Proof

/-- Who makes a register access: a core with its running world and level, or Favar (also for the debug BAR, R359). -/
structure Who where
  core : Option (Fin 32)
  world : Fin 2
  user : Bool
deriving DecidableEq, Repr

/-- Favar as an agent. -/
def Who.fv : Who := ⟨none, 0, false⟩
def Who.isFavar (a : Who) : Bool := a.core.isNone
/-- The Guard supervisor level. -/
def Who.gs (a : Who) : Bool := a.core.isSome && a.world == 1 && !a.user
/-- A supervisor of a world. -/
def Who.sup (a : Who) (w : Fin 2) : Bool := a.core.isSome && a.world == w && !a.user

/-- The running code of a core as an agent. -/
def State.whoCore (s : State) (c : Fin 32) : Who := ⟨some c, s.world c, s.user c⟩

/-- The agent of a command; none where a core that runs nothing is named. -/
def State.who (s : State) : Agent → Option Who
  | .favar => some .fv
  | .core c => if s.coreLive c && s.cores[c].running then some (s.whoCore c) else none

/-- A store of a register: a new state, or PRIVILEGE with nothing changed. -/
abbrev RegSt := Except Unit State
/-- A load of a register: its word and the state after, or PRIVILEGE. -/
abbrev RegLd := Except Unit (Word × State)

/-- The unit range of a world for a block, with the CCH unit that Favar adds (R146). -/
def State.unitGranted (s : State) (w : Fin 2) (block : Fin 16) (u : Nat) : Bool :=
  if block = 11 ∧ 16 ≤ u then u == 16 + w.val
  else decide (s.worlds[w].unitFirst[block].toNat ≤ u) && decide (u ≤ s.worlds[w].unitLast[block].toNat)

/-- The block and unit with which PWR_Dd is granted: those of the domain's own unit (R414). A domain whose unit has no block
of its own is granted with the PWR block. (DEDUCED, log 113) -/
def domGrant (d : Nat) : Fin 16 × Option Nat :=
  if d < 32 then (13, some d)
  else if d < 64 then (11, some ((d - 32) / 4))
  else if d < 72 then (5, some (d - 64))
  else if d < 104 then (3, some (d - 72))
  else if d < 120 then (4, some (d - 104))
  else if d < 128 then (8, some ((d - 120) % 4))
  else if d < 136 then (7, some (d - 128))
  else if d = 139 then (6, none)
  else (9, some d)

/-- Whether an agent may load from or store to a register of a block, of a unit or block-wide (R458). -/
def State.granted (s : State) (a : Who) (block : Fin 16) (unit : Option Nat) (store : Bool) : Bool :=
  let (block, unit) := match unit with
    | some d => if block = 9 then domGrant d else (block, unit)
    | none => (block, unit)
  a.isFavar ||
    (bit (if store then s.worlds[a.world].storeGrant else s.worlds[a.world].loadGrant) block.val &&
      match unit with
      | some u => s.unitGranted a.world block u
      | none => true)

/-- How a unit answers: it is there, it is not fitted (R4), or its domain is not ON (R413). -/
inductive Presence where
  | there | absent | asleep
deriving DecidableEq, Repr

/-- The presence of a unit of a domain. -/
def State.presence (s : State) (d : Nat) (fitted : Bool) : Presence :=
  if !fitted then .absent else if s.domOn d then .there else .asleep

/-- A store to a unit's register: discarded and counted where the unit is absent or asleep. -/
def State.unitStore (s : State) (p : Presence) (r : RegSt) : RegSt :=
  match p with
  | .there => r
  | .absent => .ok { s with absentWrites := satInc s.absentWrites }
  | .asleep => .ok { s with pwr := { s.pwr with sleepWr := satInc s.pwr.sleepWr } }

/-- A load from a unit's register: CONST:ABSENT where the unit is absent or asleep. -/
def State.unitLoad (s : State) (p : Presence) (r : RegLd) : RegLd :=
  match p with
  | .there => r
  | _ => .ok (Word.absent, s)

/-- A plain register: a 64-bit datum in a RAW word. -/
def ldRaw (s : State) (d : BitVec 64) : RegLd := .ok (Word.raw d, s)

/-- A store that meets RWG fields (R208): from GS it is whole; from Favar the RWG fields keep their values; from any other
state it raises PRIVILEGE when it would change one of them. -/
def Who.rwg (a : Who) (changes : Bool) (whole keep : State) : RegSt :=
  if a.gs then .ok whole else if a.isFavar then .ok keep else if changes then .error () else .ok keep

/-- A store that only Favar may make; for a core the fields are read only. -/
def Who.rwf (a : Who) (s new : State) : RegSt := .ok (if a.isFavar then new else s)

/-- Write 1 to clear: the bit keeps its value unless 1 is written. -/
def w1c (old : Bool) (v : BitVec 64) (k : Nat) : Bool := old && !(bit v k)

/-- The offset in a range with a stride: the index and the place in it. -/
def inRange (off base stride n : Nat) : Option (Nat × Nat) :=
  if base ≤ off ∧ off < base + stride * n then some ((off - base) / stride, (off - base) % stride) else none

/-- A command that stores to a register: made where its agent may make it, otherwise nothing changes (R458). Parks that the
store asks for are made at once for a core that stands at a boundary. -/
def State.rowStore (s : State) (a : Agent) (block : Fin 16) (unit : Option Nat) (f : Who → State → RegSt) : State :=
  match s.who a with
  | none => s
  | some w =>
    if s.granted w block unit true then
      match f w s with
      | .ok s' => (List.finRange 32).foldl (fun (s : State) c => s.settlePark c) s'
      | .error _ => s
    else s

end Sys2Proof.Machine
end

