-- ==== Sys2Proof/Machine/Slots.lean ====
section
/-! DEFINITION. The JIG register block and the commands of the Jig: slots, event lines, interrupt routing, entries,
deadlines, the watchdog and the emergency drawer (R165 to R174, R188, R197 to R206). -/

namespace Sys2Proof.Machine

open Sys2Proof

/-! ### The register map (Tables 07-4, 08-8A, 08-8B) -/

/-- SlotState codes (Table 07-3). -/
def SlotState.code : SlotState → Nat
  | .empty => 0
  | .ready => 1
  | .running => 2
  | .waiting => 3
  | .clamped => 4
  | .receiving => 5
  | .parked => 6

/-- JIG_EVn_BIND as read. -/
def EvLine.bits (e : EvLine) : BitVec 64 :=
  putN 0 e.core.val ||| putN 5 e.slot.val ||| fbit 11 e.en ||| fbit 12 e.swr ||| fbit 13 e.latched ||| fbit 14 e.ovf |||
  put 15 e.world

/-- JIG_IRQn as read. -/
def Irq.bits (q : Irq) : BitVec 64 :=
  putN 0 q.core.val ||| putN 5 q.slot.val ||| fbit 11 q.en ||| fbit 12 q.fast ||| fbit 13 q.pend ||| put 14 q.world

/-- JIG_Cc_Ss as read. -/
def Slot.bits (k : Slot) : BitVec 64 :=
  put 0 k.handle ||| put 48 k.prio ||| putN 52 k.state.code ||| put 55 k.world ||| fbit 57 k.err

/-- JIG_Cc_RUN as read. -/
def Core.runBits (x : Core) : BitVec 64 :=
  putN 0 x.slot.val ||| fbit 6 (!x.running) ||| (if x.running then put 7 x.slots[x.slot].prio else 0) |||
  putN 11 x.lzSlot.val ||| put 17 x.lzDepth ||| fbit 22 x.lzNone ||| putN 23 x.llSlot.val ||| put 29 x.llDepth |||
  fbit 34 x.llNone ||| fbit 35 x.bank

/-- JIG_Cc_WDOG as read. -/
def Core.wdBits (x : Core) : BitVec 64 := put 0 x.wdLimit ||| fbit 24 x.wdForce ||| fbit 25 x.wdFired

/-- A register of the JIG block. -/
inductive JigReg where
  | bind (n : Fin 256)
  | stamp (n : Fin 256)
  | dropped
  | irq (n : Fin 256)
  | run (c : Fin 32)
  | wdog (c : Fin 32)
  | switches (c : Fin 32)
  | edctl (c : Fin 32)
  | slot (c : Fin 32) (k : Fin 64)
  | ed (c : Fin 32) (k : Fin 64)
deriving DecidableEq, Repr

/-- The register at a word offset. -/
def jigReg (off : Nat) : Option JigReg :=
  if off < 0x100 then some (.bind (idx 256 off))
  else if off < 0x200 then some (.stamp (idx 256 (off - 0x100)))
  else if off = 0x200 then some .dropped
  else match inRange off 0x300 1 256, inRange off 0x400 0x10 32, inRange off 0x1000 0x40 32, inRange off 0x2000 0x40 32 with
    | some (n, _), _, _, _ => some (.irq (idx 256 n))
    | _, some (c, k), _, _ =>
      if k = 0 then some (.run (idx 32 c)) else if k = 1 then some (.wdog (idx 32 c))
      else if k = 2 then some (.switches (idx 32 c)) else if k = 3 then some (.edctl (idx 32 c)) else none
    | _, _, some (c, k), _ => some (.slot (idx 32 c) (idx 64 k))
    | _, _, _, some (c, k) => some (.ed (idx 32 c) (idx 64 k))
    | _, _, _, _ => none

/-- The unit of a JIG register (R170, R198). -/
def State.jigUnit (s : State) (r : JigReg) : Option Nat :=
  match r with
  | .bind _ => none
  | .stamp _ => none
  | .dropped => none
  | .irq n => some s.jig.irq[n].core.val
  | .run c => some c.val
  | .wdog c => some c.val
  | .switches c => some c.val
  | .edctl c => some c.val
  | .slot c _ => some c.val
  | .ed c _ => some c.val

/-- Loads of emergency-drawer words: the Guard supervisor, and the supervisor of the world named in word 0 (R205). -/
def State.edReadable (s : State) (a : Who) (c : Fin 32) : Bool :=
  a.isFavar || a.gs || a.sup (worldIx (fld s.cores[c].drawer[0].datum 1 2))

/-- A load of a JIG register. -/
def State.jigLoad (s : State) (a : Who) (r : JigReg) : RegLd :=
  let unit (c : Fin 32) (d : BitVec 64) : RegLd := s.unitLoad (s.presence c.val true) (ldRaw s d)
  match r with
  | .bind n => ldRaw s s.jig.ev[n].bits
  | .stamp n => ldRaw s s.jig.ev[n].stamp
  | .dropped => ldRaw s (put 0 s.jig.dropped)
  | .irq n => ldRaw s s.jig.irq[n].bits
  | .run c => unit c s.cores[c].runBits
  | .wdog c => unit c s.cores[c].wdBits
  | .switches c => unit c s.cores[c].switches
  | .edctl c => unit c (fbit 0 s.cores[c].drawerFull)
  | .slot c k => unit c (s.slot c k).bits
  | .ed c k =>
    s.unitLoad (s.presence c.val true) (if s.edReadable a c then .ok (s.cores[c].drawer[k], s) else .error ())

/-! ### Event lines and routing -/

/-- A store to JIG_EVn_BIND (R170, R172): a change of CORE, SLOT or EN clears LATCHED. (DEDUCED, log 124) -/
def State.bindStore (s : State) (a : Who) (n : Fin 256) (v : BitVec 64) : RegSt :=
  let e := s.jig.ev[n]
  if !(a.isFavar || a.sup (worldIx e.world)) then .error ()
  else
    let core : Fin 32 := (fld v 0 5).toFin
    let slot : Fin 64 := (fld v 5 6).toFin
    let en := bit v 11
    let same := core == e.core && slot == e.slot && en == e.en
    let e' := { e with core := core, slot := slot, en := en, swr := bit v 12, latched := e.latched && same
                       ovf := w1c e.ovf v 14, world := if a.isFavar then fld v 15 2 else e.world }
    .ok { s with jig := { s.jig with ev := vset s.jig.ev n e' } }

/-- A store to JIG_IRQn (R198). (DEDUCED, log 124) -/
def State.irqStore (s : State) (a : Who) (n : Fin 256) (v : BitVec 64) : RegSt :=
  let q := s.jig.irq[n]
  if !(a.isFavar || a.sup (worldIx q.world)) then .error ()
  else
    let q' := { q with core := (fld v 0 5).toFin, slot := (fld v 5 6).toFin, en := bit v 11, fast := bit v 12
                       world := if a.isFavar then fld v 14 2 else q.world }
    .ok { s with jig := { s.jig with irq := vset s.jig.irq n q' } }

/-! ### Slots (R168) -/

/-- Whether the partition assigns a core to a world. -/
def State.assigned (s : State) (c : Fin 32) (w : Fin 2) : Bool :=
  match s.fv.use[c] with
  | .shared => true
  | .test => w == 0
  | .guard => w == 1
  | .unused => false

/-- The checks of a load on the CONTEXT object at a handle, and its RESIDENCE written: n of the object, and the DEPTH and
HOLDREM of its record; none where the object is refused (R165, R168). (DESIGN CHOICE, log 51) -/
def loadContext (v : Via) (slot : Fin 64) (h : BitVec 48) : M (Option (BitVec 5 × BitVec 5 × BitVec 64)) := do
  let hd ← viaRead v h
  let n ← viaRead v (h + 6)
  let res ← viaRead v (h + 1)
  let good := hd.tag == 0x80 && hdrKind hd == 0x0D && n.tag == 0x00 && decide (1 ≤ n.datum.toNat) &&
    decide (n.datum.toNat ≤ 16) && hdrLen hd == 100 + 56 * n.datum.toNat && !(bit res.datum 11)
  if !good then pure none
  else
    let d ← viaRead v (h + 33)
    let hold ← viaRead v (h + 43)
    viaWrite v (h + 1)
      (Word.raw (putN 0 slot.val ||| putN 6 v.core.val ||| fbit 11 true ||| putN 12 v.world.val)) none
    pure (some (fld n.datum 0 5, fld d.datum 0 5, hold.datum))

/-- Where the unscanned part of the stacks of a context begins that is loaded during a cycle: at SP, unless the Planer has
scanned them (R155). -/
def State.freshStack (s : State) (w : Fin 2) (h : BitVec 48) : Option Nat :=
  let g := s.worlds[w].heap
  if g.phase == .idle || decide (h ∈ g.ctxDone) then none else some 0

/-- Load the context of a slot for a world: READY, or EMPTY with ERR and line 253 (R168, R228). -/
def State.loadSlot (s : State) (c : Fin 32) (k : Fin 64) (w : Fin 2) : State :=
  let refuse (s : State) : State := (s.modSlot c k fun x => { x with state := .empty, err := true }).raise 253
  if !(s.assigned c w) then refuse s
  else match (loadContext ⟨c, w, false, 6⟩ k (s.slot c k).handle).run s with
    | .ok none s' => refuse s'
    | .ok (some (n, d, hold)) s' =>
      (s'.modSlot c k fun x =>
        { x with world := BitVec.ofNat 2 w.val, frames := n, depth := d, holdRem := hold, block := none, timedOut := false
                 granted := false, grants := [], abort := [], stackInvalid := [], parkDue := false, lost := false
                 unscanU := s'.freshStack w (s.slot c k).handle, unscanS := s'.freshStack w (s.slot c k).handle }).makeReady c k
    | .error t s' =>
      let s' := s'.modSlot c k fun x => { x with state := .empty, err := true }
      match t.fault with
      | some (a, i) => s'.jigFault w a i
      | none => s'.raise 253

/-- Unload the context of a parked slot: RESIDENT is cleared and the slot is EMPTY. A fault in the access is recorded. PEND of
an interrupt routed to the slot stays, and goes to the next context there. (DESIGN CHOICE, log 149) -/
def State.unloadSlot (s : State) (c : Fin 32) (k : Fin 64) : State :=
  let x := s.slot c k
  let v : Via := s.viaSlot c k 6
  let clear : M Unit := do
    let r ← viaRead v (x.handle + 1)
    viaWrite v (x.handle + 1) (Word.raw (setBit r.datum 11 false)) none
  match clear.run s with
  | .ok _ s' => s'.modSlot c k fun x => { x with state := .empty, lost := false }
  | .error t s' =>
    let s' := s'.modSlot c k fun x => { x with state := .empty, err := true, lost := false }
    match t.fault with
    | some (a, i) => s'.jigFault v.world a i
    | none => s'

/-- Park a slot (Table 07-3): a blocking instruction is abandoned; a running context parks at its next boundary. -/
def State.parkSlot (s : State) (c : Fin 32) (k : Fin 64) : State :=
  match (s.slot c k).state with
  | .ready => s.modSlot c k fun x => { x with state := .parked }
  | .running => s.modSlot c k fun x => { x with parkDue := true }
  | .waiting => (s.abandonBlock c k).modSlot c k fun x => { x with state := .parked }
  | .clamped => (s.abandonBlock c k).modSlot c k fun x => { x with state := .parked }
  | .receiving => (s.abandonBlock c k).modSlot c k fun x => { x with state := .parked }
  | _ => s

/-- A store to JIG_Cc_Ss (R168, Table 07-3); a context whose record was lost cannot be made READY (R228). The world of a load by Favar is the one it writes. (DESIGN CHOICE, log 51) -/
def State.slotStore (s : State) (a : Who) (c : Fin 32) (k : Fin 64) (v : BitVec 64) : RegSt :=
  let x := s.slot c k
  if !a.isFavar && (a.user || (x.state != .empty && a.world != worldIx x.world)) then .error ()
  else
    let want := (fld v 52 3).toNat
    let w : Fin 2 := if a.isFavar then worldIx (fld v 55 2) else a.world
    let allowed : Bool := want == x.state.code ||
      match x.state, want with
      | .empty, 1 => true
      | .parked, 1 => !x.lost
      | .parked, 0 => true
      | .empty, _ => false
      | .parked, _ => false
      | _, 6 => true
      | _, _ => false
    if !allowed then .ok (s.modSlot c k fun x => { x with err := true })
    else
      let s := s.modSlot c k fun x =>
        { x with handle := fld v 0 48, prio := fld v 48 4, err := w1c x.err v 57
                 world := if a.isFavar then fld v 55 2 else x.world }
      if want == x.state.code then .ok s
      else match x.state, want with
        | .empty, 1 => .ok (s.loadSlot c k w)
        | .parked, 1 => .ok (s.makeReady c k)
        | .parked, 0 => .ok (s.unloadSlot c k)
        | _, _ => .ok (s.parkSlot c k)

/-- A store to a JIG register. -/
def State.jigStore (s : State) (a : Who) (r : JigReg) (v : BitVec 64) : RegSt :=
  let unit (c : Fin 32) (r : RegSt) : RegSt := s.unitStore (s.presence c.val true) r
  match r with
  | .bind n => s.bindStore a n v
  | .stamp _ => .ok s
  | .dropped => .ok s
  | .irq n => s.irqStore a n v
  | .run c => unit c (.ok s)
  | .wdog c => unit c (.ok (s.modCore c fun x =>
      { x with wdLimit := fld v 0 24, wdForce := bit v 24, wdFired := w1c x.wdFired v 25, wdDone := false, wdSet := s.now
               wdStart := if x.wdLimit = 0 ∧ fld v 0 24 ≠ 0 then s.now else x.wdStart }))
  | .switches c => unit c (.ok s)
  | .edctl c => unit c (.ok (s.modCore c fun x => { x with drawerFull := w1c x.drawerFull v 0 }))
  | .slot c k => unit c (s.slotStore a c k v)
  | .ed c _ => unit c (.ok s)

/-- The row of a store to a JIG register. (DESIGN CHOICE, log 1) -/
def State.jigRow (s : State) (a : Agent) (r : JigReg) (v : BitVec 64) : State :=
  s.rowStore a 13 (s.jigUnit r) fun w s => s.jigStore w r v

/-! ### Commands -/

/-- SLOT_LOAD: a store that writes READY to an EMPTY slot (R168). -/
def execSlotLoad (a : Agent) (c : Fin 32) (slot : Fin 64) (v : BitVec 64) (s : State) : Host.Outcome State Fault Refusal :=
  ok (if (s.slot c slot).state == .empty && fld v 52 3 == 1 then s.jigRow a (.slot c slot) v else s)

/-- SLOT_PARK: a store that writes PARKED to a slot that is not EMPTY. -/
def execSlotPark (a : Agent) (c : Fin 32) (slot : Fin 64) (v : BitVec 64) (s : State) : Host.Outcome State Fault Refusal :=
  ok (if (s.slot c slot).state != .empty && fld v 52 3 == 6 then s.jigRow a (.slot c slot) v else s)

/-- SLOT_READY: a store that writes READY to a PARKED slot. -/
def execSlotReady (a : Agent) (c : Fin 32) (slot : Fin 64) (v : BitVec 64) (s : State) : Host.Outcome State Fault Refusal :=
  ok (if (s.slot c slot).state == .parked && fld v 52 3 == 1 then s.jigRow a (.slot c slot) v else s)

/-- SLOT_UNLOAD: a store that writes EMPTY to a PARKED slot. -/
def execSlotUnload (a : Agent) (c : Fin 32) (slot : Fin 64) (v : BitVec 64) (s : State) :
    Host.Outcome State Fault Refusal :=
  ok (if (s.slot c slot).state == .parked && fld v 52 3 == 0 then s.jigRow a (.slot c slot) v else s)

/-- EV_BIND_WRITE: a store to JIG_EVn_BIND (R170, R172). -/
def execEvBindWrite (a : Agent) (line : Fin 256) (v : BitVec 64) (s : State) : Host.Outcome State Fault Refusal :=
  ok (s.jigRow a (.bind line) v)

/-- EDCTL_RELEASE: writing FULL := 1 releases the emergency drawer (R205). -/
def execEdctlRelease (a : Agent) (c : Fin 32) (v : BitVec 64) (s : State) : Host.Outcome State Fault Refusal :=
  ok (if bit v 0 then s.jigRow a (.edctl c) v else s)

/-- Whether a core stands at a boundary where nothing of higher rank than an entry is owed: no veneer commit, no flip, and
no window about to close. -/
def State.entryOpen (s : State) (c : Fin 32) : Bool :=
  s.coreLive c && s.cores[c].running && !(s.commitDue c) && !(s.flipNow c) && !(s.holdSpent c)

/-- INTERRUPT_ENTRY: rank 5 of Table 08-7. -/
def execInterruptEntry (c : Fin 32) (s : State) : Host.Outcome State Fault Refusal :=
  ok (if s.entryOpen c && !(s.abortDue c) && (s.switchDue c).isNone && (s.fastDue c).isNone then
      match s.intDue c with
      | some n => (s.setPend n false).enter c
          { cause := .interrupt, resume := s.cores[c].lo.pc, arg := BitVec.ofNat 8 n.val }
      | none => s
    else s)

/-- FAST_INTERRUPT_ENTRY: rank 4; the fast bank is swapped in (R183). -/
def execFastInterruptEntry (c : Fin 32) (s : State) : Host.Outcome State Fault Refusal :=
  ok (if s.entryOpen c && !(s.abortDue c) && (s.switchDue c).isNone then
      match s.fastDue c with
      | some n => (s.setPend n false).enter c
          { cause := .fastInterrupt, resume := s.cores[c].lo.pc, arg := BitVec.ofNat 8 n.val }
      | none => s
    else s)

/-- The CAUSE of a STACK_INVALID delivered to the Guard service context names the failing code: OWORLD 00, OLEVEL 1, also in its
red zone; not where the service context's own entry fails (R206). -/
def Core.serviceCause (x : Core) : Core :=
  let code : BitVec 8 := fld x.lo.cause 0 8
  let inner : BitVec 8 := fld x.lo.cause 16 8
  if (code = Cause.stackInvalid.code ∧ inner = 0) ∨ (code = Cause.stackOverflow.code ∧ inner = Cause.stackInvalid.code) then
    { x with lo := { x.lo with cause := setBit (setFld x.lo.cause 8 (0 : BitVec 2)) 10 true } }
  else x

/-- GUARD_ABORT_ENTRY: rank 2; the oldest GUARD_ABORT, counted in SAFE_ABORTS, or else the oldest STACK_INVALID of a context
that failed on another core (R206, R210). -/
def execGuardAbortEntry (c : Fin 32) (s : State) : Host.Outcome State Fault Refusal :=
  ok (if s.entryOpen c && !s.cores[c].fresh then
      let k := s.cores[c].slot
      match (s.running c).abort, (s.running c).stackInvalid with
      | arg :: more, _ =>
        let s := s.modSlot c k fun x => { x with abort := more }
        ({ s with safe := { s.safe with aborts := satInc s.safe.aborts } }).enter c
          { cause := .guardAbort, resume := s.cores[c].lo.pc, arg := arg }
      | [], from_ :: more =>
        ((s.modSlot c k fun x => { x with stackInvalid := more }).enter c
          { cause := .stackInvalid, resume := s.cores[c].lo.pc, arg := fld from_ 0 8 }).modCore c Core.serviceCause
      | [], [] => s
    else s)

/-- JIG_SWITCH: rank 3 of Table 08-7, or the start of a context on an idle core (R169, R173). -/
def execJigSwitch (c : Fin 32) (s : State) : Host.Outcome State Fault Refusal :=
  ok (if s.coreLive c && !(s.commitDue c) && (!s.cores[c].running || (s.entryOpen c && !(s.abortDue c))) then s.jigSwitch c else s)

/-- The window that a context left open when it blocked closes: its record keeps no count (R174, R202). (DEDUCED, log 138) -/
def State.endLeftWindow (s : State) (c : Fin 32) : State :=
  let k := s.cores[c].slot
  let v := s.viaSlot c k 6
  let s := s.modCore c fun x => { x with holdWait := false, hx := vset x.hx v.world true }
  let s := s.modSlot c k fun y => { y with holdRem := 0 }
  match (viaWrite v ((s.slot c k).handle + 43) (Word.fix 0) none).run s with
  | .ok _ s' => s'
  | .error _ _ => s

/-- HOLD_EXPIRY: the count of a window has run out; HW becomes 0 and the HX latch of the world is set (R202). -/
def execHoldExpiry (c : Fin 32) (s : State) : Host.Outcome State Fault Refusal :=
  ok (if s.coreLive c && !s.cores[c].running && s.cores[c].holdWait then s.endLeftWindow c
    else if s.coreLive c && s.holdSpent c then
      let w := s.world c
      s.modCore c fun x => { x with lo := { x.lo with stat := setBit x.lo.stat 15 false }, hx := vset x.hx w true }
    else s)

/-- Whether the deadline of a blocked context has passed: its tick has ended. -/
def State.deadlineOver (s : State) (d : Option (BitVec 64)) : Bool :=
  match d with
  | some d => decide (d.toNat < s.now.toNat)
  | none => false

/-- Declare the timeout of a blocked context: it becomes READY and owes the timeout. -/
def State.declareTimeout (s : State) (c : Fin 32) (k : Fin 64) : State :=
  (s.modSlot c k fun x => { x with timedOut := true }).makeReady c k

/-- WAIT_DEADLINE: at the end of the tick of the deadline with no event (R130). -/
def execWaitDeadline (c : Fin 32) (slot : Fin 64) (s : State) : Host.Outcome State Fault Refusal :=
  ok (match (s.slot c slot).state, (s.slot c slot).block with
    | .waiting, some (.wait d) => if s.deadlineOver d then s.declareTimeout c slot else s
    | _, _ => s)

/-- CLAMP_DEADLINE: the clamp has not come; WAITERS is decremented (R132). -/
def execClampDeadline (c : Fin 32) (slot : Fin 64) (s : State) : Host.Outcome State Fault Refusal :=
  ok (match (s.slot c slot).state, (s.slot c slot).block with
    | .clamped, some (.clamp pa d _) => if s.deadlineOver d then (s.unwait c pa).declareTimeout c slot else s
    | _, _ => s)

/-- RECV_DEADLINE: no word has come (R138). -/
def execRecvDeadline (c : Fin 32) (slot : Fin 64) (s : State) : Host.Outcome State Fault Refusal :=
  ok (match (s.slot c slot).state, (s.slot c slot).block with
    | .receiving, some (.recv d) => if s.deadlineOver d then s.declareTimeout c slot else s
    | _, _ => s)

/-- JIG_WATCHDOG_EXPIRY: the running context has run for LIMIT microseconds; a new LIMIT counts from the microsecond after its
write (R188). -/
def execJigWatchdogExpiry (c : Fin 32) (s : State) : Host.Outcome State Fault Refusal :=
  let x := s.cores[c]
  ok (if s.domOn c.val && x.running && !x.halted && x.wdLimit != 0 && !x.wdDone &&
        decide (x.wdSet.toNat / 1000 < s.now.toNat / 1000) && decide (x.wdLimit.toNat ≤ (s.now - x.wdStart).toNat / 1000) then
      let s := (s.modCore c fun x => { x with wdFired := true, wdDone := true }).raise 253
      if x.wdForce then (s.modSlot c x.slot fun k => { k with parkDue := true }).settlePark c else s
    else s)

end Sys2Proof.Machine
end

