-- ==== Sys2Proof/Machine/Planer.lean ====
section
/-! DEFINITION. The heap registers of a world and the collection cycle: START, SYNC, GIVE, RETRY, the phases of the Planer
and the flips of the cores (R143 to R146, R153 to R158, R228). -/

namespace Sys2Proof.Machine

open Sys2Proof

/-! ### Heap and translation registers of a world (Tables 06-3, 09-8) -/

/-- PHASE codes (Table 06-4). -/
def Phase.code : Phase → Nat
  | .idle => 0
  | .flip => 1
  | .copy => 2
  | .drain => 3
  | .sweep => 4
  | .release => 5

/-- A register of the heap or of the translation part of a world. -/
inductive HeapReg where
  | ctl | status | heap | bmap | cards | seen | pool | poolix | give | lofree | alloc | slow | afaddr | afinfo | actl
deriving DecidableEq, Repr

/-- The heap register at an offset from 0x8000 + 0x10 × w. -/
def heapReg : Nat → Option HeapReg
  | 0 => some .ctl
  | 1 => some .status
  | 2 => some .heap
  | 3 => some .bmap
  | 4 => some .cards
  | 5 => some .seen
  | 6 => some .pool
  | 7 => some .poolix
  | 8 => some .give
  | 9 => some .lofree
  | 10 => some .alloc
  | 11 => some .slow
  | _ => none

/-- A heap register as read. -/
def Heap.regBits (h : Heap) : HeapReg → BitVec 64
  | .ctl => fbit 1 h.kind ||| put 4 h.promoteAge
  | .status => putN 0 h.phase.code ||| fbit 3 h.syncBusy ||| fbit 4 h.poolEmpty ||| fbit 5 h.stranded ||| fbit 6 h.lapse |||
      fbit 7 h.giveLost ||| fbit 8 h.lobad ||| put 32 h.cycles
  | .heap => put 0 h.base ||| put 32 h.count
  | .bmap => put 0 h.bmap
  | .cards => put 0 h.cards
  | .seen => put 0 h.seen
  | .pool => put 0 h.poolAddr ||| put 40 h.poolSize
  | .poolix => put 0 h.poolHead ||| put 32 h.poolTail
  | .give => 0
  | .lofree => put 0 h.lofree
  | .alloc => put 0 h.nchunk
  | .slow => h.slow
  | .afaddr => put 0 h.afaddr
  | .afinfo => h.afinfo
  | .actl => fbit 1 h.phHeld ||| fbit 2 h.afValid

/-- The event line of a phase change of a world (Table 07-5). -/
def phaseLine (w : Fin 2) : Fin 256 := if w = 0 then 248 else 249

/-- Empty every card queue. -/
def State.emptyCardQueues (s : State) : State :=
  (List.finRange 8).foldl (fun (s : State) k => (List.range 64).foldl (fun (s : State) _ => s.drainCard k) s) s

/-- Enter a phase; its line is raised, and the phase that ends leaves no card queued (R152, R153). -/
def State.setPhase (s : State) (w : Fin 2) (p : Phase) : State :=
  (s.emptyCardQueues.modHeap w fun h => { h with phase := p, workDone := false }).raise (phaseLine w)

/-- START: a cycle begins when PHASE is IDLE. -/
def State.startCycle (s : State) (w : Fin 2) : State :=
  if s.worlds[w].heap.phase = .idle then
    let s := s.modHeap w fun h => { h with fullCycle := h.kind, cycleOrd := s.jig.order, live := 0 }
    ({ s with jig := { s.jig with order := s.jig.order + 1 } }).setPhase w .flip
  else s

/-- A board-map reload is asked of every powered core of the world (R144). -/
def State.askReload (s : State) (w : Fin 2) : State :=
  let cs := (List.finRange 32).filter fun c => s.assigned c w && s.domOn c.val
  let s := cs.foldl (fun (s : State) c => s.modCore c fun x => { x with reload := vset x.reload w true }) s
  s.modHeap w fun h => { h with syncBusy := !cs.isEmpty }

/-- A store to a heap or translation register of a world. -/
def State.heapStore (s : State) (a : Who) (w : Fin 2) (r : HeapReg) (v : BitVec 64) : RegSt :=
  let rwf (f : Heap → Heap) : RegSt := a.rwf s (s.modHeap w f)
  match r with
  | .ctl =>
    let s := s.modHeap w fun h => { h with kind := bit v 1, promoteAge := fld v 4 4 }
    let s := if bit v 2 then s.askReload w else s
    .ok (if bit v 0 then s.startCycle w else s)
  | .status => .ok (s.modHeap w fun h =>
      { h with poolEmpty := w1c h.poolEmpty v 4, stranded := w1c h.stranded v 5, lapse := w1c h.lapse v 6
               giveLost := w1c h.giveLost v 7, lobad := w1c h.lobad v 8 })
  | .heap => rwf fun h => { h with base := fld v 0 32, count := fld v 32 18 }
  | .bmap => rwf fun h => { h with bmap := fld v 0 40 }
  | .cards => rwf fun h => { h with cards := fld v 0 40 }
  | .seen => rwf fun h => { h with seen := fld v 0 40 }
  | .pool => rwf fun h => { h with poolAddr := fld v 0 40, poolSize := fld v 40 24 }
  | .poolix => .ok s
  | .give => .ok (s.givePool w (fld v 0 32))
  | .lofree => .ok (s.modHeap w fun h => { h with lofree := fld v 0 48 })
  | .alloc => .ok (s.modHeap w fun h => { h with nchunk := fld v 0 5 })
  | .slow => .ok s
  | .afaddr => .ok s
  | .afinfo => .ok s
  | .actl => .ok (s.modHeap w fun h =>
      { h with phHeld := h.phHeld && !(bit v 0), afValid := w1c h.afValid v 2 })

/-- The row of a store to a register of unit 16 + w of the CCH block. -/
def State.heapRow (s : State) (a : Agent) (w : Fin 2) (r : HeapReg) (v : BitVec 64) : State :=
  s.rowStore a 11 (some (16 + w.val)) fun x s => s.heapStore x w r v

/-- CCH_START: a store to CCH_GCw_CTL with START (R153). -/
def execCchStart (a : Agent) (w : Fin 2) (v : BitVec 64) (s : State) : Host.Outcome State Fault Refusal :=
  ok (if bit v 0 then s.heapRow a w .ctl v else s)

/-- CCH_SYNC: a store to CCH_GCw_CTL with SYNC (R144). -/
def execCchSync (a : Agent) (w : Fin 2) (v : BitVec 64) (s : State) : Host.Outcome State Fault Refusal :=
  ok (if bit v 2 then s.heapRow a w .ctl v else s)

/-- CCH_GIVE: a board is appended to the pool (R146). -/
def execCchGive (a : Agent) (w : Fin 2) (v : BitVec 64) (s : State) : Host.Outcome State Fault Refusal :=
  ok (s.heapRow a w .give v)

/-- TW_RETRY: the Planer may retry the access that faulted (R228). -/
def execTwRetry (a : Agent) (w : Fin 2) (v : BitVec 64) (s : State) : Host.Outcome State Fault Refusal :=
  ok (if bit v 0 then s.heapRow a w .actl v else s)

/-- The words of a world's board map in memory. (DESIGN CHOICE, log 61) -/
def State.mapWords (s : State) (w : Fin 2) : List (BitVec 64) :=
  let h := s.worlds[w].heap
  (List.range (cdiv h.count.toNat 32)).map fun i => (s.peek (h.bmap.toNat + i)).datum

/-- BOARD_MAP_RELOAD: a core reloads its copy of a map; SYNC_BUSY ends with the last (R144). (DEDUCED, log 60) -/
def execBoardMapReload (c : Fin 32) (w : Fin 2) (s : State) : Host.Outcome State Fault Refusal :=
  ok (if s.cores[c].reload[w] then
      let m := s.mapWords w
      let s := s.modCore c fun x => { x with bmap := vset x.bmap w m, reload := vset x.reload w false }
      if s.cores.toList.any fun x => x.reload[w] then s else s.modHeap w fun h => { h with syncBusy := false }
    else s)

/-! ### FLIP -/

/-- The core in whose cluster the Planer of a world works: the lowest one assigned to it. -/
def State.planerVia (s : State) (w : Fin 2) : Option Via :=
  ((List.finRange 32).find? fun c => s.assigned c w).map fun c => ⟨c, w, false, 7⟩

/-- What a walk of a board meets first beside FILL runs: a movable object, anything else, or nothing (R142). -/
inductive BoardUse where
  | movable | other | free
deriving DecidableEq, Repr

/-- Walk a board from a word on over its FILL runs to the first object. -/
def boardUse (v : Via) (stop : Nat) : Nat → Nat → M BoardUse
  | 0, _ => pure .free
  | fuel + 1, a => do
    if stop ≤ a then pure .free
    else
      let w ← viaRead v (BitVec.ofNat 48 a)
      if w.tag = 0x82 then boardUse v stop fuel (a + max 1 (fld w.datum 0 40).toNat)
      else if w.tag = 0xFF then pure .free
      else if w.tag = 0x80 ∧ hdrLen w ≤ 256 ∧ kindPinned (hdrKind w) = false then pure .movable
      else pure .other

/-- The use of board k of the window. One that translation does not reach holds no object. (DEDUCED, log 143) -/
def useOf (v : Via) (k : Nat) : M BoardUse := do
  let b := (← get).worlds[v.world].heap.base.toNat + k
  tryCatch (boardUse v ((b + 1) * 65536) 65536 (b * 65536)) fun _ => pure .free

/-- Set the map bits of a board in memory only; the cores take them at their reload. -/
def State.setMapMem (s : State) (w : Fin 2) (k : Nat) (cond old : Bool) : State :=
  let a := s.worlds[w].heap.bmap.toNat + k / 32
  s.dmaWrite a (Word.raw (setBit (setBit (s.peek a).datum (2 * (k % 32)) old) (2 * (k % 32) + 1) cond))

/-- The boards in the pool ring. -/
def State.poolBoards (s : State) (w : Fin 2) : List Nat :=
  let h := s.worlds[w].heap
  (List.range (h.poolTail - h.poolHead).toNat).map fun i =>
    (s.peek (h.poolAddr.toNat + (h.poolHead.toNat + i) % max 1 h.poolSize.toNat)).datum.toNat % 2 ^ 32

/-- Condemn boards k to k + n − 1 (R153): nursery boards in use, and in a FULL cycle every large-object board; old boards
that the runtime marked stay condemned. A nursery board is in use when it is not in the pool and holds an object; a board
of state 01 is a large-object board when no movable object stands first on it. (DEDUCED, log 143) -/
def condemnBoards (v : Via) (pool : List Nat) (full : Bool) : Nat → Nat → M Unit
  | 0, _ => pure ()
  | n + 1, k => do
    let h := (← get).worlds[v.world].heap
    let board := h.base.toNat + k
    let (_, old) := (← get).mapBits v.world k
    if !old then
      if board ∉ pool ∧ (← useOf v k) ≠ .free then modify fun s => s.setMapMem v.world k true false
    else if full then
      if (← useOf v k) ≠ .movable then
        modify fun s => (s.setMapMem v.world k true true).modHeap v.world fun h =>
          { h with largeCond := h.largeCond ++ [k] }
    condemnBoards v pool full n (k + 1)

/-- Whether a place that copies or chunks go to lies on a condemned board of the map in memory. -/
def State.keepArea (s : State) (w : Fin 2) (x : Option (BitVec 32 × Nat)) : Option (BitVec 32 × Nat) :=
  match x with
  | some (b, u) => if (s.mapBits w (b.toNat - s.worlds[w].heap.base.toNat)).1 then none else some (b, u)
  | none => none

/-- A Planer action: on a fault it is recorded and the cycle held (R228); with the pool empty the phase goes on later. -/
def State.planer (s : State) (w : Fin 2) (act : M Unit) : State :=
  match act.run s with
  | .ok _ s' => s'.modHeap w fun h => { h with workDone := true }
  | .error t s' =>
    match t.fault with
    | some (a, i) => (s'.jigFault w a i).modHeap w fun h => { h with phHeld := true }
    | none => s'

/-- Whether the Planer may serve the cycle of a world: it is not held, and no cycle of the other world that was started
earlier runs on a shared cluster. -/
def State.planerFree (s : State) (w : Fin 2) : Bool :=
  let h := s.worlds[w].heap
  let o : Fin 2 := 1 - w
  let g := s.worlds[o].heap
  let shared := (List.finRange 8).any fun k =>
    ((List.finRange 32).any fun c => clusterOf c == k && s.assigned c w) &&
    ((List.finRange 32).any fun c => clusterOf c == k && s.assigned c o)
  !h.phHeld && !(shared && g.phase != .idle && decide (g.cycleOrd < h.cycleOrd))

/-- PLANER_FLIP: condemn the boards of the cycle, have the map reloaded and the flip owed by every core (R153, R154). (DESIGN CHOICE, log 57) -/
def execPlanerFlip (w : Fin 2) (s : State) : Host.Outcome State Fault Refusal :=
  ok (match s.planerVia w with
    | none => s
    | some v =>
      let h := s.worlds[w].heap
      if h.phase = .flip ∧ h.workDone = false ∧ s.planerFree w = true then
        let s := s.modHeap w fun h => { h with largeCond := [], seenQ := [], ctxQ := [], ctxDone := [], toSpace := [] }
        let s := s.planer w (condemnBoards v (s.poolBoards w) h.fullCycle h.count.toNat 0)
        if s.worlds[w].heap.workDone then
          let s := s.modHeap w fun h =>
            { h with nursery := s.keepArea w h.nursery, survivor := s.keepArea w h.survivor, oldTo := s.keepArea w h.oldTo }
          let cs := (List.finRange 32).filter fun c => s.assigned c w
          (cs.foldl (fun (s : State) c => s.modCore c fun x => { x with flipDue := vset x.flipDue w true }) s).askReload w
        else s
      else s)

/-- Retire the allocation region of the running context and take a new chunk; with the pool empty the region is left
empty (R154, R159). -/
def retireRegion (c : Fin 32) : M Unit := do
  let lo := (← get).cores[c].lo
  tryCatch (allocRefill c 0) fun t =>
    match t with
    | .exc .allocFail _ _ => do
      fillRun ((← get).via c 0) lo.allocp.toNat (lo.allocl.toNat - lo.allocp.toNat)
      modify fun s => s.setRegion c lo.allocl.toNat lo.allocl.toNat
    | t => throw t

/-- The allocation region in the record of a context that does not run is retired where it lies on a condemned board: its rest
is a FILL run, and the region is empty (R154, R159). -/
def retireSaved (v : Via) (ctx : BitVec 48) : M Unit := do
  let p ← viaRead v (ctx + 36)
  let l ← viaRead v (ctx + 37)
  if p.datum.toNat < l.datum.toNat ∧ (← get).condemned v.core v.world (fld p.datum 0 48) = true then
    fillRun v p.datum.toNat (l.datum.toNat - p.datum.toNat)
    viaWrite v (ctx + 36) l none

/-- Retire the saved regions of contexts. -/
def retireAll (v : Via) : List (BitVec 48) → M Unit
  | [] => pure ()
  | h :: hs => do
    retireSaved v h
    retireAll v hs

/-- The flip marks of a list of words: bit i for word i where it points into a condemned board (R154). -/
def State.marksOf (s : State) (v : Via) (n : Nat) (ws : List Word) : BitVec n :=
  ((ws.zip (List.range n)).filter fun e => s.suspect v e.1).foldl (fun m e => setBit m e.2 true) 0

/-- The slots of a core with a context of a world. -/
def State.slotsOf (s : State) (c : Fin 32) (w : Fin 2) : List (Fin 64) :=
  (List.finRange 64).filter fun k => (s.slot c k).state != .empty && worldIx (s.slot c k).world == w

/-- Where the unscanned part of a stack of the running context begins: above the words in its buffer (R155). -/
def State.stackFrom (s : State) (c : Fin 32) (user : Bool) : Nat :=
  (s.cores[c].stackBuf user).foldl (fun n e => max n (e.va.toNat + 1)) (s.cores[c].sp user).toNat

/-- The marks that the flip of a world sets on a core, and the boundary of the unscanned part of each stack: the running
context's above its buffer, any other's at its saved SP (R154, R155). -/
def State.markCore (s : State) (c : Fin 32) (w : Fin 2) : State :=
  let x := s.cores[c]
  let v : Via := ⟨c, w, false, 5⟩
  let mine := x.running && s.world c == w
  let upper := !x.lzNone && worldIx x.slots[x.lzSlot].world == w
  let dirty := (if mine then (x.stackBufU ++ x.stackBufS).map fun e => (e.va, e.word) else []) ++
    (x.spills.filter fun e => e.world == w).map fun e => (e.va, e.word)
  let s := s.modCore c fun x => { x with
    lo := if mine then { x.lo with marks := s.marksOf v 16 x.lo.w.toList } else x.lo
    hi := if upper then { x.hi with marks := s.marksOf v 20 (x.hi.w.toList ++ [x.hi.prodlo, x.hi.prodhi, x.hi.quo, x.hi.rem]) }
      else x.hi
    fastMarks := if s.bankWorld c == w then s.marksOf v 8 x.fastW.toList else x.fastMarks
    stackMarks := x.stackMarks ++ (dirty.filter fun e => s.suspect v e.2).map (·.1)
    flipDue := vset x.flipDue w false, flipped := vset x.flipped w true }
  (s.slotsOf c w).foldl (fun (s : State) k =>
    let live := mine && k == x.slot
    s.modSlot c k fun y =>
      { y with unscanU := some (if live then s.stackFrom c true else 0)
               unscanS := some (if live then s.stackFrom c false else 0) }) s

/-- CORE_FLIP: a core takes the flip of a world: earlier stores become visible, words into condemned boards are marked, and
every region of its contexts on a condemned board is retired (R154). (DEDUCED, log 60) -/
def execCoreFlip (c : Fin 32) (w : Fin 2) (s : State) : Host.Outcome State Fault Refusal :=
  let x := s.cores[c]
  ok (if s.coreLive c && x.flipDue[w] && !x.reload[w] && (!x.running || s.world c == w) then
      let s := (s.drainStores c).markCore c w
      let others := ((s.slotsOf c w).filter fun k => !(x.running && k == x.slot)).map fun k => (s.slot c k).handle
      let act : M Unit := do
        retireAll ⟨c, w, false, 6⟩ others
        if x.running && decide (x.lo.allocp.toNat < x.lo.allocl.toNat) && s.condemned c w (fld x.lo.allocp 0 48) then
          retireRegion c
      match act.run s with
      | .ok _ s' => s'
      | .error t s' =>
        match x.running, t.fault with
        | true, f => s'.enter c { cause := .storeFault, resume := x.lo.pc, fault := f }
        | false, some (a, i) => s'.jigFault w a i
        | false, none => s'
    else s)

/-! ### Scanning -/

/-- Resolve the word at an address if it points into a condemned board. A CTXH met is remembered for its stacks. -/
def scanWord (v : Via) (a : BitVec 48) (w : Word) : M Word := do
  let r ← resolveWord v w
  if r ≠ w then
    let s ← get
    viaWrite v a r (s.cardMark v.core v.world a r)
  if r.tag = 0x4C then modify fun s => s.modHeap v.world fun h => { h with ctxQ := h.ctxQ ++ [fld r.datum 0 48] }
  pure r

/-- Scan n words from an address: HDR words are passed over, and FILL words with their runs. Whether a word still points to
a nursery board. -/
def scanRange (v : Via) : Nat → Nat → M Bool
  | 0, _ => pure false
  | n + 1, a => do
    let w ← viaRead v (BitVec.ofNat 48 a)
    if w.tag = 0x80 then scanRange v n (a + 1)
    else if isPtrTag w.tag then
      let r ← scanWord v (BitVec.ofNat 48 a) w
      let s ← get
      let young := match s.worlds[v.world].heap.board (fld r.datum 0 48) with
        | some k => !(s.cores[v.core].boardOld v.world k)
        | none => false
      let more ← scanRange v n (a + 1)
      pure (young || more)
    else scanRange v n (a + 1)

/-- Scan a board, skipping free runs. -/
def scanBoard (v : Via) (stop : Nat) : Nat → Nat → M Unit
  | 0, _ => pure ()
  | fuel + 1, a => do
    if stop ≤ a then pure ()
    else
      let w ← viaRead v (BitVec.ofNat 48 a)
      if w.tag = 0x82 then scanBoard v stop fuel (a + max 1 (fld w.datum 0 40).toNat)
      else if isPtrTag w.tag then
        let _ ← scanWord v (BitVec.ofNat 48 a) w
        scanBoard v stop fuel (a + 1)
      else scanBoard v stop fuel (a + 1)

/-- Scan the marked cards among 64 of one table word; each bit is cleared first and set again where the card still points
to a nursery board (R153). -/
def scanCards (v : Via) (base : Nat) (table : Nat) : List Nat → M Unit
  | [] => pure ()
  | b :: bs => do
    let h := (← get).worlds[v.world].heap
    let put (on : Bool) : M Unit := modify fun s =>
      s.dmaWrite (h.cards.toNat + table) (Word.raw (setBit (s.peek (h.cards.toNat + table)).datum b on))
    put false
    let young ← tryCatch (scanRange v 64 (base + 64 * b)) fun t => do
      put true
      throw t
    if young then put true
    scanCards v base table bs

/-- Scan the marked cards of the old boards from table word i on; a board has 16 words of the table. -/
def scanCardTable (v : Via) : Nat → Nat → M Unit
  | 0, _ => pure ()
  | n + 1, i => do
    let h := (← get).worlds[v.world].heap
    let d := ((← get).peek (h.cards.toNat + i)).datum
    let (_, old) := (← get).mapBits v.world (i / 16)
    if d ≠ 0 ∧ old = true then scanCards v (h.base.toNat * 65536 + 4096 * i) i (bitsOf d 64)
    scanCardTable v n (i + 1)

/-- Scan the whole old boards that are not condemned (FULL cycle). -/
def scanOldBoards (v : Via) : Nat → Nat → M Unit
  | 0, _ => pure ()
  | n + 1, k => do
    let h := (← get).worlds[v.world].heap
    let (cond, old) := (← get).mapBits v.world k
    if old && !cond then
      scanBoard v ((h.base.toNat + k + 1) * 65536) 65536 ((h.base.toNat + k) * 65536)
    scanOldBoards v n (k + 1)

/-- The slot in which a context of a world is resident. -/
def State.slotWith (s : State) (w : Fin 2) (h : BitVec 48) : Option (Fin 32 × Fin 64) :=
  ((List.finRange 32).flatMap fun c => (s.slotsOf c w).map fun k => (c, k)).find? fun e => (s.slot e.1 e.2).handle == h

/-- Scan the words of a stack from one address up to another. Words that its core still holds in a buffer carry flip marks,
and are passed over (R155). -/
def scanStack (v : Via) (held : List (BitVec 48)) : Nat → Nat → M Unit
  | 0, _ => pure ()
  | n + 1, a => do
    let va : BitVec 48 := BitVec.ofNat 48 a
    if va ∉ held then
      let w ← viaRead v va
      if isPtrTag w.tag then
        let _ ← scanWord v va w
    scanStack v held n (a + 1)

/-- Scan the stacks of a context from SP to their bases, and retire its region where no core has it (R154, R155). -/
def scanStacks (v : Via) (h : BitVec 48) : M Unit := do
  let bu ← viaRead v (h + 4)
  let bs ← viaRead v (h + 5)
  let su ← viaRead v (h + 31)
  let ss ← viaRead v (h + 34)
  let s ← get
  let at_ := s.slotWith v.world h
  let (fu, fs, held) : Nat × Nat × List (BitVec 48) := match at_ with
    | some (c, k) =>
      let x : Core := s.cores[c]
      let held := (x.spills.filter fun e => e.slot == k).map (·.va)
      if x.running && x.slot == k then
        (x.lo.spU.toNat, x.lo.spS.toNat, (x.stackBufU ++ x.stackBufS).map (·.va) ++ held)
      else ((fld su.datum 0 48).toNat, (fld ss.datum 0 48).toNat, held)
    | none => ((fld su.datum 0 48).toNat, (fld ss.datum 0 48).toNat, [])
  scanStack v held ((fld bu.datum 0 48).toNat - fu) fu
  scanStack v held ((fld bs.datum 0 48).toNat - fs) fs
  match at_ with
  | some (c, k) => modify fun s => s.modSlot c k fun y => { y with unscanU := none, unscanS := none }
  | none => retireSaved v h

/-- The work queues: copied objects, large objects seen, contexts reached. An entry leaves its queue once it is scanned; a
context outside the window is neither scanned nor marked (R141). -/
def scanQueues (v : Via) : Nat → M Unit
  | 0 => pure ()
  | fuel + 1 => do
    let h := (← get).worlds[v.world].heap
    match h.toSpace, h.seenQ, h.ctxQ with
    | (a, n) :: _, _, _ =>
      let _ ← scanRange v n (a.toNat + 1)
      modify fun s => s.modHeap v.world fun h => { h with toSpace := h.toSpace.tail }
      scanQueues v fuel
    | [], a :: _, _ =>
      let hd ← viaRead v a
      let _ ← scanRange v (hdrLen hd) (a.toNat + 1)
      modify fun s => s.modHeap v.world fun h => { h with seenQ := h.seenQ.tail }
      scanQueues v fuel
    | [], [], c :: _ =>
      if c ∉ h.ctxDone ∧ (h.board c).isSome = true then
        scanStacks v c
        modify fun s => s.modHeap v.world fun h => { h with ctxDone := c :: h.ctxDone }
        if (← get).condemned v.core v.world c then
          let _ ← resolveAddr v c
      modify fun s => s.modHeap v.world fun h => { h with ctxQ := h.ctxQ.erase c }
      scanQueues v fuel
    | [], [], [] => pure ()

/-- More entries than the queues of a window can ever take. -/
def Heap.queueFuel (h : Heap) : Nat := h.count.toNat * 65536 + 4096

/-- The CTXH of every context of a world that is resident. -/
def State.residents (s : State) (w : Fin 2) : List (BitVec 48) :=
  s.cores.toList.flatMap fun x => (x.slots.toList.filter fun k => k.state != .empty && worldIx k.world == w).map (·.handle)

/-- The words that a core holds for a world: registers of the running context, the upper half in the file, the fast bank,
stack buffers and background spills. -/
def State.heldWords (s : State) (c : Fin 32) (w : Fin 2) : List Word :=
  let x := s.cores[c]
  (if x.running && s.world c == w then x.lo.w.toList ++ (x.stackBufU ++ x.stackBufS).map (·.word) else []) ++
  (if !x.lzNone && worldIx x.slots[x.lzSlot].world == w then x.upperWords else []) ++
  (if s.bankWorld c == w then x.fastW.toList else []) ++
  (x.spills.filter fun e => e.world == w).map (·.word)

/-- The contexts from which stacks are reached beside those met in memory: resident ones, and those that a core's words
name. -/
def State.ctxRoots (s : State) (w : Fin 2) : List (BitVec 48) :=
  s.residents w ++ (List.finRange 32).flatMap fun c =>
    ((s.heldWords c w).filter fun x => x.tag == 0x4C).map fun x => fld x.datum 0 48

/-- The roots of Table 06-5 beside flip marks. -/
def scanRoots (v : Via) : M Unit := do
  let h := (← get).worlds[v.world].heap
  modify fun s => s.modHeap v.world fun h => { h with ctxQ := h.ctxQ ++ s.ctxRoots v.world }
  if h.fullCycle then scanOldBoards v h.count.toNat 0 else scanCardTable v (16 * h.count.toNat) 0
  scanQueues v h.queueFuel

/-- Whether every core that runs the world has flipped, and every reload is made. -/
def State.flipsDone (s : State) (w : Fin 2) : Bool :=
  (List.finRange 32).all fun c => !s.cores[c].reload[w] && !(s.cores[c].running && s.world c == w && s.cores[c].flipDue[w])

/-- Whether the Planer may go on: it enters a phase from the one before once that work is done, or is in it with work
left. -/
def Heap.mayDo (h : Heap) (before this : Phase) : Bool :=
  (h.phase == before && h.workDone) || (h.phase == this && !h.workDone)

/-- Enter a phase unless already in it. -/
def State.intoPhase (s : State) (w : Fin 2) (p : Phase) : State :=
  if s.worlds[w].heap.phase = p then s else s.setPhase w p

/-- PLANER_COPY: scan the roots and the copied objects, resolving every pointer met (R153). (DESIGN CHOICE, log 57) -/
def execPlanerCopy (w : Fin 2) (s : State) : Host.Outcome State Fault Refusal :=
  ok (match s.planerVia w with
    | none => s
    | some v =>
      if s.worlds[w].heap.mayDo .flip .copy && s.planerFree w && s.flipsDone w then
        (s.intoPhase w .copy).planer w (scanRoots v)
      else s)

/-- Resolve every word of a list. -/
def drainWords (v : Via) : List Word → M (List Word)
  | [] => pure []
  | w :: ws => do
    let r ← resolveWord v w
    let rs ← drainWords v ws
    pure (r :: rs)

/-- The remaining marks of a core for a world (FLIP_MARK_RESOLVE): those of every word it holds for that world. -/
def drainCore (v0 : Via) (c : Fin 32) : M Unit := do
  let w := v0.world
  let v : Via := { v0 with core := c }
  let s ← get
  let x := s.cores[c]
  let mine := x.running && s.world c == w
  if mine then
    let ws ← drainWords v x.lo.w.toList
    let bu ← drainWords v (x.stackBufU.map (·.word))
    let bs ← drainWords v (x.stackBufS.map (·.word))
    modify fun s => s.modCore c fun x => { x with
      lo := { x.lo with w := Vector.ofFn fun i => ws.getD i.val Word.nil, marks := 0 }
      stackBufU := List.zipWith (fun e r => { e with word := r }) x.stackBufU bu
      stackBufS := List.zipWith (fun e r => { e with word := r }) x.stackBufS bs }
  if !x.lzNone && worldIx x.slots[x.lzSlot].world == w then
    modify fun s => s.modCore c fun x => x.mulDone.divDone
    let ws ← drainWords v (← get).cores[c].upperWords
    modify fun s => s.modCore c fun x => { x with hi := upperOf ws }
  if s.bankWorld c == w then
    let ws ← drainWords v x.fastW.toList
    modify fun s => s.modCore c fun x =>
      { x with fastW := Vector.ofFn fun i => ws.getD i.val Word.nil, fastMarks := 0 }
  let sp ← drainWords v (x.spills.map fun e => if e.world == w then e.word else Word.nil)
  modify fun s => s.modCore c fun x =>
    let spills := List.zipWith (fun (e : SpillEntry) r => if e.world == w then { e with word := r } else e) x.spills sp
    { x with spills := spills
             stackMarks := x.stackMarks.filter fun a =>
               spills.any (fun e => e.va == a && e.world != w) || (!mine && (x.stackHit a).isSome) }

/-- Every core of a list. -/
def drainCores (v : Via) : List (Fin 32) → M Unit
  | [] => pure ()
  | c :: cs => do
    drainCore v c
    drainCores v cs

/-- Whether a core holds a flip mark on a word of a world, or owes the flip while it runs that world (R157). -/
def State.coreMarked (s : State) (w : Fin 2) (c : Fin 32) : Bool :=
  let x := s.cores[c]
  (x.running && s.world c == w && (x.lo.marks != 0 || x.flipDue[w] || (x.stackMarks.any fun a => (x.stackHit a).isSome))) ||
    (!x.lzNone && worldIx x.slots[x.lzSlot].world == w && x.hi.marks != 0) ||
    (s.bankWorld c == w && x.fastMarks != 0) ||
    (x.spills.any fun e => e.world == w && decide (e.va ∈ x.stackMarks))

/-- What R157 asks before RELEASE: no flip mark remains, every root, to-space word and stack has been scanned, and every card
queue is drained. -/
def State.collected (s : State) (w : Fin 2) : Bool :=
  let h := s.worlds[w].heap
  ((List.finRange 32).all fun c => !(s.assigned c w && s.domOn c.val && s.coreMarked w c)) &&
    h.toSpace.isEmpty && h.seenQ.isEmpty && h.ctxQ.isEmpty && s.clusters.toList.all fun k => k.cardQueue.isEmpty

/-- PLANER_DRAIN: the marks of the cores, the card queues, and what they bring to scan; every stack is scanned (R153,
R157). It goes on while something of R157 is left. -/
def execPlanerDrain (w : Fin 2) (s : State) : Host.Outcome State Fault Refusal :=
  ok (match s.planerVia w with
    | none => s
    | some v =>
      let h := s.worlds[w].heap
      if (h.mayDo .copy .drain || (h.phase == .drain && !(s.collected w))) && s.planerFree w then
        let cs := (List.finRange 32).filter fun c => s.assigned c w && s.domOn c.val
        let s := (cs.foldl (fun (s : State) c => s.drainStores c) (s.intoPhase w .drain)).emptyCardQueues
        s.planer w (do
          drainCores v cs
          modify State.emptyCardQueues
          let h := (← get).worlds[w].heap
          modify fun s => s.modHeap w fun h => { h with ctxDone := [], ctxQ := s.ctxRoots w }
          if !h.fullCycle then scanCardTable v (16 * h.count.toNat) 0
          scanQueues v h.queueFuel
          modify State.emptyCardQueues)
      else s)

/-! ### SWEEP and RELEASE -/

/-- Whether a card of those an object covers has its seen bit set. -/
def State.anySeen (s : State) (w : Fin 2) (a n : Nat) : Bool :=
  let h := s.worlds[w].heap
  let k := (a - h.base.toNat * 65536) / 64
  (List.range (cdiv n 64)).any fun i => bit (s.peek (h.seen.toNat + (k + i) / 64)).datum ((k + i) % 64)

/-- Walk a large-object board: an unseen object becomes a FILL run, prepended to the free list. The result is the first
word beyond the last object met. -/
def sweepBoard (v : Via) (stop : Nat) : Nat → Nat → M Nat
  | 0, a => pure a
  | fuel + 1, a => do
    if stop ≤ a then pure a
    else
      let w ← viaRead v (BitVec.ofNat 48 a)
      if w.tag = 0x82 then sweepBoard v stop fuel (a + max 1 (fld w.datum 0 40).toNat)
      else if w.tag = 0x80 then
        let n := cdiv (hdrLen w + 1) 64 * 64
        if !((← get).anySeen v.world a (hdrLen w + 1)) then
          let head := (← get).worlds[v.world].heap.lofree
          viaWrite v (BitVec.ofNat 48 a) (Word.fill (BitVec.ofNat 64 n)) none
          viaWrite v (BitVec.ofNat 48 (a + 1)) (Word.raw (head.setWidth 64)) none
          modify fun s => s.modHeap v.world fun h => { h with lofree := BitVec.ofNat 48 a }
        sweepBoard v stop fuel (a + n)
      else sweepBoard v stop fuel ((a / 64 + 1) * 64)

/-- Sweep the large-object boards of a cycle in ascending order. -/
def sweepBoards (v : Via) : List Nat → Nat → M Unit
  | [], _ => pure ()
  | k :: ks, pos => do
    let b := (← get).worlds[v.world].heap.base.toNat + k
    let n ← sweepBoard v ((b + 1) * 65536) 65536 (max pos (b * 65536))
    sweepBoards v ks n

/-- PLANER_SWEEP (FULL cycle): unseen large objects are freed and the seen map is cleared. -/
def execPlanerSweep (w : Fin 2) (s : State) : Host.Outcome State Fault Refusal :=
  ok (match s.planerVia w with
    | none => s
    | some v =>
      let h := s.worlds[w].heap
      if h.fullCycle && h.mayDo .drain .sweep && s.planerFree w && s.collected w then
        (s.intoPhase w .sweep).planer w (do
          sweepBoards v h.largeCond 0
          modify fun s => s.dmaWrites h.seen.toNat (List.replicate (16 * h.count.toNat) Word.zero))
      else s)

/-- Release a condemned board: a large-object board stays old; any other goes to the pool with state 00. (DESIGN CHOICE, log 58) -/
def State.releaseBoard (s : State) (w : Fin 2) (k : Nat) : State :=
  let h := s.worlds[w].heap
  if (s.mapBits w k).1 then
    if k ∈ h.largeCond then s.setMapMem w k false true
    else (s.setMapMem w k false false).givePool w (BitVec.ofNat 32 (h.base.toNat + k))
  else s

/-- PLANER_RELEASE: condemned boards go to the pool, the map is synced, PHASE returns to IDLE and CYCLES counts (R153,
R157). A YOUNG cycle comes here straight from DRAIN, with no PHASE 4 and no event for one. (DESIGN CHOICE, log 144) -/
def execPlanerRelease (w : Fin 2) (s : State) : Host.Outcome State Fault Refusal :=
  let h := s.worlds[w].heap
  ok (if h.workDone && (h.phase == (if h.fullCycle then .sweep else .drain)) && s.planerFree w && s.collected w then
      let s := s.setPhase w .release
      let s := (List.range h.count.toNat).foldl (fun (s : State) k => s.releaseBoard w k) s
      let s := { s with cores := s.cores.map fun (x : Core) =>
        { x with flipped := vset x.flipped w false, flipDue := vset x.flipDue w false
                 slots := x.slots.map fun (k : Slot) =>
                   if worldIx k.world = w then { k with unscanU := none, unscanS := none } else k } }
      let s := (s.askReload w).modHeap w fun h => { h with cycles := h.cycles + 1, largeCond := [], ctxDone := [] }
      s.setPhase w .idle
    else s)

end Sys2Proof.Machine
end

