-- ==== Sys2Proof/Machine/Caches.lean ====
section
/-! DEFINITION. The cache and port registers, and the commands of caches, ports, store buffers, stack buffers and the
multiplier and divider (R57, R76, R84, R237 to R257). -/

namespace Sys2Proof.Machine

open Sys2Proof

/-! ### Registers (Tables 10-5 and 10-8) -/

/-- Register r (0 to 3) of cluster k as read. -/
def Cluster.regBits (k : Cluster) (r : Nat) : BitVec 64 :=
  match r with
  | 0 => k.cfg
  | 1 => putN 0 (k.dirtyCount % 2 ^ 15) ||| putN 16 k.offcut.length
  | 2 => put 0 k.perrL1 ||| put 16 k.perrL2 ||| put 32 k.perrOc
  | _ => put 0 k.recalls ||| put 32 k.cancels

/-- A store to CCH_Lk_CFG (RWF). -/
def State.cchCfgStore (s : State) (a : Who) (k : Fin 8) (v : BitVec 64) : RegSt :=
  a.rwf s (s.modCluster k fun c => { c with cfg := (fld v 0 41).setWidth 64 })

/-- Register r (0 to 5) of port p as read. -/
def Port.regBits (p : Port) (r : Nat) : BitVec 64 :=
  match r with
  | 0 => put 0 p.cap ||| fbit 2 p.ranks ||| put 3 p.rate ||| fbit 6 p.trained
  | 1 => put 0 p.wdLimit ||| put 16 p.lastReq ||| put 32 p.bites
  | 2 => put 0 p.ce
  | 3 => put 0 p.ueLast ||| put 40 p.ueCount
  | 4 => put 0 p.scrubPeriod ||| put 16 p.passes
  | _ => put 0 p.scrubPos

/-- A store to register r of port p: only Favar writes, and only the RWF fields. -/
def State.memStore (s : State) (a : Who) (p : Fin 4) (r : Nat) (v : BitVec 64) : RegSt :=
  a.rwf s (s.modPort p fun x => match r with
    | 0 => { x with cap := fld v 0 2, ranks := bit v 2, rate := fld v 3 3 }
    | 1 => { x with wdLimit := fld v 0 16 }
    | 4 => { x with scrubPeriod := fld v 0 16 }
    | _ => x)

/-! ### The arbiter and fills (R237, R238, R252, R254, R255) -/

/-- The age of a request in port clocks, from its arrival, saturating at 4,095 (R254). -/
def PortReq.age (r : PortReq) (now : BitVec 64) : Nat := min 4095 ((now - r.at_).toNat * 32 / 15)

/-- The request that a requester presents to the arbiter: of a cluster its first demand request, else its first prefetch, else its
first write-back (Table 10-7). -/
def Port.presents (x : Port) (q : Fin 13) : Option PortReq :=
  let mine := x.queue.filter fun r => r.requester == q
  if q.val < 8 then
    match mine.find? fun r => !r.write && !r.prefetch with
    | some r => some r
    | none =>
      match mine.find? fun r => !r.write with
      | some r => some r
      | none => mine.head?
  else mine.head?

/-- ARBITER_GRANT: the presented request with the largest age, the lower requester on ties (R254). A granted write-back of an evicted
sector is issued (R242). A transfer of an agent beside the clusters is complete when the port grants again. (DESIGN CHOICE, log 15) -/
def execArbiterGrant (p : Fin 4) (s : State) : Host.Outcome State Fault Refusal :=
  let key (r : PortReq) : Nat := (4095 - r.age s.now) * 13 + r.requester.val
  ok (match minBy key ((List.finRange 13).filterMap s.ports[p].presents) with
    | none => s
    | some r =>
      let s := s.modPort p fun x =>
        { x with queue := x.queue.erase r
                 granted := (x.granted.filter fun g => decide (g.requester.val < 8)) ++ [{ r with at_ := s.now }] }
      if r.write ∧ r.requester.val < 8 then
        s.modCluster (idx 8 r.requester.val) fun c => { c with offcut := c.offcut.map fun e =>
          if e.1 == r.sector && e.2 == .dirty then (e.1, .issued) else e }
      else s)

/-- L2_FILL_COMPLETE: the burst of a granted fill arrives. A SECDED error lies in the word at a place of the sector (R238, R252).
(DESIGN CHOICE, log 15) -/
def execL2FillComplete (k : Fin 8) (sector : BitVec 36) (pos : Fin 16) (e : Secded) (s : State) :
    Host.Outcome State Fault Refusal :=
  let p := sectorPort sector
  let mine (r : PortReq) : Bool := r.requester == clusterReq k && !r.write && r.sector == sector
  ok (if s.clusters[k].sector sector == .filling && s.ports[p].granted.any mine then
      let owed := s.clusters[k].isOwed sector
      let s := (s.endFill k sector).secded p (sector.toNat * 16 + pos.val) e
      if owed then s.keepCap k else s
    else s)

/-- WRITEBACK_ACK: a granted write-back has reached DRAM (R242, R244). -/
def execWritebackAck (k : Fin 8) (sector : BitVec 36) (s : State) : Host.Outcome State Fault Refusal :=
  ok (match s.ports[sectorPort sector].granted.find? fun r =>
        r.requester == clusterReq k && r.write && r.sector == sector with
    | some r => s.ackWrite k r
    | none => s)

/-- CLEAN_DELAY_EXPIRY: a Dirty sector has not been stored to for CLEAN_DELAY (R244). -/
def execCleanDelayExpiry (k : Fin 8) (sector : BitVec 36) (s : State) : Host.Outcome State Fault Refusal :=
  let c := s.clusters[k]
  let due := c.blocks.any fun b => b.blk == sectorBlk sector &&
    decide ((fld c.cfg 8 16).toNat * 1000 ≤ s.now.toNat - b.lastStore[sectorIx sector])
  ok (if due then s.issueClean k sector else s)

/-- AGE_SWEEP: every AGE_PERIOD each block grows older, up to age 3 (R239). -/
def execAgeSweep (k : Fin 8) (s : State) : Host.Outcome State Fault Refusal :=
  let c := s.clusters[k]
  let period := (fld c.cfg 0 8).toNat * 1000
  ok (if period ≠ 0 ∧ period ≤ (s.now - c.lastSweep).toNat then
      s.modCluster k fun c => { c with lastSweep := s.now, blocks := c.blocks.map fun b => { b with age := satInc b.age } }
    else s)

/-- The word that scrub reads after one, in ascending local address order of a port, and whether a pass has ended. -/
def scrubNext (cap : BitVec 2) (p : Fin 4) (pa : Nat) : Nat × Bool :=
  let n := if pa % 64 = 63 then pa + 193 else pa + 1
  if n < 4 * portWords cap then (n, false) else (64 * p.val, true)

/-- Whether a cluster holds a valid copy of a sector, in its L2 or its offcut buffer. -/
def Cluster.holdsValid (k : Cluster) (x : BitVec 36) : Bool :=
  !(k.sector x == .invalid || k.sector x == .filling) || (k.offcutOf x).isSome

/-- Whether scrub is behind its schedule: the words of a port in ascending local order are due evenly over PERIOD_H hours from the
beginning of the pass (R253). -/
def Port.scrubBehind (x : Port) (now : BitVec 64) : Bool :=
  let pos := x.scrubPos.toNat
  let done := pos / 256 * 64 + pos % 64
  decide (done * (x.scrubPeriod.toNat * 3600000000000) < portWords x.cap * (now - x.scrubSince).toNat)

/-- Whether the port serves a step of scrub now: no request waits, or scrub, which is behind and has joined the arbiter, is older
than every request that waits. -/
def Port.scrubServed (x : Port) (now : BitVec 64) : Bool :=
  x.queue.isEmpty || (match x.scrubAt with
    | some t => (List.finRange 13).all fun q => match x.presents q with
      | some r => decide (r.age now < min 4095 ((now - t).toNat * 32 / 15))
      | none => true
    | none => false)

/-- PATROL_SCRUB: scrub reads one word of a port and applies R252 to it; a sector that a cluster holds valid is skipped. Where requests
wait it is not served, but joins the arbiter with age 0 when it is behind (R253). (DEDUCED, log 154) -/
def execPatrolScrub (p : Fin 4) (e : Secded) (s : State) : Host.Outcome State Fault Refusal :=
  let x := s.ports[p]
  let pos := if (x.scrubPos.toNat / 64) % 4 = p.val then x.scrubPos.toNat else 64 * p.val
  let held := s.clusters.toList.any fun c => c.holdsValid (sectorOf pos)
  let (n, wrap) := scrubNext x.cap p pos
  ok (if !x.trained then s
    else if x.scrubServed s.now then
      (if held then s else s.secded p pos e).modPort p fun x =>
        { x with scrubPos := BitVec.ofNat 40 n, passes := if wrap then x.passes + 1 else x.passes, scrubAt := none
                 scrubSince := if wrap then s.now else x.scrubSince }
    else if x.scrubBehind s.now && x.scrubAt.isNone then s.modPort p fun x => { x with scrubAt := some s.now }
    else s)

/-! ### The port watchdog (R255, R256) -/

/-- A transfer of a port that has been granted for LIMIT and is not complete. -/
def State.hung (s : State) (p : Fin 4) : Option PortReq :=
  s.ports[p].granted.find? fun r => decide (s.ports[p].wdLimit.toNat * 1000 ≤ (s.now - r.at_).toNat)

/-- DRAM takes a word, behind what a cluster has changed in the sector. -/
def State.dramPut (s : State) (a : Nat) (w : Word) : State :=
  if (s.owner (sectorOf a)).isSome then
    { s with stale := if memGet s.mem a = w then s.stale.filter fun e => e.1 != a
                      else (a, w) :: s.stale.filter fun e => e.1 != a }
  else { s with mem := memPut s.mem a w }

/-- POISON with origin PORT_WATCHDOG in a word that a dropped write should have written (step 5). -/
def State.lostWrite (s : State) (a : Nat) : State := s.dramPut a (poisonAt 2 a)

/-- A dropped read of a cluster: the sector stays invalid, and the loads that wait for it get POISON; a store that waits for it asks
again (step 3). -/
def State.dropRead (s : State) (k : Fin 8) (x : BitVec 36) : State :=
  if s.clusters[k].sector x == .filling then
    let owed := s.clusters[k].isOwed x
    let s := (s.modCluster k fun c => c.clearSector x).invalL1 k x
    let s := [0, 1, 2, 3].foldl (fun (s : State) j => s.modCore (idx 32 (4 * k.val + j)) fun c =>
      if c.awaits = some x then { c with awaits := none, lostReads := x :: c.lostReads } else c) s
    if owed then (s.l2Request k x .demand).markDirty k x else s
  else s

/-- A dropped write-back of a cluster: a sector that the cluster still holds is Dirty again, to be written back later, also where it
was recalled Clean from an issued entry (step 4, Table 10-4); a sector that it holds no more is lost (step 5). -/
def State.dropWrite (s : State) (k : Fin 8) (r : PortReq) : State :=
  let x := r.sector
  let c := s.clusters[k]
  match c.sector x, c.offcutOf x with
  | .dirty, _ => s
  | .invalid, none => (List.range 16).foldl (fun (s : State) i => s.lostWrite (x.toNat * 16 + i)) s
  | .invalid, some _ =>
    (s.modCluster k fun c => c.setOffcut x .dirty).modPort (sectorPort x) fun p => p.request { r with at_ := s.now }
  | .filling, _ => s
  | _, _ => s.modCluster k fun c => c.setSector x .dirty

/-- A dropped transaction of a requester: those of an agent beside the clusters deliver POISON at its next read, or write it
(steps 3 to 5). -/
def State.dropTransfer (s : State) (p : Fin 4) (r : PortReq) : State :=
  if h : r.requester.val < 8 then
    if r.write then s.dropWrite ⟨r.requester.val, h⟩ r else s.dropRead ⟨r.requester.val, h⟩ r.sector
  else if r.write then r.data.foldl (fun (s : State) e => s.lostWrite e.1) s
  else s.modPort p fun x => { x with lost := (r.requester, r.sector) :: x.lost }

/-- PORTWD_BITE: the requester that hangs a port is dropped there (R255, R256). -/
def execPortwdBite (p : Fin 4) (s : State) : Host.Outcome State Fault Refusal :=
  ok (match s.hung p with
    | none => s
    | some h =>
      let gone := (s.ports[p].granted ++ s.ports[p].queue).filter fun r => r.requester == h.requester
      let s := s.modPort p fun x =>
        { x with granted := x.granted.filter (fun r => r.requester != h.requester)
                 queue := x.queue.filter (fun r => r.requester != h.requester)
                 lastReq := BitVec.ofNat 4 h.requester.val, bites := satInc x.bites }
      let s := gone.foldl (fun (s : State) r => s.dropTransfer p r) s
      (s.guardEvent 4 p.val).event 5 2 p.val [BitVec.ofNat 64 h.requester.val])

/-! ### Background work of a core -/

/-- MUL_COMPLETE: the product becomes valid (R57, R58). -/
def execMulComplete (c : Fin 32) (s : State) : Host.Outcome State Fault Refusal := ok (s.modCore c Core.mulDone)

/-- DIV_COMPLETE: the quotient becomes valid. -/
def execDivComplete (c : Fin 32) (s : State) : Host.Outcome State Fault Refusal := ok (s.modCore c Core.divDone)

/-- STORE_BUFFER_DRAIN: the oldest store of a core becomes visible (R84). (DESIGN CHOICE, log 16) -/
def execStoreBufferDrain (c : Fin 32) (s : State) : Host.Outcome State Fault Refusal :=
  ok (if s.cores[c].stopped then s else s.drainStore c)

/-- CARD_QUEUE_DRAIN: the oldest entry of a card queue sets its card (R152). (DESIGN CHOICE, log 16) -/
def execCardQueueDrain (k : Fin 8) (s : State) : Host.Outcome State Fault Refusal := ok (s.drainCard k)

/-- A background spill of the oldest word of contexts that were switched out (R76). One that faults keeps its word; the fault is
STORE_FAULT at the next boundary of the core, whatever runs there (R226). (DEDUCED, log 140) -/
def State.backSpill (s : State) (c : Fin 32) (e : SpillEntry) (rest : List SpillEntry) : State :=
  match (spillWord ⟨c, e.world, e.user, 1⟩ e.va e.word).run (s.modCore c fun x => { x with spills := rest }) with
  | .ok _ s' => s'
  | .error t s' =>
    let s' := s'.modCore c fun x => { x with spills := e :: x.spills }
    if s'.cores[c].running then
      s'.enter c { cause := .storeFault, resume := s'.cores[c].lo.pc, fault := t.fault }
    else s'

/-- STACK_SPILL: a background spill of a context that was switched out, or of the oldest word of the running context
(R76). A fault is STORE_FAULT at the boundary. -/
def execStackSpill (c : Fin 32) (s : State) : Host.Outcome State Fault Refusal :=
  let x := s.cores[c]
  ok (if x.stopped then s
    else match x.spills with
      | e :: r => s.backSpill c e r
      | [] =>
        if x.running then
          let user := if (x.stackBuf (s.user c)).isEmpty then !(s.user c) else s.user c
          match (spillOldest c user).run s with
          | .ok _ s' => s'
          | .error t s' => s'.enter c { cause := .storeFault, resume := x.lo.pc, fault := t.fault }
        else s)

end Sys2Proof.Machine
end

