-- ==== Sys2Proof/Machine/SafeVen.lean ====
section
/-! DEFINITION. The SAFE block (R208 to R210, R322) and the VEN block with the commit of veneers (R269 to R276). -/

namespace Sys2Proof.Machine

open Sys2Proof

/-! ### SAFE (Table 08-12) -/

/-- Register r (0 to 4) of the SAFE block as read. -/
def Safe.regBits (x : Safe) (r : Nat) : BitVec 64 :=
  match r with
  | 0 => fbit 0 x.mute ||| fbit 1 x.abortOut ||| fbit 2 x.driveEn
  | 1 => put 0 x.level ||| put 8 x.safeval
  | 2 => fbit 0 x.fs ||| put 4 x.reason ||| fbit 8 x.gsvcMiss ||| fbit 9 x.ainA ||| fbit 10 x.ainB
  | 3 => putN 0 x.gsvcCore.val ||| putN 5 x.gsvcSlot.val ||| fbit 11 x.gsvcEn
  | _ => put 0 x.aborts

/-- A store to SAFE_CTL: the fields, MUTE staying 1 while an ABORT_IN input is asserted (R321), then the fail-safe state and its GUARD_ABORT where FAILSAFE is written 1 (R208 to
R210); muted lanes act at once (R320). -/
def State.safeCtlStore (s : State) (a : Who) (v : BitVec 64) : RegSt :=
  let x := s.safe
  let changes := bit v 0 != x.mute || bit v 1 != x.abortOut || bit v 2 != x.driveEn || bit v 3
  let s1 := { s with safe := { x with mute := bit v 0 || x.ainA || x.ainB, abortOut := bit v 1, driveEn := bit v 2 } }.muteLanes
  a.rwg changes (if bit v 3 then (s1.failSafe 5).guardAbort 5 else s1) s

/-- A store to register r of the SAFE block. -/
def State.safeStore (s : State) (a : Who) (r : Nat) (v : BitVec 64) : RegSt :=
  let x := s.safe
  match r with
  | 0 => s.safeCtlStore a v
  | 1 => a.rwg (fld v 0 16 != fld (x.regBits 1) 0 16) { s with safe := { x with level := fld v 0 8, safeval := fld v 8 8 } } s
  | 2 => a.rwg (bit v 0 || bit v 8)
      { s with safe := { x with fs := x.fs && !(bit v 0), reason := if bit v 0 then 0 else x.reason
                                gsvcMiss := x.gsvcMiss && !(bit v 8) } } s
  | 3 => a.rwg (fld v 0 12 != fld (x.regBits 3) 0 12)
      { s with safe := { x with gsvcCore := (fld v 0 5).toFin, gsvcSlot := (fld v 5 6).toFin, gsvcEn := bit v 11 } } s
  | _ => .ok s

/-- The row of a store to a SAFE register. -/
def State.safeRow (s : State) (a : Agent) (r : Nat) (v : BitVec 64) : State :=
  s.rowStore a 14 none fun w s => s.safeStore w r v

/-- SAFE_FAILSAFE: writing 1 to SAFE_CTL.FAILSAFE (R209). -/
def execSafeFailsafe (a : Agent) (v : BitVec 64) (s : State) : Host.Outcome State Fault Refusal :=
  ok (if bit v 3 then s.safeRow a 0 v else s)

/-- SAFE_FS_CLEAR: writing 1 to SAFE_STATUS.FS clears FS and REASON and releases nothing (R209). -/
def execSafeFsClear (a : Agent) (v : BitVec 64) (s : State) : Host.Outcome State Fault Refusal :=
  ok (if bit v 0 then s.safeRow a 2 v else s)

/-- GSVC_MISS_CLEAR: writing 1 to SAFE_STATUS.GSVC_MISS. -/
def execGsvcMissClear (a : Agent) (v : BitVec 64) (s : State) : Host.Outcome State Fault Refusal :=
  ok (if bit v 8 then s.safeRow a 2 v else s)

/-! ### VEN (Table 11-7) -/

/-- The lowest MCVER of the 32 cores. (DEDUCED, log 62) -/
def State.mcverMin (s : State) : BitVec 32 :=
  s.cores.toList.foldl (fun m x => if x.ven.mcver.toNat < m.toNat then x.ven.mcver else m) (BitVec.allOnes 32)

/-- The highest MCVER of the 32 cores. (DEDUCED, log 62) -/
def State.mcverMax (s : State) : BitVec 32 :=
  s.cores.toList.foldl (fun m x => if m.toNat < x.ven.mcver.toNat then x.ven.mcver else m) 0

/-- Cores with a commit pending. -/
def State.nwait (s : State) : Nat := (s.cores.toList.filter fun x => x.ven.pending).length

/-- VEN_Cc_STATE as read. -/
def CoreVeneer.bits (v : CoreVeneer) : BitVec 64 :=
  put 0 v.mcver ||| fbit 32 v.pending ||| fbit 33 v.bank ||| fbit 34 v.abandoned ||| fbit 35 v.forced

/-- A register of the VEN block. -/
inductive VenReg where
  | min | max | stage | ctl | counts
  | core (c : Fin 32)
deriving DecidableEq, Repr

/-- The VEN register at a word offset. -/
def venReg (off : Nat) : Option VenReg :=
  match off with
  | 0 => some .min
  | 1 => some .max
  | 2 => some .stage
  | 3 => some .ctl
  | 4 => some .counts
  | _ => if 0x10 ≤ off ∧ off < 0x30 then some (.core (idx 32 (off - 0x10))) else none

/-- A load of a VEN register. -/
def State.venLoad (s : State) (r : VenReg) : RegLd :=
  match r with
  | .min => ldRaw s (put 0 s.mcverMin)
  | .max => ldRaw s (put 0 s.mcverMax)
  | .stage => ldRaw s (put 0 (if s.ven.staged then s.ven.level else 0) ||| fbit 16 s.ven.staged ||| fbit 17 s.ven.armed |||
      putN 24 s.nwait)
  | .ctl => ldRaw s (put 0 s.ven.seamLimit ||| fbit 16 s.ven.force)
  | .counts => ldRaw s (put 0 s.ven.csRecov ||| put 16 s.ven.csFavar ||| put 32 s.ven.ignored)
  | .core c => s.unitLoad (s.presence c.val true) (ldRaw s s.cores[c].ven.bits)

/-- A store to a VEN register. -/
def State.venStore (s : State) (a : Who) (r : VenReg) (v : BitVec 64) : RegSt :=
  match r with
  | .ctl => a.rwf s { s with ven := { s.ven with seamLimit := fld v 0 16, force := bit v 16 } }
  | .core c => s.unitStore (s.presence c.val true) (.ok (s.modCore c fun x =>
      { x with ven := { x.ven with abandoned := w1c x.ven.abandoned v 34, forced := w1c x.ven.forced v 35 } }))
  | _ => .ok s

/-- Whether the veneer of every core is at the staged level. -/
def State.allCommitted (s : State) : Bool :=
  s.cores.toList.all fun x => fld x.ven.mcver 0 16 == s.ven.level

/-- With every core at the level of the staged package, it is the active one, and Favar writes it with a commit record to flash
(R275). -/
def State.recordCommit (s : State) : State :=
  if s.ven.staged && s.allCommitted then
    { s with ven := { s.ven with staged := false, armed := false, active := s.ven.package, recorded := s.ven.package, package := []
                                 committed := s.ven.level, level := 0 } }
  else s

/-- VENEER_OUTCOME_POST: once no core has a commit pending, Favar posts the outcome; with every core at the new level the
package is the active one and is recorded in flash, otherwise it stays staged (R272, R275). -/
def State.veneerOutcome (s : State) : State :=
  if s.ven.rollout && s.nwait == 0 then
    ({ s with ven := { s.ven with rollout := false } }.recordCommit).event 9 (if s.allCommitted then 1 else 2) 0
      [s.ven.level.setWidth 64]
  else s

/-- The commit of one core: banks and match sets are swapped and MCVER is the package's level, all at once (R270). -/
def Core.commitVeneer (x : Core) (level : BitVec 16) : Core :=
  { x with ven := { x.ven with mcver := setFld x.ven.mcver 0 level, bank := !x.ven.bank, pending := false } }

/-- A commit is requested on every core that is behind the staged level (R270, R272); a request that stands keeps its time. A sleeping
core is asked too: it is idle (R269). (DEDUCED, log 62) -/
def State.requestCommit (s : State) : State :=
  { s with
    ven := { s.ven with rollout := true, armed := false }
    cores := Vector.ofFn fun c =>
      let x := s.cores[c]
      if (fld x.ven.mcver 0 16 : BitVec 16).toNat < s.ven.level.toNat && !x.ven.pending then
        { x with ven := { x.ven with pending := true, since := s.now } }
      else x }

/-- VENEER_CORE_COMMIT: a core with a commit pending commits at a seam (R269 to R271). -/
def execVeneerCoreCommit (c : Fin 32) (s : State) : Host.Outcome State Fault Refusal :=
  ok (if s.commitDue c then
      (s.modCore c fun x => x.commitVeneer s.ven.level).veneerOutcome
    else s)

/-- SEAM_LIMIT_EXPIRY: a core that has reached no seam within SEAM_LIMIT abandons the commit, or with FORCE closes the window and
commits at its next boundary, which none inside STM or LDM is (R269, R272). -/
def execSeamLimitExpiry (c : Fin 32) (s : State) : Host.Outcome State Fault Refusal :=
  let v := s.cores[c].ven
  ok (if v.pending && !(s.commitDue c) && decide (s.ven.seamLimit.toNat * 1000 ≤ (s.now - v.since).toNat) then
      if s.ven.force && s.cores[c].amid then s
      else if s.ven.force then
        let open_ := s.holdOpen c
        let w := s.world c
        (s.modCore c fun x =>
          let x := if open_ then { x with lo := { x.lo with stat := setBit x.lo.stat 15 false }, holdCount := 0
                                          hx := vset x.hx w true } else x
          let x := x.commitVeneer s.ven.level
          { x with ven := { x.ven with forced := true } }).veneerOutcome
      else
        (s.modCore c fun x => { x with ven := { x.ven with pending := false, abandoned := true } }).veneerOutcome
    else s)

end Sys2Proof.Machine
end

