-- ==== Sys2Proof/Machine/Imtur.lean ====
section
/-! DEFINITION. Imtur: the registers of Table 12-1, the servo's states, beacons, the vote and IMT_PPS_OUT (R277 to R286). -/

namespace Sys2Proof.Machine

open Sys2Proof

/-! ### Fields -/

/-- IMT_SRC.SEL. -/
def Imtur.sel (x : Imtur) : Nat := (fld x.src 0 2).toNat
/-- IMT_SRC.MASTER. -/
def Imtur.master (x : Imtur) : Bool := bit x.src 2
/-- IMT_SRC.MPRIO. -/
def Imtur.mprio (x : Imtur) : BitVec 4 := fld x.src 3 4

/-- STATE codes (Table 12-1). -/
def ImtState.code : ImtState → Nat
  | .free => 0
  | .acquire => 1
  | .locked => 2
  | .holdover => 3
  | .slewing => 4

/-- The largest magnitude of TRIM: 200 ppm. -/
def trimMax : Int := 56294995342

/-- A number clamped to the range of TRIM. -/
def clampTrim (x : Int) : Int := if trimMax < x then trimMax else if x < -trimMax then -trimMax else x

/-- A value of TRIM that the spec leaves to the servo, within its clamp. -/
def trimOf (v : BitVec 64) : Int := (v.toNat % (2 * trimMax + 1).toNat : Nat) - trimMax

/-- A number of ns saturated to 16 bits. -/
def sat16 (n : Nat) : BitVec 16 := BitVec.ofNat 16 (min n 65535)

/-- ERR now: in HOLDOVER the estimate of R282 for the age, FU in 0.001 ppb; otherwise the value held. -/
def State.imtErr (s : State) : BitVec 16 :=
  let x := s.imt
  if x.state = .holdover then
    let a : Rat := ((x.count - x.holdAt).toNat : Rat) / 1000000000
    let e : Rat := x.errAtHold.toNat + (x.holdFu : Rat) / 1000 * a + ((fld x.cfg 32 16).toNat : Rat) / 200 * a * a
    sat16 e.ceil.toNat
  else x.err

/-- HOLD_AGE in ms. -/
def State.holdAge (s : State) : BitVec 32 :=
  if s.imt.state = .holdover then BitVec.ofNat 32 (min ((s.imt.count - s.imt.holdAt).toNat / 1000000) (2 ^ 32 - 1)) else 0

/-! ### Registers (Table 12-1) -/

/-- A register of Table 12-1. -/
inductive ImtReg where
  | now | frame | src | trim | status | offset | cfg | pps | refsec | vote | beacon
  | delay (p : Fin 8)
  | asym (p : Fin 8)
deriving DecidableEq, Repr

/-- The register at a word offset. -/
def imtReg (off : Nat) : Option ImtReg :=
  match off with
  | 0 => some .now
  | 1 => some .frame
  | 2 => some .src
  | 3 => some .trim
  | 4 => some .status
  | 5 => some .offset
  | 6 => some .cfg
  | 7 => some .pps
  | 8 => some .refsec
  | 9 => some .vote
  | 0x20 => some .beacon
  | _ =>
    if 0x10 ≤ off ∧ off < 0x18 then some (.delay (idx 8 (off - 0x10)))
    else if 0x18 ≤ off ∧ off < 0x20 then some (.asym (idx 8 (off - 0x18)))
    else none

/-- Whether a Kamion port is fitted (Table 00-1). -/
def State.kmFitted (s : State) (p : Fin 8) : Bool := !s.variantL || decide (p.val < 4)
/-- The presence of a Kamion port (domain 128 + p). -/
def State.kmPresence (s : State) (p : Fin 8) : Presence := s.presence (128 + p.val) (s.kmFitted p)

/-- IMT_KMp_DELAY as read. -/
def State.delayBits (s : State) (p : Fin 8) : BitVec 64 :=
  let d := s.imt.kmDelay[p]
  put 0 d.delay ||| putN 32 (if d.valid then min ((s.now - d.at_).toNat / 1000000000) 65535 else 0) ||| fbit 48 d.valid

/-- IMT_STATUS as read. -/
def State.imtStatus (s : State) : BitVec 64 :=
  putN 0 s.imt.state.code ||| fbit 3 s.imt.stepped ||| fbit 4 s.imt.voteFix ||| put 8 s.imtErr ||| put 24 s.holdAge

/-- IMT_BEACON as read. -/
def Imtur.beaconBits (x : Imtur) : BitVec 64 :=
  put 0 x.bcMaster ||| put 12 x.bcPrio ||| put 16 x.bcHops ||| put 21 x.bcUport ||| fbit 24 x.bcValid

/-- A load of a register of Table 12-1. -/
def State.imtLoad (s : State) (r : ImtReg) : RegLd :=
  let x := s.imt
  match r with
  | .now => ldRaw s x.count
  | .frame => ldRaw s (BitVec.ofNat 64 (x.count.toNat / 10000))
  | .src => ldRaw s (put 0 (fld x.src 0 8))
  | .trim => ldRaw s (put 0 (BitVec.ofInt 38 x.trim))
  | .status => ldRaw s s.imtStatus
  | .offset => ldRaw s (put 0 x.offset)
  | .cfg => ldRaw s (put 0 (fld x.cfg 0 48))
  | .pps => ldRaw s (put 0 (fld x.pps 0 19))
  | .refsec => ldRaw s x.refsec
  | .vote => ldRaw s (put 0 x.fixes ||| put 32 x.last)
  | .beacon => ldRaw s x.beaconBits
  | .delay p => s.unitLoad (s.kmPresence p) (ldRaw s (s.delayBits p))
  | .asym p => s.unitLoad (s.kmPresence p) (ldRaw s (put 0 x.kmAsym[p]))

/-- The sum of TRIM over the ticks from a to b, each value from its own tick on; the newest stands first. -/
def trimSum (a : Nat) : Nat → List (BitVec 64 × Int) → Int
  | _, [] => 0
  | b, (t, v) :: rest =>
    let from_ := max t.toNat a
    v * ((b - from_ : Nat) : Int) + (if t.toNat ≤ a then 0 else trimSum a from_ rest)

/-- The mean of TRIM over the last 64 s of lock (R281); the rounding of an inexact mean is open. (DESIGN CHOICE, log 65) -/
def Imtur.lockMean (x : Imtur) : Int :=
  let b := x.count.toNat
  let a := max (b - 64000000000) ((x.trimLog.getLast?.map fun e => e.1.toNat).getD b)
  if a < b then
    let n := trimSum a b x.trimLog
    let q := n.fdiv ((b - a : Nat) : Int)
    clampTrim (if n ≠ q * ((b - a : Nat) : Int) && Config.openRound n (b - a) then q + 1 else q)
  else x.trim

/-- Enter a state of Imtur: the run of good measurements and their record begin anew, ERR reads 65,535 in FREE and until the first
measurement of ACQUIRE, and on leaving LOCKED the mean of TRIM is kept; class TIME tells of the change (R281, R282). -/
def State.imtEnter (s : State) (st : ImtState) : State :=
  if s.imt.state = st then s
  else
    let x : Imtur := s.imt
    let y : Imtur := { x with
      state := st, good := 0, offsets := []
      err := if st == ImtState.acquire || st == ImtState.free then 0xFFFF else x.err
      lockTrim := if x.state == ImtState.locked then x.lockMean else x.lockTrim
      trimLog := if st == ImtState.locked then [(x.count, x.trim)] else [] }
    ({ s with imt := y }).event 4 1 0 [putN 0 st.code]

/-- A write of IMT_SRC (R281): a change of SEL enters ACQUIRE, or FREE; a backup that is no longer to be master gives up (R283). -/
def State.setSrc (s : State) (v : BitVec 64) : State :=
  let v := (fld v 0 8).setWidth 64
  let changed := fld v 0 2 != fld s.imt.src 0 2
  let s := { s with imt := { s.imt with src := v, isMaster := s.imt.isMaster && bit v 2 } }
  if changed then
    let s := { s with imt := { s.imt with
      bcValid := false, isMaster := false, ptpKey := none, ptpMaster := 0, err := 0xFFFF, good := 0, offsets := []
      bcAt := s.now, refAt := s.now, annAt := s.now } }
    s.imtEnter (if fld v 0 2 = 0 then .free else .acquire)
  else s

/-- A store to a register of Table 12-1. -/
def State.imtStore (s : State) (a : Who) (r : ImtReg) (v : BitVec 64) : RegSt :=
  let x := s.imt
  match r with
  | .src => a.rwf s (s.setSrc v)
  | .trim => a.rwf s (if x.state = .free then { s with imt := { x with trim := clampTrim (fld v 0 38).toInt } } else s)
  | .status => .ok { s with imt := { x with stepped := w1c x.stepped v 3, voteFix := w1c x.voteFix v 4 } }
  | .cfg => a.rwf s { s with imt := { x with cfg := (fld v 0 48).setWidth 64 } }
  | .pps => a.rwf s { s with imt := { x with pps := (fld v 0 19).setWidth 64 } }
  | .refsec => a.rwf s { s with imt := { x with refsec := v } }
  | .delay p => s.unitStore (s.kmPresence p) (.ok s)
  | .asym p => s.unitStore (s.kmPresence p) (a.rwf s { s with imt := { x with kmAsym := vset x.kmAsym p (fld v 0 32) } })
  | _ => .ok s

/-! ### The servo (R281, R282) -/

/-- Whether a world runs (R281: the count steps backward only while both worlds are stopped). -/
def State.worldRuns (s : State) : Bool :=
  s.worlds.toList.any fun w => w.state == .running || w.state == .stopping || w.state == .restarting

/-- IMT_STEP: the count steps by whole ticks of an offset in ps. The instants passed over are remembered for the cut lists
(R291); a pulse on IMT_PPS_OUT keeps its width (R286). (DESIGN CHOICE, log 66) -/
def State.imtStep (s : State) (off : Int) : State :=
  let d := BitVec.ofInt 64 (off / 1000)
  let t := s.imt.count + d
  let s := if 0 < off then { s with trigq := { s.trigq with stepFrom := s.imt.count, stepAt := t } } else s
  let s := { s with imt := { s.imt with count := t, stepped := true, good := 0, ppsEnd := s.imt.ppsEnd + d } }
  s.cutSettleAll.event 4 2 0 []

/-- The servo takes a measurement: TRIM and the uncertainty within ERR are its own values, which the spec leaves open. (DESIGN CHOICE, log 65) -/
def State.servo (s : State) (off : Int) : State :=
  let (u, s) := drawFree s
  let (e, s) := drawFree s
  let offs := (off.natAbs :: s.imt.offsets).take 16
  let top := offs.foldl max 0
  let s := { s with imt := { s.imt with trim := trimOf u, offsets := offs, err := sat16 (e.toNat % 65536 + cdiv top 1000) } }
  if s.imt.state = .locked then
    { s with imt := { s.imt with trimLog := (s.now, s.imt.trim) :: s.imt.trimLog } }
  else s

/-- A measurement of the source: an offset in ps (R281). -/
def State.measure (s : State) (off : Int) : State :=
  let s := { s with imt := { s.imt with offset := BitVec.ofInt 48 off } }
  let big := decide ((fld s.imt.cfg 16 16).toNat * 1000 < off.natAbs)
  let small := decide (off.natAbs < (fld s.imt.cfg 0 16).toNat * 1000)
  match s.imt.state with
  | .free => s
  | _ =>
    if s.imt.state = .acquire ∧ big = true ∧ s.imt.lockedEver = false ∧ (0 < off ∨ s.worldRuns = false) then
      (s.servo off).imtStep off
    else
      let s := if s.imt.state = .holdover ∨ (s.imt.state = .acquire ∧ (big = true ∨ s.imt.lockedEver = true)) then
          s.imtEnter .slewing
        else s
      let s := s.servo off
      let good := if small then s.imt.good + 1 else 0
      let s := { s with imt := { s.imt with good := good } }
      if 16 ≤ good ∧ (s.imt.state = .acquire ∨ s.imt.state = .slewing) then
        let offs := s.imt.offsets
        let s := s.imtEnter .locked
        { s with imt := { s.imt with lockedEver := true, offsets := offs } }
      else s

/-- The offset of a REF edge, in ps: IMT_REFSEC, the instant that the edge stands for, less the count, and the part of a tick by which
the edge precedes the count's edge (R280). -/
def State.refOffset (s : State) (part : Int) : Int := (s.imt.refsec - s.imt.count).toInt * 1000 + part

/-- IMT_MEASUREMENT: a measurement of REF or PTP, in ps: of REF the part of a tick, of PTP the offset. REFSEC goes on by one second
after a REF edge (R280). Favar measures no PTP during FW_SWAP (R282). Beacons are measured where they are received. (DEDUCED, log 68) -/
def execImtMeasurement (offset : Int) (s : State) : Host.Outcome State Fault Refusal :=
  ok (if s.alive && s.imt.started then
      if s.imt.sel = 1 then
        ({ s with imt := { s.imt with refsec := s.imt.refsec + 1000000000, refAt := s.now } }).measure (s.refOffset offset)
      else if s.imt.sel = 2 ∧ s.fv.swap = false then s.measure offset
      else s
    else s)

/-- HOLDOVER begins: TRIM is frozen at its mean over the last 64 s of lock (R281), and FU is at least 1 ppb. (DESIGN CHOICE, log 65) -/
def State.holdover (s : State) : State :=
  let err := s.imt.err
  let (f, s) := drawFree s
  let s := { s with imt := { s.imt with holdAt := s.imt.count, errAtHold := err, holdFu := 1000 + f.toNat % 2 ^ 32 } }
  let s := s.imtEnter .holdover
  { s with imt := { s.imt with trim := clampTrim s.imt.lockTrim } }

/-- The Announce interval in ns: 2 to the power set by TIME_SOURCE, in s. -/
def Imtur.announceEvery (x : Imtur) : Nat := 1000000000 * 2 ^ (fld x.ptp 37 2).toNat
/-- The Sync and Delay_Req interval in ns. -/
def Imtur.syncEvery (x : Imtur) : Nat := 7812500 * 2 ^ (fld x.ptp 34 3).toNat

/-- Whether the source counts as lost (Table 12-2): 3 s without an edge or 100 ppm of REF; 3 intervals without an Announce of the chosen
master; 3 frames without a beacon of the followed master on any port. -/
def State.sourceLost (s : State) (ppm : Nat) : Bool :=
  let x := s.imt
  let since (t : BitVec 64) : Nat := (s.now - t).toNat
  match x.sel with
  | 1 => decide (3000000000 ≤ since x.refAt) || decide (100 < ppm)
  | 2 => decide (3 * x.announceEvery ≤ since x.annAt)
  | 3 => decide (30000 ≤ since x.bcAt) && (List.finRange 8).all fun p =>
      !(x.bcValid && x.seenBc[p].valid && x.seenBc[p].master == x.bcMaster) || decide (30000 ≤ since x.seenBc[p].at_)
  | _ => false

/-- IMT_SOURCE_LOSS: the source is lost (Table 12-2); the frequency error of IMT_REF_IN is given in ppm. -/
def execImtSourceLoss (s : State) (ppm : Nat := 0) : Host.Outcome State Fault Refusal :=
  let s0 := { s with imt := { s.imt with bcValid := false, ptpKey := none } }
  ok (if !s.imt.started || !(s.sourceLost ppm) then s
    else match s.imt.state with
      | .locked => s0.holdover
      | .slewing => if s.imt.lockedEver then s0.holdover else s0.imtEnter .acquire
      | .acquire => s0
      | _ => s)

/-! ### Beacons (R283) -/

/-- Whether this device is the master: by MASTER with a source of its own, or a backup that took over. -/
def Imtur.isTheMaster (x : Imtur) : Bool := (x.master && x.sel != 3) || x.isMaster

/-- BEACON_SEND: at a frame boundary a beacon leaves on every trained port. -/
def execBeaconSend (s : State) : Host.Outcome State Fault Refusal :=
  let x := s.imt
  let me := x.isTheMaster
  ok (if s.alive && x.started && x.count.toNat % 10000 == 0 then
      (List.finRange 8).foldl (fun (s : State) p =>
        if s.km.ports[p].trained then
          s.emit (.beacon p (if me then s.km.id else x.bcMaster) (if me then x.mprio else x.bcPrio)
            (if me then 0 else x.bcHops) (BitVec.ofNat 3 x.state.code) x.count)
        else s) s
    else s)

/-- Whether the beacon received last on a port is valid: HOPS below 31, a valid DELAY, and not older than the loss time of
three frames. (DESIGN CHOICE, log 67) -/
def State.beaconValid (s : State) (p : Fin 8) : Bool :=
  let b := s.imt.seenBc[p]
  b.valid && b.hops != 31 && s.imt.kmDelay[p].valid && decide ((s.now - b.at_).toNat ≤ 30000)

/-- The port of the beacon to follow: highest MPRIO, lowest id, lowest HOPS, lowest port. (DESIGN CHOICE, log 67) -/
def State.bestPort (s : State) : Option (Fin 8) :=
  minBy (fun p => let b := s.imt.seenBc[p]; ((15 - b.mprio.toNat) * 4096 + b.master.toNat) * 32 + b.hops.toNat)
    ((List.finRange 8).filter fun p => s.beaconValid p)

/-- BEACON_RECEIVE: a beacon arrives on a port. A device with SEL = KAMION chooses its master and, on the upstream port,
measures its offset. (DEDUCED, log 68) -/
def execBeaconReceive (p : Fin 8) (bc : Beacon) (s : State) : Host.Outcome State Fault Refusal :=
  ok (if s.km.ports[p].trained && s.imt.started then
      let b : PortBeacon := { master := bc.master, mprio := bc.mprio, hops := bc.hops, at_ := s.now, valid := true }
      let s := { s with imt := { s.imt with seenBc := vset s.imt.seenBc p b } }
      let s := if s.beaconValid p then { s with imt := { s.imt with bcLast := s.now } } else s
      if s.imt.sel = 3 then
        match s.bestPort with
        | none => s
        | some u =>
          let b := s.imt.seenBc[u]
          let s := { s with imt := { s.imt with isMaster := false, bcMaster := b.master, bcPrio := b.mprio
                                                bcHops := b.hops + 1, bcUport := BitVec.ofNat 3 u.val, bcValid := true
                                                bcAt := s.now } }
          if u = p then
            s.measure (bc.stamp + s.imt.kmDelay[p].delay.toNat - (s.imt.kmAsym[p].toInt) - bc.arrival)
          else s
      else s
    else s)

/-- KAMION_DELAY_EXCHANGE: DELAY becomes the mean of the two one-way times of a link. -/
def execKamionDelayExchange (p : Fin 8) (toward back : BitVec 32) (s : State) : Host.Outcome State Fault Refusal :=
  ok (if s.km.ports[p].trained then
      let d : KmDelay := { delay := BitVec.ofNat 32 ((toward.toNat + back.toNat) / 2), at_ := s.now, valid := true }
      { s with imt := { s.imt with kmDelay := vset s.imt.kmDelay p d } }
    else s)

/-- BACKUP_MASTER_TAKEOVER: a backup master in HOLDOVER that has received no valid beacon for 10 ms becomes master. -/
def execBackupMasterTakeover (s : State) : Host.Outcome State Fault Refusal :=
  let x := s.imt
  ok (if x.sel = 3 ∧ x.master = true ∧ x.state = .holdover ∧ 10000000 ≤ (s.now - x.bcLast).toNat then
      { s with imt := { x with isMaster := true, bcValid := false } }
    else s)

/-- PPS_OUT_PULSE: at a tick that is a multiple of 10⁹, IMT_PPS_OUT is asserted for WIDTH while EN = 1 (R286). -/
def execPpsOutPulse (s : State) : Host.Outcome State Fault Refusal :=
  let x := s.imt
  ok (if s.alive && x.started && x.count.toNat % 1000000000 == 0 && bit x.pps 17 then
      { s with imt := { x with ppsOut := true
                               ppsEnd := x.count + BitVec.ofNat 64 ((fld x.pps 0 17).toNat * 1000) } }
    else s)

/-! ### PTP (R285) -/

/-- Whether an Ethernet port receives and sends. -/
def State.ethOn (s : State) (port : Fin 2) : Bool := s.domOn (137 + port.val) && s.fv.ethUp[port]

/-- Whether the port follows a PTP master: SEL = PTP with ETHPORT. -/
def Imtur.ptpSlave (x : Imtur) (port : Fin 2) : Bool := x.sel == 2 && fld x.src 7 1 == BitVec.ofNat 1 port.val
/-- Whether the port acts as a PTP master. -/
def Imtur.ptpMasterOn (x : Imtur) (port : Fin 2) : Bool := bit x.ptp (41 + port.val)

/-- The PTP messages that a port sends at a tick: as master Sync with its Follow_Up and Announce, as slave Delay_Req, in the
peer-to-peer profile Pdelay_Req, each at its interval (Table 12-3). (DESIGN CHOICE, log 69) -/
def Imtur.ptpDue (x : Imtur) (port : Fin 2) : List PtpKind :=
  let at_ (n : Nat) : Bool := x.count.toNat % n == 0
  let p2p := bit x.ptp 32
  let m := x.ptpMasterOn port
  (if m && at_ x.syncEvery then [.sync, .followUp] else []) ++ (if m && at_ x.announceEvery then [.announce] else []) ++
    (if at_ x.syncEvery then
      (if p2p then (if m || x.ptpSlave port then [.pdelayReq] else []) else if x.ptpSlave port then [.delayReq] else [])
    else [])

/-- The PTP messages of a tick leave, unless Favar's firmware is not there to send them. -/
def State.ptpSends (s : State) : State :=
  if s.imt.started && s.fv.ready && !s.fv.swap then
    (List.finRange 2).foldl (fun (s : State) p =>
      if s.ethOn p then (s.imt.ptpDue p).foldl (fun (s : State) k => s.emit (.ptpSend p k)) s else s) s
  else s

/-- IMT_VOTE_MISMATCH: the three copies of the count as compared at a tick. One that differs is reloaded; with no majority
the event is fatal, and the count goes on from the copy that holds the value due, else from copy 0 (R277). -/
def execImtVoteMismatch (c0 c1 c2 : BitVec 64) (s : State) : Host.Outcome State Fault Refusal :=
  let fix (v : BitVec 64) (k : Nat) : State :=
    ({ s with imt := { s.imt with count := v, voteFix := true, fixes := satInc s.imt.fixes
                                  last := BitVec.ofNat 2 k } }).event 4 3 0 []
  ok (if !s.imt.started then s
    else if c0 = c1 ∧ c1 = c2 then s
    else if c1 = c2 then fix c1 0
    else if c0 = c2 then fix c0 1
    else if c0 = c1 then fix c0 2
    else
      let due := s.imt.count
      let v := if c0 = due then c0 else if c1 = due then c1 else if c2 = due then c2 else c0
      let s := { s with imt := { s.imt with count := v, err := 0xFFFF, lockedEver := false, good := 0, offsets := [] } }
      (s.imtEnter .acquire).fatal 4 0 0)

end Sys2Proof.Machine
end

