-- ==== Sys2Proof/Machine/Sensor.lean ====
section
/-! DEFINITION. Sensor lanes (R299 to R313, block 3): registers, commit, start and stop, converter frames, sample blocks and
rings. -/

namespace Sys2Proof.Machine

open Sys2Proof

/-- The first frame boundary after a tick (R293). -/
def boundaryAfter (t : BitVec 64) : BitVec 64 := BitVec.ofNat 64 ((t.toNat / 10000 + 1) * 10000)

/-! ### Registers (Table 13-3) -/

/-- A register of the SL block. -/
inductive SlReg where
  | cfg | ivl | acfg | aivl | ring | wrptr | rdptr | status | counts | tedsst
  | delay (m : Fin 16)
  | dim (m : Fin 16)
  | scale (m : Fin 16)
  | teds (m : Fin 16) (k : Fin 16)
deriving DecidableEq, Repr

/-- The register of a lane at an offset within the lane. -/
def slReg (off : Nat) : Option SlReg :=
  match off with
  | 0 => some .cfg
  | 1 => some .ivl
  | 2 => some .acfg
  | 3 => some .aivl
  | 4 => some .ring
  | 5 => some .wrptr
  | 6 => some .rdptr
  | 7 => some .status
  | 8 => some .counts
  | 0x40 => some .tedsst
  | _ =>
    if 0x10 ≤ off ∧ off < 0x20 then some (.delay (idx 16 (off - 0x10)))
    else if 0x20 ≤ off ∧ off < 0x30 then some (.dim (idx 16 (off - 0x20)))
    else if 0x30 ≤ off ∧ off < 0x40 then some (.scale (idx 16 (off - 0x30)))
    else if 0x100 ≤ off ∧ off < 0x200 then some (.teds (idx 16 ((off - 0x100) / 16)) (idx 16 off))
    else none

/-- MODE of a lane configuration. -/
def slMode (cfg : BitVec 64) : Nat := (fld cfg 0 2).toNat
/-- The number of channels. -/
def slChans (cfg : BitVec 64) : Nat := (fld cfg 2 4).toNat + 1
/-- WIDTH in bits; the reserved code 11 is never active. -/
def slWidth (w : BitVec 2) : Nat := if w = 0 then 16 else if w = 2 then 32 else 24
/-- BLKLEN. -/
def slBlklen (cfg : BitVec 64) : Nat := (fld cfg 26 16).toNat

/-- LINK as read: 1 in SPI (R302). -/
def SensorLane.linked (l : SensorLane) : Bool := slMode l.acfg == 1 || l.link

/-- SLn_STATUS as read. -/
def SensorLane.statusBits (l : SensorLane) : BitVec 64 :=
  fbit 0 l.run ||| fbit 1 l.linked ||| fbit 2 l.ovr ||| fbit 3 l.crc ||| fbit 4 l.gap ||| fbit 5 l.resync |||
  fbit 6 l.rate ||| fbit 7 l.cfgstop ||| fbit 8 l.cfgerr ||| fbit 9 l.cpend

/-- The register image of a lane's register. -/
def SensorLane.regBits (l : SensorLane) (r : SlReg) : BitVec 64 :=
  match r with
  | .cfg => l.cfg
  | .ivl => l.ivl
  | .acfg => l.acfg
  | .aivl => l.aivl
  | .ring => put 0 l.ringBase ||| put 40 l.ringSize
  | .wrptr => put 0 l.wr ||| put 32 l.seq
  | .rdptr => put 0 l.rd ||| fbit 24 l.rdEn
  | .status => l.statusBits
  | .counts => put 0 l.badfr ||| put 32 l.overruns ||| put 48 l.resyncs
  | .tedsst => (List.finRange 16).foldl (fun (d : BitVec 64) m =>
      d ||| fbit m.val l.teds[m].complete ||| fbit (16 + m.val) l.teds[m].changed) 0
  | .delay m => put 0 l.chans[m].delay
  | .dim m => l.chans[m].dim
  | .scale m => l.chans[m].scale
  | .teds m k => (List.range 8).foldl (fun (d : BitVec 64) b =>
      d ||| put (8 * b) (l.teds[m].bytes.toList.getD (8 * k.val + b) 0)) 0

/-- A store to a lane's register, as a change of the lane; `fv` tells whether Favar stores. -/
def SensorLane.store (l : SensorLane) (fv : Bool) (r : SlReg) (v : BitVec 64) : SensorLane :=
  match r with
  | .cfg => { l with cfg := put 0 (fld v 0 59) }
  | .ivl => { l with ivl := v }
  | .ring => if fv then { l with ringBase := fld v 0 40, ringSize := fld v 40 24 } else l
  | .rdptr => { l with rd := fld v 0 24, rdEn := bit v 24 }
  | .status =>
    { l with ovr := w1c l.ovr v 2, crc := w1c l.crc v 3, gap := w1c l.gap v 4, resync := w1c l.resync v 5
             rate := w1c l.rate v 6, cfgstop := w1c l.cfgstop v 7, cfgerr := w1c l.cfgerr v 8 }
  | .tedsst => { l with teds := Vector.ofFn fun m => { l.teds[m] with changed := w1c l.teds[m].changed v (16 + m.val) } }
  | .delay m => let c := { l.chans[m] with delay := fld v 0 32 }; { l with chans := vset l.chans m c }
  | .dim m => let c := { l.chans[m] with dim := v }; { l with chans := vset l.chans m c }
  | .scale m => let c := { l.chans[m] with scale := v }; { l with chans := vset l.chans m c }
  | _ => l

/-- The presence of sensor lane n (domain 72 + n). -/
def State.slPresence (s : State) (n : Fin 32) : Presence := s.presence (72 + n.val) true
/-- Whether lane n's domain is ON. (DESIGN CHOICE, log 83) -/
def State.slOn (s : State) (n : Fin 32) : Bool := s.domOn (72 + n.val)

/-- A load of a lane's register. -/
def State.slLoad (s : State) (n : Fin 32) (r : SlReg) : RegLd :=
  s.unitLoad (s.slPresence n) (ldRaw s (s.sl[n].regBits r))

/-- A store to a lane's register. -/
def State.slStore (s : State) (a : Who) (n : Fin 32) (r : SlReg) (v : BitVec 64) : RegSt :=
  s.unitStore (s.slPresence n) (.ok (s.modSl n fun l => l.store a.isFavar r v))

/-- SL_RUN: RUN of every lane. -/
def State.slRunBits (s : State) : BitVec 64 :=
  (List.finRange 32).foldl (fun (d : BitVec 64) n => d ||| fbit n.val (s.slOn n && s.sl[n].run)) 0

/-! ### Configuration limits (R300, R305, Table 13-1) -/

/-- Whether a configuration keeps the limits of Table 13-1 and the ranges of Table 13-3. -/
def slCfgOk (cfg ivl : BitVec 64) : Bool :=
  let mode := slMode cfg
  let nch := slChans cfg
  let w := fld cfg 7 2
  let div := (fld cfg 13 8).toNat
  let blk := slBlklen cfg
  let i := (fld ivl 0 48).toNat
  w != 3 && decide (4 ≤ blk) && decide (blk ≤ 32768) && blk % 4 == 0 &&
    match mode with
    | 0 => decide (nch ≤ 8) && decide (65536 * 1000000000 ≤ 96000 * i)
    | 1 => decide (nch ≤ 8) && decide (9 ≤ div) &&
        decide (((fld cfg 51 8).toNat * 16 + nch * slWidth w * (2 * (div + 1)) + 100) * 65536 ≤ i)
    | 2 => w == 1 && decide (320000000 ≤ i)
    | _ => false

/-- The bits of SLn_CFG whose change stops a running lane: MODE, NCHM1, FMT, WIDTH, FSDLY, FSPOL, EDGE, CPOL, SCLKDIV and
CONV (R305). -/
def slFraming : BitVec 64 := put 0 (BitVec.allOnes 21) ||| put 51 (BitVec.allOnes 8)

/-! ### Block periods (R307 to R312) -/

/-- The frames of a period that are not marked, with their index and stamp. -/
def unmarked (fs : List OpenFrame) : List (Nat × BitVec 64) :=
  fs.zipIdx.filterMap fun (f, i) =>
    match f.marked, f.stamp with
    | false, some t => some (i, t)
    | _, _ => none

/-- The first frame with a stamp of its own, and its index. -/
def ownFrame (fs : List OpenFrame) : Option (Nat × BitVec 64) :=
  (fs.zipIdx.filterMap fun (f, i) => f.stamp.map fun t => (i, t)).head?

/-- A quotient rounded down or up, as the implementation does (the spec names no rounding). (DESIGN CHOICE, log 75; DESIGN CHOICE, log 86) -/
def openQuot (num : Int) (den : Nat) : Int := num / den + (if num % den ≠ 0 ∧ Config.openRound num den = true then 1 else 0)

/-- The interval recorded in a block, in units of 2⁻¹⁶ ns (R308). -/
def recordedIvl (cfg ivl : BitVec 64) (fs : List OpenFrame) : Int :=
  let u := unmarked fs
  let plain : Int := (fld ivl 0 48).toNat
  if slMode cfg = 1 then plain
  else match u.head?, u.getLast? with
    | some (i, a), some (j, b) =>
      if j ≤ i then plain
      else
        let num : Int := ((b.toNat : Int) - a.toNat) * 65536
        let den := j - i
        openQuot num den
    | _, _ => plain

/-- Whether a recorded interval differs from IVL by more than TOL ppm (R308). -/
def ivlOff (ivl : BitVec 64) (v : Int) : Bool :=
  let i : Int := (fld ivl 0 48).toNat
  let tol : Int := (fld ivl 48 16).toNat
  tol != 0 && decide (tol * i < ((v - i).natAbs : Int) * 1000000)

/-- START of a block (R307): the instant of the first unmarked sample, else of the first with a frame of its own, else of
the first frame after the block, less its index times the interval, rounded to the nearest tick, ties to the later. -/
def blockStart (delay : BitVec 32) (v : Int) (fs later : List OpenFrame) : BitVec 64 :=
  let (i, t) := match (unmarked fs).head? with
    | some x => x
    | none => (ownFrame (fs ++ later)).getD (0, 0)
  BitVec.ofInt 64 ((t.toNat : Int) - delay.toInt - ((i : Int) * v + 32768) / 65536)

/-- A code of w bits as a signed integer. (DEDUCED, log 76) -/
def codeInt (w : Nat) (c : BitVec 32) : Int :=
  let x := c.toNat % 2 ^ w
  if 2 ^ (w - 1) ≤ x then (x : Int) - 2 ^ w else x

/-- A sample as written into a block, by FMT and WIDTH (R309). (DEDUCED, log 76) -/
def sampleBits (fmt : Bool) (w : Nat) (marked : Bool) (c : BitVec 32) : Nat :=
  if fmt then
    if marked then 0x8000
    else
      let x := codeInt w c / 2 ^ (w - 16)
      (BitVec.ofInt 16 (if x = -32768 then -32767 else x)).toNat
  else if marked then 0x7FC00001
  else Fmt.f32.encode 0 (FVal.ofRat (codeInt w c : Rat))

/-- Samples packed in the order of R18, per words of `per` samples; the last word is padded with zeros. -/
def packSamples (fmt : Bool) : Nat → List Nat → List Word
  | 0, _ => []
  | _ + 1, [] => []
  | n + 1, x :: xs =>
    let per := if fmt then 4 else 2
    let w := if fmt then 16 else 32
    let d := ((x :: xs).take per).foldr (fun a acc => a + 2 ^ w * acc) 0
    ⟨if fmt then 0x09 else 0x08, BitVec.ofNat 64 d⟩ :: packSamples fmt n ((x :: xs).drop per)

/-- LSTAT of a lane block (Table 13-4). -/
def laneLstat (cfg : BitVec 64) (fs : List OpenFrame) (v : Int) (rate short : Bool) : BitVec 64 :=
  let marks := fs.map (·.marked)
  let n := (marks.filter id).length
  let first := if n = 0 then 0xFFFF else min (marks.findIdx id) 0xFFFF
  let link := if slMode cfg = 2 then (if fs.any (·.crcBad) then 2 else 1) else 0
  putN 0 (min n 0xFFFF) ||| putN 16 first ||| putN 32 link ||| fbit 34 rate ||| fbit 35 short ||| fbit 36 (bit cfg 6) |||
    fbit 37 (fs.any (·.ovld)) ||| putN 48 (v % 65536).toNat

/-- One SBLK of a block period (R310). -/
def laneBlock (l : SensorLane) (devId : BitVec 12) (n : Fin 32) (m : Nat) (fs later : List OpenFrame) (v : Int)
    (rate short : Bool) : List Word :=
  let c := l.achans.toList.getD m {}
  let fmt := bit l.acfg 6
  let w := slWidth (fld l.acfg 7 2)
  let samples := packSamples fmt fs.length (fs.map fun f => sampleBits fmt w f.marked (f.codes.getD m 0))
  [mkHdr (8 + samples.length) 0x07 0, Word.fix (BitVec.ofNat 64 (512 * devId.toNat + 16 * n.val + m)),
   Word.fix (BitVec.ofNat 64 fs.length), Word.inst (blockStart c.delay v fs later), Word.span (BitVec.ofInt 64 (v / 65536)),
   Word.raw c.dim, Word.flt c.scale, Word.raw (laneLstat l.acfg fs v rate short), Word.fix (l.seq.setWidth 64)] ++ samples

/-- Where blocks of some lengths go in a ring from an offset: words used with the FILL runs, and the offset after them. (DESIGN CHOICE, log 78) -/
def placeRing (size : Nat) : Nat → List Nat → Nat × Nat
  | pos, [] => (0, pos)
  | pos, len :: r =>
    let fill := if size < pos + len then size - pos else 0
    let start := if size < pos + len then 0 else pos
    let (n, e) := placeRing size (start + len) r
    (fill + len + n, e)

/-- Marquetry reads the blocks of a lane: it is enabled, and a channel of the lane is selected (R338). -/
def State.logged (s : State) (n : Fin 32) : Bool :=
  s.mq.en && fld (s.mq.chsel.toList.getD (n.val / 4) 0) (16 * (n.val % 4)) 16 != 0

/-- Ring words free for a block period: those not unreleased by RD or by the Marquetry position (R312). (DESIGN CHOICE, log 78) -/
def State.ringFree (s : State) (n : Fin 32) : Nat :=
  let l := s.sl[n]
  let size := l.ringSize.toNat
  let left (from_ : Nat) : Nat := size - (l.wr.toNat + size - from_ % size) % size
  min (if l.rdEn then left l.rd.toNat else size) (if s.logged n then left s.mq.pos[n].toNat else size)

/-- A word written by the sample plane: with a stash cluster it is installed there, Dirty (R247). -/
def State.laneWrite (s : State) (stash : Option (Fin 8)) (pa : Nat) (w : Word) : State :=
  match stash with
  | none => s.agentWrite 8 pa w
  | some k => s.stashWrite k pa w

/-- A block written into a ring, its HDR last (R311). -/
def State.writeBlock (s : State) (stash : Option (Fin 8)) (pa : Nat) (b : List Word) : State :=
  let body := b.tail.zipIdx.foldl (fun (s : State) (w, i) => s.laneWrite stash (pa + 1 + i) w) s
  match b with
  | [] => body
  | h :: _ => body.laneWrite stash pa h

/-- The blocks of a period written from an offset, with FILL runs (R311). -/
def State.writeRing (s : State) (stash : Option (Fin 8)) (base size : Nat) : Nat → List (List Word) → State
  | _, [] => s
  | pos, b :: r =>
    let past := decide (size < pos + b.length)
    let s := if past ∧ pos < size then s.laneWrite stash (base + pos) (Word.fill (BitVec.ofNat 64 (size - pos))) else s
    let start := if past then 0 else pos
    State.writeRing (s.writeBlock stash (base + start) b) stash base size (start + b.length) r

/-- Class LANE: an event of a lane. -/
def State.laneEvent (s : State) (kind : Nat) (n : Fin 32) : State := s.event 1 kind n.val []

/-- BLOCK_PERIOD_END: the frames of a period become one SBLK per channel in the ring; an overrun is counted, and written
anyway or discarded (R310 to R312). The line that BLKLINE names is raised whichever it is, one of 248 to 255 too. (DESIGN CHOICE, log 159) -/
def State.closePeriod (s : State) (n : Fin 32) (fs later : List OpenFrame) (short : Bool) : State :=
  if fs.isEmpty then s
  else
    let l := s.sl[n]
    let v := recordedIvl l.acfg l.aivl fs
    let rate := ivlOff l.aivl v
    let s := if rate then (s.modSl n fun l => { l with rate := true }).laneEvent 6 n else s
    let blocks := (List.range (slChans l.acfg)).map fun m => laneBlock l s.km.id n m fs later v rate short
    let size := l.ringSize.toNat
    let (need, stop) := placeRing size l.wr.toNat (blocks.map (·.length))
    let past := decide (s.ringFree n < need)
    let s := if past then
        (s.modSl n fun l => { l with ovr := true, overruns := satInc l.overruns }).laneEvent 3 n
      else s
    if size < need || (past && bit l.acfg 25) then s.modSl n fun l => { l with seq := l.seq + 1 }
    else
      let stash : Option (Fin 8) := if bit l.acfg 24 then some ((fld l.acfg 21 3).toFin) else none
      let s := s.writeRing stash l.ringBase.toNat size l.wr.toNat blocks
      let s := s.modSl n fun l => { l with wr := BitVec.ofNat 24 (stop % size), seq := l.seq + 1 }
      if bit l.acfg 50 then s.raise ((fld l.acfg 42 8).toFin) else s

/-- Close the open period of a lane short (R310). -/
def State.closeShort (s : State) (n : Fin 32) : State :=
  (s.closePeriod n s.sl[n].opened [] true).modSl n fun l => { l with opened := [] }

/-- Close every period that has BLKLEN samples. -/
def State.closeFull (s : State) (n : Fin 32) : Nat → State
  | 0 => s
  | fuel + 1 =>
    let l := s.sl[n]
    let k := max 1 (slBlklen l.acfg)
    if l.opened.length < k then s
    else
      let s := s.closePeriod n (l.opened.take k) (l.opened.drop k) false
      State.closeFull (s.modSl n fun l => { l with opened := l.opened.drop k }) n fuel

/-- BADFR counts marked samples, saturating. (DESIGN CHOICE, log 77) -/
def SensorLane.countBad (l : SensorLane) (k : Nat) : SensorLane :=
  { l with badfr := BitVec.ofNat 32 (min (l.badfr.toNat + k) (2 ^ 32 - 1)) }

/-- Frames join the open period, and full periods are closed (R309, R310). -/
def State.addFrames (s : State) (n : Fin 32) (fs : List OpenFrame) : State :=
  let bad := (fs.filter (·.marked)).length * slChans s.sl[n].acfg
  (s.modSl n fun l => { l.countBad bad with opened := l.opened ++ fs }).closeFull n (fs.length + 1)

/-! ### Commit, start and stop (R305, R306) -/

/-- Request a commit of a lane; a lane that is not ON ignores it. -/
def State.slRequest (s : State) (n : Fin 32) : State :=
  if s.slOn n && !s.sl[n].cpend then s.modSl n fun l => { l with cpend := true, cpendAt := s.now } else s

/-- A sample tick of an SPI grid (R307). -/
def gridTick (start : BitVec 64) (ivl : Nat) (k : Nat) : Nat := start.toNat + (k * ivl + 32768) / 65536

/-- The first sample tick of a grid at or after a boundary. -/
def gridAfter (start : BitVec 64) (ivl : Nat) (b : Nat) : Nat :=
  let k := (b - start.toNat) * 65536 / ivl - 1
  ((List.range 4).map fun j => gridTick start ivl (k + j)).find? (fun t => decide (b ≤ t)) |>.getD b

/-- Handle a lane's commit at a boundary (R305). -/
def State.slApply (s : State) (n : Fin 32) (b : BitVec 64) : State :=
  let l := s.sl[n]
  let s := s.modSl n fun l => { l with cpend := false }
  if !(slCfgOk l.cfg l.ivl) then (s.modSl n fun l => { l with cfgerr := true }).laneEvent 1 n
  else
    let stop := l.run && (l.cfg ^^^ l.acfg) &&& slFraming != 0
    let s := if l.run then s.closeShort n else s
    let moved := fld l.ivl 0 48 != fld l.aivl 0 48
    let s := s.modSl n fun x =>
      { x with acfg := l.cfg, aivl := l.ivl, achans := l.chans
               gridStart := if l.run && moved then
                 BitVec.ofNat 64 (gridAfter l.gridStart (fld l.aivl 0 48).toNat b.toNat) else x.gridStart
               gridIndex := if l.run && moved then 0 else x.gridIndex }
    if stop then (s.modSl n fun x => { x with run := false, cfgstop := true }).laneEvent 2 n else s

/-- The commit of a lane whose boundary has come is handled before anything else of the lane (R305). -/
def State.slSettle (s : State) (n : Fin 32) : State :=
  let b := boundaryAfter s.sl[n].cpendAt
  if s.slOn n && s.sl[n].cpend && decide (b.toNat ≤ s.now.toNat) then s.slApply n b else s

/-- A request of a commit after the boundary of the last one is a new one. -/
def State.slAsk (s : State) (n : Fin 32) : State := (s.slSettle n).slRequest n

/-- Start a lane at the present tick (R306). -/
def State.slStart (s : State) (n : Fin 32) : State :=
  let s := s.slSettle n
  let l := s.sl[n]
  if !(s.slOn n) || l.run then s
  else if l.ringSize = 0 || !l.linked then (s.modSl n fun l => { l with cfgerr := true }).laneEvent 1 n
  else s.modSl n fun l => { l with run := true, opened := [], lastCnt := none, gridStart := s.now, gridIndex := 0 }

/-- Stop a lane at the present tick: its open blocks are closed short (R306). -/
def State.slStop (s : State) (n : Fin 32) : State :=
  let s := s.slSettle n
  if s.slOn n && s.sl[n].run then (s.closeShort n).modSl n fun l => { l with run := false } else s

/-- Act on each lane that a mask names and that is granted to the writer (R304). -/
def State.slMask (s : State) (a : Who) (v : BitVec 64) (f : State → Fin 32 → State) : State :=
  (List.finRange 32).foldl
    (fun (s : State) n => if bit v n.val && (a.isFavar || s.unitGranted a.world 3 n.val) then f s n else s) s

/-- A store to a block-wide register of the SL block. -/
def State.slWide (s : State) (a : Who) (off : Nat) (v : BitVec 64) : RegSt :=
  .ok (match off with
    | 0xF000 => s.slMask a v fun s n => s.slAsk n
    | 0xF001 => s.slMask a v fun s n => s.slStart n
    | 0xF002 => s.slMask a v fun s n => s.slStop n
    | _ => s)

/-! ### Converter frames (R301 to R303, R309, R313) -/

/-- Whether a lane takes a frame of a mode with a number of codes. -/
def State.takes (s : State) (n : Fin 32) (mode count : Nat) : Bool :=
  let l := s.sl[n]
  s.slOn n && l.run && slMode l.acfg == mode && count == slChans l.acfg

/-- TDM_FRAME: a frame of `bits` bit clocks whose slots hold `codes` (R301). (DESIGN CHOICE, log 79) -/
def execTdmFrame (n : Fin 32) (bits : Nat) (codes : List (BitVec 32)) (s : State) : Host.Outcome State Fault Refusal :=
  let s := s.slSettle n
  let w := slWidth (fld s.sl[n].acfg 7 2)
  let bad := decide (bits < 256) || decide (320 < bits)
  ok (if s.takes n 0 codes.length then
      s.addFrames n [{ stamp := some s.now, marked := bad, codes := codes.map fun (c : BitVec 32) => c >>> (32 - w) }]
    else s)

/-- SPI_CONVERSION: one conversion at the next sample tick, whose stamp is exact (R302, R307). -/
def execSpiConversion (n : Fin 32) (codes : List (BitVec 32)) (s : State) : Host.Outcome State Fault Refusal :=
  let s := s.slSettle n
  let l := s.sl[n]
  let due := gridTick l.gridStart (fld l.aivl 0 48).toNat l.gridIndex
  ok (if s.takes n 1 codes.length && decide (due ≤ s.now.toNat) then
      (s.modSl n fun l => { l with gridIndex := l.gridIndex + 1 }).addFrames n
        [{ stamp := some (BitVec.ofNat 64 due), marked := false, codes := codes }]
    else s)

/-- A TEDS byte received for a channel (R313). -/
def Teds.receive (t : Teds) (i : Nat) (b : BitVec 8) : Teds :=
  if t.bytes.toList.getD (i % 128) 0 = b then
    let got := setBit t.got (i % 128) true
    { t with got := got, complete := t.complete || got == BitVec.allOnes 128 }
  else { bytes := vset t.bytes (idx 128 i) b, got := 0, complete := false, changed := true }

/-- The SIDE triple of a good frame (Table 13-2, R313). -/
def State.takeSide (s : State) (n : Fin 32) (side : BitVec 24) : State :=
  if bit side 15 then
    let m : Fin 16 := (fld side 16 4).toFin
    let t := (s.sl[n].teds[m]).receive (fld side 8 7).toNat (fld side 0 8)
    let news := t.changed && !(s.sl[n].teds[m].changed)
    let s := s.modSl n fun l => { l with teds := vset l.teds m t }
    if news then s.laneEvent 7 n else s
  else s

/-- LSL2_FRAME: a frame arrives; after a gap in CNT marked samples are inserted, and after a jump blocks restart
(R303, R309, R313). (DESIGN CHOICE, log 77; DESIGN CHOICE, log 79) -/
def execLsl2Frame (n : Fin 32) (ovld : Bool) (cnt : BitVec 32) (codes : List (BitVec 32)) (side : BitVec 24)
    (crcOk : Bool) (s : State) : Host.Outcome State Fault Refusal :=
  let s := s.slSettle n
  let l := s.sl[n]
  let frame : OpenFrame := { stamp := some s.now, marked := !crcOk, codes := codes, crcBad := !crcOk, ovld := ovld && crcOk }
  ok (if s.slOn n && slMode l.acfg == 2 && l.link then
      let s := if crcOk then s.takeSide n side else s
      if !(s.takes n 2 codes.length) then s
      else if !crcOk then (s.modSl n fun l => { l with crc := true }).addFrames n [frame]
      else
        let jump := match l.lastCnt with
          | none => 1
          | some c => (cnt - c).toNat
        let s := s.modSl n fun l => { l with lastCnt := some cnt }
        if jump = 1 then s.addFrames n [frame]
        else if jump ≠ 0 ∧ jump ≤ 65 then
          ((s.modSl n fun l => { l with gap := true }).laneEvent 4 n).addFrames n
            (List.replicate (jump - 1) { stamp := none, marked := true, codes := [] } ++ [frame])
        else
          (((s.closeShort n).modSl n fun l => { l with resync := true, resyncs := satInc l.resyncs }).laneEvent 5 n).addFrames
            n [frame]
    else s)

/-- SL_COMMIT: a store to SL_COMMIT (R305). -/
def execSlCommit (a : Agent) (v : BitVec 64) (s : State) : Host.Outcome State Fault Refusal :=
  ok (s.rowStore a 3 none fun w s => s.slWide w 0xF000 v)

/-- SL_START: a store to SL_START (R306). -/
def execSlStart (a : Agent) (v : BitVec 64) (s : State) : Host.Outcome State Fault Refusal :=
  ok (s.rowStore a 3 none fun w s => s.slWide w 0xF001 v)

/-- SL_STOP: a store to SL_STOP (R306). -/
def execSlStop (a : Agent) (v : BitVec 64) (s : State) : Host.Outcome State Fault Refusal :=
  ok (s.rowStore a 3 none fun w s => s.slWide w 0xF002 v)

/-- SL_CONFIG_APPLY: the boundary after a request has come (R305). -/
def execSlConfigApply (n : Fin 32) (s : State) : Host.Outcome State Fault Refusal :=
  ok (s.slSettle n)

/-- LANE_LINK_UP: a lane gains LINK (R301, R303). -/
def execLaneLinkUp (n : Fin 32) (s : State) : Host.Outcome State Fault Refusal :=
  ok (if s.slOn n then s.modSl n fun l => { l with link := true } else s)

/-- LANE_LINK_DOWN: a lane drops LINK. -/
def execLaneLinkDown (n : Fin 32) (s : State) : Host.Outcome State Fault Refusal :=
  ok (if s.slOn n then s.modSl n fun l => { l with link := false } else s)

end Sys2Proof.Machine
end

