-- ==== Sys2Proof/Machine/Hinge.lean ====
section
/-! DEFINITION. Hinge pins, their UARTs and one-wire masters (R434 to R445, block 10). -/

namespace Sys2Proof.Machine

open Sys2Proof

/-! ### Leaves (R434 to R436) -/

/-- Functions that drive the pin: GPIO_OUT, GAUGE_OUT, TEDS (open drain), RELAY, UART_TX and TRIG_OUT (Table 19-2). -/
def leafOut? (f : Nat) : Bool := f == 2 || f == 4 || f == 5 || f == 6 || f == 7 || f == 10
/-- Functions that see the pin: GPIO_IN, GAUGE_IN, TEDS, UART_RX and TRIG_IN. -/
def leafIn? (f : Nat) : Bool := f == 1 || f == 3 || f == 5 || f == 8 || f == 9

/-- The slot of a tick (R434). -/
def slotOf (t : BitVec 64) : Fin 16 := idx 16 (t.toNat % 10000 / 625)

/-- The leaf that a slot table names for a slot. -/
def leafAt (slots : BitVec 64) (k : Fin 16) : Driver :=
  match (fld slots (2 * k.val) 2).toNat with
  | 0 => .a
  | 1 => .b
  | _ => .none_

/-- The function of a leaf in a configuration. -/
def leafFun (cfg : BitVec 64) : Driver → Nat
  | .a => (fld cfg 0 4).toNat
  | .b => (fld cfg 4 4).toNat
  | .none_ => 0

/-- The function that owns the pin in its present slot, 0 in HOLD. (DESIGN CHOICE, log 91) -/
def Hinge.owner (h : Hinge) : Nat := leafFun h.acfg (leafAt h.aslots h.slotNow)

/-- The level an output leaf drives: OUT, the gauge's output, the trigger level, or the idle level of a line. -/
def State.leafLevel (s : State) (h : Hinge) (f : Nat) : Bool :=
  match f with
  | 2 => h.out
  | 6 => h.out
  | 4 => s.gauges[(fld h.acfg 8 5).toFin].out
  | 10 => h.trig
  | _ => true

/-- The bank of a pin. -/
def bankOf (p : Fin 64) : Fin 4 := ⟨p.val / 16, by omega⟩

/-- The level that a pin drives at present; none while it is high impedance, as is every pin of a bank whose rail is neither 1.8 V nor
3.3 V (R434, R435, R448). (DESIGN CHOICE, log 91) -/
def State.pinDrives (s : State) (p : Fin 64) : Option Bool :=
  let h := s.hng[p]
  if s.banks[bankOf p].dead then none
  else if s.now.toNat < h.breakEnd.toNat then none
  else match leafAt h.aslots h.slotNow with
    | .none_ => h.driven
    | l => if leafOut? (leafFun h.acfg l) then some (s.leafLevel h (leafFun h.acfg l)) else none

/-- Whether gauges see edges of a pin: a GAUGE_IN leaf owns the present slot and no break is in progress (R436). -/
def State.gaugeSees (s : State) (p : Fin 64) : Bool :=
  s.hng[p].owner == 3 && decide (s.hng[p].breakEnd.toNat ≤ s.now.toNat)

/-- An input leaf sees a level with a stamp: an edge under EDGE of GPIO_IN or TRIG_IN raises LINE (R436, R437). -/
def State.pinSees (s : State) (p : Fin 64) (level : Bool) (stamp : BitVec 64) : State :=
  let h := s.hng[p]
  if h.inp == level then s
  else
    let s := s.modHinge p fun h => { h with inp := level }
    let edge := (fld h.acfg 22 2).toNat
    let hit := (h.owner == 1 || h.owner == 9) && (edge == 3 || (edge == 1 && level) || (edge == 2 && !level))
    if hit then (s.modHinge p fun h => { h with edgef := true }).raiseAt ((fld h.acfg 14 8).toFin) stamp else s

/-- The pin leaves its slot: the leaf that owned it is its last driver, with the level that it drove. -/
def State.leaveSlot (s : State) (p : Fin 64) : State :=
  let h := s.hng[p]
  match leafAt h.aslots h.slotNow with
  | .none_ => s
  | l =>
    let f := leafFun h.acfg l
    let v := if leafOut? f then some (s.leafLevel h f) else none
    s.modHinge p fun h => { h with lastDriver := l, driven := v }

/-- The pin enters the slot of the present tick: a change of driver between leaves of which one is an output makes a break
of 20 ns; an input leaf samples from its end (R434, R435). -/
def State.enterSlot (s : State) (p : Fin 64) : State :=
  let k := slotOf s.now
  let s := s.modHinge p fun h => { h with slotNow := k }
  let h := s.hng[p]
  let l := leafAt h.aslots k
  let f := leafFun h.acfg l
  if l = .none_ then s
  else
    let brk := l != h.lastDriver && (leafOut? f || h.driven.isSome)
    let stop := if brk then s.now + 20 else s.now
    let s := s.modHinge p fun h => { h with breakEnd := stop }
    if leafIn? f then s.pinSees p h.ball stop else s

/-- HINGE_PHASE of a bank at the present tick (R435). -/
def State.setPhaseOut (s : State) (b : Fin 4) : State :=
  s.modBank b fun k => { k with phaseOut := bit k.amap (slotOf s.now).val }

/-! ### Commit of a bank (R439) -/

/-- The pins of a bank. -/
def bankPins (b : Fin 4) : List (Fin 64) := (List.finRange 16).map fun i => ⟨16 * b.val + i.val, by omega⟩

/-- Whether the shadow of a bank may be committed. -/
def State.bankOk (s : State) (b : Fin 4) : Bool :=
  let funs := (bankPins b).flatMap fun p => [leafFun s.hng[p].cfg .a, leafFun s.hng[p].cfg .b]
  let once (f : Nat) : Bool := decide ((funs.filter (· == f)).length ≤ 1)
  funs.all (fun f => decide (f ≤ 10)) && once 5 && once 7 && once 8 &&
    (bankPins b).all fun p =>
      let h := s.hng[p]
      ((List.range 16).all fun k => fld h.slots (2 * k) 2 != 3) &&
        (!(leafFun h.cfg .a == 4 || leafFun h.cfg .b == 4) || fld s.gauges[(fld h.cfg 8 5).toFin].cfg 27 2 != 0)

/-- The boundary after a request has come, and the commit was not yet made. -/
def State.hngDue (s : State) (b : Fin 4) : Bool :=
  s.alive && s.banks[b].cpend && decide ((boundaryAfter s.banks[b].cpendAt).toNat ≤ s.now.toNat)

/-- The commit of a bank: the shadow of every pin and the phase map become active, or the commit is refused. -/
def State.hngApply (s : State) (b : Fin 4) : State :=
  let s := s.modBank b fun k => { k with cpend := false }
  if !(s.bankOk b) then s.modBank b fun k => { k with cfgerr := true }
  else
    let s := s.modBank b fun k => { k with amap := k.map }
    ((bankPins b).foldl (fun (s : State) p =>
      ((s.leaveSlot p).modHinge p fun h => { h with acfg := h.cfg, aslots := h.slots }).enterSlot p) s).setPhaseOut b

/-- From its boundary on, everything finds the commit made or refused (R293, R439). (DEDUCED, log 160) -/
def State.hngSettle (s : State) (b : Fin 4) : State := if s.hngDue b then s.hngApply b else s

/-- HINGE_SLOT_BOUNDARY: the pin passes into the slot of the present tick (R434, R435). -/
def execHingeSlotBoundary (pin : Fin 64) (s : State) : Host.Outcome State Fault Refusal :=
  let s := s.hngSettle (bankOf pin)
  ok (if s.alive && s.imt.started && s.hng[pin].slotNow != slotOf s.now then
      ((s.leaveSlot pin).enterSlot pin).setPhaseOut (bankOf pin)
    else s)

/-- HINGE_INPUT_EDGE: the level at the ball changes (after the glitch filter of GPIO_IN); the input leaf that owns the slot
sees it (R436, R437). -/
def execHingeInputEdge (pin : Fin 64) (level : Bool) (s : State) : Host.Outcome State Fault Refusal :=
  let s := s.hngSettle (bankOf pin)
  let s' := s.modHinge pin fun h => { h with ball := level }
  let h := s.hng[pin]
  ok (if !s.alive then s
    else if leafIn? h.owner then s'.pinSees pin level (if s.now.toNat < h.breakEnd.toNat then h.breakEnd else s.now)
    else s')

/-! ### HINGE actions (R438, Table 12-5) -/

/-- Whether a pin has a TRIG_OUT leaf in its active configuration. -/
def Hinge.hasTrig (h : Hinge) : Bool := fld h.acfg 0 4 == 10 || fld h.acfg 4 4 == 10

/-- A HINGE action on a pin: clear, set, or a pulse of a width. -/
def State.hingeAct (s : State) (p : Fin 64) (mode : Nat) (width : BitVec 16) : State :=
  let s := s.hngSettle (bankOf p)
  if !(s.hng[p].hasTrig) then s
  else s.modHinge p fun h =>
    match mode with
    | 0 => { h with trig := false, pulseEnd := none }
    | 1 => { h with trig := true, pulseEnd := none }
    | _ => { h with trig := true, pulseEnd := some (s.now + width.setWidth 64)
                    pulseBack := if h.pulseEnd.isSome then h.pulseBack else h.trig }

/-- HINGE_PULSE_END: the width of a pulse has passed; the level is again what it was before (R289). -/
def execHingePulseEnd (pin : Fin 64) (s : State) : Host.Outcome State Fault Refusal :=
  ok (match s.hng[pin].pulseEnd with
    | some t => if t.toNat ≤ s.now.toNat then s.modHinge pin fun h => { h with trig := h.pulseBack, pulseEnd := none } else s
    | none => s)

/-! ### UART (R440) -/

/-- A received character joins the FIFO of 64, or is discarded with OVR. -/
def HBank.append (k : HBank) (c : BitVec 8 × Bool × Bool) : HBank :=
  if k.rx.length < 64 then { k with rx := k.rx ++ [c] } else { k with ovr := true }

/-- The characters of an Imtur tick join the FIFO after the pops of that tick (R440). -/
def HBank.settled (k : HBank) : HBank := { k.rxLate.foldl HBank.append k with rxLate := [] }

/-- The FIFO as a pop or a receipt at a tick finds it. -/
def HBank.upTo (k : HBank) (now : BitVec 64) : HBank := if k.rxLateAt = now then k else k.settled

/-- A load of HNG_Bb_URX pops one character, or returns CONST:EMPTY. -/
def State.uartPop (s : State) (b : Fin 4) : Word × State :=
  let k := s.banks[b].upTo s.now
  match k.rx with
  | [] => (Word.empty, s)
  | (c, fe, pe) :: r => (Word.raw (put 0 c ||| fbit 8 fe ||| fbit 9 pe), s.modBank b fun _ => { k with rx := r })

/-- A store to HNG_Bb_UTX: the character is appended, or discarded with OVR. -/
def State.uartTx (s : State) (b : Fin 4) (v : BitVec 64) : State :=
  s.modBank b fun k => if k.tx.length < 64 then { k with tx := k.tx ++ [fld v 0 8] } else { k with ovr := true }

/-- UART_CHAR_SENT: the oldest character of the transmit FIFO has been sent. -/
def execUartCharSent (bank : Fin 4) (s : State) : Host.Outcome State Fault Refusal :=
  ok (match s.banks[bank].tx with
    | [] => s
    | c :: r => (s.modBank bank fun k => { k with tx := r }).emit (.uart bank c))

/-- UART_CHAR_RECEIVED: a character arrives; into an empty FIFO it raises RXLINE when RXEV = 1. -/
def execUartCharReceived (bank : Fin 4) (byte : BitVec 8) (ferr perr : Bool) (s : State) :
    Host.Outcome State Fault Refusal :=
  let k := s.banks[bank].upTo s.now
  let first := k.rx.isEmpty && k.rxLate.isEmpty
  ok (if !s.alive then s
    else
      let s := s.modBank bank fun _ => { k with rxLate := k.rxLate ++ [(byte, ferr, perr)], rxLateAt := s.now }
      if first && bit k.ucfg 31 then s.raise ((fld k.ucfg 23 8).toFin) else s)

/-! ### One-wire (R441) -/

/-- A store to HNG_Bb_OW: the fields, and an operation where none is in progress. -/
def State.owStore (s : State) (b : Fin 4) (v : BitVec 64) : State :=
  let busy := s.banks[b].owOp != .none_
  let s := s.modBank b fun k => { k with owData := fld v 0 8, owLine := fld v 13 8, owLev := bit v 21 }
  let op : OwOp := if bit v 8 then .reset else if bit v 9 then .write else if bit v 10 then .read else .none_
  if busy || op == .none_ then s
  else (s.modBank b fun k => { k with owOp := op, owAt := s.now }).emit (.oneWire b op (fld v 0 8))

/-- The duration of an operation. -/
def OwOp.ticks : OwOp → Nat
  | .reset => 960000
  | _ => 560000

/-- OW_DONE: the operation in progress is complete; LINE is raised when LEV = 1. -/
def execOwDone (bank : Fin 4) (data : BitVec 8) (present : Bool) (s : State) : Host.Outcome State Fault Refusal :=
  let k := s.banks[bank]
  ok (if k.owOp != .none_ && decide (k.owAt.toNat + k.owOp.ticks ≤ s.now.toNat) then
      let s := s.modBank bank fun k =>
        { k with owOp := .none_, owData := if k.owOp = .read then data else k.owData
                 owPresent := if k.owOp = .reset then present else k.owPresent }
      if k.owLev then s.raise (k.owLine.toFin) else s
    else s)

/-! ### Registers (Table 19-4) -/

/-- A register of the HNG block. -/
inductive HngReg where
  | cfg (p : Fin 64)
  | slot (p : Fin 64)
  | acfg (p : Fin 64)
  | aslot (p : Fin 64)
  | io (p : Fin 64)
  | phase (b : Fin 4)
  | ctl (b : Fin 4)
  | ucfg (b : Fin 4)
  | utx (b : Fin 4)
  | urx (b : Fin 4)
  | ustat (b : Fin 4)
  | ow (b : Fin 4)
  | straps
deriving DecidableEq, Repr

/-- The register at a word offset. -/
def hngReg (off : Nat) : Option HngReg :=
  if off < 0x400 then
    let p : Fin 64 := idx 64 (off / 16)
    match off % 16 with
    | 0 => some (.cfg p)
    | 1 => some (.slot p)
    | 2 => some (.acfg p)
    | 3 => some (.aslot p)
    | 4 => some (.io p)
    | _ => none
  else if off < 0x440 then
    let b : Fin 4 := idx 4 (off / 16)
    match off % 16 with
    | 0 => some (.phase b)
    | 1 => some (.ctl b)
    | 2 => some (.ucfg b)
    | 3 => some (.utx b)
    | 4 => some (.urx b)
    | 5 => some (.ustat b)
    | 6 => some (.ow b)
    | _ => none
  else if off = 0x500 then some .straps
  else none

/-- The unit of a register: its pin, or the bank's first pin (R444). -/
def HngReg.unit : HngReg → Option Nat
  | .cfg p => some p.val
  | .slot p => some p.val
  | .acfg p => some p.val
  | .aslot p => some p.val
  | .io p => some p.val
  | .phase b => some (16 * b.val)
  | .ctl b => some (16 * b.val)
  | .ucfg b => some (16 * b.val)
  | .utx b => some (16 * b.val)
  | .urx b => some (16 * b.val)
  | .ustat b => some (16 * b.val)
  | .ow b => some (16 * b.val)
  | .straps => none

/-- A load of a register of the HNG block. UTX is write only and reads zero. -/
def State.hngLoad (s : State) (r : HngReg) : RegLd :=
  match r with
  | .cfg p => ldRaw s s.hng[p].cfg
  | .slot p => ldRaw s s.hng[p].slots
  | .acfg p => ldRaw s s.hng[p].acfg
  | .aslot p => ldRaw s s.hng[p].aslots
  | .io p =>
    let h := s.hng[p]
    ldRaw s (fbit 0 h.out ||| fbit 1 h.inp ||| fbit 2 h.edgef ||| fbit 3 h.fsen ||| fbit 4 h.fslvl)
  | .phase b => ldRaw s (put 0 s.banks[b].map ||| put 16 s.banks[b].amap)
  | .ctl b => ldRaw s (fbit 1 s.banks[b].cpend ||| fbit 2 s.banks[b].cfgerr ||| fbit 3 s.banks[b].v33)
  | .ucfg b => ldRaw s s.banks[b].ucfg
  | .utx _ => ldRaw s 0
  | .urx b => .ok (s.uartPop b)
  | .ustat b =>
    let k := s.banks[b].settled
    ldRaw s (putN 0 k.tx.length ||| putN 8 k.rx.length ||| fbit 15 k.ovr)
  | .ow b =>
    let k := s.banks[b]
    ldRaw s (put 0 k.owData ||| fbit 11 (k.owOp != .none_) ||| fbit 12 k.owPresent ||| put 13 k.owLine ||| fbit 21 k.owLev)
  | .straps => ldRaw s (put 0 s.straps)

/-- A store to HNGp_IO: FSEN and FSLVL are RWG, and so is OUT while FSEN = 1 (R208, R442). -/
def State.hngIoStore (s : State) (a : Who) (p : Fin 64) (v : BitVec 64) : RegSt :=
  let h := s.hng[p]
  let changes := bit v 3 != h.fsen || bit v 4 != h.fslvl || (h.fsen && bit v 0 != h.out)
  let e := w1c h.edgef v 2
  a.rwg changes (s.modHinge p fun h => { h with out := bit v 0, edgef := e, fsen := bit v 3, fslvl := bit v 4 })
    (s.modHinge p fun h => { h with out := if h.fsen then h.out else bit v 0, edgef := e })

/-- Request a commit of a bank at the next frame boundary (R439). -/
def State.hngRequest (s : State) (b : Fin 4) : State :=
  let s := s.hngSettle b
  if s.banks[b].cpend then s else s.modBank b fun k => { k with cpend := true, cpendAt := s.now }

/-- A store to a register of the HNG block. -/
def State.hngStore (s : State) (a : Who) (r : HngReg) (v : BitVec 64) : RegSt :=
  match r with
  | .cfg p => .ok ((s.hngSettle (bankOf p)).modHinge p fun h => { h with cfg := put 0 (fld v 0 13) ||| put 14 (fld v 14 12) })
  | .slot p => .ok ((s.hngSettle (bankOf p)).modHinge p fun h => { h with slots := put 0 (fld v 0 32) })
  | .io p => s.hngIoStore a p v
  | .phase b => .ok ((s.hngSettle b).modBank b fun k => { k with map := fld v 0 16 })
  | .ctl b =>
    let s := (s.hngSettle b).modBank b fun k => { k with cfgerr := w1c k.cfgerr v 2 }
    .ok (if bit v 0 then s.hngRequest b else s)
  | .ucfg b => .ok (s.modBank b fun k => { k with ucfg := put 0 (fld v 0 32) })
  | .utx b => .ok (s.uartTx b v)
  | .ustat b => .ok (s.modBank b fun k => { k.settled with ovr := w1c k.settled.ovr v 15 })
  | .ow b => .ok (s.owStore b v)
  | _ => .ok s

/-- The row of a store to a register of the HNG block. -/
def State.hngRow (s : State) (a : Agent) (r : HngReg) (v : BitVec 64) : State :=
  s.rowStore a 10 r.unit fun w s => s.hngStore w r v

/-! ### Commit of a bank (R439) -/

/-- HNG_COMMIT: a store to HNG_Bb_CTL with COMMIT = 1 (R439). -/
def execHngCommit (a : Agent) (bank : Fin 4) (v : BitVec 64) (s : State) : Host.Outcome State Fault Refusal :=
  ok (if bit v 0 then s.hngRow a (.ctl bank) v else s)

/-- HNG_COMMIT_APPLY: the boundary after a request has come; the shadow of every pin of the bank becomes active, or the
commit is refused (R439). -/
def execHngCommitApply (bank : Fin 4) (s : State) : Host.Outcome State Fault Refusal := ok (s.hngSettle bank)

/-! ### Rows of stores and loads -/

/-- UART_TX_WRITE: a store to HNG_Bb_UTX (R440). -/
def execUartTxWrite (a : Agent) (bank : Fin 4) (v : BitVec 64) (s : State) : Host.Outcome State Fault Refusal :=
  ok (s.hngRow a (.utx bank) v)

/-- UART_RX_POP: a load of HNG_Bb_URX (R440). -/
def execUartRxPop (a : Agent) (bank : Fin 4) (s : State) : Host.Outcome State Fault Refusal :=
  ok (match s.who a with
    | none => s
    | some w => if s.granted w 10 (some (16 * bank.val)) false then (s.uartPop bank).2 else s)

/-- OW_RESET: a store to HNG_Bb_OW with RESET = 1 (R441). -/
def execOwReset (a : Agent) (bank : Fin 4) (v : BitVec 64) (s : State) : Host.Outcome State Fault Refusal :=
  ok (if bit v 8 then s.hngRow a (.ow bank) v else s)

/-- OW_WRITE: a store to HNG_Bb_OW with WRITE = 1. -/
def execOwWrite (a : Agent) (bank : Fin 4) (v : BitVec 64) (s : State) : Host.Outcome State Fault Refusal :=
  ok (if bit v 9 then s.hngRow a (.ow bank) v else s)

/-- OW_READ: a store to HNG_Bb_OW with READ = 1. -/
def execOwRead (a : Agent) (bank : Fin 4) (v : BitVec 64) (s : State) : Host.Outcome State Fault Refusal :=
  ok (if bit v 10 then s.hngRow a (.ow bank) v else s)

end Sys2Proof.Machine
end

