-- ==== Sys2Proof/Machine/Drive.lean ====
section
/-! DEFINITION. Drive lanes and the abort inputs (R314 to R323, R459, R460, block 4): registers, shadow blocks, commits,
playback, ramps, mute and ABORT_IN. -/

namespace Sys2Proof.Machine

open Sys2Proof

/-! ### Registers (Table 13-5) -/

/-- A register of a drive lane. -/
inductive DlReg where
  | cfg | ivl | acfg | aivl | ring | dim | gain | shadow | ctl | status | lastcommit | counts
deriving DecidableEq, Repr

/-- The register of a lane at an offset within the lane. -/
def dlReg (off : Nat) : Option DlReg :=
  match off with
  | 0 => some .cfg
  | 1 => some .ivl
  | 2 => some .acfg
  | 3 => some .aivl
  | 4 => some .ring
  | 5 => some .dim
  | 6 => some .gain
  | 7 => some .shadow
  | 8 => some .ctl
  | 9 => some .status
  | 10 => some .lastcommit
  | 11 => some .counts
  | _ => none

/-- STATE of DLn_STATUS (Table 13-6). -/
def DriveState.code : DriveState → Nat
  | .idle => 0
  | .run => 1
  | .ramp => 2
  | .stopped => 3

/-- The register image of a lane's register; `muted` is the effective mute. -/
def DriveLane.regBits (l : DriveLane) (muted : Bool) (r : DlReg) : BitVec 64 :=
  match r with
  | .cfg => l.cfg
  | .ivl => l.ivl
  | .acfg => l.acfg
  | .aivl => l.aivl
  | .ring => put 0 l.ringBase ||| put 40 l.ringSize
  | .dim => l.dim
  | .gain => l.gain
  | .shadow => put 0 l.offset ||| fbit 24 l.loop_ ||| fbit 25 l.pend ||| fbit 26 l.checking
  | .ctl => fbit 2 l.lmute
  | .status =>
    putN 0 l.state.code ||| fbit 3 muted ||| fbit 4 l.armed ||| fbit 5 l.underrun ||| fbit 6 l.badblk ||| fbit 7 l.poison |||
    fbit 8 l.ignored ||| fbit 9 l.cfgerr ||| fbit 10 l.nan ||| put 32 l.pos
  | .lastcommit => l.lastCommit
  | .counts => put 0 l.clips ||| put 32 l.underruns ||| put 48 l.ignores

/-- The presence of drive lane n (domain 104 + n, R299). -/
def State.dlPresence (s : State) (n : Fin 16) : Presence := s.presence (104 + n.val) (!s.variantL)
/-- Whether lane n is fitted and its domain ON. (DESIGN CHOICE, log 83) -/
def State.dlOn (s : State) (n : Fin 16) : Bool := !s.variantL && s.domOn (104 + n.val)

/-- DLn_MUTE_N asserted: the lane is muted, or IDLE (R320). -/
def State.muteNAsserted (s : State) (n : Fin 16) : Bool := s.laneMuted n || s.dl[n].state == .idle || !(s.dlOn n)

/-- A load of a drive lane's register. -/
def State.dlLoad (s : State) (n : Fin 16) (r : DlReg) : RegLd :=
  s.unitLoad (s.dlPresence n) (ldRaw s (s.dl[n].regBits (s.laneMuted n) r))

/-! ### Ramps (R318, R319) -/

/-- The interval of a lane's sample grid. -/
def DriveLane.period (l : DriveLane) : Nat := (fld l.aivl 0 48).toNat

/-- RAMP in ticks. -/
def DriveLane.rampTicks (l : DriveLane) : Nat := (fld l.acfg 33 24).toNat * 1000

/-- The instant of sample k of the current block (R316). -/
def DriveLane.sampleTick (l : DriveLane) (k : Nat) : Nat := gridTick l.lastCommit l.period k

/-- Enter RAMP with its first step at an instant. (DESIGN CHOICE, log 81) -/
def State.enterRamp (s : State) (n : Fin 16) (t : Nat) : State :=
  s.modDl n fun l => { l with state := .ramp, rampFrom := l.lastCode, rampAt := BitVec.ofNat 64 t, rampK := 0 }

/-- The entry of an underrun: RAMP, UNDERRUN, its count and line 252 (R319). -/
def State.underrunAt (s : State) (n : Fin 16) (t : Nat) : State :=
  ((((s.enterRamp n t).modDl n fun l => { l with underrun := true, underruns := satInc l.underruns }).guardEvent 6
    n.val).event 2 1 n.val [])

/-- SOFTSTOP: a lane in RUN ramps from the next instant of its grid. -/
def State.softstop (s : State) (n : Fin 16) : State :=
  let l := s.dl[n]
  if l.state = .run then s.enterRamp n (l.sampleTick l.nextK) else s

/-! ### Stores (R208, R315, R317) -/

/-- A store to DLn_SHADOW: PEND is cleared and a check starts. What a commit of the same tick acts on is kept (R317). (DEDUCED, log 82) -/
def State.shadowStore (s : State) (n : Fin 16) (v : BitVec 64) : State :=
  s.modDl n fun l =>
    let first := l.storedAt != some s.now
    { l with offset := fld v 0 24, loop_ := bit v 24, pend := false, checking := true, shadow := none
             storedAt := some s.now, oldPend := if first then l.pend else l.oldPend
             oldShadow := if first then l.shadow else l.oldShadow }

/-- A store to DLn_CTL (R208, R318, R320). -/
def State.dlCtlStore (s : State) (a : Who) (n : Fin 16) (v : BitVec 64) : RegSt :=
  let act (s : State) : State :=
    let s := if bit v 0 then s.softstop n else s
    if bit v 1 then s.modDl n fun l => { l with armed := true } else s
  a.rwg (bit v 2 != s.dl[n].lmute) ((act (s.modDl n fun l => { l with lmute := bit v 2 })).muteLane n) (act s)

/-- A store to a drive lane's register, the lane being there. -/
def State.dlRegStore (s : State) (a : Who) (n : Fin 16) (r : DlReg) (v : BitVec 64) : RegSt :=
  match r with
  | .cfg => .ok (s.modDl n fun l => { l with cfg := put 0 (fld v 0 57) })
  | .ivl => .ok (s.modDl n fun l => { l with ivl := put 0 (fld v 0 48) })
  | .ring => a.rwf s (s.modDl n fun l => { l with ringBase := fld v 0 40, ringSize := fld v 40 24 })
  | .dim => .ok (s.modDl n fun l => { l with dim := v })
  | .gain => .ok (s.modDl n fun l => { l with gain := v })
  | .shadow => .ok (s.shadowStore n v)
  | .ctl => s.dlCtlStore a n v
  | .status => .ok (s.modDl n fun l =>
      { l with underrun := w1c l.underrun v 5, badblk := w1c l.badblk v 6, poison := w1c l.poison v 7
               ignored := w1c l.ignored v 8, cfgerr := w1c l.cfgerr v 9, nan := w1c l.nan v 10 })
  | _ => .ok s

/-- A store to a drive lane's register. -/
def State.dlStore (s : State) (a : Who) (n : Fin 16) (r : DlReg) (v : BitVec 64) : RegSt :=
  s.unitStore (s.dlPresence n) (s.dlRegStore a n r v)

/-- The row of a store to a drive lane's register. -/
def State.dlRow (s : State) (a : Agent) (n : Fin 16) (r : DlReg) (v : BitVec 64) : State :=
  s.rowStore a 4 (some n.val) fun w s => s.dlStore w n r v

/-! ### The check of a shadow block (R315) -/

/-- The words from a ring address. -/
def State.ringWords (s : State) (pa n : Nat) : List Word := (List.range n).map fun i => s.agentPeek 8 (pa + i)

/-- The drive block at a lane's BASE + OFFSET, if it passes the check. -/
def State.checkShadow (s : State) (n : Fin 16) : Option DriveBlock :=
  let l := s.dl[n]
  let pa := l.ringBase.toNat + l.offset.toNat
  let ws := s.ringWords pa 9
  let f (i : Nat) : Word := ws.getD i Word.nil
  let hd := f 0
  let count := (f 2).datum.toInt
  let ls := (f 7).datum
  let ok := decide (320000000 ≤ l.period) && hd.tag == 0x80 && hdrKind hd == 0x07 &&
    decide (l.offset.toNat + 1 + hdrLen hd ≤ l.ringSize.toNat) && (f 2).tag == 0x00 && decide (1 ≤ count) &&
    decide (8 + cdiv count.toNat 2 ≤ hdrLen hd) && (f 5).tag == 0x07 && (f 5).datum == l.adim && (f 6).tag == 0x02 &&
    (f 7).tag == 0x07 && !(bit ls 36) && !(bit ls 38) && fld ls 39 3 == 0 && !(bit ls 47) &&
    !(ws.tail.take 8).any fun w => w.tag == 0xFE
  if ok then some { samples := BitVec.ofNat 40 (pa + 9), count := count.toNat, loop_ := l.loop_, scale := (f 6).datum
                    ahead := s.ringWords (pa + 9) (min 128 (cdiv count.toNat 2)) }
  else none

/-! ### Configuration commits (R460) -/

/-- Whether a configuration keeps the limits of Table 13-5. -/
def dlCfgOk (cfg ivl : BitVec 64) : Bool :=
  let ramp := (fld cfg 33 24).toNat
  let w := fld cfg 4 2
  decide (320000000 ≤ (fld ivl 0 48).toNat) && decide (1000 ≤ ramp) && decide (ramp ≤ 10000000) && fld cfg 1 3 != 0 &&
    w != 3 && (!(bit cfg 0) || w == 1)

/-- Handle a drive lane's configuration commit (R460). -/
def State.dlApply (s : State) (n : Fin 16) : State :=
  let l := s.dl[n]
  let s := s.modDl n fun l => { l with cpend := false }
  let frozen := (l.state == .run || l.state == .ramp) && fld l.cfg 0 8 != fld l.acfg 0 8
  if !(dlCfgOk l.cfg l.ivl) || frozen then s.modDl n fun l => { l with cfgerr := true }
  else s.modDl n fun l => { l with acfg := l.cfg, aivl := l.ivl, adim := l.dim, again := l.gain }

/-- The configuration commit of a lane whose boundary has come is handled before anything else of the lane (R460). -/
def State.dlSettle (s : State) (n : Fin 16) : State :=
  if s.dlOn n && s.dl[n].cpend && decide ((boundaryAfter s.dl[n].cpendAt).toNat ≤ s.now.toNat) then s.dlApply n else s

/-! ### Commits of blocks (R316 to R318) -/

/-- The tick of sample COUNT has ended with no commit: the lane enters RAMP (R319). -/
def State.settleUnderrun (s : State) (n : Fin 16) : State :=
  let l := s.dl[n]
  match l.state, l.current with
  | .run, some b =>
    let e := l.sampleTick b.count
    if s.dlOn n && !b.loop_ && decide (e < s.now.toNat) then s.underrunAt n e else s
  | _, _ => s

/-- A DRIVE_COMMIT action, or the commit of DRIVE_SET, on one lane at the present tick: PEND and the shadow block are those
at the start of the tick. (DEDUCED, log 82) -/
def State.driveCommit (s : State) (n : Fin 16) : State :=
  let s := (s.dlSettle n).settleUnderrun n
  let l := s.dl[n]
  let early := l.storedAt == some s.now
  let pend := if early then l.oldPend else l.pend
  let block := if early then l.oldShadow else l.shadow
  match pend, block with
  | true, some b =>
    let plays := l.armed && !(s.laneMuted n)
    s.modDl n fun l =>
      { l with current := some b, pos := 0, lastCommit := s.now, nextK := 0, lowDone := false
               pend := if early then l.pend else false
               shadow := if early then l.shadow else none
               oldPend := false, oldShadow := none
               state := if plays then .run else l.state
               armed := l.armed && !plays }
  | _, _ =>
    ((s.modDl n fun l => { l with ignored := true, ignores := satInc l.ignores }).guardEvent 7 n.val).event 2 2 n.val []

/-! ### Output (R316, R319, R459) -/

/-- Multiply two binary64 values under RNE. (DEDUCED, log 80) -/
def mulF64 (a b : FVal) : FVal := ofF64 (toF64 0 (a.mul b))

/-- The value of sample k of a block: FP32 times SCALE (R316). (DEDUCED, log 80) -/
def DriveBlock.value (b : DriveBlock) (w : Word) (k : Nat) : FVal :=
  mulF64 (ofF32 (if k % 2 = 0 then fld w.datum 0 32 else fld w.datum 32 32)) (ofF64 b.scale)

/-- Clip a value to the range of w bits: the code, and whether it was clipped. -/
def clipCode (w : Nat) (x : FVal) : Int × Bool :=
  let hi : Int := 2 ^ (w - 1) - 1
  let lo : Int := -(2 ^ (w - 1) : Nat)
  match x with
  | .inf neg => (if neg then lo else hi, true)
  | v =>
    let c := roundInt 0 v.toRat
    if hi < c then (hi, true) else if c < lo then (lo, true) else (c, false)

/-- The sample word of index k of a block: the word that was fetched ahead, or, where the ring word has changed since, either of the two
(R315). (DESIGN CHOICE, log 158) -/
def State.sampleWord (s : State) (b : DriveBlock) (k : Nat) : Word × State :=
  let now := s.agentPeek 8 (b.samples.toNat + k / 2)
  match b.ahead with
  | [] => (now, s)
  | w :: _ =>
    if w = now then (w, s)
    else
      let (f, s) := drawFree s
      (if bit f 0 then w else now, s)

/-- The words fetched ahead after sample k has been output: one more, up to 256 samples on, each time a word is used up; a LOOP block goes
on from its first word (R315). -/
def State.fetchSamples (s : State) (n : Fin 16) (b : DriveBlock) (k : Nat) : State :=
  let words := cdiv b.count 2
  if k % 2 = 1 ∨ k + 1 = b.count then
    let j := k / 2 + 128
    let more := if b.loop_ then [s.agentPeek 8 (b.samples.toNat + j % words)]
      else if j < words then [s.agentPeek 8 (b.samples.toNat + j)] else []
    s.modDl n fun l => { l with current := some { b with ahead := b.ahead.drop 1 ++ more } }
  else s

/-- Raise the low-water event of a lane if the sample just output brings it there (R459). -/
def State.lowWater (s : State) (n : Fin 16) (b : DriveBlock) (k : Nat) (t : Nat) : State :=
  let l := s.dl[n]
  let mark := (fld l.acfg 8 16).toNat
  if !b.loop_ && !l.lowDone && mark != 0 && bit l.acfg 32 && decide (b.count - 1 - k ≤ mark) then
    (s.modDl n fun l => { l with lowDone := true }).raiseAt ((fld l.acfg 24 8).toFin) (BitVec.ofNat 64 t)
  else s

/-- Output one code on a lane. -/
def State.putCode (s : State) (n : Fin 16) (code : Int) : State :=
  (s.modDl n fun l => { l with lastCode := code }).emit (.driveCode n s.dl[n].pos code)

/-- Play sample k (index i in the block) at its instant t. -/
def State.playSample (s : State) (n : Fin 16) (b : DriveBlock) (i t : Nat) : State :=
  let l := s.dl[n]
  let (w, s) := s.sampleWord b i
  let x := b.value w i
  let s := s.noteRead 8 (b.samples.toNat + i / 2)
  if w.tag = 0xFE then ((s.modDl n fun l => { l with poison := true }).underrunAt n t).event 2 4 n.val []
  else if x.isNan then (s.modDl n fun l => { l with nan := true }).underrunAt n t
  else
    let y := mulF64 x (ofF64 l.again)
    let width := slWidth (fld l.acfg 4 2)
    let (free, s1) := drawFree s
    let (code, clip) : Int × Bool := if y.isNan then (codeInt width (fld free 0 32), false) else clipCode width y
    let s := if y.isNan then s1 else s
    let s := s.modDl n fun l =>
      { l with pos := BitVec.ofNat 32 i, nextK := l.nextK + 1, clips := if clip then satInc l.clips else l.clips }
    ((s.putCode n code).lowWater n b i t).fetchSamples n b i

/-- The ramp code at step k: linear from the last code to zero over RAMP. (DESIGN CHOICE, log 81) -/
def DriveLane.rampCode (l : DriveLane) (k : Nat) : Int :=
  let r := l.rampTicks
  let e := gridTick 0 l.period k
  if r ≤ e then 0 else openQuot (l.rampFrom * ((r - e : Nat) : Int)) r

/-- DRIVE_SAMPLE_OUTPUT: the next sample of the current block, or the next step of the ramp, at its instant; in IDLE and STOPPED a frame
with a zero code (R318). -/
def execDriveSampleOutput (n : Fin 16) (s : State) (ecc : Ecc := []) : Host.Outcome State Fault Refusal :=
  let s := (s.memErrs ecc).dlSettle n
  let l := s.dl[n]
  ok (if !(s.dlOn n) then s
    else match l.state, l.current with
      | .run, some b =>
        let t := l.sampleTick l.nextK
        if decide (t ≤ s.now.toNat) && (b.loop_ || decide (l.nextK < b.count)) then
          s.playSample n b (l.nextK % b.count) t
        else s
      | .ramp, _ =>
        if gridTick l.rampAt l.period l.rampK ≤ s.now.toNat then
          (s.putCode n (l.rampCode l.rampK)).modDl n fun l => { l with rampK := l.rampK + 1 }
        else s
      | .run, none => s
      | _, _ => if l.period = 0 then s else s.putCode n 0)

/-- DRIVE_UNDERRUN (R319). -/
def execDriveUnderrun (n : Fin 16) (s : State) : Host.Outcome State Fault Refusal := ok (s.settleUnderrun n)

/-- DRIVE_RAMP_COMPLETE: RAMP has passed since the ramp began (R318). -/
def execDriveRampComplete (n : Fin 16) (s : State) : Host.Outcome State Fault Refusal :=
  let l := s.dl[n]
  ok (if s.dlOn n && l.state == .ramp && decide (l.rampAt.toNat + l.rampTicks ≤ s.now.toNat) then
      (s.putCode n 0).modDl n fun l => { l with state := .stopped }
    else s)

/-! ### Rows of stores -/

/-- DL_SHADOW_WRITE: a store to DLn_SHADOW (R315, R317). -/
def execDlShadowWrite (a : Agent) (n : Fin 16) (v : BitVec 64) (s : State) : Host.Outcome State Fault Refusal :=
  ok (s.dlRow a n .shadow v)

/-- DL_SHADOW_CHECK_DONE: the check ends with PEND, or with BADBLK and line 252 (R315). -/
def execDlShadowCheckDone (n : Fin 16) (s : State) (ecc : Ecc := []) : Host.Outcome State Fault Refusal :=
  let s := (s.memErrs ecc).dlSettle n
  ok (if s.dlOn n && s.dl[n].checking then
      let found := s.checkShadow n
      let s := s.noteReads 8 (s.dl[n].ringBase.toNat + s.dl[n].offset.toNat) 9
      match found with
      | some b => s.modDl n fun l => { l with checking := false, pend := true, shadow := some b }
      | none =>
        ((s.modDl n fun l => { l with checking := false, badblk := true }).guardEvent 8 n.val).event 2 3 n.val []
    else s)

/-- DL_SOFTSTOP: writing 1 to DLn_CTL.SOFTSTOP (R318). -/
def execDlSoftstop (a : Agent) (n : Fin 16) (v : BitVec 64) (s : State) : Host.Outcome State Fault Refusal :=
  ok (if bit v 0 then s.dlRow a n .ctl v else s)

/-- DL_RESUME: writing 1 to DLn_CTL.RESUME (R318). -/
def execDlResume (a : Agent) (n : Fin 16) (v : BitVec 64) (s : State) : Host.Outcome State Fault Refusal :=
  ok (if bit v 1 then s.dlRow a n .ctl v else s)

/-! ### Requests of configuration commits -/

/-- Request a configuration commit of a drive lane; after the boundary of the last request it is a new one. -/
def State.dlRequest (s : State) (n : Fin 16) : State :=
  let s := s.dlSettle n
  if s.dlOn n && !s.dl[n].cpend then s.modDl n fun l => { l with cpend := true, cpendAt := s.now } else s

/-- A store to DL_COMMIT. -/
def State.dlWide (s : State) (a : Who) (v : BitVec 64) : State :=
  (List.finRange 16).foldl
    (fun (s : State) n => if bit v n.val && (a.isFavar || s.unitGranted a.world 4 n.val) then s.dlRequest n else s) s

/-- DL_COMMIT: a store to DL_COMMIT (R460). On the variant without drive lanes the whole block is absent. -/
def execDlCommit (a : Agent) (v : BitVec 64) (s : State) : Host.Outcome State Fault Refusal :=
  ok (s.rowStore a 4 none fun w s => s.unitStore (if s.variantL then .absent else .there) (.ok (s.dlWide w v)))

/-- DL_CONFIG_APPLY: the boundary after a request has come (R460). -/
def execDlConfigApply (n : Fin 16) (s : State) : Host.Outcome State Fault Refusal := ok (s.dlSettle n)

/-! ### Abort inputs (R321, R322, R396) -/

/-- Originate an abort vote: the next sequence number, twice on every trained port (R396). -/
def State.sendVote (s : State) : State :=
  let q := s.km.mySeq + 1
  let s := { s with km := { s.km with mySeq := q } }
  (List.finRange 8).foldl (fun (s : State) p =>
    if s.km.ports[p].trained then (s.emit (.vote p s.km.id q)).emit (.vote p s.km.id q) else s) s

/-- The newest of the values equal to one becomes another. -/
def lastTo (arg new : BitVec 8) (l : List (BitVec 8)) : List (BitVec 8) :=
  (l.reverse.takeWhile (· != arg) ++ match l.reverse.dropWhile (· != arg) with
    | [] => []
    | _ :: old => new :: old).reverse

/-- The newest pending GUARD_ABORT of a source, in every slot where one is pending, gets ARG 0x03. -/
def State.mergeAbort (s : State) (arg : BitVec 8) : State :=
  { s with cores := s.cores.map fun (c : Core) =>
      { c with slots := c.slots.map fun (k : Slot) => { k with abort := lastTo arg 3 k.abort } } }

/-- The delivery of GUARD_ABORT for an assertion: merged with that of the other input where it is made within one frame
while that delivery is pending and not yet entered (R321). -/
def State.abortDelivery (s : State) (pinB : Bool) : State :=
  let mine : BitVec 8 := if pinB then 2 else 1
  let other : BitVec 8 := if pinB then 1 else 2
  let waits := match s.safe.firstAbort, s.gsvc with
    | some (b, t), some (c, k) => b != pinB && decide ((s.now - t).toNat ≤ 10000) && (s.slot c k).abort.contains other
    | _, _ => false
  if waits then s.mergeAbort other
  else
    let s := { s with safe := { s.safe with firstAbort := some (pinB, s.now) } }
    s.guardAbort mine

/-- ABORT_IN_ASSERT: a filtered assertion of an ABORT_IN input (R321). -/
def execAbortInAssert (pinB : Bool) (s : State) : Host.Outcome State Fault Refusal :=
  let was := if pinB then s.safe.ainB else s.safe.ainA
  ok (if !s.alive || was then s
    else
      let s := { s with safe := { s.safe with ainA := s.safe.ainA || !pinB, ainB := s.safe.ainB || pinB, mute := true } }
      s.muteLanes.sendVote.abortDelivery pinB)

/-- ABORT_IN_RELEASE: an input is released; MUTE stays (R321). -/
def execAbortInRelease (pinB : Bool) (s : State) : Host.Outcome State Fault Refusal :=
  ok { s with safe := { s.safe with ainA := s.safe.ainA && pinB, ainB := s.safe.ainB && !pinB } }

/-- ABORT_OUT_N asserted (R322, R410, R433). -/
def State.abortOutAsserted (s : State) : Bool :=
  s.safe.abortOut || s.safe.ainA || s.safe.ainB || s.pwr.brown || s.pwr.porLow

end Sys2Proof.Machine
end

