-- ==== Sys2Proof/Machine/Kamion.lean ====
section
/-! DEFINITION. Kamion (chapter 17, block 7): ports and training, routing, link-state notices, abort votes, messages, bulk
transfers and landing rings. -/

namespace Sys2Proof.Machine

open Sys2Proof

/-! ### Topology (R391, R395) -/

/-- Coordinate i (x, y, z) of a device id. -/
def coordOf (d : BitVec 12) (i : Nat) : Nat := (fld d (4 * i) 4).toNat

/-- A device id with coordinate i replaced. -/
def setCoord (d : BitVec 12) (i c : Nat) : BitVec 12 := setFld d (4 * i) (BitVec.ofNat 4 c)

/-- The size of dimension i in the shape in effect. -/
def Kamion.dimSize (k : Kamion) (i : Nat) : Nat := (fld k.ashape (4 * i) 4).toNat + 1
/-- Whether dimension i is wrapped. -/
def Kamion.wrapped (k : Kamion) (i : Nat) : Bool := bit k.ashape (12 + i)
/-- The port of a direction, if the shape names one. -/
def Kamion.dirPort (k : Kamion) (i : Nat) (minus : Bool) : Option (Fin 8) :=
  let p := (fld k.ashape (16 + 8 * i + (if minus then 4 else 0)) 4).toNat
  if h : p < 8 then some ⟨p, h⟩ else none

/-- The next coordinate in a direction. -/
def nextCoord (size c : Nat) (minus : Bool) : Nat := if minus then (c + size - 1) % size else (c + 1) % size

/-- Whether this device knows of a link of a device as down: its own ports by their training, others by the notices. -/
def Kamion.endUp (k : Kamion) (d : BitVec 12) (p : Fin 8) : Bool :=
  if d = k.id then k.ports[p].trained else !(k.links.contains (d, p, false))

/-- Whether the link that leaves a device in a direction is up: neither end is known as down. (DEDUCED, log 106) -/
def Kamion.linkUp (k : Kamion) (d : BitVec 12) (i : Nat) (minus : Bool) : Bool :=
  match k.dirPort i minus, k.dirPort i (!minus) with
  | some p, some q => k.endUp d p && k.endUp (setCoord d i (nextCoord (k.dimSize i) (coordOf d i) minus)) q
  | _, _ => false

/-- Whether a number of links from a device in a direction are all up. (DEDUCED, log 106) -/
def Kamion.pathUp (k : Kamion) (i : Nat) (minus : Bool) : Nat → BitVec 12 → Bool
  | 0, _ => true
  | n + 1, d => k.linkUp d i minus && Kamion.pathUp k i minus n (setCoord d i (nextCoord (k.dimSize i) (coordOf d i) minus))

/-- The direction in which a packet enters a dimension: the shorter one that is whole, a tie going to +; none when neither
is whole. -/
def Kamion.chooseDir (k : Kamion) (i : Nat) (stop : Nat) : Option Bool :=
  let size := k.dimSize i
  let c := coordOf k.id i
  if k.wrapped i then
    let plus := (stop + size - c) % size
    let minus := (c + size - stop) % size
    let first := decide (minus < plus)
    let hops (m : Bool) : Nat := if m then minus else plus
    if k.pathUp i first (hops first) k.id then some first
    else if k.pathUp i (!first) (hops (!first)) k.id then some (!first)
    else none
  else
    let m := decide (stop < c)
    if k.pathUp i m (if m then c - stop else stop - c) k.id then some m else none

/-- Where a routed packet goes from this device. -/
inductive Route where
  | deliver
  | out (p : Fin 8) (upper : Bool)
  | none_
deriving DecidableEq, Repr

/-- The next hop in dimension i: a packet that came in on this dimension keeps its direction, another chooses one. Past
the dateline it uses the upper channel of its pair (R390). (DEDUCED, log 107) -/
def Kamion.hop (k : Kamion) (via : Option (Fin 8)) (origin dest : BitVec 12) (i : Nat) : Route :=
  let keeps : Option Bool :=
    if via.isSome && via == k.dirPort i true then some false
    else if via.isSome && via == k.dirPort i false then some true
    else none
  match keeps <|> k.chooseDir i (coordOf dest i) with
  | none => .none_
  | some m =>
    let start := if keeps.isSome then coordOf origin i else coordOf k.id i
    let next := nextCoord (k.dimSize i) (coordOf k.id i) m
    match k.dirPort i m with
    | some p => .out p (k.wrapped i && (if m then decide (start < next) else decide (next < start)))
    | none => .none_

/-- The route of R391: an override, the shape, delivery, then X, Y and Z. -/
def Kamion.route (k : Kamion) (via : Option (Fin 8)) (origin dest : BitVec 12) : Route :=
  match k.aovr.toList.find? fun o => o.valid && o.dest == dest with
  | some o => .out o.port.toFin false
  | none =>
    if [0, 1, 2].any fun i => decide (k.dimSize i ≤ coordOf dest i) then .none_
    else match [0, 1, 2].find? fun i => coordOf dest i != coordOf k.id i with
      | none => .deliver
      | some i => k.hop via origin dest i

/-- Routed traffic is carried once the table is in effect and the id is confirmed (R392). -/
def Kamion.carries (k : Kamion) : Bool := k.routed && k.confirmed

/-- Count one packet in NOROUTE. -/
def State.noRoute (s : State) : State := { s with km := { s.km with noroute := satInc s.km.noroute } }

/-! ### Arrivals (R292, R400, R402) -/

/-- A trigger arrives: it enters the queue of 64 entries, or counts in DROPPED where its world is not accepted or the queue
is full. -/
def State.trigArrive (s : State) (w : Fin 2) (action : Word) (target : BitVec 64) : State :=
  let t := s.trigq
  if (if w = 0 then t.acceptT else t.acceptG) && decide (t.queue.length < 64) then
    { s with trigq := { t with queue := t.queue ++ [⟨w, action, target, max target.toNat s.now.toNat⟩] } }
  else { s with trigq := { t with dropped := satInc t.dropped } }

/-- Apply a function to a receive queue of a world. -/
def State.modRq (s : State) (w : Fin 2) (q : Fin 16) (f : RecvQueue → RecvQueue) : State :=
  s.modWorld w fun x => { x with rq := vmod x.rq q f }

/-- A message arrives in a receive queue, stamped at the present tick; a context that receives in the queue's slot becomes
READY unless its deadline has passed. -/
def State.msgArrive (s : State) (w : Fin 2) (q : Fin 16) (word : Word) : State :=
  let r := s.worlds[w].rq[q]
  if !r.en || decide (64 ≤ r.entries.length) then s.modRq w q fun r => { r with dropped := satInc r.dropped }
  else
    let s := s.modRq w q fun r => { r with entries := r.entries ++ [(s.now, word)] }
    let x := s.slot r.core r.slot
    let s := match x.state, x.block with
      | .receiving, some (.recv d) => if atOrBefore s.now d then s.makeReady r.core r.slot else s
      | _, _ => s
    if r.lev then s.raise r.line.toFin else s

/-- The physical address at which a landing writes an intermediate address: mapped writable in the world's stage 2. (DEDUCED, log 111) -/
def State.landSpot (s : State) (w : Fin 2) (ia : Nat) : Option Nat :=
  match stage2 s w ia with
  | .ok (e, _) => if (permCheck 2 false .write e).isSome || pteSE e then none else some (leafOut e ia)
  | .error _ => none

/-- Whether a run of intermediate addresses is mapped writable, page by page. (DEDUCED, log 111) -/
def State.landMapped (s : State) (w : Fin 2) (stop : Nat) : Nat → Nat → Bool
  | 0, ia => decide (stop ≤ ia)
  | n + 1, ia =>
    if stop ≤ ia then true
    else match stage2 s w ia with
      | .ok (e, _) =>
        (s.landSpot w ia).isSome && State.landMapped s w stop n ((ia / 2 ^ pteS e + 1) * 2 ^ pteS e)
      | .error _ => false

/-- Apply a function to a landing ring. -/
def State.modLr (s : State) (w : Fin 2) (k : Fin 8) (f : LandRing → LandRing) : State :=
  s.modWorld w fun x => { x with lr := vmod x.lr k f }

/-- Write words at intermediate addresses; a word whose page is gone is not written. -/
def State.landWords (s : State) (w : Fin 2) (ia : Nat) : List Word → State
  | [] => s
  | v :: vs =>
    let s := match s.landSpot w ia with
      | some pa => s.agentWrite 12 pa v
      | none => s
    State.landWords s w (ia + 1) vs

/-- Words of a landing ring that a block may use: all but those from RD to WR while RD_EN = 1. -/
def LandRing.free (r : LandRing) : Nat :=
  let size := r.size.toNat
  if r.rdEn then size - (r.wr.toNat + size - r.rd.toNat % size) % size else size

/-- A bulk block lands in a ring, after a FILL run to the end where it would wrap, its HDR last; or it is refused whole
(R402). -/
def State.bulkLand (s : State) (w : Fin 2) (k : Fin 8) (ws : List Word) : Bool × State :=
  let r := s.worlds[w].lr[k]
  let size := r.size.toNat
  let (need, stop) := placeRing size r.wr.toNat [ws.length]
  let base := r.base.toNat
  if !r.en || decide (size < ws.length) || decide (r.free < need) || ws.isEmpty then
    (false, s.modLr w k fun r => { r with refused := satInc r.refused })
  else
    let wrap := decide (size < r.wr.toNat + ws.length)
    let s := if wrap && decide (r.wr.toNat < size) then
        s.landWords w (base + r.wr.toNat) [Word.fill (BitVec.ofNat 64 (size - r.wr.toNat))]
      else s
    let start := base + if wrap then 0 else r.wr.toNat
    let s := (s.landWords w (start + 1) ws.tail).landWords w start (ws.take 1)
    let s := s.modLr w k fun r => { r with wr := BitVec.ofNat 24 (stop % size), seq := r.seq + 1 }
    (true, if r.lev then s.raise r.line.toFin else s)

/-- A packet for this device. -/
def State.kmDeliver (s : State) : PktBody → State
  | .trigger w a t _ => s.trigArrive w a t
  | .message w q v => s.msgArrive w q v
  | .bulk w k ws =>
    let (ok, s) := s.bulkLand w k ws
    s.emit (.landed w k ok)

/-- Send a packet on a port. It stays in the retry buffer until it is acknowledged. (DEDUCED, log 107) -/
def State.kmSend (s : State) (p : Fin 8) (upper : Bool) (pkt : Packet) : State :=
  let vc : Fin 4 := match pkt.body, upper with
    | .bulk _ _ _, true => 3
    | .bulk _ _ _, false => 2
    | _, true => 1
    | _, false => 0
  (s.modKm p fun k => { k with retryBuf := k.retryBuf ++ [pkt] }).emit (.packet p vc pkt)

/-- A routed packet goes on from this device: delivered, sent, or discarded and counted in NOROUTE. -/
def State.kmForward (s : State) (via : Option (Fin 8)) (pkt : Packet) : State :=
  match s.km.route via pkt.origin pkt.dest with
  | .deliver => s.kmDeliver pkt.body
  | .out p upper => if s.km.ports[p].trained then s.kmSend p upper pkt else s.noRoute
  | .none_ => s.noRoute

/-- A broadcast trigger leaves on every trained port but one. (DEDUCED, log 109) -/
def State.kmFlood (s : State) (but : Option (Fin 8)) (pkt : Packet) : State :=
  (List.finRange 8).foldl (fun (s : State) p =>
    if s.km.ports[p].trained && some p != but then s.kmSend p false pkt else s) s

/-- The records of a flood younger than 1 ms, and whether a copy is new here. -/
def floodNew (held : List (BitVec 12 × BitVec 16 × BitVec 64)) (me : BitVec 12) (now : BitVec 64) (o : BitVec 12)
    (q : BitVec 16) : Bool × List (BitVec 12 × BitVec 16 × BitVec 64) :=
  let young := held.filter fun e => decide ((now - e.2.2).toNat < 1000000)
  if o == me || young.any (fun e => e.1 == o && e.2.1 == q) then (false, young) else (true, (o, q, now) :: young)

/-! ### Ports (R386, R387, R393 to R395) -/

/-- Send a link-state notice on every trained port but one. -/
def State.sendNotice (s : State) (but : Option (Fin 8)) (d : BitVec 12) (p : Fin 8) (up : Bool) : State :=
  (List.finRange 8).foldl (fun (s : State) q =>
    if s.km.ports[q].trained && some q != but then s.emit (.notice q d p up) else s) s

/-- Keep the state of a link. -/
def State.noteLink (s : State) (d : BitVec 12) (p : Fin 8) (up : Bool) : State :=
  { s with km := { s.km with links := (d, p, up) :: s.km.links.filter fun e => !(e.1 == d && e.2.1 == p) } }

/-- A trained link goes down: a loss sets DOWN, counts and raises line 252 (R394); a requested retrain does not (R392). The
packets of its retry buffer that were not acknowledged are routed again; how many of the oldest were, the spec leaves to the
link. (DESIGN CHOICE, log 108; DESIGN CHOICE, log 110) -/
def State.kmDown (s : State) (p : Fin 8) (loss : Bool) : State :=
  let k := s.km.ports[p]
  if !k.trained then s
  else
    let (f, s) := drawFree s
    let again := k.retryBuf.drop (f.toNat % (k.retryBuf.length + 1))
    let s := s.modKm p fun k =>
      { k with trained := false, retryBuf := [], down := k.down || loss, downs := if loss then satInc k.downs else k.downs }
    let s := { s with imt := { s.imt with kmDelay := vmod s.imt.kmDelay p fun d => { d with valid := false } } }
    let s := (s.noteLink s.km.id p false).sendNotice none s.km.id p false
    let s := if loss then (s.raise 252).event 6 2 p.val [] else s.event 6 3 p.val []
    again.foldl (fun (s : State) pkt =>
      match pkt.body with
      | .trigger _ _ _ (some _) => s
      | _ => s.kmForward none pkt) s

/-! ### The routing table (R392) -/

/-- Whether a routing table waits whose frame boundary has come. -/
def State.routeDue (s : State) : Bool :=
  match s.km.routeAt with
  | some t => decide ((boundaryAfter t).toNat ≤ s.now.toNat)
  | none => false

/-- The new routing takes effect: ROUTED is set where a table was loaded, and the ports named in RETRAIN go down for a retrain. -/
def State.routeApply (s : State) : State :=
  let k := s.km
  let s := { s with km := { k with ashape := k.shape, aovr := k.ovr, routed := k.routed || k.tableIn, routeAt := none
                                   tableIn := false, retrain := 0 } }
  (List.finRange 8).foldl (fun (s : State) p => if bit k.retrain p.val then s.kmDown p false else s) s

/-- From its boundary on, everything finds the new routing in effect. (DEDUCED, log 160) -/
def State.kmSettle (s : State) : State := if s.routeDue then s.routeApply else s

/-- A packet that this device originates (R392). -/
def State.kmOriginate (s : State) (dest : BitVec 12) (body : PktBody) : State :=
  let s := s.kmSettle
  if s.km.carries then s.kmForward none ⟨s.km.id, dest, body⟩ else s.noRoute

/-- KTRIG with BCAST: the trigger is flooded to every device but this one. (DEDUCED, log 109) -/
def State.kmBroadcast (s : State) (w : Fin 2) (action : Word) (target : BitVec 64) : State :=
  let s := s.kmSettle
  if s.km.carries then
    let q := s.km.trigSeq + 1
    ({ s with km := { s.km with trigSeq := q } }).kmFlood none ⟨s.km.id, 0, .trigger w action target (some q)⟩
  else s.noRoute

/-! ### Training and packets (R387, R393, R394) -/

/-- KAMION_TRAIN: an enabled port trains with a far end of the same generation; with its own id at the far end it does not,
and that counts in DOWNS. -/
def execKamionTrain (p : Fin 8) (f : TrainFrame) (s : State) : Host.Outcome State Fault Refusal :=
  let k := s.km.ports[p]
  ok (if !(s.kmFitted p && s.domOn (128 + p.val) && k.en && !k.trained && k.gen2 == f.gen2) then s
    else if f.id = s.km.id then s.modKm p fun k => { k with downs := satInc k.downs }
    else
      let s := s.modKm p fun k =>
        { k with trained := true, runGen2 := k.gen2, runProto2 := k.proto2 && f.proto2, nbrId := f.id, nbrPort := f.port
                 retryBuf := [] }
      let s := { s with imt := { s.imt with kmDelay := vmod s.imt.kmDelay p fun d => { d with valid := false } } }
      ((s.noteLink s.km.id p true).sendNotice (some p) s.km.id p true).event 6 1 p.val [])

/-- KAMION_LINK_DOWN: block lock is lost for 1 µs on a lane of a trained link. -/
def execKamionLinkDown (p : Fin 8) (s : State) : Host.Outcome State Fault Refusal := ok (s.kmDown p true)

/-- POISON with origin KAMION (R25, R394). -/
def poisonKamion : Word := ⟨0xFE#8, 0x05#64⟩

/-- A received packet that passes: delivered, forwarded, or discarded by R392. -/
def State.kmAccept (s : State) (p : Fin 8) (pkt : Packet) : State :=
  let flood := match pkt.body with
    | .trigger _ _ _ b => b
    | _ => none
  if !s.km.carries then
    if pkt.dest == s.km.id || flood.isSome then { s with km := { s.km with unconf := satInc s.km.unconf } } else s
  else match flood with
    | none => s.kmForward (some p) pkt
    | some q =>
      let (new, held) := floodNew s.km.floods s.km.id s.now pkt.origin q
      let s := { s with km := { s.km with floods := held } }
      if new then (s.kmDeliver pkt.body).kmFlood (some p) pkt else s

/-- Add retries to a port's count, saturating. -/
def KmPort.retried (k : KmPort) (n : Nat) : KmPort :=
  { k with retries := BitVec.ofNat 16 (min (k.retries.toNat + n) 65535) }

/-- KAMION_PACKET_ROUTE: a routed packet arrives on a trained port, after the retries of R393. -/
def execKamionPacketRoute (p : Fin 8) (pkt : Packet) (crc : CrcResult) (s : State) : Host.Outcome State Fault Refusal :=
  let s := s.kmSettle
  let k := s.km.ports[p]
  let tried (n : Nat) : State := s.modKm p fun k => k.retried (min n 8)
  ok (if !k.trained then s
    else match crc, pkt.body with
      | .good n, _ => (tried n).kmAccept p pkt
      | .payloadBad, .bulk w r ws =>
        if k.runProto2 then
          let s := (tried 8).modKm p fun k =>
            { k with poisoned := BitVec.ofNat 16 (min (k.poisoned.toNat + ws.length) 65535) }
          s.kmAccept p { pkt with body := .bulk w r (ws.map fun _ => poisonKamion) }
        else (tried 8).kmDown p true
      | _, _ => (tried 8).kmDown p true)

/-- LINK_STATE_NOTICE: a notice not seen before updates the state of the link and is sent on. -/
def execLinkStateNotice (p : Fin 8) (dev : BitVec 12) (port : Fin 8) (up : Bool) (s : State) :
    Host.Outcome State Fault Refusal :=
  ok (if !s.km.ports[p].trained || dev == s.km.id || s.km.links.contains (dev, port, up) then s
    else (s.noteLink dev port up).sendNotice (some p) dev port up)

/-! ### Abort votes (R396) -/

/-- ABORT_VOTE_RECEIVE: a vote whose CRC passes is taken once, forwarded on every other trained port, and acted on with
ACCEPT = 1. -/
def execAbortVoteReceive (p : Fin 8) (origin : BitVec 12) (seq : BitVec 16) (s : State) :
    Host.Outcome State Fault Refusal :=
  let (new, held) := floodNew s.km.votes s.km.id s.now origin seq
  ok (if !s.km.ports[p].trained || !new then s
    else
      let s := { s with km := { s.km with votes := held, abOrigin := origin, abSeq := seq, abStamp := s.now } }
      let s := (List.finRange 8).foldl (fun (s : State) q =>
        if s.km.ports[q].trained && q != p then (s.emit (.vote q origin seq)).emit (.vote q origin seq) else s) s
      if s.km.accept then
        let s := { s with safe := { s.safe with mute := true, abortOut := s.safe.abortOut || s.km.aout }
                          km := { s.km with aborts := satInc s.km.aborts } }
        s.muteLanes.guardAbort 4
      else s)

/-! ### Registers (Table 17-5) -/

/-- A register of the KM block. -/
inductive KmReg where
  | cfg (p : Fin 8)
  | status (p : Fin 8)
  | err (p : Fin 8)
  | id | shape | abcfg | ablast | abstamp | counts
  | ovr (k : Fin 64)
  | rq (w : Fin 2) (q : Fin 16)
  | dmasrc (w : Fin 2)
  | dmactl (w : Fin 2)
  | dmastat (w : Fin 2)
  | lrBase (w : Fin 2) (k : Fin 8)
  | lrWr (w : Fin 2) (k : Fin 8)
  | lrRd (w : Fin 2) (k : Fin 8)
  | lrLine (w : Fin 2) (k : Fin 8)
deriving DecidableEq, Repr

/-- The register at a word offset. -/
def kmReg (off : Nat) : Option KmReg :=
  match inRange off 0x2000 0x200 2 with
  | some (w, o) =>
    let w := idx 2 w
    if o < 16 then some (.rq w (idx 16 o))
    else if o = 0x40 then some (.dmasrc w)
    else if o = 0x41 then some (.dmactl w)
    else if o = 0x42 then some (.dmastat w)
    else match inRange o 0x50 4 8 with
      | some (k, 0) => some (.lrBase w (idx 8 k))
      | some (k, 1) => some (.lrWr w (idx 8 k))
      | some (k, 2) => some (.lrRd w (idx 8 k))
      | some (k, 3) => some (.lrLine w (idx 8 k))
      | _ => none
  | none =>
    match inRange off 0 0x100 8 with
    | some (p, 0) => some (.cfg (idx 8 p))
    | some (p, 1) => some (.status (idx 8 p))
    | some (p, 2) => some (.err (idx 8 p))
    | some _ => none
    | none =>
      match inRange off 0x1040 1 64 with
      | some (k, _) => some (.ovr (idx 64 k))
      | none =>
        match off with
        | 0x1000 => some .id
        | 0x1001 => some .shape
        | 0x1002 => some .abcfg
        | 0x1003 => some .ablast
        | 0x1004 => some .abstamp
        | 0x1005 => some .counts
        | _ => none

/-- The unit of a register: a port, 16 + w, or the block as a whole (R404). -/
def KmReg.unit : KmReg → Option Nat
  | .cfg p => some p.val
  | .status p => some p.val
  | .err p => some p.val
  | .rq w _ => some (16 + w.val)
  | .dmasrc w => some (16 + w.val)
  | .dmactl w => some (16 + w.val)
  | .dmastat w => some (16 + w.val)
  | .lrBase w _ => some (16 + w.val)
  | .lrWr w _ => some (16 + w.val)
  | .lrRd w _ => some (16 + w.val)
  | .lrLine w _ => some (16 + w.val)
  | _ => none

/-- KMp_STATUS as read. -/
def KmPort.statusBits (k : KmPort) : BitVec 64 :=
  fbit 0 k.trained ||| fbit 1 k.runGen2 ||| fbit 2 k.runProto2 ||| put 3 k.nbrId ||| put 15 k.nbrPort ||| fbit 18 k.down

/-- KM_OVRk as read. -/
def KmOvr.bits (o : KmOvr) : BitVec 64 := put 0 o.dest ||| put 12 o.port ||| fbit 15 o.valid
/-- An override from its image. -/
def KmOvr.ofBits (v : BitVec 64) : KmOvr := { dest := fld v 0 12, port := fld v 12 3, valid := bit v 15 }

/-- KM_Ww_RQq as read. -/
def RecvQueue.bits (r : RecvQueue) : BitVec 64 :=
  putN 0 r.core.val ||| putN 5 r.slot.val ||| fbit 11 r.en ||| put 12 r.line ||| fbit 20 r.lev |||
  putN 21 r.entries.length ||| put 28 r.dropped

/-- A load of a register of the KM block. -/
def State.kmLoad (s : State) (r : KmReg) : RegLd :=
  let k := s.km
  match r with
  | .cfg p =>
    let x := k.ports[p]
    s.unitLoad (s.kmPresence p) (ldRaw s (fbit 0 x.en ||| fbit 1 x.gen2 ||| fbit 2 x.proto2))
  | .status p => s.unitLoad (s.kmPresence p) (ldRaw s k.ports[p].statusBits)
  | .err p =>
    let x := k.ports[p]
    s.unitLoad (s.kmPresence p) (ldRaw s (put 0 x.retries ||| put 16 x.poisoned ||| put 32 x.downs))
  | .id => ldRaw s (put 0 k.id ||| fbit 12 k.confirmed ||| fbit 13 k.routed)
  | .shape => ldRaw s k.shape
  | .abcfg => ldRaw s (fbit 0 k.accept ||| fbit 1 k.aout)
  | .ablast => ldRaw s (put 0 k.abOrigin ||| put 12 k.abSeq)
  | .abstamp => ldRaw s k.abStamp
  | .counts => ldRaw s (put 0 k.noroute ||| put 16 k.unconf ||| put 32 k.aborts)
  | .ovr i => ldRaw s k.ovr[i].bits
  | .rq w q => ldRaw s s.worlds[w].rq[q].bits
  | .dmasrc w => .ok (s.worlds[w].dmaSrc, s)
  | .dmactl w =>
    let x := s.worlds[w]
    ldRaw s (put 0 x.dmaDev ||| put 12 x.dmaRing ||| putN 16 x.dmaJobs.length ||| fbit 21 x.dmaRefused |||
      put 22 x.dmaLine ||| fbit 30 x.dmaLev)
  | .dmastat w => ldRaw s (put 0 s.worlds[w].dmaDone ||| put 32 s.worlds[w].dmaLastErr)
  | .lrBase w i => let x := s.worlds[w].lr[i]; ldRaw s (put 0 x.base ||| put 40 x.size)
  | .lrWr w i => let x := s.worlds[w].lr[i]; ldRaw s (put 0 x.wr ||| put 32 x.seq)
  | .lrRd w i => let x := s.worlds[w].lr[i]; ldRaw s (put 0 x.rd ||| fbit 24 x.rdEn ||| fbit 25 x.en)
  | .lrLine w i => let x := s.worlds[w].lr[i]; ldRaw s (put 0 x.line ||| fbit 8 x.lev ||| put 16 x.refused)

/-- KMp_CFG written by Favar; disabling a trained port takes its link down (R394). -/
def State.kmCfg (s : State) (p : Fin 8) (en gen2 proto2 : Bool) : State :=
  let s := s.modKm p fun k => { k with en := en, gen2 := gen2, proto2 := proto2 }
  if en then s else s.kmDown p true

/-- GO: the job is queued with what DMASRC holds; while 16 are queued it is ignored and REFUSED is set (R401). -/
def State.dmaGo (s : State) (w : Fin 2) : State :=
  s.modWorld w fun x =>
    if 16 ≤ x.dmaJobs.length then { x with dmaRefused := true }
    else { x with dmaJobs := x.dmaJobs ++ [{ src := x.dmaSrc, dev := x.dmaDev, ring := x.dmaRing.toFin }] }

/-- KM_Ww_LRk_RD written; setting EN checks that the whole ring is mapped writable (R402). -/
def State.lrStore (s : State) (w : Fin 2) (k : Fin 8) (v : BitVec 64) : State :=
  let r := s.worlds[w].lr[k]
  let good := !(bit v 25) || r.en ||
    s.landMapped w (r.base.toNat + r.size.toNat) (r.size.toNat / 512 + 2) r.base.toNat
  s.modLr w k fun r =>
    { r with rd := fld v 0 24, rdEn := bit v 24, en := bit v 25 && good
             refused := if good then r.refused else satInc r.refused }

/-- A store of a word to a register of the KM block. -/
def State.kmStore (s : State) (a : Who) (r : KmReg) (x : Word) : RegSt :=
  let v := x.datum
  let k := s.km
  match r with
  | .cfg p => s.unitStore (s.kmPresence p) (a.rwf s (s.kmCfg p (bit v 0) (bit v 1) (bit v 2)))
  | .status p => s.unitStore (s.kmPresence p) (.ok (s.modKm p fun k => { k with down := w1c k.down v 18 }))
  | .err p => s.unitStore (s.kmPresence p) (.ok s)
  | .shape =>
    let t := s.kmSettle
    a.rwf s { t with km := { t.km with shape := v &&& 0xFFFFFF7FFF, routeAt := some s.now } }
  | .ovr i =>
    let t := s.kmSettle
    a.rwf s { t with km := { t.km with ovr := vset t.km.ovr i (KmOvr.ofBits v), routeAt := some s.now } }
  | .abcfg =>
    let s1 := { s with km := { k with accept := bit v 0, aout := bit v 1 } }
    a.rwg (bit v 0 != k.accept || bit v 1 != k.aout || bit v 2) (if bit v 2 then s1.sendVote else s1) s
  | .rq w q => .ok (s.modRq w q fun r =>
      { r with core := (fld v 0 5).toFin, slot := (fld v 5 6).toFin, en := bit v 11, line := fld v 12 8, lev := bit v 20 })
  | .dmasrc w => .ok (if isPtrTag x.tag then s.modWorld w fun y => { y with dmaSrc := x } else s)
  | .dmactl w =>
    let s := s.modWorld w fun y =>
      { y with dmaDev := fld v 0 12, dmaRing := fld v 12 3, dmaRefused := w1c y.dmaRefused v 21, dmaLine := fld v 22 8
               dmaLev := bit v 30 }
    .ok (if bit v 15 then s.dmaGo w else s)
  | .lrBase w i => .ok (s.modLr w i fun r => { r with base := fld v 0 40, size := fld v 40 24 })
  | .lrRd w i => .ok (s.lrStore w i v)
  | .lrLine w i => .ok (s.modLr w i fun r => { r with line := fld v 0 8, lev := bit v 8 })
  | _ => .ok s

/-- The row of a store to a KM register, made only when the bits that select the row are written. -/
def State.kmRow (s : State) (a : Agent) (r : KmReg) (v : BitVec 64) (on : Bool) : State :=
  if on then s.rowStore a 7 r.unit fun w s => s.kmStore w r (Word.raw v) else s

/-- KM_ABORT_SEND: SEND = 1 originates a vote (R396). -/
def execKmAbortSend (a : Agent) (v : BitVec 64) (s : State) : Host.Outcome State Fault Refusal :=
  ok (s.kmRow a .abcfg v (bit v 2))

/-- KM_DMA_GO. -/
def execKmDmaGo (a : Agent) (w : Fin 2) (v : BitVec 64) (s : State) : Host.Outcome State Fault Refusal :=
  ok (s.kmRow a (.dmactl w) v (bit v 15))

/-- KM_LANDING_ENABLE. -/
def execKmLandingEnable (a : Agent) (w : Fin 2) (k : Fin 8) (v : BitVec 64) (s : State) :
    Host.Outcome State Fault Refusal :=
  ok (s.kmRow a (.lrRd w k) v (bit v 25))

/-- ROUTING_TABLE_APPLY: at the first frame boundary after the write the new routing takes effect, ROUTED is set, and the
ports named in RETRAIN go down for a retrain (R392). -/
def execRoutingTableApply (s : State) : Host.Outcome State Fault Refusal := ok s.kmSettle

/-- MESSAGE_ARRIVAL: a message for this device arrives (R400); until routing is confirmed it counts in UNCONF. -/
def execMessageArrival (_origin : BitVec 12) (w : Fin 2) (q : Fin 16) (word : Word) (s : State) :
    Host.Outcome State Fault Refusal :=
  let s := s.kmSettle
  ok (if !s.alive then s
    else if s.km.carries then s.msgArrive w q word
    else { s with km := { s.km with unconf := satInc s.km.unconf } })

/-- BULK_LANDING: a bulk block for this device arrives (R402). -/
def execBulkLanding (w : Fin 2) (ring : Fin 8) (ws : List Word) (s : State) : Host.Outcome State Fault Refusal :=
  let s := s.kmSettle
  ok (if !s.alive then s
    else if s.km.carries then s.kmDeliver (.bulk w ring ws)
    else { s with km := { s.km with unconf := satInc s.km.unconf } })

/-- TRIGGER_ARRIVAL: a trigger for this device arrives (R292). -/
def execTriggerArrival (_origin : BitVec 12) (w : Fin 2) (action : Word) (target : BitVec 64) (s : State) :
    Host.Outcome State Fault Refusal :=
  let s := s.kmSettle
  ok (if !s.alive then s
    else if s.km.carries then s.trigArrive w action target
    else { s with km := { s.km with unconf := satInc s.km.unconf } })

/-! ### The bulk engine (R401) -/

/-- The physical addresses of words from an address of a world, through both stages. -/
def State.dmaSpots (s : State) (w : Fin 2) : Nat → Nat → Except TrFault (List Nat)
  | 0, _ => .ok []
  | n + 1, va =>
    match translateWalk s w false {} .read (BitVec.ofNat 48 va) with
    | .error f => .error f
    | .ok (t, _) =>
      match State.dmaSpots s w n (va + 1) with
      | .error f => .error f
      | .ok l => .ok (t.pa.toNat :: l)

/-- What the engine reads at a physical address: in the cut-list memory only the world's own regions (R287). -/
def State.dmaWord (s : State) (w : Fin 2) (pa : Nat) : Word := if s.cutHidden w pa then Word.nil else s.agentPeek 12 pa

/-- Words from an address of a world. -/
def State.dmaWords (s : State) (w : Fin 2) (n va : Nat) : Option (List Word) :=
  match s.dmaSpots w n va with
  | .error _ => none
  | .ok l => some (l.map (s.dmaWord w))

/-- What the engine reads for a job: the header and the LENGTH words, or an error of Table 17-4. -/
def State.dmaSource (s : State) (w : Fin 2) (j : DmaJob) : Except (BitVec 4) (List Word) :=
  if j.src.tag ≠ 0x46 ∨ malformed j.src = true then .error 1
  else
    let va := j.src.datum.toNat
    match s.dmaWords w 1 va with
    | some [h] =>
      if h.tag ≠ 0x80 ∨ hdrKind h ≠ 0x07 then .error 1
      else match s.dmaWords w (hdrLen h + 1) va with
        | some ws => .ok ws
        | none => .error 2
    | _ => .error 2

/-- What reading the source of a job does beside: the reads at the ports, and the count of a stage-2 fault that ends it (R226). -/
def State.noteSource (s : State) (w : Fin 2) (j : DmaJob) : State :=
  if j.src.tag ≠ 0x46 ∨ malformed j.src = true then s
  else
    let va := j.src.datum.toNat
    let note (n : Nat) : State :=
      match s.dmaSpots w n va with
      | .error f => s.countStage2 w f
      | .ok l => l.foldl (fun (s : State) a => s.noteRead 12 a) s
    match s.dmaWords w 1 va with
    | some [h] => if h.tag ≠ 0x80 ∨ hdrKind h ≠ 0x07 then note 1 else note (hdrLen h + 1)
    | _ => note 1

/-- The head job of a world replaced. -/
def State.setJob (s : State) (w : Fin 2) (j : DmaJob) : State :=
  s.modWorld w fun x => { x with dmaJobs := j :: x.dmaJobs.tail }

/-- KM_DMA_JOB: the engine takes the head job: it reads the block and sends it, or the job is to end with an error. A block
for this device lands at once. -/
def execKmDmaJob (w : Fin 2) (s : State) (ecc : Ecc := []) : Host.Outcome State Fault Refusal :=
  let s := (s.memErrs ecc).kmSettle
  ok (match s.worlds[w].dmaJobs with
    | [] => s
    | j :: _ =>
      if j.sent || j.ended || !s.alive then s
      else
        let found := s.dmaSource w j
        let s := s.noteSource w j
        match found with
        | .error e => s.setJob w { j with ended := true, error := e }
        | .ok ws =>
          let r := s.km.route none s.km.id j.dev
          if !s.km.carries then s.noRoute.setJob w { j with ended := true, error := 3 }
          else match r with
            | .deliver =>
              let (taken, s) := s.bulkLand w j.ring ws
              s.setJob w { j with sent := true, ended := true, error := if taken then 0 else 4 }
            | .out p up =>
              if s.km.ports[p].trained then
                (s.kmSend p up ⟨s.km.id, j.dev, .bulk w j.ring ws⟩).setJob w { j with sent := true, sentAt := s.now }
              else s.noRoute.setJob w { j with ended := true, error := 3 }
            | .none_ => s.noRoute.setJob w { j with ended := true, error := 3 })

/-- The head job ends: DONE, LASTERR, and the completion line. -/
def State.dmaEnd (s : State) (w : Fin 2) (e : BitVec 4) : State :=
  let x := s.worlds[w]
  let s := s.modWorld w fun x => { x with dmaJobs := x.dmaJobs.tail, dmaDone := x.dmaDone + 1, dmaLastErr := e }
  if x.dmaLev then s.raise x.dmaLine.toFin else s

/-- KM_DMA_JOB_END: the destination acknowledges the block, or refuses it, or the job has met an error. -/
def execKmDmaJobEnd (w : Fin 2) (refused : Bool) (s : State) : Host.Outcome State Fault Refusal :=
  ok (match s.worlds[w].dmaJobs with
    | [] => s
    | j :: _ =>
      if j.ended then s.dmaEnd w j.error else if j.sent then s.dmaEnd w (if refused then 4 else 0) else s)

/-- KM_DMA_LOST_TIMEOUT: no acknowledgement within 1 ms of the last packet. -/
def execKmDmaLostTimeout (w : Fin 2) (s : State) : Host.Outcome State Fault Refusal :=
  ok (match s.worlds[w].dmaJobs with
    | [] => s
    | j :: _ => if j.sent && !j.ended && decide (1000000 ≤ (s.now - j.sentAt).toNat) then s.dmaEnd w 5 else s)

/-- A warm restart discards the receive queues' contents and ends every queued job with RESTART, raising no line (R403). -/
def State.kmWarm (s : State) : State :=
  { s with worlds := s.worlds.map fun (x : World) =>
      { x with rq := x.rq.map fun (r : RecvQueue) => { r with entries := [] }
               dmaDone := x.dmaDone + BitVec.ofNat 32 x.dmaJobs.length
               dmaLastErr := if x.dmaJobs.isEmpty then x.dmaLastErr else 6
               dmaJobs := [] } }

end Sys2Proof.Machine
end

