-- ==== Sys2Proof/Machine/Num.lean ====
section
/-! DEFINITION. Generic arithmetic as pure functions of operand values: result classes, kinds and dimensions, ranges and
comparisons (R34 to R56, Tables 03-1 to 03-10). Reading operands out of the heap and allocating results stand elsewhere. -/

namespace Sys2Proof.Machine

open Sys2Proof

/-- Dimension exponents and kind (0 plain, 1 point, 2 level, 3 reserved). -/
structure Dim where
  s : Int := 0
  m : Int := 0
  kg : Int := 0
  a : Int := 0
  k : Int := 0
  mol : Int := 0
  cd : Int := 0
  kind : Nat := 0
deriving DecidableEq, Repr

/-- Whether the seven exponents of two dimensions agree. -/
def Dim.same (x y : Dim) : Bool :=
  x.s == y.s && x.m == y.m && x.kg == y.kg && x.a == y.a && x.k == y.k && x.mol == y.mol && x.cd == y.cd

/-- Whether all seven exponents are zero. -/
def Dim.zero (x : Dim) : Bool := x.same {}

/-- Exponents added (Table 03-7, add), with kind plain. -/
def Dim.add (x y : Dim) : Dim :=
  ⟨x.s + y.s, x.m + y.m, x.kg + y.kg, x.a + y.a, x.k + y.k, x.mol + y.mol, x.cd + y.cd, 0⟩

/-- Exponents subtracted (Table 03-7, sub), with kind plain. -/
def Dim.sub (x y : Dim) : Dim :=
  ⟨x.s - y.s, x.m - y.m, x.kg - y.kg, x.a - y.a, x.k - y.k, x.mol - y.mol, x.cd - y.cd, 0⟩

/-- Whether every exponent lies in [-lo, hi]. -/
def Dim.within (x : Dim) (lo hi : Int) : Bool :=
  [x.s, x.m, x.kg, x.a, x.k, x.mol, x.cd].all fun e => decide (-lo ≤ e) && decide (e ≤ hi)

/-- Whether the exponents fit a QTY (R47). -/
def Dim.narrow (x : Dim) : Bool := x.within 4 3
/-- Whether the exponents fit the wide dimension word (R48). -/
def Dim.wide (x : Dim) : Bool := x.within 128 127

/-- The dimension and kind of a QTY datum (Table 02-4). -/
def Dim.ofQty (d : BitVec 64) : Dim :=
  ⟨(fld d 21 3).toInt, (fld d 18 3).toInt, (fld d 15 3).toInt, (fld d 12 3).toInt, (fld d 9 3).toInt, (fld d 6 3).toInt,
    (fld d 3 3).toInt, (fld d 1 2).toNat⟩

/-- Bits [23:0] of a QTY datum. -/
def Dim.toQty (x : Dim) : BitVec 64 :=
  put 21 (BitVec.ofInt 3 x.s) ||| put 18 (BitVec.ofInt 3 x.m) ||| put 15 (BitVec.ofInt 3 x.kg) |||
  put 12 (BitVec.ofInt 3 x.a) ||| put 9 (BitVec.ofInt 3 x.k) ||| put 6 (BitVec.ofInt 3 x.mol) |||
  put 3 (BitVec.ofInt 3 x.cd) ||| put 1 (BitVec.ofNat 2 x.kind)

/-- The dimension and kind of a wide dimension word (Table 03-9). -/
def Dim.ofWide (d : BitVec 64) : Dim :=
  ⟨(fld d 48 8).toInt, (fld d 40 8).toInt, (fld d 32 8).toInt, (fld d 24 8).toInt, (fld d 16 8).toInt, (fld d 8 8).toInt,
    (fld d 0 8).toInt, (fld d 56 2).toNat⟩

/-- A wide dimension word (Table 03-9). -/
def Dim.toWide (x : Dim) : BitVec 64 :=
  put 48 (BitVec.ofInt 8 x.s) ||| put 40 (BitVec.ofInt 8 x.m) ||| put 32 (BitVec.ofInt 8 x.kg) |||
  put 24 (BitVec.ofInt 8 x.a) ||| put 16 (BitVec.ofInt 8 x.k) ||| put 8 (BitVec.ofInt 8 x.mol) |||
  put 0 (BitVec.ofInt 8 x.cd) ||| put 56 (BitVec.ofNat 2 x.kind)

/-- An operand of a generic operator, as read: its word and its value. -/
inductive Val where
  | int (x : Int) (fix : Bool)
  | rat (x : Rat)
  | flt (v : FVal)
  | qty (wide : Bool) (v : FVal) (dim : Dim)
  | inst (t : Nat)
  | span (x : Int)
  | sblk
  | other
deriving DecidableEq, Repr

/-- An exact result, before it is rounded and placed in a word or an object. -/
inductive Res where
  | int (x : Int)
  | rat (x : Rat)
  | flt (bits : BitVec 64)
  | qty (boxed : Bool) (v : FVal) (dim : Dim)
  | inst (t : Nat)
  | span (x : Int)
deriving DecidableEq, Repr

/-- The generic operators with two operands that compute a value. -/
inductive Op2 where
  | add | sub | mul | div
deriving DecidableEq, Repr

/-- Lift a cause into the result of a check. -/
def orFail {α : Type} (ok : Bool) (c : Cause) (k : Except Cause α) : Except Cause α := if ok then k else .error c

/-- The rows of Table 03-8 for ADD, SUB, MUL and DIV: result dimension, or UNIT_KIND before UNIT_MISMATCH. -/
def combineDim (op : Op2) (x y : Dim) : Except Cause Dim :=
  match op, x.kind, y.kind with
  | .add, 0, 0 => orFail (x.same y) .unitMismatch (.ok { x with kind := 0 })
  | .sub, 0, 0 => orFail (x.same y) .unitMismatch (.ok { x with kind := 0 })
  | .mul, 0, 0 => .ok (x.add y)
  | .div, 0, 0 => .ok (x.sub y)
  | .add, 1, 0 => orFail (x.same y) .unitMismatch (.ok { x with kind := 1 })
  | .sub, 1, 0 => orFail (x.same y) .unitMismatch (.ok { x with kind := 1 })
  | .add, 0, 1 => orFail (x.same y) .unitMismatch (.ok { x with kind := 1 })
  | .sub, 1, 1 => orFail (x.same y) .unitMismatch (.ok { x with kind := 0 })
  | .add, 2, 0 => orFail y.zero .unitMismatch (.ok { x with kind := 2 })
  | .sub, 2, 0 => orFail y.zero .unitMismatch (.ok { x with kind := 2 })
  | .add, 0, 2 => orFail x.zero .unitMismatch (.ok { y with kind := 2 })
  | .sub, 2, 2 => orFail (x.same y) .unitMismatch (.ok {})
  | _, _, _ => .error .unitKind

/-- The CMP column of Table 03-8. -/
def compareDim (x y : Dim) : Except Cause Unit :=
  if x.kind = y.kind ∧ x.kind ≤ 2 then orFail (x.same y) .unitMismatch (.ok ()) else .error .unitKind

/-- The operation on exact float values. -/
def Op2.fval (op : Op2) (rm : BitVec 3) (a b : FVal) : FVal :=
  match op with
  | .add => a.add rm b
  | .sub => a.sub rm b
  | .mul => a.mul b
  | .div => a.div b

/-- A Number as an exact float value (R44). -/
def Val.exact : Val → FVal
  | .int x _ => .ofRat x
  | .rat x => .ofRat x
  | .flt v => v
  | .qty _ v _ => v
  | _ => .fin false 0

/-- A Number converted to binary64 under STAT.RM, as an operand of a Float operation (R36). -/
def Val.asFlt (rm : BitVec 3) : Val → FVal
  | .flt v => v
  | v => ofF64 (toF64 rm v.exact)

/-- The dimension of an operand of a Quantity operation: a Number is dimensionless plain (R44). -/
def Val.dim : Val → Dim
  | .qty _ _ d => d
  | _ => {}

def Val.isWide : Val → Bool
  | .qty w _ _ => w
  | _ => false

/-- A Number: Integer, Ratio or Float. -/
def Val.isNumber : Val → Bool
  | .int _ _ => true
  | .rat _ => true
  | .flt _ => true
  | _ => false

def Val.isQty : Val → Bool
  | .qty _ _ _ => true
  | _ => false

/-- The range of a Quantity result's exponents: three bits for QTY operands (R47), eight with a WQTY operand (R50). -/
def qtyRes (boxed : Bool) (v : FVal) (d : Dim) : Except Cause Res :=
  if boxed then orFail d.wide .unitRange (.ok (.qty true v d)) else orFail d.narrow .unitRange (.ok (.qty false v d))

/-- A span result in range (R53). -/
def spanRes (x : Int) : Except Cause Res :=
  orFail (decide (-(2 ^ 63) ≤ x) && decide (x < 2 ^ 63)) .unitRange (.ok (.span x))

/-- An instant result in range (R53). -/
def instRes (x : Int) : Except Cause Res :=
  orFail (decide (0 ≤ x) && decide (x < 2 ^ 64)) .unitRange (.ok (.inst x.toNat))

/-- A truncated quotient. -/
def tquo (a b : Int) : Int := Int.tdiv a b
/-- Its remainder, with the sign of the dividend. -/
def trem (a b : Int) : Int := Int.tmod a b

/-- Two Numbers of which one is a Float (R36). -/
def fltRes (op : Op2) (rm : BitVec 3) (a b : Val) : Res :=
  .flt (toF64 rm (op.fval rm (a.asFlt rm) (b.asFlt rm)))

/-- ADD, SUB, MUL on operands that are no SBLK (Tables 03-3 and 03-4). -/
def arith (op : Op2) (rm : BitVec 3) (a b : Val) : Except Cause Res :=
  match a, b with
  | .qty _ _ _, _ =>
    if b.isNumber || b.isQty then
      match combineDim op a.dim b.dim with
      | .error c => .error c
      | .ok d => qtyRes (a.isWide || b.isWide) (op.fval rm a.exact b.exact) d
    else .error .tagMismatch
  | _, .qty _ _ _ =>
    if a.isNumber then
      match combineDim op a.dim b.dim with
      | .error c => .error c
      | .ok d => qtyRes b.isWide (op.fval rm a.exact b.exact) d
    else .error .tagMismatch
  | .flt _, _ => if b.isNumber then .ok (fltRes op rm a b) else .error .tagMismatch
  | _, .flt _ => if a.isNumber then .ok (fltRes op rm a b) else .error .tagMismatch
  | .int x _, .int y _ =>
    match op with
    | .add => .ok (.int (x + y))
    | .sub => .ok (.int (x - y))
    | _ => .ok (.int (x * y))
  | .inst t, .inst u => match op with
    | .sub => spanRes ((t : Int) - u)
    | _ => .error .tagMismatch
  | .inst t, .span x => match op with
    | .add => instRes (t + x)
    | .sub => instRes (t - x)
    | _ => .error .tagMismatch
  | .span x, .inst t => match op with
    | .add => instRes (t + x)
    | _ => .error .tagMismatch
  | .span x, .span y => match op with
    | .add => spanRes (x + y)
    | .sub => spanRes (x - y)
    | _ => .error .tagMismatch
  | .span x, .int y fix => if op = .mul ∧ fix then spanRes (x * y) else .error .tagMismatch
  | .int x fix, .span y => if op = .mul ∧ fix then spanRes (x * y) else .error .tagMismatch
  | _, _ =>
    match ratOf a, ratOf b with
    | some x, some y =>
      match op with
      | .add => .ok (.rat (x + y))
      | .sub => .ok (.rat (x - y))
      | _ => .ok (.rat (x * y))
    | _, _ => .error .tagMismatch
where
  ratOf : Val → Option Rat
    | .int x _ => some x
    | .rat x => some x
    | _ => none

/-- DIV on operands that are no SBLK (Table 03-5): QUO and REM; none stands for CONST:NIL. -/
def divide (rm : BitVec 3) (a b : Val) : Except Cause (Res × Option Res) :=
  match a, b with
  | .qty _ _ _, _ =>
    match arith .div rm a b with
    | .error c => .error c
    | .ok r => .ok (r, none)
  | _, .qty _ _ _ =>
    match arith .div rm a b with
    | .error c => .error c
    | .ok r => .ok (r, none)
  | .flt _, _ => if b.isNumber then .ok (fltRes .div rm a b, none) else .error .tagMismatch
  | _, .flt _ => if a.isNumber then .ok (fltRes .div rm a b, none) else .error .tagMismatch
  | .int x _, .int y _ =>
    if y = 0 then .error .divZero else .ok (.int (tquo x y), some (.int (trem x y)))
  | .span x, .int y fix =>
    if fix then
      if y = 0 then .error .divZero
      else match spanRes (tquo x y) with
        | .error c => .error c
        | .ok q => .ok (q, some (.span (trem x y)))
    else .error .tagMismatch
  | .span x, .span y =>
    if y = 0 then .error .divZero else .ok (.int (tquo x y), some (.span (trem x y)))
  | _, _ =>
    match arith.ratOf a, arith.ratOf b with
    | some x, some y => if y = 0 then .error .divZero else .ok (.rat (x / y), some (.int 0))
    | _, _ => .error .tagMismatch

/-- LOGADD on two operands (R52); the value of two finite levels is the open value of Config. (DESIGN CHOICE, log 26) -/
def logaddVal (a b : Val) : Except Cause (Bool × FVal × Dim) :=
  match a, b with
  | .inst _, _ => .error .tagMismatch
  | .span _, _ => .error .tagMismatch
  | .sblk, _ => .error .tagMismatch
  | .other, _ => .error .tagMismatch
  | _, .inst _ => .error .tagMismatch
  | _, .span _ => .error .tagMismatch
  | _, .sblk => .error .tagMismatch
  | _, .other => .error .tagMismatch
  | .qty w x d, .qty v y e =>
    if d.kind = 2 ∧ e.kind = 2 then
      if d.same e then
        let r : FVal :=
          if x.isNan then x
          else if y.isNan then y
          else if x = .inf true then y
          else if y = .inf true then x
          else if x = .inf false ∨ y = .inf false then .inf false
          else .fin false 0
        .ok (w || v, r, d)
      else .error .unitMismatch
    else .error .unitKind
  | _, _ => .error .unitKind

/-- Whether LOGADD's value is the open one: both operands finite. (DESIGN CHOICE, log 26) -/
def logaddOpen (a b : FVal) : Bool := a.isFin && b.isFin

/-- NEG on an operand that is no SBLK (Table 03-6); Floats and QTY are handled by sign bit. (DEDUCED, log 27) -/
def negate (a : Val) : Except Cause Res :=
  match a with
  | .int x _ => .ok (.int (-x))
  | .rat x => .ok (.rat (-x))
  | .span x => spanRes (-x)
  | .qty w v d => if d.kind = 0 then .ok (.qty w v.neg d) else .error .unitKind
  | .flt v => .ok (.flt (toF64 0 v.neg))
  | _ => .error .tagMismatch

/-- The compares of the CMP family. -/
inductive Cmp where
  | eq | ne | lt | le | gt | ge
deriving DecidableEq, Repr

/-- Whether a compare asks for order. -/
def Cmp.ordered : Cmp → Bool
  | .eq => false
  | .ne => false
  | _ => true

/-- The result of a compare from an exact order; none is unordered (R55). -/
def Cmp.holds (c : Cmp) (o : Option Ordering) : Bool :=
  match c, o with
  | .eq, some .eq => true
  | .ne, some .eq => false
  | .ne, _ => true
  | .lt, some .lt => true
  | .le, some .lt => true
  | .le, some .eq => true
  | .gt, some .gt => true
  | .ge, some .gt => true
  | .ge, some .eq => true
  | _, _ => false

/-- Exact order of two integers. -/
def intOrd (x y : Int) : Ordering := if x < y then .lt else if x = y then .eq else .gt

/-- A class that compares only for equality by tag and datum (third row from the end of Table 03-10). (DEDUCED, log 28) -/
def eqOnly (w : Word) : Bool :=
  match clsOf w.tag with
  | .imm => true
  | .ptr => true
  | .sblk => true
  | _ => false

/-- A time word. -/
def isTime (w : Word) : Bool := w.tag == 0x04 || w.tag == 0x05

/-- A compare of two words with their values (Table 03-10). (DEDUCED, log 28) -/
def compareVals (c : Cmp) (wa wb : Word) (a b : Val) : Except Cause Bool :=
  if clsOf wa.tag = .mach ∨ clsOf wb.tag = .mach then .error .tagMismatch
  else if eqOnly wa || eqOnly wb then
    if c.ordered then .error .tagMismatch
    else .ok (if decide (wa = wb) then c == .eq else c == .ne)
  else if isTime wa || isTime wb then
    match a, b with
    | .inst t, .inst u => .ok (c.holds (some (intOrd t u)))
    | .span x, .span y => .ok (c.holds (some (intOrd x y)))
    | _, _ => .error .tagMismatch
  else if a.isQty || b.isQty then
    match compareDim a.dim b.dim with
    | .error e => .error e
    | .ok _ => .ok (c.holds (a.exact.cmp b.exact))
  else .ok (c.holds (a.exact.cmp b.exact))

end Sys2Proof.Machine
end

