-- ==== Sys2Proof/Machine/LatheCalc.lean ====
section
/-! DEFINITION. What a lathe computes: its reads, the check of a job, its units and shapes, the samples and the results (R324 to R335). -/

namespace Sys2Proof.Machine

open Sys2Proof

/-! ### Reads of a lathe -/

/-- Why a job cannot go on: its code of Table 14-6, with FADDR and FINFO of a fault. -/
abbrev LE := Except (Nat × Option (BitVec 48 × BitVec 64))

/-- A translation in the issuing world (Table 14-6, FAULT). -/
def State.latheXl (s : State) (j : LatheJob) (acc : Acc) (va : BitVec 48) : LE Nat :=
  match translateWalk s j.world j.user {} acc va with
  | .ok (t, _) => .ok t.pa.toNat
  | .error f => .error (7, some (va, f.finfo acc 0))

/-- The physical addresses of words of a job's world from an address. -/
def State.latheSpots (s : State) (j : LatheJob) : Nat → BitVec 48 → LE (List Nat)
  | 0, _ => .ok []
  | n + 1, va =>
    match s.latheXl j .read va with
    | .error e => .error e
    | .ok p =>
      match State.latheSpots s j n (va + 1) with
      | .error e => .error e
      | .ok l => .ok (p :: l)

/-- What a lathe reads at a physical address: in the cut-list memory only the world's own regions (R287). -/
def State.latheWord (s : State) (j : LatheJob) (pa : Nat) : Word := if s.cutHidden j.world pa then Word.nil else s.agentPeek 9 pa

/-- Words of a job's world from an address. -/
def State.latheWords (s : State) (j : LatheJob) (n : Nat) (va : BitVec 48) : LE (List Word) :=
  match s.latheSpots j n va with
  | .error e => .error e
  | .ok l => .ok (l.map (s.latheWord j))

/-- The header and fields 1 to 8 of an SBLK (Table 13-4, Table 14-1); the interval is in units of 2⁻¹⁶ ns. -/
structure Blk where
  va : BitVec 48
  len : Nat
  chan : Word
  count : Nat
  start : Word
  ivl : Int
  dim : Dim
  scale : FVal
  lstat : BitVec 64
  seq : Word
  empty : Bool
  poison : Option Word
  sound : Bool
  room : Nat

/-- Whether LSTAT tells of FP64 samples. -/
def Blk.f64 (b : Blk) : Bool := bit b.lstat 38
/-- FORM: 0 TIME, 1 SPEC, 2 CSPEC, 3 PV. -/
def Blk.form (b : Blk) : Nat := (fld b.lstat 39 3).toNat
/-- NLOG2. -/
def Blk.nlog2 (b : Blk) : Nat := (fld b.lstat 42 5).toNat
/-- PK16 samples. -/
def Blk.pk16 (b : Blk) : Bool := bit b.lstat 36
/-- Complex samples. -/
def Blk.cplx (b : Blk) : Bool := b.form == 2

/-- The sample words that a number of samples needs (R325). -/
def sampleWords (f64 cplx pk16 : Bool) (count : Nat) : Nat :=
  if f64 then (if cplx then 2 * count else count)
  else if cplx then count else if pk16 then cdiv count 4 else cdiv count 2

/-- A block from its header and fields 1 to 8. -/
def mkBlk (va : BitVec 48) (ws : List Word) : Blk :=
  let f (i : Nat) : Word := ws.getD i Word.nil
  let ls := (f 7).datum
  let b : Blk :=
    { va := va, len := hdrLen (f 0), chan := f 1, count := (f 2).datum.toInt.toNat, start := f 3
      ivl := (f 4).datum.toInt * 65536 + (fld ls 48 16).toNat, dim := Dim.ofWide (f 5).datum, scale := ofF64 (f 6).datum
      lstat := ls, seq := f 8, empty := f 7 == Word.empty, poison := ws.find? fun w => w.tag == 0xFE
      room := hdrLen (f 0) - 8
      sound := (f 0).tag == 0x80 && hdrKind (f 0) == 0x07 && (f 2).tag == 0x00 && (f 7).tag == 0x07 &&
        decide (1 ≤ (f 2).datum.toInt) }
  { b with sound := b.sound && decide (8 + sampleWords b.f64 b.cplx b.pk16 b.count ≤ b.len) }

/-- Read a block's header and fields. -/
def State.readBlk (s : State) (j : LatheJob) (va : BitVec 48) : LE Blk :=
  match s.latheWords j 9 va with
  | .error e => .error e
  | .ok ws => .ok (mkBlk va ws)

/-- Read several blocks. -/
def State.readBlks (s : State) (j : LatheJob) : List (BitVec 48) → LE (List Blk)
  | [] => .ok []
  | a :: r =>
    match s.readBlk j a with
    | .error e => .error e
    | .ok b =>
      match State.readBlks s j r with
      | .error e => .error e
      | .ok bs => .ok (b :: bs)

/-! ### Plans: what a job will write -/

/-- One result block: form, NLOG2, COUNT, interval and dimension. -/
structure OutPlan where
  form : Nat
  nlog2 : Nat := 0
  count : Nat
  ivl : Int
  dim : Dim

/-- The results of a job: OUT blocks, ACC blocks, and the words of STATE. -/
structure Plan where
  outs : List OutPlan
  accs : List OutPlan := []
  stateWords : Nat := 0

/-- The exponent of time. -/
def Dim.second : Dim := { s := 1 }

/-- A condition of a code of Table 14-6. -/
def lneed (ok : Bool) (code : Nat) : LE Unit := if ok then .ok () else .error (code, none)

/-- A wide dimension in range (RANGE). -/
def lwide (d : Dim) : LE Dim := if d.wide then .ok d else .error (4, none)

/-- A combination of dimensions and kinds (UNIT), with its range. -/
def lcombine (op : Op2) (x y : Dim) : LE Dim :=
  match combineDim op x y with
  | .ok d => lwide d
  | .error _ => .error (3, none)

/-- An integer parameter. -/
def fixParam (w : Word) : Option Nat := if w.tag = 0x00 ∧ 0 ≤ w.datum.toInt then some w.datum.toNat else none

/-- log2 of a power of two from 16 to 65,536. -/
def fftLog (n : Nat) : Option Nat := (List.range 17).find? fun k => decide (4 ≤ k) && 2 ^ k == n

/-- Whether a parameter or the number of blocks lies outside Table 14-4 (DESC). The P1 block of FIR, BIQUAD and RESAMPLE is
given. -/
def descParams (j : LatheJob) (p1 : Option Blk) : Bool :=
  let ns := j.srcs.length
  let one := ns == 1 && j.outs.length == 1
  match j.func.toNat with
  | 1 =>
    match fixParam j.p1 with
    | some op =>
      decide (op ≤ 6) && j.outs.length == 1 &&
        (if op = 4 ∨ op = 5 then ns == 1 else ns == 2 || (ns == 1 && j.scalar.isSome))
    | none => false
  | 2 => one
  | 3 => decide (1 ≤ ns)
  | 4 =>
    match fixParam j.p1, fixParam j.p2 with
    | some w, some k =>
      let mode := k / 256 % 4
      let alpha := ofF64 j.p3.datum
      decide (w ≤ 3) && decide (mode ≤ 2) && j.p3.tag == 0x02 && alpha.isFin && decide (0 < alpha.toRat) &&
        decide (alpha.toRat ≤ 1) && j.outs.length == 1 && j.accs.length == (if mode = 2 then 3 else 1)
    | _, _ => false
  | 5 => one && p1.any fun b => b.sound && decide (b.count ≤ 4096)
  | 6 => one && p1.any fun b => b.sound && b.count % 5 == 0 && decide (b.count ≤ 160)
  | 7 =>
    match fixParam j.p2 with
    | some k =>
      let l := k % 256
      let m := k / 256 % 256
      one && decide (1 ≤ l) && decide (l ≤ 64) && decide (1 ≤ m) && decide (m ≤ 64) &&
        p1.any fun b => b.sound && b.count % l == 0
    | none => false
  | 8 =>
    match fixParam j.p1 with
    | some d => ns == 1 && j.outs.length == 2 && decide (1 ≤ d) && decide (d ≤ 65536) && j.p2.tag == 0x05
    | none => false
  | 9 => one && (j.p1.tag == 0x02 || j.p1.tag == 0x03)
  | _ => false

/-- Whether two blocks have one shape (R333). -/
def Blk.alike (a b : Blk) : Bool := a.count == b.count && a.ivl == b.ivl && a.form == b.form && a.nlog2 == b.nlog2

/-- The number of rows of a spectral block. -/
def Blk.rows (b : Blk) : Nat := b.count / (2 ^ b.nlog2 / 2 + 1)

/-- VOP: shapes, kinds and the result (R54, R333). (DEDUCED, log 85) -/
def planVop (op : Nat) (a : Blk) (b : Option Blk) (scalar : Option Dim) (first : Bool) : LE Plan := do
  lneed (a.form != 3 && b.all fun x => x.alike a) 2
  let other : Dim := match b, scalar with
    | some x, _ => x.dim
    | none, some d => d
    | none, none => {}
  let x := if first then other else a.dim
  let y := if first then a.dim else other
  let keep (count : Nat) (form nlog2 : Nat) (d : Dim) : LE Plan :=
    .ok { outs := [{ form := form, nlog2 := nlog2, count := count, ivl := a.ivl, dim := d }] }
  match op with
  | 0 => keep a.count a.form a.nlog2 (← lcombine .add x y)
  | 1 => keep a.count a.form a.nlog2 (← lcombine .sub x y)
  | 2 => keep a.count a.form a.nlog2 (← lcombine .mul x y)
  | 3 => keep a.count a.form a.nlog2 (← lcombine .div x y)
  | 4 => do
    lneed (a.dim.kind == 0) 3
    keep a.count a.form a.nlog2 a.dim
  | 5 => keep 1 a.form a.nlog2 (← lcombine .add a.dim a.dim)
  | _ => keep 1 a.form a.nlog2 (← lcombine .mul x y)

/-- The time-domain dimension of a source of WSPEC (R333). -/
def Blk.timeDim (b : Blk) : Dim := if b.form = 2 then b.dim.sub Dim.second else b.dim

/-- Whether every dimension of a list equals the first. -/
def allSame : List Dim → Bool
  | [] => true
  | d :: ds => ds.all fun e => e.same d

/-- WSPEC: shapes, units and results (Table 14-4, Table 14-5). -/
def planWspec (mode kx : Nat) (blks : List Blk) (accs : List (Blk × Bool)) : LE Plan := do
  let times := blks.filter fun b => b.form == 0
  let specs := blks.filter fun b => b.form == 2
  lneed (blks.all fun b => b.form == 0 || b.form == 2) 2
  let n : Nat := match times.head?, specs.head? with
    | some t, _ => t.count
    | none, some c => 2 ^ c.nlog2
    | none, none => 0
  let ivl : Int := (blks.head?.map (·.ivl)).getD 0
  match fftLog n with
  | none => .error (2, none)
  | some lg =>
    lneed (times.all (fun b => b.count == n) && specs.all (fun b => b.nlog2 == lg) && blks.all fun b => b.ivl == ivl) 2
    lneed (blks.all fun b => b.dim.kind == 0) 3
    let rows := blks.flatMap fun b => if b.form = 2 then List.replicate b.rows b.timeDim else [b.timeDim]
    lneed (decide (kx ≤ rows.length) || mode != 2) 1
    let bins := n / 2 + 1
    let xs := if mode = 2 then rows.take kx else rows
    let ys := if mode = 2 then rows.drop kx else []
    let tri (k : Nat) : Nat := k * (k + 1) / 2
    lneed (allSame xs && allSame ys && allSame (times.map (·.dim))) 3
    let dx := xs.headD {}
    let dy := ys.headD {}
    let pair (d e : Dim) : LE Dim := lwide ((d.add e).add Dim.second)
    let d0 : Dim := (times.head?.map Blk.dim).getD {}
    let out ← lwide (d0.add Dim.second)
    let xx ← pair dx dx
    let yx ← pair dy dx
    let yy ← pair dy dy
    let acc (form k : Nat) (d : Dim) : OutPlan := { form := form, nlog2 := lg, count := bins * k, ivl := ivl, dim := d }
    let plans := match mode with
      | 0 => [acc 1 xs.length xx]
      | 1 => [acc 2 (tri xs.length) xx]
      | _ => [acc 2 (tri xs.length) xx, acc 2 (xs.length * ys.length) yx, acc 2 (tri ys.length) yy]
    lneed ((plans.zip accs).all fun (p, b, fresh) => fresh || (b.dim.same p.dim && b.dim.kind == 0)) 3
    .ok { outs := [{ form := 2, nlog2 := lg, count := bins * times.length, ivl := ivl, dim := out }], accs := plans }

/-- The plan of a job on its source blocks: SHAPE, UNIT and RANGE (R333, Table 14-5). (DESIGN CHOICE, log 86) -/
def jobPlan (j : LatheJob) (blks : List Blk) (p1 : Option Blk) (accs : List (Blk × Bool)) (pvCount : Nat) : LE Plan := do
  lneed (blks.all (·.sound)) 2
  match blks with
  | [] => .error (1, none)
  | a :: rest =>
    let time (d : Dim) (count : Nat) (ivl : Int) (st : Nat) : LE Plan :=
      .ok { outs := [{ form := 0, count := count, ivl := ivl, dim := d }], stateWords := st }
    let taps := (p1.map (·.count)).getD 0
    let tapDim := (p1.map (·.dim)).getD {}
    let w := sampleWords a.f64 false false
    match j.func.toNat with
    | 1 =>
      planVop ((fixParam j.p1).getD 0) a rest.head? (j.scalar.map fun x => Dim.ofWide x.2) j.scalarFirst
    | 2 =>
      match a.form, fftLog a.count with
      | 0, some lg => do
        lneed (a.dim.kind == 0) 3
        .ok { outs := [{ form := 2, nlog2 := lg, count := a.count / 2 + 1, ivl := a.ivl
                         dim := ← lwide (a.dim.add Dim.second) }] }
      | _, _ => .error (2, none)
    | 3 => do
      lneed (blks.all fun b => b.form == 2 && b.nlog2 == a.nlog2 && b.ivl == a.ivl) 2
      lneed (blks.all fun b => b.dim.kind == 0) 3
      let outs := blks.flatMap fun b => List.replicate b.rows
        ({ form := 0, count := 2 ^ b.nlog2, ivl := b.ivl, dim := b.dim.sub Dim.second } : OutPlan)
      lneed (outs.length == j.outs.length) 1
      lneed (outs.all fun o => o.dim.wide) 4
      .ok { outs := outs }
    | 4 =>
      let k := (fixParam j.p2).getD 0
      planWspec (k / 256 % 4) (k % 256) blks accs
    | 5 => do
      lneed (a.form == 0) 2
      lneed (a.dim.kind == 0 && tapDim.kind == 0) 3
      time (← lwide (a.dim.add tapDim)) a.count a.ivl (w (taps - 1))
    | 6 => do
      lneed (a.form == 0) 2
      lneed (a.dim.kind == 0 && tapDim.kind == 0 && tapDim.zero) 3
      time a.dim a.count a.ivl (2 * (taps / 5))
    | 7 => do
      lneed (a.form == 0) 2
      lneed (a.dim.kind == 0 && tapDim.kind == 0 && tapDim.zero) 3
      let k := (fixParam j.p2).getD 0
      let l := k % 256
      let m := k / 256 % 256
      time a.dim (a.count * l / m) (openQuot (a.ivl * m) l) 0
    | 8 => do
      lneed (a.form == 0) 2
      lneed (a.dim.kind == 0) 3
      let d := (fixParam j.p1).getD 1
      let o : OutPlan := { form := 0, count := a.count / d, ivl := a.ivl * d, dim := a.dim }
      .ok { outs := [o, o] }
    | _ => do
      lneed (a.form == 0) 2
      lneed (decide (a.dim.kind ≤ 1) && (j.p1.tag != 0x03 || (Dim.ofQty j.p1.datum).same a.dim)) 3
      .ok { outs := [{ form := 3, count := pvCount, ivl := a.ivl, dim := a.dim }], stateWords := 2 }

/-! ### Samples -/

/-- Round to the precision a job computes in (R332). -/
def latheRound (f64 : Bool) (x : FVal) : FVal := if f64 then ofF64 (toF64 0 x) else ofF32 (toF32 0 x)

/-- The stored value at a place of a word: halves of PK32, quarters of PK16, a whole FLT. -/
def storedVal (b : Blk) (ws : List Word) (i : Nat) : FVal :=
  if b.f64 then ofF64 (ws.getD i Word.nil).datum
  else if b.pk16 then
    let c := fld (ws.getD (i / 4) Word.nil).datum (16 * (i % 4)) 16
    if c = 0x8000 then FVal.defaultNan else FVal.ofRat (c.toInt : Rat)
  else ofF32 (fld (ws.getD (i / 2) Word.nil).datum (32 * (i % 2)) 32)

/-- The words of a block per stored value. -/
def wordOfVal (b : Blk) (i : Nat) : Nat := if b.f64 then i else if b.pk16 then i / 4 else i / 2

/-- A value as a lathe reads it: times SCALE, in the precision of the job. -/
def readVal (f64 : Bool) (b : Blk) (ws : List Word) (i : Nat) : FVal := latheRound f64 ((storedVal b ws i).mul b.scale)

/-- One elementwise operation, rounded to nearest even. -/
def vopVal (f64 : Bool) (op : Nat) (x y : FVal) : FVal :=
  latheRound f64 (match op with
    | 0 => x.add 0 y
    | 1 => x.sub 0 y
    | 2 => x.mul y
    | 3 => x.div y
    | _ => x.neg)

/-- The bits of a value in a format. -/
def latheBits (f64 : Bool) (x : FVal) : Nat := if f64 then (toF64 0 x).toNat else (toF32 0 x).toNat

/-- Values packed into words: one FLT each, or two to a PK32. -/
def packVals (f64 : Bool) : List FVal → List Word
  | [] => []
  | [x] => [if f64 then Word.flt (BitVec.ofNat 64 (latheBits true x)) else ⟨0x08, BitVec.ofNat 64 (latheBits false x)⟩]
  | x :: y :: r =>
    if f64 then
      Word.flt (BitVec.ofNat 64 (latheBits true x)) :: Word.flt (BitVec.ofNat 64 (latheBits true y)) :: packVals f64 r
    else ⟨0x08, BitVec.ofNat 64 (latheBits false x + 2 ^ 32 * latheBits false y)⟩ :: packVals f64 r

/-- A sample value that the spec leaves open. -/
def freeVal (f64 : Bool) (func draw out i : Nat) : FVal :=
  let d := Config.latheSample func draw out i
  if f64 then ofF64 d else ofF32 (fld d 0 32)

/-- A POISON word of origin LATHE. -/
def poisonLathe : Word := ⟨0xFE, 0x07⟩

/-! ### Sums whose order of rounding is open (R54, R332) -/

/-- The sum of values in an order that the device chooses: at each step two of them are added and the sum is rounded, and a product
may enter its addition unrounded. (DESIGN CHOICE, log 84) -/
def freeSum (f64 : Bool) (key : Nat → BitVec 64) : Nat → List FVal → FVal
  | 0, l => latheRound f64 (l.headD (.fin false 0))
  | n + 1, l =>
    if l.length < 2 then latheRound f64 (l.headD (.fin false 0))
    else
      let d := key n
      let i := (fld d 0 31).toNat % l.length
      let x := l.getD i (.fin false 0)
      let l := l.eraseIdx i
      let k := (fld d 31 31).toNat % l.length
      let y := latheRound f64 (l.getD k (.fin false 0))
      freeSum f64 key n (latheRound f64 ((if bit d 63 then x else latheRound f64 x).add 0 y) :: l.eraseIdx k)

/-- Where a job's free choices come from: its function, draw, output, and a place of the output. -/
structure Choice where
  func : Nat
  draw : Nat
  out : Nat
  place : Nat

/-- The choices of one sum. -/
def Choice.key (c : Choice) (eq n : Nat) : BitVec 64 := Config.latheSample c.func c.draw c.out ((c.place * 8 + eq) * 2 ^ 32 + n)

/-- A sum with the choices of a place and an equation. -/
def Choice.sum (c : Choice) (f64 : Bool) (eq : Nat) (l : List FVal) : FVal := freeSum f64 (c.key eq) l.length l

/-- A product of complex numbers. -/
def mulComplex (c : Choice) (f64 : Bool) (x y : FVal × FVal) : FVal × FVal :=
  (c.sum f64 0 [x.1.mul y.1, (x.2.mul y.2).neg], c.sum f64 1 [x.1.mul y.2, x.2.mul y.1])

/-- The magnitude of a finite value. -/
def FVal.mag : FVal → Rat
  | .fin _ m => m
  | _ => 0

/-- A quotient of complex numbers, by the sums of products over the squared magnitude, by the ratio of the divisor's parts, or rounded
once, as the device chooses. (DESIGN CHOICE, log 84) -/
def divComplex (c : Choice) (f64 : Bool) (x y : FVal × FVal) : FVal × FVal :=
  let quot (re im den : FVal) : FVal × FVal := (latheRound f64 (re.div den), latheRound f64 (im.div den))
  let m := c.key 7 0
  let q := y.1.mag * y.1.mag + y.2.mag * y.2.mag
  if bit m 0 && x.1.isFin && x.2.isFin && y.1.isFin && y.2.isFin && q != 0 then
    let exact (r : Rat) : FVal := latheRound f64 (FVal.ofRat (r / q))
    (exact (x.1.toRat * y.1.toRat + x.2.toRat * y.2.toRat), exact (x.2.toRat * y.1.toRat - x.1.toRat * y.2.toRat))
  else if bit m 1 then
    if y.2.mag ≤ y.1.mag then
      let r := latheRound f64 (y.2.div y.1)
      quot (c.sum f64 0 [x.1, x.2.mul r]) (c.sum f64 1 [x.2, (x.1.mul r).neg]) (c.sum f64 2 [y.1, y.2.mul r])
    else
      let r := latheRound f64 (y.1.div y.2)
      quot (c.sum f64 0 [x.1.mul r, x.2]) (c.sum f64 1 [x.2.mul r, x.1.neg]) (c.sum f64 2 [y.1.mul r, y.2])
  else
    quot (c.sum f64 0 [x.1.mul y.1, x.2.mul y.2]) (c.sum f64 1 [x.2.mul y.1, (x.1.mul y.2).neg])
      (c.sum f64 2 [y.1.mul y.1, y.2.mul y.2])

/-- The samples of a block as values: real ones, or real and imaginary parts in turn. -/
def blkVals (f64 : Bool) (b : Blk) (ws : List Word) : List FVal :=
  (List.range (if b.cplx then 2 * b.count else b.count)).map (readVal f64 b ws)

/-- Values two by two. -/
def pairUp : List FVal → List (FVal × FVal)
  | x :: y :: r => (x, y) :: pairUp r
  | _ => []

/-- The values of a real operation: elementwise, the sum of one block, or the sum of products. -/
def vopReal (f64 : Bool) (c : Choice) (op : Nat) (xs ys : List FVal) : List FVal :=
  match op with
  | 5 => [c.sum f64 0 xs]
  | 6 => [c.sum f64 0 (List.zipWith FVal.mul xs ys)]
  | _ => List.zipWith (vopVal f64 op) xs ys

/-- The values of a complex operation. -/
def vopComplex (f64 : Bool) (c : Choice) (op : Nat) (xs ys : List (FVal × FVal)) : List FVal :=
  let each (f : Choice → FVal × FVal → FVal × FVal → FVal × FVal) : List FVal :=
    ((xs.zip ys).mapIdx fun i (x, y) => let z := f { c with place := i } x y; [z.1, z.2]).flatten
  match op with
  | 2 => each fun c => mulComplex c f64
  | 3 => each fun c => divComplex c f64
  | 5 => [c.sum f64 0 (xs.map (·.1)), c.sum f64 1 (xs.map (·.2))]
  | 6 =>
    [c.sum f64 0 ((xs.zip ys).flatMap fun (x, y) => [x.1.mul y.1, (x.2.mul y.2).neg]),
      c.sum f64 1 ((xs.zip ys).flatMap fun (x, y) => [x.1.mul y.2, x.2.mul y.1])]
  | _ => each fun _ x y => (vopVal f64 op x.1 y.1, vopVal f64 op x.2 y.2)

/-- The values of VOP on its first source and the second, or the scalar, which takes the place of every sample; a real scalar times or
over a complex sample acts on each part. -/
def vopVals (j : LatheJob) (f64 : Bool) (draw op : Nat) (a : Blk) (wa : List Word) (b : Option (Blk × List Word)) : List FVal :=
  let c : Choice := ⟨1, draw, 0, 0⟩
  let sc : FVal := latheRound f64 ((j.scalar.map fun x => ofF64 x.1).getD (.fin false 0))
  let xs := blkVals f64 a wa
  let ys (imag : FVal) : List FVal :=
    match b with
    | some (bb, wb) => blkVals f64 bb wb
    | none => xs.mapIdx fun i _ => if a.cplx && i % 2 == 1 then imag else sc
  if !a.cplx || (b.isNone && (op == 2 || (op == 3 && !j.scalarFirst))) then
    if j.scalarFirst then vopReal f64 c op (ys sc) xs else vopReal f64 c op xs (ys sc)
  else
    let ps := pairUp xs
    let qs := pairUp (ys (.fin false 0))
    if j.scalarFirst then vopComplex f64 c op qs ps else vopComplex f64 c op ps qs

/-- The peak of |x| over each D samples (TRACK); a NaN in a group makes it NaN. -/
def peaks (f64 : Bool) (b : Blk) (ws : List Word) (d n : Nat) : List FVal :=
  (List.range n).map fun g =>
    (List.range d).foldl (fun (m : FVal) i =>
      let x := readVal f64 b ws (g * d + i)
      let a : FVal := match x with
        | .fin _ q => .fin false q
        | .inf _ => .inf false
        | v => v
      if m.isNan then m else if a.isNan then a else if m.cmp a == some .lt then a else m) (.fin false 0)

/-! ### Filters -/

/-- FIR (Table 14-4): each result is the sum of the taps times the sample and those before it, the first of them from the carried
samples, oldest first. (DESIGN CHOICE, log 84) -/
def firVals (f64 : Bool) (draw : Nat) (taps before xs : List FVal) : List FVal :=
  let all := before ++ xs
  (List.range xs.length).map fun n =>
    (⟨5, draw, 0, n⟩ : Choice).sum f64 0 (taps.mapIdx fun k h => h.mul (all.getD (before.length + n - k) (.fin false 0)))

/-- One section of BIQUAD in Direct Form II transposed on a sample: its result and its two carried words. -/
def biquadSection (f64 : Bool) (c : Choice) (h : List FVal) (x : FVal) (st : FVal × FVal) : FVal × (FVal × FVal) :=
  let f (i : Nat) : FVal := h.getD i (.fin false 0)
  let y := c.sum f64 0 [(f 0).mul x, st.1]
  (y, c.sum f64 1 [(f 1).mul x, ((f 3).mul y).neg, st.2], c.sum f64 2 [(f 2).mul x, ((f 4).mul y).neg])

/-- A sample through every section: the result and the carried words. -/
def biquadStep (f64 : Bool) (draw n : Nat) : Nat → List FVal → FVal → List (FVal × FVal) → FVal × List (FVal × FVal)
  | _, _, x, [] => (x, [])
  | k, coef, x, st :: r =>
    let (y, st) := biquadSection f64 ⟨6, draw, 0, n * 32 + k⟩ (coef.take 5) x st
    let (z, r) := biquadStep f64 draw n (k + 1) (coef.drop 5) y r
    (z, st :: r)

/-- BIQUAD on a run of samples. -/
def biquadVals (f64 : Bool) (draw : Nat) (coef : List FVal) :
    Nat → List FVal → List (FVal × FVal) → List FVal × List (FVal × FVal)
  | _, [], st => ([], st)
  | n, x :: xs, st =>
    let (y, st) := biquadStep f64 draw n 0 coef x st
    let (ys, st) := biquadVals f64 draw coef (n + 1) xs st
    (y :: ys, st)

/-- RESAMPLE: every M-th sample of the filtered signal with L − 1 zeros after each sample; before the block the signal is zero.
(DESIGN CHOICE, log 84) -/
def resampleVals (f64 : Bool) (draw l m count : Nat) (taps xs : List FVal) : List FVal :=
  (List.range count).map fun n =>
    let t := n * m
    (⟨7, draw, 0, n⟩ : Choice).sum f64 0 ((List.range (taps.length / l)).map fun k =>
      (taps.getD (k * l + t % l) (.fin false 0)).mul (if k ≤ t / l then xs.getD (t / l - k) (.fin false 0) else .fin false 0))

/-! ### Spectra -/

/-- The first NaN of values, which a transform that takes them all delivers everywhere (R332). -/
def firstNan (l : List FVal) : Option FVal := l.find? FVal.isNan

/-- Values that the spec does not fix exactly, but for the NaN that a sum of all its sources delivers. (DESIGN CHOICE, log 84) -/
def openVals (f64 : Bool) (c : Choice) (n : Nat) (nan : Nat → Option FVal) : List FVal :=
  (List.range n).map fun i => (nan i).getD (freeVal f64 c.func c.draw c.out (c.place + i))

/-- The rows of a CSPEC block as values. -/
def specRows (b : Blk) (vs : List FVal) : List (List FVal) :=
  let n := 2 * (2 ^ b.nlog2 / 2 + 1)
  (List.range b.rows).map fun r => (vs.drop (r * n)).take n

/-- The pairs of rows that an ACC block of WSPEC takes (Table 14-4). -/
def accPairs (mode kx rows k : Nat) : List (Nat × Nat) :=
  let tri (lo hi : Nat) : List (Nat × Nat) :=
    (List.range (hi - lo)).flatMap fun i => (List.range (hi - lo - i)).map fun d => (lo + i, lo + i + d)
  match mode, k with
  | 0, _ => (List.range rows).map fun i => (i, i)
  | 1, _ => tri 0 rows
  | _, 0 => tri 0 kx
  | _, 1 => (List.range (rows - kx)).flatMap fun y => (List.range kx).map fun x => (kx + y, x)
  | _, _ => tri kx rows

/-- What a job has read: its sources, P1 block, ACC blocks not taken as zero, and state. -/
structure LatheRead where
  srcs : List (Blk × List Word)
  p1 : Option (Blk × List Word)
  accs : List (Option (Blk × List Word))
  state : List Word

/-- The values of output k of a job, and the values of its STATE where it is the first. (DEDUCED, log 85) -/
def latheVals (j : LatheJob) (p : OutPlan) (k : Nat) (f64 : Bool) (draw : Nat) (r : LatheRead) : List FVal × List FVal :=
  let c : Choice := ⟨j.func.toNat, draw, k, 0⟩
  let src := r.srcs.map fun (b, ws) => blkVals f64 b ws
  let xs := src.headD []
  let taps := (r.p1.map fun (b, ws) => blkVals f64 b ws).getD []
  let k2 := (fixParam j.p2).getD 0
  let n := if p.form = 2 then 2 * p.count else p.count
  match j.func.toNat, r.srcs with
  | _, [] => ([], [])
  | 1, (a, wa) :: rest => (vopVals j f64 draw ((fixParam j.p1).getD 0) a wa rest.head?, [])
  | 2, _ => (openVals f64 c n fun _ => firstNan xs, [])
  | 3, _ =>
    let rows := (r.srcs.zip src).flatMap fun (b, vs) => specRows b.1 vs
    (openVals f64 c n fun _ => firstNan (rows.getD k []), [])
  | 4, _ =>
    let times := (r.srcs.zip src).filterMap fun (b, vs) => if b.1.form = 0 then some vs else none
    let bins := 2 ^ p.nlog2 / 2 + 1
    let per := if p.form = 2 then 2 * bins else bins
    if k < j.outs.length then (openVals f64 c n fun i => firstNan (times.getD (i / per) []), [])
    else
      let rows := (r.srcs.zip src).flatMap fun (b, vs) => if b.1.form = 2 then specRows b.1 vs else [vs]
      let pairs := accPairs (k2 / 256 % 4) (k2 % 256) rows.length (k - j.outs.length)
      let old := (r.accs.getD (k - j.outs.length) none).map fun (b, ws) => blkVals f64 b ws
      (openVals f64 c n fun i =>
        let q := pairs.getD (i / per) (0, 0)
        firstNan ((old.map fun o => [o.getD i (.fin false 0)]).getD [] ++ rows.getD q.1 [] ++ rows.getD q.2 []), [])
  | 5, _ =>
    let held := (List.range (taps.length - 1)).map fun i =>
      if f64 then ofF64 (r.state.getD i Word.nil).datum else ofF32 (fld (r.state.getD (i / 2) Word.nil).datum (32 * (i % 2)) 32)
    (firVals f64 draw taps held xs, (held ++ xs).drop xs.length)
  | 6, _ =>
    let held := (List.range (2 * (taps.length / 5))).map fun i =>
      let d := (r.state.getD i Word.nil).datum
      if f64 then ofF64 d else ofF32 (fld d 0 32)
    let (ys, st) := biquadVals f64 draw taps 0 xs (pairUp held)
    (ys, st.flatMap fun q => [q.1, q.2])
  | 7, _ => (resampleVals f64 draw (k2 % 256) (k2 / 256 % 256) p.count taps xs, [])
  | 8, (a, wa) :: _ =>
    let d := (fixParam j.p1).getD 1
    if k = 1 then (peaks f64 a wa d p.count, [])
    else (openVals f64 c n fun i => firstNan (xs.take ((i + 1) * d)), [])
  | _, _ => (openVals f64 c n fun _ => none, openVals f64 { c with place := 2 ^ 40 } 2 fun _ => none)

/-- The words of a STATE block: samples for FIR, a word for each value else. (DESIGN CHOICE, log 84) -/
def stateWordsOf (f64 : Bool) (func : Nat) (vs : List FVal) : List Word :=
  if func = 5 then packVals f64 vs else vs.flatMap fun v => packVals f64 [v]

/-- The POISON words of the result of VOP: each result word that a lost source word reaches takes that word (Table 14-6). -/
def poisonVop (res : List Word) (f64 : Bool) (op : Nat) (srcs : List (Blk × List Word)) : List Word :=
  let lost (w : Word) : Bool := w.tag == 0xFE
  if op = 5 ∨ op = 6 then
    match (srcs.flatMap (·.2)).find? lost with
    | some p => res.map fun _ => p
    | none => res
  else res.mapIdx fun i w =>
    let crossed := srcs.any (fun (b, _) => b.cplx) && (op == 2 || op == 3)
    let vals := if f64 && !crossed then [i] else if f64 then [i / 2 * 2, i / 2 * 2 + 1] else [2 * i, 2 * i + 1]
    let hits := srcs.flatMap fun (b, ws) => vals.map fun v => ws.getD (wordOfVal b v) Word.nil
    match hits.find? lost with
    | some p => p
    | none => w

/-! ### Results (R324, R326) -/

/-- LSTAT of a lathe result (Table 14-1). -/
def latheLstat (blks : List Blk) (p : OutPlan) (f64 elementwise err : Bool) : BitVec 64 :=
  let marked := (blks.map fun b => (fld b.lstat 0 16).toNat).foldl (· + ·) 0
  let firsts := blks.map fun b => (fld b.lstat 16 16).toNat
  let links := blks.map fun b => (fld b.lstat 32 2).toNat
  let link := if links.any (· == 2) then 2 else if links.all (· == 1) then 1 else 0
  let any (k : Nat) : Bool := blks.any fun b => bit b.lstat k
  putN 0 (min marked 0xFFFF) ||| putN 16 (if elementwise then firsts.foldl min 0xFFFF else 0xFFFF) ||| putN 32 link |||
    fbit 34 (any 34) ||| fbit 35 (any 35) ||| fbit 37 (any 37) ||| fbit 38 f64 ||| putN 39 p.form ||| putN 42 p.nlog2 |||
    fbit 47 err ||| putN 48 (p.ivl % 65536).toNat

/-- Fields 1 to 6 and 8 of a result block. -/
def resultHeads (va : BitVec 48) (a : Blk) (p : OutPlan) : List (BitVec 48 × List Word) :=
  [(va + 1, [a.chan, Word.fix (BitVec.ofNat 64 p.count), a.start, Word.span (BitVec.ofInt 64 (p.ivl / 65536)),
      Word.raw p.dim.toWide, Word.flt 0x3FF0000000000000#64]), (va + 8, [a.seq])]

/-- Every OUT and ACC block with its plan. -/
def LatheJob.placed (j : LatheJob) (p : Plan) : List (BitVec 48 × OutPlan) := j.outs.zip p.outs ++ j.accs.zip p.accs

/-- A result that only tells of an error: header fields where a source could be read, and LSTAT with ERR = 1. -/
def errResult (j : LatheJob) (blks : List Blk) (code : Nat) (fault : Option (BitVec 48 × BitVec 64)) : LatheResult :=
  let vas := j.outs ++ j.accs
  let plan (b : Blk) : OutPlan := { form := 0, count := b.count, ivl := b.ivl, dim := b.dim }
  { code := BitVec.ofNat 8 code
    heads := match blks with
      | [] => []
      | b :: _ => vas.flatMap fun va => resultHeads va b (plan b)
    lstats := vas.map fun va => (va + 7, match blks with
      | [] => fbit 47 true
      | b :: _ => latheLstat blks (plan b) false false true)
    fault := fault }

/-- Whether a block lies on a large-object board of the issuing world's window, where its header is the first word of a
card, or outside every window (R142, R330). -/
def State.latheSpot (s : State) (j : LatheJob) (va : BitVec 48) : Bool :=
  match s.worlds[j.world].heap.board va with
  | some _ => va.toNat % 64 == 0
  | none => (s.worlds[1 - j.world].heap.board va).isNone

/-- Whether a block has LENGTH for its plan. -/
def fits (f64 : Bool) (b : Blk) (p : OutPlan) : Bool := decide (8 + sampleWords f64 (p.form == 2) false p.count ≤ b.len)

/-- A block whose header words cannot be used because one is POISON: VOP copies it, another function writes POISON of its own, into every
sample word that the result has room for (Table 14-6, POISON). (DEDUCED, log 85) -/
def poisonHeads (j : LatheJob) (blks outs : List Blk) (w : Word) : LatheResult :=
  let res := errResult j (blks.filter (·.sound)) 5 none
  { res with samples := outs.map fun b => (b.va + 9, List.replicate b.room (if j.func.toNat = 1 then w else poisonLathe)) }

/-- The words of a block that a job reads beside its header and fields. -/
def Blk.sampleLen (b : Blk) : Nat := sampleWords b.f64 b.cplx b.pk16 b.count

/-- Read the samples of a block. -/
def State.readSamples (s : State) (j : LatheJob) (b : Blk) : LE (Blk × List Word) :=
  match s.latheWords j b.sampleLen (b.va + 9) with
  | .error e => .error e
  | .ok ws => .ok (b, ws)

/-- What a job that has passed its checks reads. -/
def State.jobRead (s : State) (j : LatheJob) (blks : List Blk) (p1 : Option Blk) (accs : List Blk) (words : Nat) : LE LatheRead := do
  let srcs ← blks.mapM (s.readSamples j)
  let p ← match p1 with
    | some b => (s.readSamples j b).map some
    | none => .ok none
  let old ← (accs.zip j.accEmpty).mapM fun (b, fresh) => if fresh then .ok none else (s.readSamples j b).map some
  let st ← match j.state with
    | some va => s.latheWords j words (va + 9)
    | none => .ok []
  .ok ⟨srcs, p, old, st⟩

/-- Every sample or state word of what a job has read. -/
def LatheRead.words (r : LatheRead) : List Word :=
  r.srcs.flatMap (·.2) ++ (r.p1.map (·.2)).getD [] ++ r.accs.flatMap (fun x => (x.map (·.2)).getD []) ++ r.state

/-- A job computed: its checks in order (DESC, FAULT of a header, SRCERR, POISON of a header, SHAPE, UNIT, RANGE, POISON) and its
results; drawn tells the free values apart. (DEDUCED, log 85) -/
def State.jobCompute (s : State) (j : LatheJob) (pvCount draw : Nat) : LE LatheResult := do
  lneed j.descOk 1
  let p1 ← if j.p1.tag = 0x46 then (s.readBlk j (fld j.p1.datum 0 48)).map some else .ok none
  lneed (descParams j p1 || p1.any fun b => b.poison.isSome) 1
  let blks ← s.readBlks j j.srcs
  let outs ← s.readBlks j j.outs
  let accs ← s.readBlks j j.accs
  let st ← s.readBlks j j.state.toList
  lneed ((j.outs ++ j.accs ++ j.state.toList).all fun va => s.latheSpot j va) 1
  let all := blks ++ p1.toList
  let kept := (accs.zip j.accEmpty).filterMap fun (b, fresh) => if fresh then none else some b
  match all.find? (fun b => b.sound && bit b.lstat 47), (all ++ kept).findSome? (·.poison) with
  | some _, _ => .ok (errResult j blks 9 none)
  | none, some w => .ok (poisonHeads j blks (outs ++ accs) w)
  | none, none =>
    let f64 := blks.any (·.f64)
    match jobPlan j blks p1 (accs.zip j.accEmpty) pvCount with
    | .error (c, f) => .ok (errResult j blks c f)
    | .ok plan =>
      if !((outs.zip plan.outs).all fun (b, p) => fits f64 b p) || !((accs.zip plan.accs).all fun (b, p) => fits f64 b p) ||
          !(st.all fun b => decide (8 + plan.stateWords ≤ b.len)) then .ok (errResult j blks 1 none)
      else
        let r ← s.jobRead j blks p1 accs plan.stateWords
        let lost := r.words.any fun w => w.tag == 0xFE
        let func := j.func.toNat
        let op := (fixParam j.p1).getD 0
        let place := j.placed plan
        let samples := place.mapIdx fun k (va, p) =>
          let ws := packVals f64 (latheVals j p k f64 draw r).1
          (va + 9, if func = 1 then poisonVop ws f64 op r.srcs else if lost then ws.map fun _ => poisonLathe else ws)
        let held := stateWordsOf f64 func ((place.head?.map fun e => (latheVals j e.2 0 f64 draw r).2).getD [])
        let stateRun := j.state.toList.map fun va => (va + 9, if lost then held.map fun _ => poisonLathe else held)
        match blks with
        | [] => .error (1, none)
        | a :: _ =>
          .ok { code := if lost then 5 else 0
                heads := place.flatMap fun (va, p) => resultHeads va a p
                samples := samples ++ stateRun
                lstats := place.map fun (va, p) => (va + 7, latheLstat blks p f64 (func == 1 && decide (op ≤ 4)) lost) }

/-! ### What the reads of a job do beside -/

/-- The addresses of every word that a job reads, as far as they translate. -/
def State.jobSpots (s : State) (j : LatheJob) : List Nat :=
  let spots (n : Nat) (va : BitVec 48) : List Nat :=
    match s.latheSpots j n va with
    | .ok l => l
    | .error _ => []
  (j.srcs ++ (if j.p1.tag = 0x46 then [fld j.p1.datum 0 48] else []) ++ j.accs ++ j.state.toList ++ j.outs).flatMap fun va =>
    match s.readBlk j va with
    | .ok b => spots (9 + if va ∈ j.outs then 0 else b.sampleLen) va
    | .error _ => []

/-- A stage-2 fault of a lathe counts for HEALTH (R226). -/
def State.countLatheFault (s : State) (w : Fin 2) (f : Option (BitVec 48 × BitVec 64)) : State :=
  match f with
  | some (_, i) => if fld i 0 2 = 2 then s.modWorld w fun x => { x with stage2Faults := satInc x.stage2Faults } else s
  | none => s

end Sys2Proof.Machine
end

