-- ==== Sys2Proof/Machine/Lathes.lean ====
section
/-! DEFINITION. Lathes: registers, the running of jobs, and their end (R326 to R337, block 5). -/

namespace Sys2Proof.Machine

open Sys2Proof

/-! ### Registers (Table 14-7) -/

/-- Whether a source block of a job, or its P1 block, is still EMPTY (R334). -/
def State.srcWaiting (s : State) (j : LatheJob) : Bool :=
  j.descOk && (j.srcs ++ (if j.p1.tag = 0x46 then [fld j.p1.datum 0 48] else [])).any fun va =>
    match s.readBlk j va with
    | .ok b => b.empty
    | .error _ => false

/-- Register r (0 to 7) of lathe n as read. -/
def State.luBits (s : State) (n : Fin 8) (r : Nat) : BitVec 64 :=
  let l := s.lathes[n]
  match r with
  | 0 =>
    putN 0 l.queue.length ||| fbit 5 (!l.queue.isEmpty) |||
      fbit 6 (l.queue.head?.any fun j => j.result.isNone && s.srcWaiting j) |||
      put 32 ((l.queue.head?.map (·.serial)).getD l.serial)
  | 1 => put 0 l.srcwaitLimit
  | 2 => l.jobs
  | 3 => put 0 l.errs
  | 4 => l.lastErr
  | 5 => put 0 l.lastFaddr
  | 6 => l.lastFinfo
  | _ => put 0 l.perr

/-- Whether a lathe is fitted (R336). -/
def State.luFitted (s : State) (n : Fin 8) : Bool := !s.variantL || decide (n.val < 4)
/-- The presence of lathe n (domain 64 + n). -/
def State.luPresence (s : State) (n : Fin 8) : Presence := s.presence (64 + n.val) (s.luFitted n)
/-- Whether a lathe can run jobs. -/
def State.luOn (s : State) (n : Fin 8) : Bool := s.luFitted n && s.domOn (64 + n.val)

/-- A load of a register of a lathe. -/
def State.luLoad (s : State) (n : Fin 8) (r : Nat) : RegLd := s.unitLoad (s.luPresence n) (ldRaw s (s.luBits n r))

/-- A store to a register of a lathe: SRCWAIT_LIMIT alone is writable. -/
def State.luStore (s : State) (n : Fin 8) (r : Nat) (v : BitVec 64) : RegSt :=
  s.unitStore (s.luPresence n) (.ok (if r = 1 then s.modLathe n fun l => { l with srcwaitLimit := fld v 0 24 } else s))

/-! ### Running a job (R327, R332) -/

/-- The head job of a lathe with a function number takes its result, if it is not computed and no source is EMPTY. -/
def State.runJob (s : State) (n : Fin 8) (func pvCount : Nat) : State :=
  match s.lathes[n].queue with
  | [] => s
  | j :: r =>
    if !(s.luOn n) || j.func.toNat != func || j.result.isSome || s.srcWaiting j then s
    else
      let res := match s.jobCompute j pvCount s.drawn with
        | .ok x => x
        | .error (c, f) => errResult j [] c f
      let s := (s.jobSpots j).foldl (fun (s : State) a => s.noteRead 9 a) (s.countLatheFault j.world res.fault)
      ({ s with drawn := s.drawn + 1 }).modLathe n fun l => { l with queue := { j with result := some res } :: r }

/-- LATHE_VOP. -/
def execLatheVop (n : Fin 8) (s : State) (ecc : Ecc := []) : Host.Outcome State Fault Refusal :=
  ok ((s.memErrs ecc).runJob n 1 0)
/-- LATHE_FFT. -/
def execLatheFft (n : Fin 8) (s : State) (ecc : Ecc := []) : Host.Outcome State Fault Refusal :=
  ok ((s.memErrs ecc).runJob n 2 0)
/-- LATHE_IFFT. -/
def execLatheIfft (n : Fin 8) (s : State) (ecc : Ecc := []) : Host.Outcome State Fault Refusal :=
  ok ((s.memErrs ecc).runJob n 3 0)
/-- LATHE_WSPEC. -/
def execLatheWspec (n : Fin 8) (s : State) (ecc : Ecc := []) : Host.Outcome State Fault Refusal :=
  ok ((s.memErrs ecc).runJob n 4 0)
/-- LATHE_FIR. -/
def execLatheFir (n : Fin 8) (s : State) (ecc : Ecc := []) : Host.Outcome State Fault Refusal :=
  ok ((s.memErrs ecc).runJob n 5 0)
/-- LATHE_BIQUAD. -/
def execLatheBiquad (n : Fin 8) (s : State) (ecc : Ecc := []) : Host.Outcome State Fault Refusal :=
  ok ((s.memErrs ecc).runJob n 6 0)
/-- LATHE_RESAMPLE. -/
def execLatheResample (n : Fin 8) (s : State) (ecc : Ecc := []) : Host.Outcome State Fault Refusal :=
  ok ((s.memErrs ecc).runJob n 7 0)
/-- LATHE_TRACK. -/
def execLatheTrack (n : Fin 8) (s : State) (ecc : Ecc := []) : Host.Outcome State Fault Refusal :=
  ok ((s.memErrs ecc).runJob n 8 0)
/-- LATHE_PVX: the number of turning points found is given. -/
def execLathePvx (n : Fin 8) (count : Nat) (s : State) (ecc : Ecc := []) : Host.Outcome State Fault Refusal :=
  ok ((s.memErrs ecc).runJob n 9 count)

/-! ### The end of a job (R326, R329, R335) -/

/-- Translate every word of runs for writing. -/
def State.latheTargets (s : State) (j : LatheJob) : List (BitVec 48 × List Word) → LE (List (Nat × Word))
  | [] => .ok []
  | (va, ws) :: r =>
    match (ws.zipIdx.mapM fun (w, i) => (s.latheXl j .write (va + BitVec.ofNat 48 i)).map fun p => (p, w)) with
    | .error e => .error e
    | .ok l => match State.latheTargets s j r with
      | .error e => .error e
      | .ok m => .ok (l ++ m)

/-- Write the words of a lathe for a world: of the cut-list memory only the world's own regions (R287). -/
def State.lathePut (s : State) (w : Fin 2) (l : List (Nat × Word)) : State :=
  l.foldl (fun (s : State) (e : Nat × Word) => if s.cutHidden w e.1 then s else s.agentWrite 9 e.1 e.2) s

/-- The words of LSTAT runs that can be written. -/
def State.lstatTargets (s : State) (j : LatheJob) (l : List (BitVec 48 × BitVec 64)) : List (Nat × Word) :=
  l.filterMap fun (va, d) => match s.latheXl j .write va with
    | .ok p => some (p, Word.raw d)
    | .error _ => none

/-- Sample words lost to a parity error, by their index over the runs (Table 14-6, PARITY). -/
def spoil (lost : List Nat) : Nat → List (BitVec 48 × List Word) → List (BitVec 48 × List Word)
  | _, [] => []
  | k, (va, ws) :: r =>
    (va, ws.mapIdx fun i w => if (k + i) ∈ lost then poisonLathe else w) :: spoil lost (k + ws.length) r

/-- The LSTAT of a result with ERR = 1. -/
def markErr (l : List (BitVec 48 × BitVec 64)) : List (BitVec 48 × BitVec 64) := l.map fun (va, d) => (va, setBit d 47 true)

/-- Free the OUT entry of the owner's lathe state that names a job, where that state is in the file (R328). -/
def State.freeOut (s : State) (n : Fin 8) (j : LatheJob) : State :=
  let num := Word.fix (putN 32 n.val ||| put 0 j.serial)
  s.modCore j.owner.core fun x =>
    if !x.llNone && x.llSlot == j.owner.slot && x.llDepth == j.owner.depth then
      { x with lathe := Vector.ofFn fun i => if 2 ≤ i.val ∧ x.lathe[i] = num then Word.nil else x.lathe[i] }
    else x

/-- End the head job of a lathe with a result: fields and samples, then LSTAT, the counters, and the lines (R326, R329). -/
def State.endJob (s : State) (n : Fin 8) (j : LatheJob) (rest : List LatheJob) (res : LatheResult) (lines : Bool) : State :=
  let (res, s) : LatheResult × State :=
    match s.latheTargets j (res.heads ++ res.samples) with
    | .ok l => (res, s.lathePut j.world l)
    | .error (c, f) => ({ res with code := BitVec.ofNat 8 c, fault := f, lstats := markErr res.lstats }, s.countLatheFault j.world f)
  let s := s.lathePut j.world (s.lstatTargets j res.lstats)
  let err := res.code != 0
  let s := s.modLathe n fun l =>
    { l with
      queue := match rest with
        | [] => []
        | k :: r => { k with startedAt := s.now } :: r
      jobs := l.jobs + 1, errs := if err then satInc l.errs else l.errs
      lastErr := if err then put 0 res.code ||| putN 8 n.val ||| put 16 j.serial ||| put 48 (fld j.func 0 8) else l.lastErr
      lastFaddr := (res.fault.map (·.1)).getD l.lastFaddr
      lastFinfo := (res.fault.map (·.2)).getD l.lastFinfo }
  let s := s.freeOut n j
  let raise (s : State) (l : Option (BitVec 8)) : State := match l with
    | some k => if lines then s.raise k.toFin else s
    | none => s
  let s := raise s j.doneLine
  if err then raise s j.errLine else s

/-- A job that no function runs: its descriptor is not acceptable, or its FUNC is undefined (DESC). -/
def LatheJob.undone (j : LatheJob) : Bool := !j.descOk || decide (9 < j.func.toNat) || j.func == 0

/-- LATHE_JOB_END: the head job, computed, writes its result; `parity` names the sample words lost to parity errors. -/
def execLatheJobEnd (n : Fin 8) (parity : List Nat) (s : State) : Host.Outcome State Fault Refusal :=
  ok (match s.lathes[n].queue with
    | [] => s
    | j :: r =>
      let res := match j.result with
        | some x => some x
        | none => if j.undone then some (errResult j [] 1 none) else none
      match res with
      | none => s
      | some x =>
        if !(s.luOn n) then s
        else
          let lost := parity.length
          let x := if lost = 0 ∨ x.code ≠ 0 then x
            else { x with code := 6, samples := spoil parity 0 x.samples, lstats := markErr x.lstats }
          let s := s.modLathe n fun l => { l with perr := BitVec.ofNat 32 (min (l.perr.toNat + lost) (2 ^ 32 - 1)) }
          s.endJob n j r x true)

/-- LATHE_SRCWAIT_TIMEOUT: the head job has waited for an EMPTY source for SRCWAIT_LIMIT (R334). -/
def execLatheSrcwaitTimeout (n : Fin 8) (s : State) : Host.Outcome State Fault Refusal :=
  let l := s.lathes[n]
  ok (match l.queue with
    | [] => s
    | j :: r =>
      if s.luOn n && j.result.isNone && s.srcWaiting j &&
          decide (j.startedAt.toNat + l.srcwaitLimit.toNat * 1000 ≤ s.now.toNat) then
        let blks := match s.readBlks j (j.srcs.take 1) with
          | .ok b => b
          | .error _ => []
        s.endJob n j r (errResult j blks 8 none) true
      else s)

/-- At a warm restart each lathe ends its jobs with SRCERR, without events (R337). -/
def State.abortLathe (s : State) (n : Fin 8) : State :=
  s.lathes[n].queue.foldl (fun (s : State) j =>
    s.endJob n j (s.lathes[n].queue.tail) { errResult j [] 9 none with heads := [] } false) s

end Sys2Proof.Machine
end

