-- ==== Sys2Proof/Machine/Gauges.lean ====
section
/-! DEFINITION. Gauge timers (R346 to R358, block 2). -/

namespace Sys2Proof.Machine

open Sys2Proof

/-! ### Registers (Table 15-1) -/

/-- A register of the GT block: of a gauge, of a pair, or GT_SNAPT. -/
inductive GtReg where
  | cfg (n : Fin 32)
  | pre (n : Fin 32)
  | ctl (n : Fin 32)
  | cnt (n : Fin 32)
  | reload (n : Fin 32)
  | cmp (n : Fin 32)
  | ivl (n : Fin 32)
  | status (n : Fin 32)
  | cap (n : Fin 32)
  | capt (n : Fin 32)
  | snap (n : Fin 32)
  | pcnt (k : Fin 16)
  | preload (k : Fin 16)
  | pcmp (k : Fin 16)
  | pivl (k : Fin 16)
  | pcap (k : Fin 16)
  | psnap (k : Fin 16)
  | snapt
deriving DecidableEq, Repr

/-- The register at a word offset of the block. -/
def gtReg (off : Nat) : Option GtReg :=
  if off < 0x200 then
    let n : Fin 32 := idx 32 (off / 16)
    match off % 16 with
    | 0 => some (.cfg n)
    | 1 => some (.pre n)
    | 2 => some (.ctl n)
    | 3 => some (.cnt n)
    | 4 => some (.reload n)
    | 5 => some (.cmp n)
    | 6 => some (.ivl n)
    | 7 => some (.status n)
    | 8 => some (.cap n)
    | 9 => some (.capt n)
    | 10 => some (.snap n)
    | _ => none
  else if off < 0x300 then
    let k : Fin 16 := idx 16 (off / 16)
    match off % 16 with
    | 0 => some (.pcnt k)
    | 1 => some (.preload k)
    | 2 => some (.pcmp k)
    | 3 => some (.pivl k)
    | 4 => some (.pcap k)
    | 5 => some (.psnap k)
    | _ => none
  else if off = 0x400 then some .snapt
  else none

/-- Gauge 2k of a pair. -/
def pairLo (k : Fin 16) : Fin 32 := ⟨2 * k.val, by omega⟩
/-- Gauge 2k + 1 of a pair. -/
def pairHi (k : Fin 16) : Fin 32 := ⟨2 * k.val + 1, by omega⟩
/-- The pair of a gauge. -/
def pairOf (n : Fin 32) : Fin 16 := ⟨n.val / 2, by omega⟩

/-- The unit of a GT register: its gauge, or gauge 2k of a pair (R346). -/
def GtReg.unit : GtReg → Option Nat
  | .cfg n => some n.val
  | .pre n => some n.val
  | .ctl n => some n.val
  | .cnt n => some n.val
  | .reload n => some n.val
  | .cmp n => some n.val
  | .ivl n => some n.val
  | .status n => some n.val
  | .cap n => some n.val
  | .capt n => some n.val
  | .snap n => some n.val
  | .pcnt k => some (2 * k.val)
  | .preload k => some (2 * k.val)
  | .pcmp k => some (2 * k.val)
  | .pivl k => some (2 * k.val)
  | .pcap k => some (2 * k.val)
  | .psnap k => some (2 * k.val)
  | .snapt => none

/-! ### Captures (R353, R354) -/

/-- Append a capture to a queue of four; one that finds it full is lost and told in the newest entry. -/
def Gauge.append (g : Gauge) (c : Capture) : Gauge :=
  if g.queue.length < 4 then { g with queue := g.queue ++ [c] }
  else
    let mark : List Capture := match g.queue.reverse with
      | [] => []
      | e :: r => (({ e with ovf := true } : Capture) :: r).reverse
    { g with queue := mark, capovf := true, lost := satInc g.lost }

/-- The captures of an Imtur tick join the queue after the pops of that tick (R354). -/
def Gauge.settled (g : Gauge) : Gauge := { g.late.foldl Gauge.append g with late := [] }

/-- The queue as a pop or a capture at a tick finds it: captures of earlier ticks have joined it. (DESIGN CHOICE, log 89) -/
def Gauge.upTo (g : Gauge) (now : BitVec 64) : Gauge := if g.lateAt = now then g else g.settled

/-- A capture at a tick. -/
def Gauge.capture (g : Gauge) (now : BitVec 64) (c : Capture) : Gauge :=
  let g := g.upTo now
  { g with late := g.late ++ [c], lateAt := now }

/-- A pop at a tick: the entry that was oldest before it, and the gauge after; none where the queue was empty. (DESIGN CHOICE, log 89) -/
def Gauge.pop (g : Gauge) (now : BitVec 64) : Option (Capture × Gauge) :=
  let g := g.upTo now
  match g.queue with
  | [] => none
  | c :: r => some (c, { g with queue := r, capt := c.stamp, lastovf := c.ovf })

/-! ### Loads -/

/-- GTn_STATUS as read. -/
def Gauge.statusBits (g : Gauge) : BitVec 64 :=
  let g := g.settled
  fbit 0 g.zf ||| fbit 1 g.cf ||| fbit 2 g.capovf ||| fbit 3 g.lastovf ||| putN 4 g.queue.length ||| fbit 7 g.cfgerr |||
  put 32 g.lost

/-- Two halves of a pair as one value. -/
def pair64 (lo hi : BitVec 32) : BitVec 64 := hi ++ lo

/-- A load of GTn_CAP or GTPk_CAP: a pop, which returns the count in RAW or CONST:EMPTY (R354). -/
def State.gtPop (s : State) (n : Fin 32) (wide : Bool) : Word × State :=
  match s.gauges[n].pop s.now with
  | none => (Word.empty, s)
  | some (c, g) => (Word.raw (if wide then c.count else put 0 (fld c.count 0 32)), s.modGauge n fun _ => g)

/-- A load of a GT register. -/
def State.gtLoad (s : State) (r : GtReg) : RegLd :=
  let two (k : Fin 16) (f : Gauge → BitVec 32) : RegLd := ldRaw s (pair64 (f s.gauges[pairLo k]) (f s.gauges[pairHi k]))
  match r with
  | .cfg n => ldRaw s s.gauges[n].cfg
  | .pre n => ldRaw s s.gauges[n].pre
  | .ctl n => ldRaw s (fbit 0 s.gauges[n].en)
  | .cnt n => ldRaw s (put 0 s.gauges[n].cnt)
  | .reload n => ldRaw s (put 0 s.gauges[n].reload)
  | .cmp n => ldRaw s (put 0 s.gauges[n].cmp)
  | .ivl n => ldRaw s (put 0 s.gauges[n].ivl)
  | .status n => ldRaw s s.gauges[n].statusBits
  | .cap n => .ok (s.gtPop n false)
  | .capt n => ldRaw s s.gauges[n].capt
  | .snap n => ldRaw s (put 0 s.gauges[n].snap)
  | .pcnt k => two k (·.cnt)
  | .preload k => two k (·.reload)
  | .pcmp k => two k (·.cmp)
  | .pivl k => two k (·.ivl)
  | .pcap k => .ok (s.gtPop (pairLo k) true)
  | .psnap k => two k (·.snap)
  | .snapt => ldRaw s s.gtSnapT

/-! ### Stores (R346, R347, R350, R351) -/

/-- SRC of a configuration. -/
def gtSrc (cfg : BitVec 64) : Nat := (fld cfg 0 3).toNat

/-- Whether a chain of SRC 100 selections that starts at gauge k reaches gauge n. -/
def State.chainReaches (s : State) (n : Fin 32) : Nat → Fin 32 → Bool
  | 0, _ => false
  | fuel + 1, k =>
    k == n || (gtSrc s.gauges[k].cfg == 4 && State.chainReaches s n fuel ((fld s.gauges[k].cfg 9 5).toFin))

/-- Whether a store to GTn_CFG is refused (R346). -/
def State.gtCfgBad (s : State) (n : Fin 32) (v : BitVec 64) : Bool :=
  decide (5 ≤ gtSrc v) || fld v 25 2 == 3 || (bit v 16 && n.val % 2 == 1) ||
    (gtSrc v == 4 && s.chainReaches n 32 ((fld v 9 5).toFin))

/-- A store to GTn_CFG. -/
def State.gtCfgStore (s : State) (n : Fin 32) (v : BitVec 64) : State :=
  if s.gtCfgBad n v then s.modGauge n fun g => { g with cfgerr := true }
  else s.modGauge n fun g =>
    let same := gtSrc v = gtSrc g.cfg
    { g with cfg := put 0 (fld v 0 47), acc := if same then g.acc else 0, due := if same then g.due else 0 }

/-- Whether gauges 2k and 2k + 1 are linked (R355). -/
def State.linked (s : State) (n : Fin 32) : Bool := bit s.gauges[pairLo (pairOf n)].cfg 16

/-- Whether the counter of a gauge runs: its EN, or that of gauge 2k of a linked pair. -/
def State.gtRuns (s : State) (n : Fin 32) : Bool :=
  if s.linked n then s.gauges[pairLo (pairOf n)].en else s.gauges[n].en

/-- A store to a counter: at the end of the counter tick while it runs, else at once (R350). -/
def State.gtCntStore (s : State) (n : Fin 32) (v : BitVec 32) : State :=
  if s.gtRuns n then s.modGauge n fun g => { g with cntStored := some v }
  else s.modGauge n fun g => { g with cnt := v }

/-- A store to CMP: it stands at the end of the tick, without an advance (R351). -/
def State.gtCmpStore (s : State) (n : Fin 32) (v : BitVec 32) : State :=
  s.modGauge n fun g => { g with cmp := v, cmpStored := true }

/-- A counter value that waits for the end of a tick that will not come is loaded. (DESIGN CHOICE, log 90) -/
def Gauge.halt (g : Gauge) : Gauge := { g with cnt := g.cntStored.getD g.cnt, cntStored := none, cmpStored := false }

/-- A store to GTn_CTL: starting clears the accumulator and the output (R347, R352). (DESIGN CHOICE, log 90) -/
def State.gtCtlStore (s : State) (n : Fin 32) (v : BitVec 64) : State :=
  let was := s.gauges[n].en
  let s := s.modGauge n fun g =>
    if bit v 0 then
      if was then g else { g with en := true, acc := 0, due := 0, out := false, cmpStored := false }
    else { g with en := false }
  if s.gtRuns n then s
  else if s.linked n then (s.modGauge (pairLo (pairOf n)) Gauge.halt).modGauge (pairHi (pairOf n)) Gauge.halt
  else s.modGauge n Gauge.halt

/-- A store to a GT register. -/
def State.gtStore (s : State) (r : GtReg) (v : BitVec 64) : RegSt :=
  let lo := fld v 0 32
  let hi := fld v 32 32
  .ok (match r with
    | .cfg n => s.gtCfgStore n v
    | .pre n => s.modGauge n fun g => { g with pre := put 0 lo }
    | .ctl n => s.gtCtlStore n v
    | .cnt n => s.gtCntStore n lo
    | .reload n => s.modGauge n fun g => { g with reload := lo }
    | .cmp n => s.gtCmpStore n lo
    | .ivl n => s.modGauge n fun g => { g with ivl := lo }
    | .status n => s.modGauge n fun g =>
        let g := g.settled
        { g with zf := w1c g.zf v 0, cf := w1c g.cf v 1, capovf := w1c g.capovf v 2, cfgerr := w1c g.cfgerr v 7 }
    | .pcnt k => (s.gtCntStore (pairLo k) lo).gtCntStore (pairHi k) hi
    | .preload k => (s.modGauge (pairLo k) fun g => { g with reload := lo }).modGauge (pairHi k) fun g => { g with reload := hi }
    | .pcmp k => (s.gtCmpStore (pairLo k) lo).gtCmpStore (pairHi k) hi
    | .pivl k => (s.modGauge (pairLo k) fun g => { g with ivl := lo }).modGauge (pairHi k) fun g => { g with ivl := hi }
    | _ => s)

/-- The row of a store to a GT register. -/
def State.gtRow (s : State) (a : Agent) (r : GtReg) (v : BitVec 64) : State :=
  s.rowStore a 2 r.unit fun _ s => s.gtStore r v

/-- The row of a load of a GT register that pops; the word itself goes to the loader. -/
def State.gtPopRow (s : State) (a : Agent) (r : GtReg) : State :=
  match s.who a with
  | none => s
  | some w =>
    if s.granted w 2 r.unit false then
      match s.gtLoad r with
      | .ok (_, s') => s'
      | .error _ => s
    else s

/-! ### The update at the end of a counter tick (R347 to R352) -/

/-- RATIO of a prescaler. -/
def gtRatio (pre : BitVec 64) : Nat :=
  if fld pre 16 16 = 0 then 65536 else (fld pre 16 16).toNat * 65536 + (fld pre 0 16).toNat

/-- The accumulator after the source edges of one counter tick. -/
def gtAcc (a ratio : Nat) : Nat := (a + max 1 (cdiv (ratio - a) 65536) * 65536 - ratio) % 2 ^ 32

/-- What one update of a counter of n bits makes: count, whether it was a zero tick, whether it matched, and CMP. -/
def gaugeUpdate (n : Nat) (oneShot adv : Bool) (cnt reload cmp ivl : BitVec n) (stored : Option (BitVec n))
    (cmpStored : Bool) : BitVec n × Bool × Bool × BitVec n :=
  let (c, zero) : BitVec n × Bool := match stored with
    | some v => (v, false)
    | none => if cnt = 1 then (if oneShot then 0 else reload, true) else (cnt - 1, false)
  let hit := decide (c = cmp)
  (c, zero, hit, if hit && adv && !cmpStored then cmp + ivl else cmp)

/-- Flags, output and one-shot stop of an update, on the gauge that keeps them. -/
def Gauge.flags (g : Gauge) (zero hit : Bool) : Gauge :=
  { g with zf := g.zf || zero, cf := g.cf || hit, en := g.en && !(zero && bit g.cfg 15)
           acc := if gtSrc g.cfg = 4 then g.acc else gtAcc g.acc (gtRatio g.pre), due := g.due - 1, cntStored := none, cmpStored := false
           out := match (fld g.cfg 27 2).toNat with
             | 1 => g.out ^^ hit
             | 2 => hit
             | 3 => g.out ^^ zero
             | _ => g.out }

/-- The zero event of a gauge is one edge for every running gauge that has it as its source: the prescaler may make a gauge tick of it
(R347). -/
def State.gtFeed (s : State) (m : Fin 32) (zero : Bool) : State :=
  if zero then
    { s with gauges := Vector.ofFn fun n =>
        let g := s.gauges[n]
        if g.en && gtSrc g.cfg == 4 && fld g.cfg 9 5 == BitVec.ofNat 5 m.val then
          let a := g.acc + 65536
          if gtRatio g.pre ≤ a then { g with acc := a - gtRatio g.pre, due := g.due + 1 } else { g with acc := a }
        else g }
  else s

/-- Whether a gauge tick can come: from the zero events of a source gauge only where one is due, from a pin only while a GAUGE_IN leaf sees
it (R347, R436). -/
def State.gtTicks (s : State) (g : Gauge) : Bool :=
  match gtSrc g.cfg with
  | 3 => s.gaugeSees ((fld g.cfg 3 6).toFin)
  | 4 => decide (0 < g.due)
  | _ => true

/-- Whether the always-on domain is powered and out of reset. -/
def State.aonOn (s : State) : Bool := s.pwr.supplied && !s.pwr.porLow

/-- The event lines of an update (R352). -/
def State.gtRaise (s : State) (cfg : BitVec 64) (zero hit : Bool) : State :=
  let s := if zero && bit cfg 37 then s.raise ((fld cfg 29 8).toFin) else s
  if hit && bit cfg 46 then s.raise ((fld cfg 38 8).toFin) else s

/-- GAUGE_TICK: a counter tick of a running gauge ends; a linked pair updates as one 64-bit counter at gauge 2k. -/
def execGaugeTick (n : Fin 32) (s : State) : Host.Outcome State Fault Refusal :=
  let g := s.gauges[n]
  let one := bit g.cfg 15
  let adv := bit g.cfg 17
  ok (if !s.aonOn || !g.en || !(s.gtTicks g) then s
    else if s.linked n then
      if n.val % 2 = 1 then s
      else
        let m := pairHi (pairOf n)
        let h := s.gauges[m]
        let stored := if g.cntStored.isSome || h.cntStored.isSome then
            some (pair64 (g.cntStored.getD g.cnt) (h.cntStored.getD h.cnt)) else none
        let (c, zero, hit, cmp) := gaugeUpdate 64 one adv (pair64 g.cnt h.cnt) (pair64 g.reload h.reload)
          (pair64 g.cmp h.cmp) (pair64 g.ivl h.ivl) stored (g.cmpStored || h.cmpStored)
        let s := s.modGauge n fun g => { g with cnt := fld c 0 32, cmp := fld cmp 0 32 }.flags zero hit
        let s := s.modGauge m fun h => { h with cnt := fld c 32 32, cmp := fld cmp 32 32, cntStored := none, cmpStored := false }
        (s.gtFeed n zero).gtRaise g.cfg zero hit
    else
      let (c, zero, hit, cmp) := gaugeUpdate 32 one adv g.cnt g.reload g.cmp g.ivl g.cntStored g.cmpStored
      ((s.modGauge n fun g => { g with cnt := c, cmp := cmp }.flags zero hit).gtFeed n zero).gtRaise g.cfg zero hit)

/-! ### Rows -/

/-- GT_CNT_WRITE: a store to GTn_CNT (R350). -/
def execGtCntWrite (a : Agent) (n : Fin 32) (v : BitVec 64) (s : State) : Host.Outcome State Fault Refusal :=
  ok (s.gtRow a (.cnt n) v)

/-- GT_CMP_WRITE: a store to GTn_CMP (R351). -/
def execGtCmpWrite (a : Agent) (n : Fin 32) (v : BitVec 64) (s : State) : Host.Outcome State Fault Refusal :=
  ok (s.gtRow a (.cmp n) v)

/-- GT_ENABLE: a store to GTn_CTL (R347). -/
def execGtEnable (a : Agent) (n : Fin 32) (v : BitVec 64) (s : State) : Host.Outcome State Fault Refusal :=
  ok (s.gtRow a (.ctl n) v)

/-- GT_PRE_WRITE: a store to GTn_PRE (R347). -/
def execGtPreWrite (a : Agent) (n : Fin 32) (v : BitVec 64) (s : State) : Host.Outcome State Fault Refusal :=
  ok (s.gtRow a (.pre n) v)

/-- GT_CFG_WRITE: a store to GTn_CFG (R346). -/
def execGtCfgWrite (a : Agent) (n : Fin 32) (v : BitVec 64) (s : State) : Host.Outcome State Fault Refusal :=
  ok (s.gtRow a (.cfg n) v)

/-- Whether an edge is one of CAPEDGE. -/
def capEdge (cfg : BitVec 64) (rising : Bool) : Bool :=
  let e := fld cfg 25 2
  e == 2 || (e == 0 && rising) || (e == 1 && !rising)

/-- GAUGE_CAPTURE: an edge on the capture input, seen by a GAUGE_IN leaf in its slot, appends the count and its stamp
(R353, R436). -/
def execGaugeCapture (n : Fin 32) (rising : Bool) (s : State) : Host.Outcome State Fault Refusal :=
  let g := s.gauges[n]
  let count := if s.linked n then pair64 g.cnt s.gauges[pairHi (pairOf n)].cnt else put 0 g.cnt
  ok (if s.aonOn && bit g.cfg 18 && capEdge g.cfg rising && !(s.linked n && n.val % 2 == 1) &&
        s.gaugeSees ((fld g.cfg 19 6).toFin) then
      s.modGauge n fun g => g.capture s.now { count := count, stamp := s.now }
    else s)

/-- GT_CAP_POP: a load of GTn_CAP (R354). -/
def execGtCapPop (a : Agent) (n : Fin 32) (s : State) : Host.Outcome State Fault Refusal := ok (s.gtPopRow a (.cap n))

/-- GTP_CAP_POP: a load of GTPk_CAP (R355). -/
def execGtpCapPop (a : Agent) (k : Fin 16) (s : State) : Host.Outcome State Fault Refusal := ok (s.gtPopRow a (.pcap k))

/-- GAUGE_SNAP on a mask at the present tick (R357). -/
def State.gaugeSnap (s : State) (mask : BitVec 32) : State :=
  { s with gtSnapT := s.now
           gauges := Vector.ofFn fun n => if bit mask n.val then { s.gauges[n] with snap := s.gauges[n].cnt } else s.gauges[n] }

end Sys2Proof.Machine
end

