-- ==== Sys2Proof/Machine/CutList.lean ====
section
/-! DEFINITION. Cut lists and the trigger queue (R287 to R296): registers, activation, the actions of Table 12-5 and their
errors. -/

namespace Sys2Proof.Machine

open Sys2Proof

/-! ### Commits (R293) -/

/-- The actions of a list's old copy that were due before a boundary and have not run stay deferred; one that waits for a late
predecessor is skipped where LATEOK is 0. (DEDUCED, log 74) -/
def State.gatherDeferred (s : State) (n : Fin 16) (b : Nat) : Nat → State
  | 0 => s
  | fuel + 1 =>
    match s.cutHeadNew n with
    | none => s
    | some h =>
      let waits := !s.cuts[n].deferred.isEmpty && decide (s.cuts[n].lastDue < h.due) && !h.bad && !(cutLateOk h.action)
      if h.skip || (waits && decide (h.due < b)) then State.gatherDeferred (s.modCut n fun l => { l.pass h.takes with stale := satInc l.stale }) n b fuel
      else if h.due < b then
        let s := s.modCut n fun l =>
          { l.pass h.takes with lastDue := max l.lastDue h.due
                                deferred := l.deferred ++ [⟨h.entry, h.action, h.due, h.inst, h.payload, h.bad⟩] }
        State.gatherDeferred s n b fuel
      else s

/-- The words of a list's region change places between the shadow and the active copy. (DESIGN CHOICE, log 70) -/
def State.cutSwap (s : State) (l : CutList) : State :=
  (List.range (2 * l.cap.toNat)).foldl (fun (s : State) i =>
    let a := 2 * l.base.toNat + i
    let x := memGet s.mem (0xE100000000 + a)
    let y := memGet s.cutActive a
    { s with mem := memPut s.mem (0xE100000000 + a) y, cutActive := memPut s.cutActive a x }) s

/-- Whether the boundary at which a commit of a list takes effect has come (R293). -/
def State.activationDue (s : State) (n : Fin 16) : Bool :=
  s.alive && s.cuts[n].pending && decide ((boundaryAfter s.cuts[n].pendAt).toNat ≤ s.now.toNat)

/-- The commit of a list takes effect, where its boundary has come: the copies and configurations are swapped and the list starts at
index 0 (R293). (DESIGN CHOICE, log 70) -/
def State.activate (s : State) (n : Fin 16) : State :=
  if s.activationDue n then
    let l := s.cuts[n]
    let b := boundaryAfter l.pendAt
    let s := (s.gatherDeferred n b.toNat 131072).cutSwap l
    let s := s.modCut n fun l =>
      let l := { l with acfg := (fld l.scfg 0 48).setWidth 64, scfg := l.acfg, done := false, next := 0
                        pending := false, started := true, actAt := b, lastDue := 0, lastRun := 0 }
      { l with frame := l.frameFrom (b.toNat / 10000), done := !l.cyclic && l.len == 0 }
    s.cutSettle n 131072
  else s

/-- CUT_LIST_ACTIVATION: the start of the tick of a boundary. -/
def execCutListActivation (n : Fin 16) (s : State) : Host.Outcome State Fault Refusal := ok (s.activate n)

/-- A commit request on a list; a second one before the boundary has no further effect, and one at or after it is a new request. -/
def State.clRequest (s : State) (n : Fin 16) : State :=
  (s.activate n).modCut n fun l => if l.pending then l else { l with pending := true, pendAt := s.now }

/-- The request of a list is withdrawn, unless its boundary has come. -/
def State.clCancel (s : State) (n : Fin 16) : State := (s.activate n).modCut n fun l => { l with pending := false }

/-! ### Checks of an action (R288, R289, R294) -/

/-- ARG of an action word. -/
def cutArg (a : Word) : BitVec 48 := fld a.datum 16 48

/-- The ARG bits that an OP names. -/
def argBits (op : Nat) : Nat :=
  match op with
  | 0x01 => 32
  | 0x02 => 32
  | 0x03 => 16
  | 0x04 => 16
  | 0x05 => 8
  | 0x06 => 24
  | 0x07 => 32
  | 0x08 => 22
  | 0x0A => 13
  | _ => 0

/-- Whether an action word is well formed: RAW, a defined OP, reserved and unnamed bits zero, no reserved mode. -/
def cutFormat (a : Word) : Bool :=
  let op := cutOp a
  let arg := cutArg a
  a.tag == 0x07 && decide (op ≤ 0x0A) && fld a.datum 9 7 == 0 && decide (arg.toNat < 2 ^ argBits op) &&
    !(op == 0x06 && (fld arg 6 2 == 3 || (fld arg 6 2 == 2 && fld arg 8 16 == 0)))

/-- Whether a world has been granted stores to a unit of a block. (DEDUCED, log 127) -/
def State.cutMay (s : State) (w : Fin 2) (block : Fin 16) (u : Nat) : Bool :=
  bit s.worlds[w].storeGrant block.val && s.unitGranted w block u

/-- The world of the binding that an event on a line reaches: IRQ where it is routed, else BIND. (DEDUCED, log 74) -/
def State.lineWorld (s : State) (n : Fin 256) : BitVec 2 := if s.jig.irq[n].en then s.jig.irq[n].world else s.jig.ev[n].world

/-- Whether a world may perform an action: units granted, lines and lists of its own (R289). -/
def State.cutGranted (s : State) (w : Fin 2) (op : Nat) (arg : BitVec 48) : Bool :=
  let code : BitVec 2 := BitVec.ofNat 2 w.val
  match op with
  | 0x01 => (bitsOf arg 32).all fun n => s.cutMay w 3 n
  | 0x02 => (bitsOf arg 32).all fun n => s.cutMay w 3 n
  | 0x03 => (bitsOf arg 16).all fun n => s.cutMay w 4 n
  | 0x05 => s.lineWorld (fld arg 0 8).toFin == code
  | 0x06 => s.cutMay w 10 (fld arg 0 6).toNat
  | 0x07 => (bitsOf arg 32).all fun n => s.cutMay w 2 n
  | 0x08 =>
    ((List.finRange 16).all fun n => !(bit arg n.val) || s.cuts[n].world == code) &&
      ((List.range 4).all fun b => !(bit arg (16 + b)) || s.cutMay w 10 (16 * b))
  | _ => true

/-- Whether every unit that an action names is there. -/
def State.cutThere (s : State) (op : Nat) (arg : BitVec 48) : Bool :=
  match op with
  | 0x01 => (List.finRange 32).all fun n => !(bit arg n.val) || s.slOn n
  | 0x02 => (List.finRange 32).all fun n => !(bit arg n.val) || s.slOn n
  | 0x03 => (List.finRange 16).all fun n => !(bit arg n.val) || s.dlOn n
  | 0x04 => (List.finRange 16).all fun n => !(bit arg n.val) || s.dlOn n
  | _ => true

/-- The error of an action of a world, in the order FORMAT, PRIV, ABSENT. -/
def State.cutCheck (s : State) (w : Fin 2) (a : Word) : Option (BitVec 3) :=
  if !cutFormat a then some 2
  else if !s.cutGranted w (cutOp a) (cutArg a) then some 5
  else if !s.cutThere (cutOp a) (cutArg a) then some 3
  else none

/-! ### Running actions (R290 to R292) -/

/-- CUT_LIST_ERROR: record an error of a list's entry and raise line 252 (R294). -/
def State.cutError (s : State) (n : Fin 16) (code : BitVec 3) (entry : Nat) : State :=
  (s.modCut n fun l =>
    { l with errCode := code, errEntry := BitVec.ofNat 15 entry, errs := satInc l.errs }).guardEvent 5 n.val

/-- An error of a trigger's action. -/
def State.trigError (s : State) (code : BitVec 3) : State :=
  ({ s with trigq := { s.trigq with lastErr := code } }).guardEvent 5 16

/-- The next trigger: the one due first, in order of arrival. -/
def State.nextTrig (s : State) : Option Trig := minBy (fun t : Trig => t.due) s.trigq.queue

/-- The next action of the device: the least due tick, then the list number, then the trigger queue (R290). -/
def State.cutNext (s : State) : Option (Nat × ActSrc) :=
  let lists := (List.finRange 16).filterMap fun n => (s.cutHead n).map fun h => (h.due, ActSrc.list n)
  let trig := match s.nextTrig with
    | some t => [(t.due, ActSrc.trigger)]
    | none => []
  minBy (fun e : Nat × ActSrc => e.1) (lists ++ trig)

/-- Whether the action of a source is the one that runs now: it is due, nothing precedes it, fewer than 64 actions have
run in this tick, and no commit is left to take effect at its start (R293). (DEDUCED, log 71) -/
def State.cutTurn (s : State) (src : ActSrc) : Bool :=
  s.alive && (List.finRange 16).all (fun n => !(s.activationDue n)) && (match s.cutNext with
    | some (d, x) => decide (x = src) && decide (d ≤ s.now.toNat)
    | none => false) && !(s.trigq.ranAt == s.now && decide (64 ≤ s.trigq.ran))

/-- Count one action of this tick. (DEDUCED, log 71) -/
def State.countAction (s : State) : State :=
  let t := s.trigq
  { s with trigq := { t with ranAt := s.now, ran := if t.ranAt = s.now then t.ran + 1 else 1 } }

/-- A list goes past its head. -/
def State.cutDone (s : State) (n : Fin 16) (h : CutHead) : State :=
  if h.old then s.modCut n fun l => { l with deferred := l.deferred.tail }
  else (s.modCut n fun l => { l.pass h.takes with lastDue := max l.lastDue h.due, lastRun := s.now.toNat }).cutSettle n 131072

/-- An action of a list runs late: CUT_LATE and its lateness. -/
def State.cutLate (s : State) (n : Fin 16) (h : CutHead) : State :=
  let late := s.now.toNat - h.inst
  if late = 0 then s
  else s.modCut n fun l =>
    { l with cutLate := true, lateness := BitVec.ofNat 32 (min late (2 ^ 32 - 1)), lateEntry := BitVec.ofNat 15 h.entry }

/-- A trigger's action runs late. -/
def State.trigLate (s : State) (t : Trig) : State :=
  let late := s.now.toNat - t.target.toNat
  if late = 0 then s
  else { s with trigq := { s.trigq with cutLate := true, lateness := BitVec.ofNat 22 (min late (2 ^ 22 - 1)) } }

/-- Run the next action of a source, if it is that source's turn and its OP is the one of the row: it is performed, or its
error is recorded. -/
def State.runAction (s : State) (src : ActSrc) (op : Nat) (perform : State → Fin 2 → BitVec 48 → State) : State :=
  if !s.cutTurn src then s
  else match src with
    | .list n =>
      match s.cutHead n with
      | none => s
      | some h =>
        if h.bad || h.action.tag != 0x07 || cutOp h.action != op then s
        else
          let w := worldIx s.cuts[n].world
          let s := s.countAction
          match s.cutCheck w h.action with
          | some e => (s.cutError n e h.entry).cutDone n h
          | none => (perform (s.cutLate n h) w (cutArg h.action)).cutDone n h
    | .trigger =>
      match s.nextTrig with
      | none => s
      | some t =>
        if t.action.tag != 0x07 || cutOp t.action != op then s
        else
          let s := { s.countAction with trigq := { s.countAction.trigq with queue := s.trigq.queue.erase t } }
          match s.cutCheck t.world t.action with
          | some e => s.trigError e
          | none => perform (s.trigLate t) t.world (cutArg t.action)

/-- Apply an operation to each unit of a mask. -/
def State.eachUnit {n : Nat} (s : State) (arg : BitVec 48) (f : State → Fin n → State) : State :=
  (List.finRange n).foldl (fun (s : State) i => if bit arg i.val then f s i else s) s

/-- A corrected error of the cut-list memory is counted; the corrected word is in place (R32). -/
def State.cutCorrected (s : State) (ecc : Secded) : State :=
  if ecc = .corrected then { s with cutFixed := satInc s.cutFixed } else s

/-- CUT_NOP: a NOP action runs. The same row stands for an entry with nothing to perform: an uncorrectable error in its
words (ECC), an unusable first word, a wrong tag or an undefined OP (FORMAT, R294); and for a corrected error in the words of any entry
(R32). (DESIGN CHOICE, log 73) -/
def execCutNop (src : ActSrc) (ecc : Secded) (s : State) : Host.Outcome State Fault Refusal :=
  let nothing (a : Word) : Bool := a.tag != 0x07 || decide (0x0A < cutOp a)
  ok (if !s.cutTurn src then s
    else match src with
      | .list n =>
        match s.cutHead n with
        | none => s
        | some h =>
          if ecc = .lost then (s.countAction.cutError n 1 h.entry).cutDone n h
          else
            let s := s.cutCorrected ecc
            if h.bad || nothing h.action then (s.countAction.cutError n 2 h.entry).cutDone n h
            else s.runAction src 0x00 fun s _ _ => s
      | .trigger =>
        match s.nextTrig with
        | none => s
        | some t =>
          if nothing t.action || isKtrig t.action then
            let s := s.countAction
            ({ s with trigq := { s.trigq with queue := s.trigq.queue.erase t } }).trigError 2
          else s.runAction src 0x00 fun s _ _ => s)

/-- LANE_START. -/
def execLaneStart (src : ActSrc) (s : State) : Host.Outcome State Fault Refusal :=
  ok (s.runAction src 0x01 fun s _ arg => s.eachUnit arg State.slStart)

/-- LANE_STOP. -/
def execLaneStop (src : ActSrc) (s : State) : Host.Outcome State Fault Refusal :=
  ok (s.runAction src 0x02 fun s _ arg => s.eachUnit arg State.slStop)

/-- DRIVE_COMMIT. -/
def execDriveCommit (src : ActSrc) (s : State) : Host.Outcome State Fault Refusal :=
  ok (s.runAction src 0x03 fun s _ arg => s.eachUnit arg State.driveCommit)

/-- DRIVE_MUTE: permitted in a list of either world; never unmutes. -/
def execDriveMute (src : ActSrc) (s : State) : Host.Outcome State Fault Refusal :=
  ok (s.runAction src 0x04 fun s _ arg =>
    s.eachUnit arg fun s n => (s.modDl n fun l => { l with lmute := true }).muteLane n)

/-- CUT_EVENT: the line is raised with this tick as stamp. -/
def execCutEvent (src : ActSrc) (s : State) : Host.Outcome State Fault Refusal :=
  ok (s.runAction src 0x05 fun s _ arg => s.raise (fld arg 0 8).toFin)

/-- CUT_HINGE: the pin's Imtur-trigger leaf is cleared, set or pulsed. -/
def execCutHinge (src : ActSrc) (s : State) : Host.Outcome State Fault Refusal :=
  ok (s.runAction src 0x06 fun s _ arg => s.hingeAct (fld arg 0 6).toFin (fld arg 6 2).toNat (fld arg 8 16))

/-- GAUGE_SNAP. -/
def execGaugeSnap (src : ActSrc) (s : State) : Host.Outcome State Fault Refusal :=
  ok (s.runAction src 0x07 fun s _ arg => s.gaugeSnap (fld arg 0 32))

/-- COMMIT_TABLES: requests commit of each named table; the lane configurations are those of the lanes granted to the
list's world. -/
def execCommitTables (src : ActSrc) (s : State) : Host.Outcome State Fault Refusal :=
  ok (s.runAction src 0x08 fun s w arg =>
    let s := s.eachUnit arg State.clRequest
    let s := (List.finRange 4).foldl (fun (s : State) b => if bit arg (16 + b.val) then s.hngRequest b else s) s
    let s := if bit arg 20 then
        (List.finRange 32).foldl (fun (s : State) n => if s.cutMay w 3 n.val then s.slAsk n else s) s
      else s
    if bit arg 21 then
      (List.finRange 16).foldl (fun (s : State) n => if s.cutMay w 4 n.val then s.dlRequest n else s) s
    else s)

/-- VENEER_COMMIT: the armed package is committed; with nothing armed only IGNORED counts (R270). -/
def execVeneerCommit (src : ActSrc) (s : State) : Host.Outcome State Fault Refusal :=
  ok (s.runAction src 0x09 fun s _ _ =>
    if s.ven.armed then s.requestCommit.veneerOutcome else { s with ven := { s.ven with ignored := satInc s.ven.ignored } })

/-- Whether the payload of a KTRIG is one that can be sent: a SPAN and any action but KTRIG. (DEDUCED, log 72) -/
def payloadOk (p : Option (Word × Word)) : Bool :=
  match p with
  | some (d, a) => d.tag == 0x05 && cutFormat a && cutOp a != 0x0A
  | none => false

/-- KTRIG: the next entry is sent to other devices with the target instant T, its own instant plus the delay, if at least
2,000 ticks are left (R292). (DEDUCED, log 72) -/
def execKtrig (n : Fin 16) (ecc : Secded) (s : State) : Host.Outcome State Fault Refusal :=
  ok (if !s.cutTurn (.list n) then s
    else match s.cutHead n with
      | none => s
      | some h =>
        if h.bad || !isKtrig h.action then s
        else
          let s := s.countAction.cutCorrected ecc
          if ecc = .lost then (s.cutError n 1 h.entry).cutDone n h
          else if !cutFormat h.action || !payloadOk h.payload then (s.cutError n 2 h.entry).cutDone n h
          else match h.payload with
            | none => s
            | some (d, a) =>
              let t : Int := (h.inst : Int) + d.datum.toInt
              if t - s.now.toNat < 2000 then (s.cutError n 4 h.entry).cutDone n h
              else
                let w := worldIx s.cuts[n].world
                let arg := cutArg h.action
                let target := BitVec.ofInt 64 t
                let s := s.cutLate n h
                let s := if bit arg 12 then s.kmBroadcast w a target
                  else s.kmOriginate (fld arg 0 12) (.trigger w a target none)
                s.cutDone n h)

/-! ### Registers (Table 12-7) -/

/-- A cut-list register. -/
inductive CutReg where
  | list (n : Fin 16) (r : Fin 7)
  | trigq
deriving DecidableEq, Repr

/-- The register at a word offset of the IMT block. -/
def cutReg (off : Nat) : Option CutReg :=
  if off = 0x200 then some .trigq
  else match inRange off 0x100 0x10 16 with
    | some (n, r) => if h : r < 7 then some (.list (idx 16 n) ⟨r, h⟩) else none
    | none => none

/-- CL_TRIGQ as read. -/
def TrigQ.bits (t : TrigQ) : BitVec 64 :=
  putN 0 t.queue.length ||| fbit 7 t.cutLate ||| fbit 8 t.acceptT ||| fbit 9 t.acceptG ||| put 10 t.lateness |||
    put 32 t.dropped ||| put 48 t.lastErr

/-- A list's register as read. -/
def CutList.regBits (l : CutList) (r : Fin 7) : BitVec 64 :=
  match r.val with
  | 0 => put 0 l.base ||| put 14 l.cap ||| put 29 l.world
  | 1 => put 0 (fld l.scfg 0 48)
  | 2 => put 0 (fld l.acfg 0 48)
  | 3 => fbit 2 l.pending
  | 4 => put 0 l.next ||| fbit 15 l.done ||| fbit 16 l.cutLate ||| put 32 l.errs ||| put 48 l.stale
  | 5 => put 0 l.lateness ||| put 32 l.lateEntry
  | _ => put 0 l.errCode ||| put 3 l.errEntry

/-- A load of a cut-list register. -/
def State.cutLoad (s : State) (r : CutReg) : RegLd :=
  match r with
  | .trigq => ldRaw s s.trigq.bits
  | .list n r => ldRaw s (s.cuts[n].regBits r)

/-- Whether an agent may write the RW and W1S fields of a list: the supervisor of its world, or Favar (R295). -/
def State.cutOwner (s : State) (a : Who) (n : Fin 16) : Bool := a.isFavar || a.sup (worldIx s.cuts[n].world)

/-- A store to a cut-list register. With COMMIT and CANCEL both written 1 the request is made and withdrawn, so CANCEL wins. (DESIGN CHOICE,
log 157) -/
def State.cutStore (s : State) (a : Who) (r : CutReg) (v : BitVec 64) : RegSt :=
  match r with
  | .trigq =>
    let t := { s.trigq with cutLate := w1c s.trigq.cutLate v 7 }
    .ok { s with trigq := if a.isFavar then { t with acceptT := bit v 8, acceptG := bit v 9 } else t }
  | .list n r =>
    match r.val with
    | 0 => a.rwf s (s.modCut n fun l => { l with base := fld v 0 14, cap := fld v 14 15, world := fld v 29 2 })
    | 1 => if s.cutOwner a n then .ok ((s.activate n).modCut n fun l => { l with scfg := (fld v 0 48).setWidth 64 }) else .error ()
    | 3 =>
      if s.cutOwner a n then
        let s := if bit v 0 then s.clRequest n else s
        .ok (if bit v 1 then s.clCancel n else s)
      else .error ()
    | 4 => .ok (s.modCut n fun l => { l with cutLate := w1c l.cutLate v 16 })
    | _ => .ok s

/-- CL_COMMIT: COMMIT = 1 in CL_n_CTL. -/
def execClCommit (a : Agent) (n : Fin 16) (v : BitVec 64) (s : State) : Host.Outcome State Fault Refusal :=
  ok (if bit v 0 then s.rowStore a 1 (some n.val) fun w s => s.cutStore w (.list n 3) v else s)

/-- CL_CANCEL: CANCEL = 1 in CL_n_CTL. -/
def execClCancel (a : Agent) (n : Fin 16) (v : BitVec 64) (s : State) : Host.Outcome State Fault Refusal :=
  ok (if bit v 1 then s.rowStore a 1 (some n.val) fun w s => s.cutStore w (.list n 3) v else s)

end Sys2Proof.Machine
end

