-- ==== Sys2Proof/Machine/Marquetry.lean ====
section
/-! DEFINITION. Marquetry: the coding of blocks, segments, the log and retention rings, windows and registers (R338 to R344,
block 6). -/

namespace Sys2Proof.Machine

open Sys2Proof

/-! ### CRC-32C -/

/-- One bit of CRC-32C, least significant bit first. -/
def crcBit (c : BitVec 32) : BitVec 32 := if bit c 0 then (c >>> 1) ^^^ 0x82F63B78 else c >>> 1

/-- One byte of CRC-32C. -/
def crcByte (c : BitVec 32) (b : BitVec 8) : BitVec 32 := (List.range 8).foldl (fun c _ => crcBit c) (c ^^^ b.setWidth 32)

/-- CRC-32C over bytes. -/
def crc32c (bs : List (BitVec 8)) : BitVec 32 := ~~~(bs.foldl crcByte 0xFFFFFFFF)

/-! ### Coding of a block (R339) -/

/-- A sample as Marquetry codes it: an integer, an exception with its FP32 pattern, or one lost to POISON. -/
inductive MqSample where
  | int (x : Int)
  | exc (pattern : BitVec 32)
  | lost
deriving DecidableEq, Repr

/-- An FP32 sample: an integer of 32 bits, or an exception. -/
def mqFp32 (b : BitVec 32) : MqSample :=
  match ofF32 b with
  | .fin neg mag =>
    let x : Int := if neg then -(mag.num) else mag.num
    if mag.den = 1 ∧ -(2 ^ 31) ≤ x ∧ x < 2 ^ 31 then .int x else .exc b
  | _ => .exc b

/-- Sample i of a block's sample words; a marked PK16 sample has the pattern of a marked FP32 sample (R309). -/
def mqSample (pk16 : Bool) (ws : List Word) (i : Nat) : MqSample :=
  let w := ws.getD (if pk16 then i / 4 else i / 2) Word.nil
  if w.tag = 0xFE then .lost
  else if pk16 then
    let c := fld w.datum (16 * (i % 4)) 16
    if c = 0x8000 then .exc 0x7FC00001 else .int c.toInt
  else mqFp32 (fld w.datum (32 * (i % 2)) 32)

/-- The integers used for prediction: an exception takes the value of the preceding integer, or 0. -/
def mqInts : Int → List MqSample → List Int
  | _, [] => []
  | _, .int x :: r => x :: mqInts x r
  | last, _ :: r => last :: mqInts last r

/-- n bits of a number, least significant first. -/
def bitsLE : Nat → Nat → List Bool
  | 0, _ => []
  | n + 1, x => (x % 2 == 1) :: bitsLE n (x / 2)

/-- The prediction of order p from the integers before, nearest first; the order is lowered where they are too few. -/
def mqPredict (p : Nat) (hist : List Int) : Int :=
  match p, hist with
  | 0, _ => 0
  | _, [] => 0
  | 1, a :: _ => a
  | _, [a] => a
  | 2, a :: b :: _ => 2 * a - b
  | _, [a, b] => 2 * a - b
  | _, a :: b :: c :: _ => 3 * a - 3 * b + c

/-- The mapped residuals of a partition and the history after it. -/
def mqResiduals (p : Nat) : List Int → List Int → List Nat × List Int
  | hist, [] => ([], hist)
  | hist, x :: r =>
    let e := x - mqPredict p hist
    let u := if 0 ≤ e then (2 * e).toNat else (-2 * e - 1).toNat
    let (us, h) := mqResiduals p ((x :: hist).take 3) r
    (u :: us, h)

/-- The Rice code of a residual. -/
def riceBits (k u : Nat) : List Bool := List.replicate (u / 2 ^ k) true ++ false :: bitsLE k u

/-- The bits that a parameter needs for residuals. -/
def riceCost (k : Nat) (us : List Nat) : Nat := us.foldl (fun n u => n + u / 2 ^ k + 1 + k) 0

/-- The code of one partition under the device's choice of p and k; the escape is taken whenever no k from 0 to 30 needs
fewer bits. -/
def mqPartition (choice : Fin 4 × Fin 32) (hist xs : List Int) : List Bool × List Int :=
  let (us, h) := mqResiduals choice.1.val hist xs
  let k := choice.2.val
  let escape := k == 31 || !((List.range 31).any fun j => decide (riceCost j us < 32 * xs.length))
  let bits := if escape then bitsLE 2 0 ++ bitsLE 5 31 ++ xs.flatMap fun x => bitsLE 32 (BitVec.ofInt 32 x).toNat
    else bitsLE 2 choice.1.val ++ bitsLE 5 k ++ us.flatMap (riceBits k)
  (bits, h)

/-- The codes of the partitions of 256 samples, and the choices left for the blocks after. -/
def mqPartitions : Nat → List (Fin 4 × Fin 32) → List Int → List Int → List Bool × List (Fin 4 × Fin 32)
  | 0, ch, _, _ => ([], ch)
  | _ + 1, ch, _, [] => ([], ch)
  | n + 1, ch, hist, x :: xs =>
    let (bits, h) := mqPartition (ch.headD (0, 31)) hist ((x :: xs).take 256)
    let (rest, c) := mqPartitions n ch.tail h ((x :: xs).drop 256)
    (bits ++ rest, c)

/-- The exceptions of a block. -/
def mqExceptions : Nat → List MqSample → List (List Bool)
  | _, [] => []
  | i, .int _ :: r => mqExceptions (i + 1) r
  | i, .exc p :: r => (bitsLE 16 i ++ false :: bitsLE 32 p.toNat) :: mqExceptions (i + 1) r
  | i, .lost :: r => (bitsLE 16 i ++ [true]) :: mqExceptions (i + 1) r

/-- Bits packed into datums from bit 0 upward; the last is padded with zeros. -/
def packBits : Nat → List Bool → List (BitVec 64)
  | 0, _ => []
  | _ + 1, [] => []
  | n + 1, b :: bs =>
    BitVec.ofNat 64 (((b :: bs).take 64).foldr (fun x acc => (if x then 1 else 0) + 2 * acc) 0) :: packBits n ((b :: bs).drop 64)

/-- The payload of a block, and the choices left. -/
def mqPayload (ch : List (Fin 4 × Fin 32)) (ss : List MqSample) : List (BitVec 64) × List (Fin 4 × Fin 32) :=
  let exc := mqExceptions 0 ss
  let (codes, c) := mqPartitions (ss.length + 1) ch [] (mqInts 0 ss)
  let bits := bitsLE 16 exc.length ++ exc.flatten ++ codes
  (packBits (bits.length + 1) bits, c)

/-! ### Reading a block period (R338) -/

/-- One SBLK of a lane's ring: its channel in the lane, fields 1 to 8, and sample words; unreadable when a field is POISON. -/
structure MqBlock where
  chan : Nat
  fields : List Word
  samples : List Word
  bad : Bool

/-- The blocks of one period from an offset up to WR: those that share a SEQ. The offset after them is the other result. -/
def State.mqPeriod (s : State) (base size wr : Nat) : Nat → Nat → Option Word → List MqBlock × Nat
  | 0, o, _ => ([], o)
  | fuel + 1, o, seq =>
    if o = wr ∧ seq.isSome = true then ([], o)
    else
      let h := s.agentPeek 10 (base + o)
      if h.tag = 0x82 then State.mqPeriod s base size wr fuel 0 seq
      else if h.tag ≠ 0x80 then ([], wr)
      else
        let fs := (List.range 8).map fun i => s.agentPeek 10 (base + o + 1 + i)
        let f8 := fs.getD 7 Word.nil
        if seq.any fun q => q != f8 then ([], o)
        else
          let len := hdrLen h
          let b : MqBlock :=
            { chan := (fs.headD Word.nil).datum.toNat % 16, fields := fs
              samples := (List.range (len - 8)).map fun i => s.agentPeek 10 (base + o + 9 + i)
              bad := fs.any fun w => w.tag == 0xFE }
          let n := o + len + 1
          let (r, e) := State.mqPeriod s base size wr fuel (if size ≤ n then 0 else n) (some f8)
          (b :: r, e)

/-- The reads of the words of a ring from an offset up to another. -/
def State.noteRing (s : State) (base size from_ upTo : Nat) : State :=
  if from_ ≤ upTo then s.noteReads 10 (base + from_) (upTo - from_)
  else (s.noteReads 10 (base + from_) (size - from_)).noteReads 10 base upTo

/-! ### Segments (R340) -/

/-- The words of a segment, with its CRC. -/
def mkSegment (kind : Nat) (seq start stop w4 : BitVec 64) (body : List (BitVec 64)) : List (BitVec 64) :=
  let len := 6 + body.length
  let w0 := putN 0 0x4D51 ||| putN 16 1 ||| putN 24 kind ||| putN 32 len
  let ws := [w0, seq, start, stop, w4] ++ body
  ws ++ [put 0 (crc32c (wordBytes ws))]

/-- The body words of coded blocks, and the choices left. (DESIGN CHOICE, log 87) -/
def mqBody : List (Fin 4 × Fin 32) → List MqBlock → List (BitVec 64) × List (Fin 4 × Fin 32)
  | ch, [] => ([], ch)
  | ch, b :: r =>
    let ls := (b.fields.getD 6 Word.nil).datum
    let n := min (b.fields.getD 1 Word.nil).datum.toNat (b.samples.length * (if bit ls 36 then 4 else 2))
    let (pay, c) := mqPayload ch ((List.range n).map fun i => mqSample (bit ls 36) b.samples i)
    let (rest, c') := mqBody c r
    (b.fields.map (·.datum) ++ BitVec.ofNat 64 pay.length :: pay ++ rest, c')

/-- START and END of blocks: the earliest START, and the largest START + COUNT × interval. -/
def mqSpan (bs : List MqBlock) : BitVec 64 × BitVec 64 :=
  let start (b : MqBlock) : Nat := (b.fields.getD 2 Word.nil).datum.toNat
  let stop (b : MqBlock) : Int :=
    let ivl := (b.fields.getD 3 Word.nil).datum.toInt * 65536 + (fld (b.fields.getD 6 Word.nil).datum 48 16).toNat
    start b + openQuot ((b.fields.getD 1 Word.nil).datum.toInt * ivl) 65536
  match bs with
  | [] => (0, 0)
  | b :: r => (BitVec.ofNat 64 (r.foldl (fun m x => min m (start x)) (start b)),
      BitVec.ofInt 64 (r.foldl (fun m x => max m (stop x)) (stop b)))

/-- Word 4 of a segment. -/
def mqWord4 (dev : BitVec 12) (lane : Fin 32) (nblk : Nat) (gap : Bool) : BitVec 64 :=
  put 0 dev ||| putN 12 lane.val ||| putN 17 nblk ||| fbit 22 gap

/-! ### The log ring (R341) -/

/-- The offset at which a segment of a length goes in a ring, and the FILL words before it. -/
def ringSpot (size wr len : Nat) : Nat × Nat := if size < wr + len then (0, size - wr) else (wr, 0)

/-- Words free in the log ring. -/
def Marquetry.logFree (m : Marquetry) : Nat :=
  let size := m.logSize.toNat
  if m.segs.isEmpty then size else if m.logWr = m.logRd then 0 else (m.logRd.toNat + size - m.logWr.toNat) % size

/-- Write datums as RAW words. -/
def State.mqWrite (s : State) (pa : Nat) (ws : List (BitVec 64)) : State := s.agentWrites 10 pa (ws.map Word.raw)

/-- Write a FILL run over n words. -/
def State.mqFill (s : State) (pa n : Nat) : State := if n = 0 then s else s.agentWrite 10 pa (Word.fill (BitVec.ofNat 64 n))

/-- Whether a segment of a length has room in the log ring. -/
def Marquetry.room (m : Marquetry) (len : Nat) : Bool :=
  decide (len + (ringSpot m.logSize.toNat m.logWr.toNat len).2 ≤ m.logFree)

/-- A segment enters the log ring with the next SEGSEQ. -/
def State.logPut (s : State) (kind : Nat) (start stop w4 : BitVec 64) (body : List (BitVec 64)) : State :=
  let m := s.mq
  let seg := mkSegment kind m.seq start stop w4 body
  let size := m.logSize.toNat
  let (at_, fill) := ringSpot size m.logWr.toNat seg.length
  let s := (s.mqFill (m.logBase.toNat + m.logWr.toNat) fill).mqWrite (m.logBase.toNat + at_) seg
  { s with mq := { s.mq with logWr := BitVec.ofNat 40 ((at_ + seg.length) % size), seq := m.seq + 1
                             segs := m.segs ++ [(m.seq, at_, seg.length)]
                             wordsOut := s.mq.wordsOut + BitVec.ofNat 64 seg.length } }

/-- A segment of a lane is discarded: DROPPED, and GAP for the lane's next segment. -/
def State.logDrop (s : State) (lane : Fin 32) : State :=
  ({ s with mq := { s.mq with dropped := satInc s.mq.dropped, gap := vset s.mq.gap lane true } }).event 7 1 lane.val []

/-! ### The retention ring and windows (R342) -/

/-- Whether a segment of a lane lies in a window's lanes and meets its interval. -/
def RetWindow.wants (w : RetWindow) (lane : Fin 32) (start stop : BitVec 64) : Bool :=
  bit w.lanes lane.val && decide (start.toNat < w.until_.toNat) && decide (w.from_.toNat < stop.toNat)

/-- Copy a retained segment into the log ring with KIND 1; with the ring full it is dropped, or left under HOLD. -/
def State.copySeg (s : State) (x : RetSeg) : State :=
  let body := ((x.words.map (·.datum)).drop 5).dropLast
  let w4 := ((x.words.getD 4 Word.zero).datum)
  let mark (s : State) : State := { s with mq := { s.mq with retSegs := s.mq.retSegs.map fun y =>
    if y.off = x.off then { y with copied := true } else y } }
  if s.mq.room x.words.length then mark (s.logPut 1 x.start x.stop w4 body)
  else if s.mq.full then s
  else mark (s.logDrop x.lane)

/-- Copy every retained segment that an open window wants and that has not been copied. -/
def State.copyWanted (s : State) (w : RetWindow) : State :=
  (s.mq.retSegs.filter fun x => !x.copied && w.wants x.lane x.start x.stop).foldl (fun (s : State) x => s.copySeg x) s

/-- A segment enters the retention ring, over the oldest. -/
def State.retPut (s : State) (lane : Fin 32) (start stop w4 : BitVec 64) (body : List (BitVec 64)) : State :=
  let m := s.mq
  let seg := mkSegment 1 0 start stop w4 body
  let size := m.retSize.toNat
  if size < seg.length then s
  else
    let (at_, fill) := ringSpot size m.retWr seg.length
    let hit (x : RetSeg) : Bool :=
      (decide (x.off < at_ + seg.length) && decide (at_ < x.off + x.words.length)) ||
        (fill != 0 && decide (m.retWr < x.off + x.words.length))
    let old := m.retSegs.filter hit
    let s := (s.mqFill (m.retBase.toNat + m.retWr) fill).mqWrite (m.retBase.toNat + at_) seg
    let x : RetSeg := { off := at_, lane := lane, start := start, stop := stop, words := seg.map Word.raw }
    { s with mq := { s.mq with
        retWr := (at_ + seg.length) % size
        retSegs := m.retSegs.filter (fun x => !(hit x)) ++ [x]
        gone := m.gone ++ (old.filter fun y => !y.copied).map fun y => (y.lane, y.start, y.stop)
        wordsOut := s.mq.wordsOut + BitVec.ofNat 64 seg.length } }

/-- Count in TRUNC the segments that a window needs and that the ring has overwritten. -/
def State.countTrunc (s : State) (w : RetWindow) : State :=
  let miss := s.mq.gone.filter fun (l, a, b) => w.wants l a b
  if miss.isEmpty then s
  else
    ({ s with mq := { s.mq with gone := s.mq.gone.filter fun (l, a, b) => !(w.wants l a b)
                                trunc := miss.foldl (fun c _ => satInc c) s.mq.trunc } }).event 7 2 0 []

/-- MQ_RETENTION_TRIGGER: an event on the line of window k, with its stamp: the window opens or is extended, and the
segments it wants are copied. -/
def execMqRetentionTrigger (k : Fin 4) (stamp : BitVec 64) (s : State) : Host.Outcome State Fault Refusal :=
  let w := s.mq.ret[k]
  ok (if !(s.alive && s.mq.en && w.en) then s
    else
      let stop := stamp + w.post.setWidth 64
      let w' := if w.isOpen then { w with last := stamp, until_ := stop }
        else { w with isOpen := true, last := stamp, until_ := stop
                      from_ := BitVec.ofNat 64 (stamp.toNat - w.pre.toNat) }
      let s := { s with mq := { s.mq with ret := vset s.mq.ret k w' } }
      let s := if w.isOpen then s else s.event 7 3 k.val []
      (s.countTrunc w').copyWanted w')

/-- MQ_RETENTION_CLOSE: a window has reached its end. -/
def execMqRetentionClose (k : Fin 4) (s : State) : Host.Outcome State Fault Refusal :=
  let w := s.mq.ret[k]
  ok (if w.isOpen && decide (w.until_.toNat ≤ s.now.toNat) then
      { s with mq := { s.mq with ret := vset s.mq.ret k { w with isOpen := false } } }
    else s)

/-! ### MQ_BLOCK_CODE -/

/-- CHSEL or CHRET of a local channel. (DESIGN CHOICE, log 88) -/
def mqSelected (v : Vector (BitVec 64) 8) (lane : Fin 32) (m : Nat) : Bool :=
  bit (v.toList.getD (lane.val / 4) 0) (16 * (lane.val % 4) + m)

/-- MQ_BLOCK_CODE: Marquetry codes the next block period of a lane that has advanced WR past its position. `choice` gives
p and k of each partition in order, which the device chooses (R339). (DESIGN CHOICE, log 87) -/
def execMqBlockCode (n : Fin 32) (choice : List (Fin 4 × Fin 32)) (s : State) (ecc : Ecc := []) : Host.Outcome State Fault Refusal :=
  let s := s.memErrs ecc
  let m := s.mq
  let l := s.sl[n]
  let size := l.ringSize.toNat
  ok (if !s.alive || !(s.logged n) || m.pos[n].toNat = l.wr.toNat || size = 0 then s
    else
      let (blocks, stop) := s.mqPeriod l.ringBase.toNat size l.wr.toNat 34 m.pos[n].toNat none
      let lost := blocks.any (·.bad) || blocks.isEmpty
      let sel := blocks.filter fun b => !b.bad && mqSelected m.chsel n b.chan
      let logs := sel.filter fun b => !(mqSelected m.chret n b.chan)
      let rets := sel.filter fun b => mqSelected m.chret n b.chan
      let (lbody, ch) := mqBody choice logs
      let (rbody, _) := mqBody ch rets
      let gap := m.gap[n] || lost
      let full := !logs.isEmpty && !(m.room (6 + lbody.length))
      if full && m.full then s
      else
        let s := s.noteRing l.ringBase.toNat size m.pos[n].toNat (stop % size)
        let counted : Nat := (sel.map fun b => (b.fields.getD 1 Word.nil).datum.toNat).foldl (· + ·) 0
        let s := { s with mq := { s.mq with pos := vset m.pos n (BitVec.ofNat 40 (stop % size)), gap := vset m.gap n lost
                                            samplesIn := m.samplesIn + BitVec.ofNat 64 counted } }
        let s := if logs.isEmpty then { s with mq := { s.mq with gap := vset s.mq.gap n gap } }
          else if full then s.logDrop n
          else
            let (a, b) := mqSpan logs
            s.logPut 0 a b (mqWord4 s.km.id n logs.length m.gap[n]) lbody
        if rets.isEmpty || m.retSize = 0 then s
        else
          let (a, b) := mqSpan rets
          let s := s.retPut n a b (mqWord4 s.km.id n rets.length m.gap[n]) rbody
          (List.finRange 4).foldl (fun (s : State) k =>
            if s.mq.ret[k].isOpen then s.copyWanted s.mq.ret[k] else s) s)

/-! ### Registers (Table 14-9) -/

/-- A register of the MQ block. -/
inductive MqReg where
  | ctl | logring | logsize | logwr | logrd | seq | retring | retsize | status | samples | words
  | chsel (k : Fin 8)
  | chret (k : Fin 8)
  | rcfg (n : Fin 4)
  | rpre (n : Fin 4)
  | rpost (n : Fin 4)
  | rlast (n : Fin 4)
  | pos (l : Fin 32)
deriving DecidableEq, Repr

/-- The register at a word offset. -/
def mqReg (off : Nat) : Option MqReg :=
  match off with
  | 0 => some .ctl
  | 1 => some .logring
  | 2 => some .logsize
  | 3 => some .logwr
  | 4 => some .logrd
  | 5 => some .seq
  | 6 => some .retring
  | 7 => some .retsize
  | 8 => some .status
  | 9 => some .samples
  | 10 => some .words
  | _ =>
    if 0x10 ≤ off ∧ off < 0x18 then some (.chsel (idx 8 off))
    else if 0x18 ≤ off ∧ off < 0x20 then some (.chret (idx 8 off))
    else if 0x20 ≤ off ∧ off < 0x30 then
      let n : Fin 4 := idx 4 (off / 4)
      match off % 4 with
      | 0 => some (.rcfg n)
      | 1 => some (.rpre n)
      | 2 => some (.rpost n)
      | _ => some (.rlast n)
    else if 0x40 ≤ off ∧ off < 0x60 then some (.pos (idx 32 off))
    else none

/-- A register of the MQ block as read. -/
def Marquetry.regBits (m : Marquetry) (r : MqReg) : BitVec 64 :=
  match r with
  | .ctl => fbit 0 m.en ||| fbit 1 m.full
  | .logring => put 0 m.logBase
  | .logsize => put 0 m.logSize
  | .logwr => put 0 m.logWr
  | .logrd => put 0 m.logRd
  | .seq => m.seq
  | .retring => put 0 m.retBase
  | .retsize => put 0 m.retSize
  | .status => put 0 m.dropped ||| put 16 m.trunc
  | .samples => m.samplesIn
  | .words => m.wordsOut
  | .chsel k => m.chsel[k]
  | .chret k => m.chret[k]
  | .rcfg n => put 0 m.ret[n].lanes ||| put 32 m.ret[n].line ||| fbit 40 m.ret[n].en ||| fbit 41 m.ret[n].isOpen
  | .rpre n => put 0 m.ret[n].pre
  | .rpost n => put 0 m.ret[n].post
  | .rlast n => m.ret[n].last
  | .pos l => put 0 m.pos[l]

/-- Lanes that are logged now and were not before start at their next block period (R338). (DESIGN CHOICE, log 88) -/
def State.mqJoin (s old : State) : State :=
  (List.finRange 32).foldl (fun (s : State) n =>
    if s.logged n && !(old.logged n) then
      { s with mq := { s.mq with pos := vset s.mq.pos n (s.sl[n].wr.setWidth 40), gap := vset s.mq.gap n false } }
    else s) s

/-- A store to a register of the MQ block. -/
def State.mqStore (s : State) (a : Who) (r : MqReg) (v : BitVec 64) : RegSt :=
  let m := s.mq
  let set (m : Marquetry) : RegSt := .ok (({ s with mq := m }).mqJoin s)
  let fav (m : Marquetry) : RegSt := if a.isFavar then set m else .ok s
  match r with
  | .ctl => fav { m with en := bit v 0, full := bit v 1 }
  | .logring => fav { m with logBase := fld v 0 40 }
  | .logsize => fav { m with logSize := fld v 0 40 }
  | .logrd => fav { m with logRd := fld v 0 40 }
  | .retring => fav { m with retBase := fld v 0 40 }
  | .retsize => fav { m with retSize := fld v 0 40 }
  | .chsel k => set { m with chsel := vset m.chsel k v }
  | .chret k => set { m with chret := vset m.chret k v }
  | .rcfg n =>
    let w := { m.ret[n] with lanes := fld v 0 32, line := fld v 32 8, en := bit v 40 }
    set { m with ret := vset m.ret n w }
  | .rpre n =>
    let w := { m.ret[n] with pre := fld v 0 48 }
    set { m with ret := vset m.ret n w }
  | .rpost n =>
    let w := { m.ret[n] with post := fld v 0 48 }
    set { m with ret := vset m.ret n w }
  | _ => .ok s

end Sys2Proof.Machine
end

