-- ==== Sys2Proof/Machine/Favar.lean ====
section
/-! DEFINITION. Favar (chapter 16): status, slots and doorbells, the order of requests, versions, completions, the identity
commands, and the mailboxes of the worlds (block 12). -/

namespace Sys2Proof.Machine

open Sys2Proof

/-! ### FV_STATUS and identity -/

/-- World states (Table 16-6). -/
def WorldState.code : WorldState → Nat
  | .empty => 0
  | .loaded => 1
  | .verified => 2
  | .running => 3
  | .stopping => 4
  | .restarting => 5

/-- BAR4 is present: DEBUG of OTP is 01 and HINGE14 was high at the strap latch (R427). -/
def State.debugOn (s : State) : Bool := s.fv.debugOtp == 1 && bit s.straps 14

/-- FV_STATUS (Table 16-3). -/
def State.fvStatus (s : State) : BitVec 64 :=
  fbit 0 s.fv.ready ||| fbit 1 s.fv.swap ||| fbit 2 s.safe.fs ||| putN 3 s.worlds[(0 : Fin 2)].state.code |||
    putN 6 s.worlds[(1 : Fin 2)].state.code ||| fbit 9 s.fv.restart ||| fbit 10 s.debugOn ||| put 32 s.fv.fwver

/-- Vector 2 signals a change of FV_STATUS from what it was. -/
def State.noteStatus (s old : State) : State := if s.fvStatus = old.fvStatus then s else s.msix 2

/-- A world enters a state. -/
def State.setWorldState (s : State) (w : Fin 2) (st : WorldState) : State :=
  (s.modWorld w fun x => { x with state := st }).noteStatus s

/-- CAPS_UNITS (Table 00-2): what is fitted. -/
def State.capsUnits (s : State) : BitVec 64 := if s.variantL then 0x000000010F0F0000 else 0x00000000FFFFFFFF

/-- Datum words of DRAM. -/
def State.dramWords (s : State) : Nat := 4 * portWords s.ports[(0 : Fin 4)].cap

/-! ### Requests and completions (R362 to R364, R371) -/

/-- Status codes (Table 16-5). -/
def stOk : BitVec 8 := 0
def stBusy : BitVec 8 := 1
def stBadArg : BitVec 8 := 2
def stAbsent : BitVec 8 := 3
def stVersion : BitVec 8 := 4
def stAuth : BitVec 8 := 5
def stState : BitVec 8 := 6
def stTimeout : BitVec 8 := 7

/-- Payload word i; a word beyond LEN reads zero. -/
def FvReq.p (r : FvReq) (i : Nat) : BitVec 64 := r.payload.getD i 0

/-- The world that P0 [0] names. -/
def FvReq.world (r : FvReq) : Fin 2 := (fld (r.p 0) 0 1).toFin

/-- The world whose mailbox a request came from. -/
def FvReq.from? (r : FvReq) : Option (Fin 2) :=
  match r.from_ with
  | .slot _ => none
  | .world w => some w

/-- Whether Favar serves requests: READY, or the restricted mailbox of a failed boot (R422). -/
def Favar.served (f : Favar) : Bool := (f.ready || f.restricted) && !f.swap

/-- FV_DOORBELL: the slot named is taken, its header and payload read once; otherwise the doorbell is ignored and counted. -/
def State.doorbell (s : State) (k : Fin 16) : State :=
  let m := s.fv.slots[k]
  if !m.own || m.taken || !s.fv.served then { s with fv := { s.fv with ignored := satInc s.fv.ignored } }
  else
    let r : FvReq :=
      { from_ := .slot k, cmd := m.cmd, seq := m.seq, irq := m.irq
        payload := m.payload.take (m.len.toNat / 8), bad := decide (m.len.toNat % 8 ≠ 0 ∨ 4064 < m.len.toNat) }
    { s with fv := { s.fv with slots := vset s.fv.slots k { m with taken := true }, queue := s.fv.queue ++ [r] } }

/-- Step 5 of R363: the result, LEN and STATUS, then OWN = 0 and DONE = 1; vector 1 where the request asked for it. -/
def State.slotResult (s : State) (k : Fin 16) (irq : Bool) (st : BitVec 8) (ws : List (BitVec 64)) : State :=
  let m := s.fv.slots[k]
  let m := { m with payload := ws ++ m.payload.drop ws.length, len := BitVec.ofNat 32 (8 * ws.length)
                    status := st.setWidth 32, own := false, done := true, taken := false }
  let s := { s with fv := { s.fv with slots := vset s.fv.slots k m } }
  if irq then s.msix 1 else s

/-- The final reply to a world is ready; MBX_REPLY writes it. -/
def State.worldResult (s : State) (w : Fin 2) (st : BitVec 8) (ws : List Word) : State :=
  s.modWorld w fun x => { x with mbx := { x.mbx with result := some (st, ws.take 16) } }

/-- A request completes. -/
def State.finish (s : State) (r : FvReq) (st : BitVec 8) (ws : List (BitVec 64)) : State :=
  match r.from_ with
  | .slot k => s.slotResult k r.irq st ws
  | .world w => s.worldResult w st (ws.map Word.raw)

/-- The completion entry of a command that returned BUSY, or the final reply to a world. -/
def State.finishBusy (s : State) (b : BusyOp) (st : BitVec 8) (ws : List (BitVec 64)) : State :=
  match b.from_ with
  | .slot k =>
    s.postRing { cls := 0, code := b.cmd, seq := b.seq, stamp := s.now, status := st.setWidth 32
                 slot := BitVec.ofNat 8 k.val, data := ws.take 5 } true
  | .world w => s.worldResult w st (ws.map Word.raw)

/-- The class of a command within which only one may be outstanding (R364). -/
def FvReq.cls (r : FvReq) : Option CmdClass :=
  match r.cmd.toNat with
  | 0x10 => some (.world r.world)
  | 0x11 => some (.world r.world)
  | 0x12 => some (.world r.world)
  | 0x13 => some (.world r.world)
  | 0x14 => some .partition
  | 0x20 => some .lanes
  | 0x21 => some .lanes
  | 0x40 => some .log
  | 0x41 => some .log
  | 0x70 => some .veneer
  | 0x71 => some .veneer
  | 0x80 => some .firmware
  | 0x81 => some .firmware
  | 0xA0 => some (.checkpoint (r.from?.getD r.world))
  | _ => none

/-- Whether a command is one of Tables 16-8 to 16-11. -/
def knownCmd (c : Nat) : Bool :=
  [0x01, 0x02, 0x03, 0x90, 0xF0, 0x14, 0x10, 0x11, 0x12, 0x13, 0x20, 0x21, 0x30, 0x31, 0x50, 0x51, 0x60, 0x40, 0x41,
    0x70, 0x71, 0x80, 0x81, 0xA0, 0xB0].contains c

/-- Whether a command may return BUSY. -/
def busyCmd (c : Nat) : Bool := [0x14, 0x10, 0x11, 0x13, 0x41, 0x70, 0x71, 0x80, 0xA0].contains c

/-- Whether a world may submit a request (R383). -/
def FvReq.worldMay (r : FvReq) : Bool :=
  [0x02, 0x03, 0x51, 0xA0, 0xB0].contains r.cmd.toNat || (r.cmd == 0x60 && r.p 0 == 0 && r.p 1 == 0)

/-- The statuses that precede a command's own preconditions: malformed payload, restricted mailbox, R366, R383, unknown
command, and outstanding commands (R364). -/
def State.precheck (s : State) (r : FvReq) : Option (BitVec 8) :=
  let f := s.fv
  let c := r.cmd.toNat
  let early : Option (BitVec 8) :=
    if r.bad then some stBadArg
    else if f.restricted && !([0x01, 0x02, 0x03, 0xF0, 0x80, 0x81].contains c) then some stState
    else match r.from_ with
      | .world _ => if r.worldMay then none else some stAuth
      | .slot _ =>
        if f.major == 0 && c != 0x01 && c != 0x02 then some stState
        else if f.major == 2 && [0x60, 0x70, 0x71, 0xA0, 0xB0].contains c then some stVersion
        else if f.major == 3 && f.minor.toNat < 2 && c == 0xB0 then some stVersion
        else none
  match early with
  | some st => some st
  | none =>
    if !knownCmd c then some stBadArg
    else if r.cls.isSome && f.busy.any (fun b => some b.cls == r.cls) then some stState
    else if busyCmd c && decide (64 ≤ f.busy.length) then some stState
    else none

/-- Requests at the front of the order that no command answers complete with their status. -/
def State.drainBad (s : State) : Nat → State
  | 0 => s
  | n + 1 =>
    match s.fv.queue with
    | [] => s
    | r :: rest =>
      if r.bad || !knownCmd r.cmd.toNat then
        State.drainBad (({ s with fv := { s.fv with queue := rest } }).finish r ((s.precheck r).getD stBadArg) []) n
      else s

/-- How a command answers: with a status and result, with BUSY and work outstanding, or not yet. -/
inductive Reply where
  | done (st : BitVec 8) (ws : List (BitVec 64))
  | busy (work : BusyWork)
  | wait
deriving DecidableEq, Repr

/-- A row of a Favar command: the request at the front of the order, if it is that command, is executed. (DESIGN CHOICE, log 1; DEDUCED, log 93) -/
def State.fvRow (s : State) (code : Nat) (act : FvReq → State → Reply × State) : State :=
  if !s.fv.served || !s.alive then s
  else match s.fv.queue with
    | [] => s
    | r :: rest =>
      if r.cmd.toNat ≠ code || r.bad then s
      else
        let s1 := { s with fv := { s.fv with queue := rest } }
        let s2 := match s.precheck r with
          | some st => s1.finish r st []
          | none =>
            match act r s1 with
            | (.done st ws, s2) => ({ s2 with fv := { s2.fv with stage := none } }).finish r st ws
            | (.wait, s2) => { s2 with fv := { s2.fv with queue := r :: s2.fv.queue } }
            | (.busy work, s2) =>
              let b : BusyOp := { from_ := r.from_, cmd := r.cmd, seq := r.seq, cls := r.cls.getD .log, work := work }
              let s2 := { s2 with fv := { s2.fv with busy := s2.fv.busy ++ [b] } }
              match r.from_ with
              | .slot k => s2.slotResult k r.irq stBusy []
              | .world _ => s2
        s2.drainBad s2.fv.queue.length

/-- FV_DOORBELL (R363, R364). -/
def execFvDoorbell (v : BitVec 64) (s : State) : Host.Outcome State Fault Refusal :=
  ok (if !s.alive || !s.fv.pcieUp then s
    else
      let s := s.doorbell (fld v 0 4).toFin
      if s.fv.served then s.drainBad s.fv.queue.length else s)

/-- The words of a host buffer of n words at the least, or the status of a failed read (R364, R384). (DEDUCED, log 93) -/
def hostWords (r : FvReq) (i n : Nat) (buf : HostBuf) : Except (BitVec 8) (List (BitVec 64)) :=
  match buf with
  | .timeout => .error stTimeout
  | .poisoned _ => .error stBadArg
  | .bytes bs =>
    let len := (r.p (i + 1)).toNat
    if len < 8 * n || len % 8 ≠ 0 || bs.length < len then .error stBadArg else .ok (leWords (len / 8) (bs.take len))

/-- The bytes of a host buffer. -/
def hostBytes (r : FvReq) (i : Nat) (buf : HostBuf) : Except (BitVec 8) (List (BitVec 8)) :=
  match buf with
  | .timeout => .error stTimeout
  | .poisoned _ => .error stBadArg
  | .bytes bs =>
    let len := (r.p (i + 1)).toNat
    if bs.length < len then .error stBadArg else .ok (bs.take len)

/-! ### Identity, health, events and crash records (Table 16-8) -/

/-- The protocol versions of this firmware (R366), lowest first. -/
def fvVersions : List (Nat × Nat) := [(2, 0), (2, 1), (2, 2), (2, 3), (2, 4), (3, 0), (3, 1), (3, 2)]

/-- HELLO: the highest version that both sides implement (R366). -/
def execHello (s : State) : Host.Outcome State Fault Refusal :=
  ok (s.fvRow 0x01 fun r s =>
    if !s.fv.busy.isEmpty then (.done stState [], s)
    else
      let p := r.p 0
      let lo := (fld p 24 8).toNat * 256 + (fld p 16 8).toNat
      let hi := (fld p 8 8).toNat * 256 + (fld p 0 8).toNat
      match (fvVersions.filter fun v => decide (lo ≤ v.1 * 256 + v.2) && decide (v.1 * 256 + v.2 ≤ hi)).getLast? with
      | none => (.done stVersion [], s)
      | some v =>
        (.done stOk [putN 0 v.2 ||| putN 8 v.1, s.fv.fwver.setWidth 64],
          { s with fv := { s.fv with minor := BitVec.ofNat 8 v.2, major := BitVec.ofNat 8 v.1 } }))

/-- CAPS. -/
def execCaps (s : State) : Host.Outcome State Fault Refusal :=
  ok (s.fvRow 0x02 fun _ s =>
    (.done stOk [s.capsUnits, put 0 s.mcverMin ||| put 32 s.mcverMax, BitVec.ofNat 64 s.dramWords,
      put 0 s.km.id ||| fbit 12 s.km.confirmed ||| fbit 13 s.debugOn ||| fbit 14 s.fv.customerSet ||| fbit 15 s.fv.activeB,
      s.fv.fwver.setWidth 64], s))

/-- The highest sensor reading is kept in PWR_THERM.TJMAX (R452). (DEDUCED, log 114) -/
def State.noteTemp (s : State) (t : BitVec 16) : State :=
  { s with pwr := { s.pwr with tjmax := if s.pwr.tjmax.toInt < t.toInt then t else s.pwr.tjmax } }

/-- HEALTH: temperatures are those measured. -/
def execHealth (tjMax tjMin : BitVec 16) (s : State) : Host.Outcome State Fault Refusal :=
  ok (s.fvRow 0x03 fun _ s =>
    let trained := (List.finRange 4).foldl (fun x (p : Fin 4) => x ||| fbit p.val s.ports[p].trained) 0#64
    let links := (List.finRange 8).foldl (fun x (p : Fin 8) => x ||| fbit (4 + p.val) s.km.ports[p].trained) 0#64
    let eth := fbit 12 s.fv.ethUp[(0 : Fin 2)] ||| fbit 13 s.fv.ethUp[(1 : Fin 2)]
    let mem := s.ports.toList.map fun (p : Port) =>
      put 0 p.ce ||| put 32 p.bites ||| putN 48 (min p.ueCount.toNat 65535)
    (.done stOk ([put 0 tjMax ||| put 16 tjMin, trained ||| links ||| eth ||| fbit 14 s.fv.pcieUp] ++ mem ++
      [put 0 s.worlds[(0 : Fin 2)].stage2Faults ||| put 32 s.worlds[(1 : Fin 2)].stage2Faults, s.imtStatus,
       put 0 s.fv.restarts ||| put 32 s.fv.fatals, s.mq.regBits .status,
       put 0 s.ven.csRecov ||| put 16 s.ven.csFavar ||| put 32 s.ven.ignored]), s.noteTemp tjMax))

/-- EVENT_SUB: bits 0 and 15 are ignored. -/
def execEventSub (s : State) : Host.Outcome State Fault Refusal :=
  ok (s.fvRow 0x90 fun r s =>
    (.done stOk [s.fv.subs.setWidth 64], { s with fv := { s.fv with subs := fld (r.p 0) 0 16 &&& 0x7FFE } }))

/-- CRASH_READ: index 0 is the newest record. -/
def execCrashRead (s : State) : Host.Outcome State Fault Refusal :=
  ok (s.fvRow 0xF0 fun r s =>
    let held := if bit (r.p 0) 4 then s.fv.crashFlash else s.fv.crash
    match held[(fld (r.p 0) 0 4).toNat]? with
    | some c => (.done stOk c.words, s)
    | none => (.done stBadArg [], s))

/-- Word 1 + 2c and 2 + 2c of the cores' part of a crash record: PC, then CAUSE, slot, priority and idle. -/
def State.crashCore (s : State) (c : Fin 32) : List (BitVec 64) :=
  let x := s.cores[c]
  let k := s.running c
  if x.running then
    [(mkReta x.lo.pc (s.world c) (!(s.user c))).datum,
     put 0 (fld x.lo.cause 0 32) ||| putN 32 x.slot.val ||| put 38 k.prio]
  else [0, fbit 42 true]

/-- CRASH_RECORD_WRITE: the record of Table 16-16. -/
def State.crashWords (s : State) (kind : BitVec 8) (at_ detail : BitVec 64) (k : Fin 8) : List (BitVec 64) :=
  let ck (w : Fin 2) : BitVec 64 := match s.worlds[w].ckpt with
    | some c => c.inst
    | none => 0
  let body : List (BitVec 64) :=
    [0x4352 ||| putN 16 1 ||| put 24 kind ||| putN 32 84, at_, s.safe.regBits 2, detail,
      put 0 s.mcverMin ||| put 32 s.mcverMax, s.fv.fwver.setWidth 64, ck 0, ck 1] ++
    (List.finRange 32).flatMap s.crashCore ++
    (s.ports.toList.flatMap fun (p : Port) => [p.regBits 2, p.regBits 3]) ++
    [s.imtStatus, put 0 s.imt.fixes ||| put 32 s.imt.last, s.clusters[k].regBits 2]
  body ++ [(crc32c (wordBytes body)).setWidth 64]

/-- The record is kept: the 16 newest in DRAM and the 8 newest in flash (R378). -/
def State.writeCrash (s : State) (kind : BitVec 8) (at_ detail : BitVec 64) (k : Fin 8) : State :=
  let r : CrashRec := { kind := kind, words := s.crashWords kind at_ detail k }
  { s with fv := { s.fv with crash := (r :: s.fv.crash).take 16, crashFlash := (r :: s.fv.crashFlash).take 8 } }

/-! ### World mailboxes (R381 to R383) -/

/-- The final reply of a world's mailbox, stamped t: the words, REPCTL, REPT, and line 250 + w. (DEDUCED, log 103) -/
def State.mbxReply (s : State) (w : Fin 2) (st : BitVec 8) (ws : List Word) (t : BitVec 64) : State :=
  let s := s.modWorld w fun x =>
    let m := x.mbx
    { x with mbx := { m with
        rep := Vector.ofFn fun (k : Fin 16) => ws.getD k.val m.rep[k]
        repStatus := st, repWords := BitVec.ofNat 5 ws.length, done := true, repSeq := m.goSeq, rept := t, busy := false
        late := m.goDeadline.tag == 0x04 && decide (m.goDeadline.datum.toNat < t.toNat), result := none } }
  s.raiseAt (idx 256 (250 + w.val)) t

/-- GO: the request joins Favar's order; a malformed deadline completes it at once (R382). (DEDUCED, log 103) -/
def State.mbxGo (s : State) (w : Fin 2) : State :=
  let m := s.worlds[w].mbx
  if m.busy then s
  else
    let s := s.modWorld w fun x =>
      { x with mbx := { x.mbx with busy := true, done := false, goSeq := m.seq, goDeadline := m.deadline
                                   result := none } }
    if m.deadline ≠ Word.nil ∧ m.deadline.tag ≠ 0x04 then s.mbxReply w stBadArg [] s.now
    else
      let ws := m.req.toList.take m.nwords.toNat
      let payload := if m.cmd = 0xB0 then
          (ws.take 1).map (·.datum) ++ (ws.drop 1).flatMap fun x => [x.datum, x.tag.setWidth 64]
        else ws.map (·.datum)
      let r : FvReq := { from_ := .world w, cmd := m.cmd, seq := m.seq, payload := payload }
      let s := { s with fv := { s.fv with queue := s.fv.queue ++ [r] } }
      if s.fv.served then s.drainBad s.fv.queue.length else s

/-- A message enters a world's inbox and raises its line. -/
def State.inboxPut (s : State) (w : Fin 2) (ws : List Word) : State :=
  (s.modWorld w fun x => { x with mbx := { x.mbx with inbox := x.mbx.inbox ++ [ws] } }).raise (idx 256 (250 + w.val))

/-- A register of the MBX block (Table 16-18). -/
inductive MbxReg where
  | req (k : Fin 16)
  | reqctl | reqdl
  | rep (k : Fin 16)
  | repctl | rept
  | msg (k : Fin 8)
  | msgctl
deriving DecidableEq, Repr

/-- The world and register at a word offset. -/
def mbxReg (off : Nat) : Option (Fin 2 × MbxReg) :=
  if 0x200 ≤ off then none
  else
    let w : Fin 2 := idx 2 (off / 0x100)
    let o := off % 0x100
    if o < 16 then some (w, .req (idx 16 o))
    else if o = 0x10 then some (w, .reqctl)
    else if o = 0x11 then some (w, .reqdl)
    else if 0x20 ≤ o ∧ o < 0x30 then some (w, .rep (idx 16 o))
    else if o = 0x30 then some (w, .repctl)
    else if o = 0x31 then some (w, .rept)
    else if 0x40 ≤ o ∧ o < 0x48 then some (w, .msg (idx 8 o))
    else if o = 0x48 then some (w, .msgctl)
    else none

/-- A load of a mailbox register. -/
def State.mbxLoad (s : State) (w : Fin 2) (r : MbxReg) : RegLd :=
  let m := s.worlds[w].mbx
  let first := m.inbox.headD []
  match r with
  | .req k => .ok (m.req[k], s)
  | .reqctl => ldRaw s (put 0 m.cmd ||| put 16 m.nwords ||| fbit 22 m.busy ||| put 32 m.seq)
  | .reqdl => .ok (m.deadline, s)
  | .rep k => .ok (m.rep[k], s)
  | .repctl => ldRaw s (put 0 m.repStatus ||| put 8 m.repWords ||| fbit 13 m.done ||| fbit 14 m.late ||| put 32 m.repSeq)
  | .rept => ldRaw s m.rept
  | .msg k => .ok (first.getD k.val Word.empty, s)
  | .msgctl => ldRaw s (putN 0 first.length ||| putN 4 m.inbox.length)

/-- A store of a word to a mailbox register. -/
def State.mbxStore (s : State) (w : Fin 2) (r : MbxReg) (x : Word) : RegSt :=
  let v := x.datum
  let mod (f : Mailbox → Mailbox) : State := s.modWorld w fun y => { y with mbx := f y.mbx }
  match r with
  | .req k => .ok (mod fun m => { m with req := vset m.req k x })
  | .reqctl =>
    let s := mod fun m => { m with cmd := fld v 0 16, nwords := fld v 16 5, seq := fld v 32 32 }
    .ok (if bit v 21 then s.mbxGo w else s)
  | .reqdl => .ok (mod fun m => { m with deadline := x })
  | .repctl => .ok (mod fun m => { m with done := w1c m.done v 13 })
  | .msgctl => .ok (if bit v 9 then mod fun m => { m with inbox := m.inbox.tail } else s)
  | _ => .ok s

/-- MBX_GO: GO = 1 in REQCTL. -/
def execMbxGo (a : Agent) (w : Fin 2) (v : BitVec 64) (s : State) : Host.Outcome State Fault Refusal :=
  ok (if bit v 21 then s.rowStore a 12 (some w.val) fun _ s => s.mbxStore w .reqctl (Word.raw v) else s)

/-- MBX_POP: POP = 1 in MSGCTL. -/
def execMbxPop (a : Agent) (w : Fin 2) (v : BitVec 64) (s : State) : Host.Outcome State Fault Refusal :=
  ok (if bit v 9 then s.rowStore a 12 (some w.val) fun _ s => s.mbxStore w .msgctl (Word.raw v) else s)

/-- MBX_REPLY: Favar writes the final reply that is ready. -/
def execMbxReply (w : Fin 2) (s : State) : Host.Outcome State Fault Refusal :=
  ok (match s.worlds[w].mbx.result with
    | some (st, ws) => if s.fv.served then s.mbxReply w st ws s.now else s
    | none => s)

/-- MBX_DEADLINE_TIMEOUT: a request not begun by the end of its deadline tick d completes with TIMEOUT, stamped d + 1. -/
def execMbxDeadlineTimeout (w : Fin 2) (s : State) : Host.Outcome State Fault Refusal :=
  let m := s.worlds[w].mbx
  let waits := s.fv.queue.any fun r => r.from_ == .world w
  ok (if m.busy && m.goDeadline.tag == 0x04 && decide (m.goDeadline.datum.toNat < s.now.toNat) && waits then
      let s := { s with fv := { s.fv with queue := s.fv.queue.filter fun (x : FvReq) => !(x.from_ == ReqFrom.world w) } }
      s.mbxReply w stTimeout [] (m.goDeadline.datum + 1)
    else s)

/-- Words in tagged form from payload word i. -/
def FvReq.tagged (r : FvReq) (i n : Nat) : List Word :=
  (List.range n).map fun k => ⟨fld (r.p (i + 2 * k + 1)) 0 8, r.p (i + 2 * k)⟩

/-- Whether n words in tagged form from payload word i are immediate words, their upper tag bits zero. -/
def FvReq.taggedOk (r : FvReq) (i n : Nat) : Bool :=
  (List.range n).all fun k => decide ((r.p (i + 2 * k + 1)).toNat ≤ 0x0E)

/-- WORLD_MSG: from the host, a message for a running world's inbox (Table 16-11); from a world, a WORLDMSG entry (R383). -/
def execWorldMsg (s : State) : Host.Outcome State Fault Refusal :=
  ok (s.fvRow 0xB0 fun r s =>
    let n := (fld (r.p 0) 8 4).toNat
    match r.from_ with
    | .slot _ =>
      let w := r.world
      if n = 0 || decide (8 < n) || !(r.taggedOk 1 n) then (.done stBadArg [], s)
      else if s.worlds[w].state != .running || decide (16 ≤ s.worlds[w].mbx.inbox.length) then (.done stState [], s)
      else (.done stOk [], s.inboxPut w (r.tagged 1 n))
    | .world _ =>
      if n = 0 || decide (4 < n) || !(r.taggedOk 1 n) then (.done stBadArg [], s)
      else
        let ws := r.tagged 1 n
        let data := (List.range 4).map fun k => (ws.getD k Word.zero).datum
        let tags := (List.range n).foldl (fun x k => x ||| put (8 * k) (ws.getD k Word.zero).tag) 0#64
        (.done stOk [], if bit s.fv.subs 11 && s.fv.classShown 11 then
            s.postEvent 11 (Config.eventCode 11 1) (data ++ [tags])
          else s))

end Sys2Proof.Machine
end

