-- ==== Sys2Proof/Machine/FavarWorld.lean ====
section
/-! DEFINITION. Favar's commands on worlds: the partition with its stage-2 trees, code images, start and stop, checkpoints,
and the completion of commands that returned BUSY (R190, R367 to R370, R376). -/

namespace Sys2Proof.Machine

open Sys2Proof

/-! ### The memory of a world -/

/-- First word of Favar's share of DRAM: its top 2^29 words (Example 09-1). (DEDUCED, log 94) -/
def State.shareBase (s : State) : Nat := s.dramWords - 2 ^ 29

/-- Whether a run of words lies in Favar's share. -/
def State.inShare (s : State) (a n : Nat) : Bool := decide (s.shareBase ≤ a) && decide (a + n ≤ s.dramWords)

/-- First intermediate address of a world's memory: Test is mapped to its own addresses, Guard from 0 (Example 09-1). (DEDUCED, log 94) -/
def State.memIa (s : State) (w : Fin 2) : Nat := if w = 0 then s.worlds[w].dramBase.toNat else 0

/-- The physical address of a run of n words of a world's memory, by intermediate address. -/
def State.worldMem (s : State) (w : Fin 2) (ia n : Nat) : Option Nat :=
  let lo := s.memIa w
  if lo ≤ ia ∧ ia + n ≤ lo + s.worlds[w].dramSize.toNat then some (ia - lo + s.worlds[w].dramBase.toNat) else none

/-! ### The partition record (Table 16-12) -/

/-- A window of a partition record: base and size in words. -/
def partDram (p : List (BitVec 64)) (w : Fin 2) : Nat × Nat :=
  ((p.getD (2 + 2 * w.val) 0).toNat, (p.getD (3 + 2 * w.val) 0).toNat)

/-- BASE and COUNT of a heap window. -/
def partHeap (p : List (BitVec 64)) (w : Fin 2) : BitVec 32 × BitVec 18 :=
  (fld (p.getD (39 + w.val) 0) 0 32, fld (p.getD (39 + w.val) 0) 32 18)

/-- Words that the tables of a heap window take: board map, card table, seen map and pool ring. -/
def heapTables (count : Nat) : Nat := cdiv count 32 + 33 * count

/-- Whether one world's part of a record is allowed. (DEDUCED, log 95) -/
def State.partWorldOk (s : State) (p : List (BitVec 64)) (w : Fin 2) : Bool :=
  let (b, n) := partDram p w
  let count := (partHeap p w).2.toNat
  decide (b % 2 ^ 21 = 0) && decide (n % 2 ^ 21 = 0) && decide (b + n ≤ s.shareBase) &&
    decide ((fld (p.getD 1 0) (16 * w.val) 12).toNat ≤ 2048) && decide (count ≤ 131072) && decide (heapTables count ≤ n) &&
    (List.range 16).all fun k => !(bit (p.getD 6 0) (2 * k + 1 + 32 * w.val)) || bit (p.getD 6 0) (2 * k + 32 * w.val)

/-- The cut-list regions lie in the pool, belong to a world and do not overlap (R287). -/
def partCuts (p : List (BitVec 64)) : Bool :=
  let r := (List.range 16).map fun n =>
    let x := p.getD (41 + n) 0
    ((fld x 0 14).toNat, (fld x 14 15).toNat, fld x 29 2)
  r.all (fun (b, c, w) => decide (b + c ≤ 16384) && decide (w.toNat ≤ 1)) &&
    decide (r.Pairwise fun x y => x.2.1 = 0 ∨ y.2.1 = 0 ∨ x.1 + x.2.1 ≤ y.1 ∨ y.1 + y.2.1 ≤ x.1)

/-- A record without a violation of Table 16-12. (DEDUCED, log 95) -/
def State.partOk (s : State) (p : List (BitVec 64)) : Bool :=
  let (b0, n0) := partDram p 0
  let (b1, n1) := partDram p 1
  s.partWorldOk p 0 && s.partWorldOk p 1 && decide (n0 = 0 ∨ n1 = 0 ∨ b0 + n0 ≤ b1 ∨ b1 + n1 ≤ b0) &&
    !(bit (p.getD 6 0) 29) && partCuts p

/-! ### Stage-2 trees (R370, Example 09-1) -/

/-- A stage-2 leaf: A = D = 1, U = G = 0 (R218). (DESIGN CHOICE, log 122) -/
def s2Leaf (size oa : Nat) (r w x se : Bool) : Word :=
  Word.pte (0x183 ||| fbit 2 r ||| fbit 3 w ||| fbit 4 x ||| fbit 6 se ||| putN 10 size ||| putN 16 oa)

/-- A stage-2 table entry. (DESIGN CHOICE, log 122) -/
def s2Table (oa : Nat) : Word := Word.pte (1 ||| putN 16 oa)

/-- Write a table of 512 words. -/
def State.putTable (s : State) (a : Nat) (f : Nat → Word) : State := s.dmaWrites a ((List.range 512).map f)

/-- The largest k up to n for which 2^k divides x. -/
def twos (x : Nat) : Nat → Nat
  | 0 => 0
  | n + 1 => if x % 2 ^ (n + 1) = 0 then n + 1 else twos x n

/-- Where Favar keeps the tables of a world. -/
def State.treeBase (s : State) (w : Fin 2) : Nat := s.shareBase + 0x20000 * w.val

/-- The log2 size of the pages that map a world's memory: the largest that divides its base and its size. -/
def State.pageSize (s : State) (w : Fin 2) : Nat :=
  min (twos s.worlds[w].dramBase.toNat 36) (twos s.worlds[w].dramSize.toNat 36)

/-- The leaf that maps an intermediate address of a world's memory. -/
def State.memLeaf (s : State) (w : Fin 2) (ia : Nat) : Word :=
  let k := s.pageSize w
  match s.worldMem w (ia / 2 ^ k * 2 ^ k) (2 ^ k) with
  | some pa => s2Leaf k pa true true true false
  | none => Word.pte 0

/-- The tables of a world's memory: leaves at level 1 for pages of 2^27 words or more, else at level 2. -/
def State.memTree (s : State) (w : Fin 2) : State :=
  let a := s.treeBase w
  if 27 ≤ s.pageSize w then s.putTable (a + 0x200) fun j => s.memLeaf w (j * 2 ^ 27)
  else
    let lo := s.memIa w
    let used (j : Nat) : Bool :=
      decide (j * 2 ^ 27 < lo + s.worlds[w].dramSize.toNat) && decide (lo < (j + 1) * 2 ^ 27)
    let s' := s.putTable (a + 0x200) fun j => if used j then s2Table (a + 0x2000 + 0x200 * j) else Word.pte 0
    (List.range 64).foldl (fun (t : State) j =>
      if used j then t.putTable (a + 0x2000 + 0x200 * j) fun k => s.memLeaf w (j * 2 ^ 27 + k * 2 ^ 18) else t) s'

/-- The stage-2 tree of a world: its memory, the sample store where it may read it, the cut-list memory, and every
granted register block whole. -/
def State.buildTree (s : State) (w : Fin 2) : State :=
  let a := s.treeBase w
  let x := s.worlds[w]
  let only (k e : Nat) (v : Word) : Word := if k = e then v else Word.pte 0
  let s := s.putTable a fun k =>
    if k = 0 then s2Table (a + 0x200) else if k = 14 then s2Table (a + 0x400)
    else if k = 15 then s2Table (a + 0x600) else Word.pte 0
  let s := s.memTree w
  let s := s.putTable (a + 0x400) fun k =>
    if k = 0 ∧ x.ssRead then s2Table (a + 0x800) else if k = 32 then s2Table (a + 0xA00) else Word.pte 0
  let s := s.putTable (a + 0x600) fun k => only k 0 (s2Table (a + 0xE00))
  let s := if x.ssRead then
      s.putTable (a + 0x800) fun k => if k < 8 then s2Leaf 21 0xE000000000 true false false false else Word.pte 0
    else s
  let s := s.putTable (a + 0xA00) fun k => only k 0 (s2Table (a + 0xC00))
  let s := s.putTable (a + 0xC00) fun k => if k < 64 then s2Leaf 15 0xE100000000 true true false true else Word.pte 0
  let s := s.putTable (a + 0xE00) fun k => if k < 4 then s2Table (a + 0x1000 + 0x200 * k) else Word.pte 0
  let s := [0, 1, 2, 3].foldl (fun (s : State) q =>
    s.putTable (a + 0x1000 + 0x200 * q) fun k =>
      let b := 4 * q + k / 128
      if bit x.loadGrant b then s2Leaf 16 (0xF000000000 + b * 0x10000) true (bit x.storeGrant b) false true
      else Word.pte 0) s
  s.modWorld w fun y => { y with s2root := putN 0 a ||| putN 40 1 }

/-- The part of a record that is one world's: grants, heap window and tables, HOLDMAX. The SAFE block is always granted to
Guard, and each world has its own unit of the MBX block (R190, R381). -/
def State.applyWorld (s : State) (p : List (BitVec 64)) (w : Fin 2) : State :=
  let (b, n) := partDram p w
  let (hb, count) := partHeap p w
  let g := p.getD 6 0
  let pick (o : Nat) : BitVec 16 := (List.finRange 16).foldl (fun (x : BitVec 16) k => setBit x k.val (bit g (2 * k.val + o + 32 * w.val))) 0
  let always : BitVec 16 := if w = 1 then 0x5000 else 0x1000
  let unit (k : Fin 16) (lo : Nat) : BitVec 8 :=
    if k = 12 then BitVec.ofNat 8 w.val else fld (p.getD (7 + 16 * w.val + k.val) 0) lo 8
  let c := count.toNat
  let bmap := b + n - heapTables c
  let cards := bmap + cdiv c 32
  let s := s.modWorld w fun x =>
    { x with state := .empty, image := {}, dramBase := BitVec.ofNat 40 b, dramSize := BitVec.ofNat 40 n
             holdmax := (fld (p.getD 1 0) (16 * w.val) 12).setWidth 64
             loadGrant := pick 0 ||| always, storeGrant := pick 1 ||| always
             unitFirst := Vector.ofFn fun k => unit k 0, unitLast := Vector.ofFn fun k => unit k 8
             ssRead := bit (p.getD 65 0) (10 + w.val)
             heap := { x.heap with base := hb, count := count, bmap := BitVec.ofNat 40 bmap, cards := BitVec.ofNat 40 cards
                                   seen := BitVec.ofNat 40 (cards + 16 * c), poolAddr := BitVec.ofNat 40 (cards + 32 * c)
                                   poolSize := BitVec.ofNat 24 c, poolHead := 0, poolTail := 0
                                   nursery := none, survivor := none, oldTo := none, toSpace := [], seenQ := [], ctxQ := []
                                   ctxDone := [], largeCond := [] } }
  (s.dmaWrites bmap (List.replicate (cdiv c 32 + 32 * c) Word.zero)).buildTree w

/-- A partition is applied: both worlds, the cores, the cut-list regions, the cache registers, and the trigger queue's
acceptance; translations that combine the old stage 2 are cleared (R231, R370), and every core's copy of the maps is that of
the new ones (R143, R144). (DEDUCED, log 96) -/
def State.applyPartition (s : State) (p : List (BitVec 64)) : State :=
  let old := s
  let use (c : Fin 32) : CoreUse := match (fld (p.getD 0 0) (2 * c.val) 2).toNat with
    | 0 => .unused
    | 1 => .test
    | 2 => .guard
    | _ => .shared
  let s := (s.applyWorld p 0).applyWorld p 1
  let s := { s with
    fv := { s.fv with partitioned := true, use := Vector.ofFn use }
    cores := s.cores.map fun (c : Core) =>
      { c with itlb := [], dtlb := []
               bmap := Vector.ofFn fun w => List.replicate (cdiv s.worlds[w].heap.count.toNat 32) 0 }
    clusters := Vector.ofFn fun k =>
      let x := p.getD (57 + k.val) 0
      let c := s.clusters[k]
      { c with sharedTlb := [], walk2Cache := [], cfg := if x = 0 then ({} : Cluster).cfg else (fld x 0 41).setWidth 64 }
    cuts := Vector.ofFn fun n =>
      let x := p.getD (41 + n.val) 0
      { s.cuts[n] with base := fld x 0 14, cap := fld x 14 15, world := fld x 29 2 }
    trigq := { s.trigq with acceptT := bit (p.getD 65 0) 8, acceptG := bit (p.getD 65 0) 9 } }
  s.noteStatus old

/-- A world is stopped (R190). -/
def State.worldStopped (s : State) (w : Fin 2) : Bool :=
  match s.worlds[w].state with
  | .empty => true
  | .loaded => true
  | .verified => true
  | _ => false

/-- WORLD_PARTITION. -/
def execWorldPartition (buf : HostBuf) (s : State) : Host.Outcome State Fault Refusal :=
  ok (s.fvRow 0x14 fun r s =>
    if !(s.worldStopped 0 && s.worldStopped 1) then (.done stState [], s)
    else match hostWords r 0 66 buf with
      | .error st => (.done st [], s)
      | .ok p => if s.partOk p then (.busy (.partition p), s) else (.done stBadArg [], s))

/-! ### Code images (R369, Table 16-7) -/

/-- An image as parsed: what Favar keeps of it, and its segments by intermediate address. -/
structure ImageParts where
  image : Image
  segs : List (Nat × List Word)
deriving DecidableEq, Repr

/-- The words of the segments, one after another from a byte offset. -/
def imageWords (bs : List (BitVec 8)) : Nat → List (Nat × Nat) → List (Nat × List Word)
  | _, [] => []
  | o, (ia, n) :: rest =>
    (ia, (List.range n).map fun i => ⟨BitVec.ofNat 8 (leAt bs (o + 9 * i) 1), BitVec.ofNat 64 (leAt bs (o + 9 * i + 1) 8)⟩) ::
      imageWords bs (o + 9 * n) rest

/-- Whether n bytes from offset o are zero. -/
def zeroBytes (bs : List (BitVec 8)) (o n : Nat) : Bool := ((bs.drop o).take n).all fun b => b == 0

/-- Parse an image for a world; none where it is malformed. An image of an unknown FORMAT has no segments that could be
read. (DEDUCED, log 97) -/
def parseImage (bs : List (BitVec 8)) (w : Fin 2) : Option ImageParts :=
  let len := bs.length
  let at_ (k n : Nat) : Nat := leAt bs k n
  let nctx := at_ 7 1
  let nseg := at_ 0xC 4
  let ctxAt (i : Nat) : Nat := 0xA0 + 16 * i
  let segAt := 0xA0 + 16 * nctx
  let ctxs := (List.range (min nctx 64)).map ctxAt
  let segs := (List.range (min nseg 4096)).map fun i => (at_ (segAt + 16 * i) 8, at_ (segAt + 16 * i + 8) 8)
  let start := segAt + 16 * nseg
  let stop := start + 9 * (segs.map (·.2)).foldl (· + ·) 0
  let image : Image :=
    { format := BitVec.ofNat 16 (at_ 4 2), mcverMin := BitVec.ofNat 32 (at_ 8 4), entry := BitVec.ofNat 49 (at_ 0x10 8)
      key := (bs.drop 0x20).take 97, body := bs.take (len - 96), sig := bs.drop (len - 96)
      ctxs := ctxs.map fun o =>
        { va := BitVec.ofNat 48 (at_ o 8), core := idx 32 (at_ (o + 8) 1), slot := idx 64 (at_ (o + 9) 1)
          prio := BitVec.ofNat 4 (at_ (o + 10) 1) } }
  if len < 0xA0 + 96 || at_ 0 4 != 0x4D49424C || at_ 6 1 != w.val then none
  else if image.format != 1 then some { image := { image with ctxs := [] }, segs := [] }
  else
    let good := decide (1 ≤ nctx) && decide (nctx ≤ 64) && decide (1 ≤ nseg) && decide (nseg ≤ 4096) &&
      zeroBytes bs 0x18 8 && zeroBytes bs 0x81 31 && decide (at_ 0x10 8 < 2 ^ 49) &&
      (ctxs.all fun o => decide (at_ o 8 < 2 ^ 48) && decide (at_ (o + 8) 1 < 32) && decide (at_ (o + 9) 1 < 64) &&
        decide (at_ (o + 10) 1 < 16) && zeroBytes bs (o + 11) 5) &&
      decide (len = cdiv stop 8 * 8 + 96) && zeroBytes bs stop (cdiv stop 8 * 8 - stop)
    if good then some { image := image, segs := imageWords bs start segs } else none

/-- Whether every segment lies in the world's memory. -/
def State.segsFit (s : State) (w : Fin 2) (p : ImageParts) : Bool :=
  p.segs.all fun g => (s.worldMem w g.1 g.2.length).isSome

/-- The segments of an image that fit, written to a world's memory (Table 16-7). -/
def State.putSegs (s : State) (w : Fin 2) (segs : List (Nat × List Word)) : State :=
  segs.foldl (fun (s : State) g => match s.worldMem w g.1 g.2.length with
    | some pa => s.dmaWrites pa g.2
    | none => s) s

/-- The first n words of the segments of an image. -/
def firstWords : Nat → List (Nat × List Word) → List (Nat × Nat)
  | _, [] => []
  | n, (ia, ws) :: rest => (ia, min n ws.length) :: firstWords (n - ws.length) rest

/-- The words of an image that had been written to world memory when its host buffer failed become POISON, origin HOST_DMA (R25, R384):
those whose bytes had all come. (DEDUCED, log 156) -/
def State.poisonSegs (s : State) (w : Fin 2) (bs : List (BitVec 8)) (len : Nat) : State :=
  match parseImage (bs ++ List.replicate (len - bs.length) 0) w with
  | none => s
  | some p =>
    if s.segsFit w p then
      let start := 0xA0 + 16 * (leAt bs 7 1 + leAt bs 0xC 4)
      (firstWords ((bs.length - start) / 9) p.segs).foldl (fun (s : State) g => match s.worldMem w g.1 g.2 with
        | some pa => s.dmaWrites pa ((List.range g.2).map fun i => poisonAt 6 (pa + i))
        | none => s) s
    else s

/-- IMAGE_LOAD. (DEDUCED, log 97) -/
def execImageLoad (buf : HostBuf) (s : State) : Host.Outcome State Fault Refusal :=
  ok (s.fvRow 0x10 fun r s =>
    let w := r.world
    let s := if s.worldStopped w && s.fv.partitioned then
        (match buf with
          | .poisoned bs => s.poisonSegs w (bs.take (r.p 2).toNat) (r.p 2).toNat
          | _ => s)
      else s
    if !s.worldStopped w || !s.fv.partitioned then (.done stState [], s)
    else match hostBytes r 1 buf with
      | .error st => (.done st [], s)
      | .ok bs =>
        match parseImage bs w with
        | some p => if s.segsFit w p then (.busy (.imageLoad w bs), s) else (.done stBadArg [], s)
        | none => (.done stBadArg [], s))

/-- IMAGE_VERIFY. -/
def execImageVerify (s : State) : Host.Outcome State Fault Refusal :=
  ok (s.fvRow 0x11 fun r s =>
    let w := r.world
    if s.worlds[w].state != .loaded then (.done stState [], s)
    else if s.worlds[w].image.format != 1 then (.done stVersion [], s)
    else (.busy (.imageVerify w), s))

/-- Whether the key and the signature of an image hold (R369, R427). -/
def State.imageAuth (s : State) (i : Image) : Bool :=
  s.fv.customerSet && Config.sha384 i.key == s.fv.customerHash && Config.sigValid i.key i.body i.sig

/-! ### Start and stop -/

/-- A WORLD event: 1 started, 2 stopped, 3 warm restart begun, 4 ended, 5 checkpoint lost. -/
def State.worldEvent (s : State) (kind unit : Nat) : State := s.event 8 kind unit []

/-- Whether the record from which a context starts holds what R193 asks of words 29 and 30; an access that faults is left
to the load. -/
def startRecordOk (v : Via) (h : BitVec 48) : M Bool := do
  let e ← viaRead v (h + 38)
  let t ← viaRead v (h + 39)
  pure (e.tag == 0x0B && fld e.datum 62 2 == BitVec.ofNat 2 v.world.val && bit e.datum 61 && t.tag == 0x07 && bit t.datum 13)

/-- Load one initial context of a world into its slot, READY (R168, R193). A core that is not ON is not there to load it
(R413). -/
def State.startContext (s : State) (w : Fin 2) (x : InitCtx) : State :=
  if !(s.domOn x.core.val) then { s with pwr := { s.pwr with sleepWr := satInc s.pwr.sleepWr } } else
  let good : Bool := match (startRecordOk ⟨x.core, w, false, 6⟩ x.va).run s with
    | .ok b _ => b
    | .error _ _ => true
  if (s.slot x.core x.slot).state != .empty || !good then (s.modSlot x.core x.slot fun k => { k with err := true }).raise 253
  else
    (s.modSlot x.core x.slot fun k =>
      { k with handle := x.va, prio := x.prio, world := BitVec.ofNat 2 w.val }).loadSlot x.core x.slot w

/-- WORLD_START (R211, R274). -/
def execWorldStart (s : State) : Host.Outcome State Fault Refusal :=
  ok (s.fvRow 0x12 fun r s =>
    let w := r.world
    let guardHas := s.fv.use.toList.any fun u => u == .guard || u == .shared
    let behind := (List.finRange 2).any fun x => decide (s.mcverMin.toNat < s.worlds[x].image.mcverMin.toNat)
    if s.worlds[w].state != .verified || (w == 0 && guardHas && s.worlds[(1 : Fin 2)].state != .running) then
      (.done stState [], s)
    else if behind then (.done stVersion [], s)
    else
      let old := s
      let s := s.modWorld w fun x => { x with state := .running, entry := x.image.entry.setWidth 64, s1root := 0 }
      let s := old.worlds[w].image.ctxs.foldl (fun (s : State) x => s.startContext w x) s
      (.done stOk [s.now], (s.noteStatus old).worldEvent 1 w.val))

/-- Whether a slot holds a context of a world. -/
def State.slotOf (s : State) (w : Fin 2) (c : Fin 32) (k : Fin 64) : Bool :=
  (s.slot c k).state != .empty && worldIx (s.slot c k).world == w

/-- Apply an operation to each slot that holds a context of a world. -/
def State.eachSlot (s : State) (w : Fin 2) (f : State → Fin 32 → Fin 64 → State) : State :=
  (List.finRange 32).foldl (fun (s : State) c =>
    (List.finRange 64).foldl (fun (s : State) k => if s.slotOf w c k then f s c k else s) s) s

/-- Park every context of a world; a running one parks at its next boundary. -/
def State.parkWorld (s : State) (w : Fin 2) : State :=
  let s := s.eachSlot w fun s c k => s.parkSlot c k
  (List.finRange 32).foldl (fun (s : State) c => s.settlePark c) s

/-- Checkpoint copies of a world that are under way leave the previous slot current (R376). -/
def State.dropCopies (s : State) (w : Fin 2) : State :=
  { s with fv := { s.fv with busy := s.fv.busy.map fun (b : BusyOp) => match b.work with
    | .checkpoint x t rec early v => { b with work := .checkpoint x t rec early (v && x != w) }
    | _ => b } }

/-- WORLD_STOP. -/
def execWorldStop (s : State) : Host.Outcome State Fault Refusal :=
  ok (s.fvRow 0x13 fun r s =>
    let w := r.world
    let quiet := s.variantL || (List.finRange 16).all fun n =>
      s.laneMuted n || s.dl[n].state == .idle || s.dl[n].state == .stopped
    let test := s.worlds[(0 : Fin 2)].state
    if s.worlds[w].state != .running || (w == 1 && !((test == .verified || test == .empty) && quiet)) then
      (.done stState [], s)
    else
      let s := (s.setWorldState w .stopping).dropCopies w
      let s := if s.variantL then s else (List.finRange 16).foldl (fun (s : State) n =>
        if s.dl[n].state == .run && s.cutMay w 4 n.val then s.softstop n else s) s
      (.busy (.worldStop w), s.parkWorld w))

/-! ### Checkpoints (R376) -/

/-- The words of ranges of a world's memory, by intermediate address. -/
def State.rangeWords (s : State) (w : Fin 2) (rs : List (Nat × Nat)) : List (BitVec 40 × Word) :=
  rs.flatMap fun r => match s.worldMem w r.1 r.2 with
    | some pa => (List.range r.2).map fun i => (BitVec.ofNat 40 (r.1 + i), s.peek (pa + i))
    | none => []

/-- The number of contexts that a restart record lists, where it is one of 1 to 64. -/
def recordCount (x : Word) : Option Nat :=
  if x.tag = 0x00 ∧ 1 ≤ x.datum.toNat ∧ x.datum.toNat ≤ 64 then some x.datum.toNat else none

/-- CHECKPOINT. -/
def execCheckpoint (s : State) : Host.Outcome State Fault Refusal :=
  ok (s.fvRow 0xA0 fun r s =>
    let w := r.from?.getD r.world
    let n := (fld (r.p 0) 4 5).toNat
    let rs := (List.range n).map fun i => ((fld (r.p (2 + i)) 0 40).toNat, (fld (r.p (2 + i)) 40 24).toNat)
    let rec_ := (r.p 1).toNat
    let rlen := 3 + ((s.worldMem w rec_ 1).bind fun pa => recordCount (s.peek pa)).getD 0
    let good := decide (1 ≤ n) && decide (n ≤ 16) && decide (2 + n ≤ r.payload.length) &&
      decide ((rs.map (·.2)).foldl (· + ·) 0 ≤ 67108864) && (rs.all fun x => (s.worldMem w x.1 x.2).isSome) &&
      rs.any fun x => decide (x.1 ≤ rec_) && decide (rec_ + rlen ≤ x.1 + x.2)
    if s.worlds[w].state != .running then (.done stState [], s)
    else if !good then (.done stBadArg [], s)
    else (.busy (.checkpoint w s.now (BitVec.ofNat 40 rec_) (s.rangeWords w rs) true), s))

/-- A word of a checkpoint: one stored into during the copy holds either value, by a free choice. (DESIGN CHOICE, log 98) -/
def State.copyWord (s : State) (w : Fin 2) (e : BitVec 40 × Word) : (BitVec 40 × Word) × State :=
  match s.worldMem w e.1.toNat 1 with
  | none => (e, s)
  | some pa =>
    let v := s.peek pa
    if v = e.2 then (e, s)
    else
      let (d, s) := drawFree s
      ((e.1, if bit d 0 then v else e.2), s)

/-- The copy of every word. (DESIGN CHOICE, log 98) -/
def State.copyWords (s : State) (w : Fin 2) : List (BitVec 40 × Word) → List (BitVec 40 × Word) × State
  | [] => ([], s)
  | e :: es =>
    let (x, s) := s.copyWord w e
    let (xs, s) := State.copyWords s w es
    (x :: xs, s)

/-! ### Completion of the work on worlds -/

/-- How the work of a command that returned BUSY stands: complete, with its status and result, or still under way. -/
inductive WorkEnd where
  | done (st : BitVec 8) (ws : List (BitVec 64))
  | going
deriving DecidableEq, Repr

/-- WORLD_PARTITION completes, unless a world has been started meanwhile. -/
def State.endPartition (s : State) (p : List (BitVec 64)) : WorkEnd × State :=
  if s.worldStopped 0 && s.worldStopped 1 then (.done stOk [], s.applyPartition p) else (.done stState [], s)

/-- IMAGE_LOAD completes: the segments are in memory and the world is LOADED. -/
def State.endImageLoad (s : State) (w : Fin 2) (bs : List (BitVec 8)) : WorkEnd × State :=
  match parseImage bs w with
  | none => (.done stBadArg [], s)
  | some p =>
    if !(s.worldStopped w && s.segsFit w p) then (.done stState [], s)
    else
      let old := s
      let s := s.putSegs w p.segs
      let n := (p.segs.map (·.2.length)).foldl (· + ·) 0
      (.done stOk [BitVec.ofNat 64 n],
        (s.modWorld w fun x => { x with state := .loaded, image := p.image }).noteStatus old)

/-- IMAGE_VERIFY completes. -/
def State.endImageVerify (s : State) (w : Fin 2) : WorkEnd × State :=
  if s.worlds[w].state != .loaded then (.done stState [], s)
  else if s.imageAuth s.worlds[w].image then
    (.done stOk [s.worlds[w].image.mcverMin.setWidth 64], s.setWorldState w .verified)
  else (.done stAuth [], (s.modWorld w fun x => { x with image := {} }).setWorldState w .empty)

/-- WORLD_STOP completes once every context of the world is parked: they are unloaded and the world is VERIFIED. A warm
restart in between has left it VERIFIED already. -/
def State.endWorldStop (s : State) (w : Fin 2) : WorkEnd × State :=
  if s.worlds[w].state == .verified then (.done stOk [], s)
  else if s.worlds[w].state != .stopping then (.done stState [], s)
  else
    let s := s.parkWorld w
    let left := (List.finRange 32).any fun c => (List.finRange 64).any fun k =>
      s.slotOf w c k && (s.slot c k).state != .parked
    if left then (.going, s)
    else
      let s := s.eachSlot w fun s c k => s.unloadSlot c k
      (.done stOk [], (s.setWorldState w .verified).worldEvent 2 w.val)

/-- CHECKPOINT completes: the slot is current, unless the copy was cut short. -/
def State.endCheckpoint (s : State) (w : Fin 2) (at_ : BitVec 64) (rec_ : BitVec 40) (early : List (BitVec 40 × Word))
    (valid : Bool) : WorkEnd × State :=
  if !valid then (.done stState [], s)
  else
    let (ws, s) := s.copyWords w early
    (.done stOk [at_],
      s.modWorld w fun x => { x with ckpt := some { inst := at_, record := rec_, words := ws } })

end Sys2Proof.Machine
end

