-- ==== Sys2Proof/Machine/FavarUnits.lean ====
section
/-! DEFINITION. Favar's commands on lanes, cut lists, time, Kamion, veneers and firmware, and the watchdogs (R266 to R275,
R285, R293, R379, R380, R392, R421, R423). -/

namespace Sys2Proof.Machine

open Sys2Proof

/-- The words of record k of a host buffer with records of n words. -/
def recordOf (ws : List (BitVec 64)) (n k : Nat) : List (BitVec 64) := (ws.drop (n * k)).take n

/-- A store by Favar; its registers never raise PRIVILEGE. -/
def favarStore (s : State) (r : RegSt) : State :=
  match r with
  | .ok s' => s'
  | .error _ => s

/-! ### LANE_SET (Table 16-10) -/

/-- The lanes of a mask, ascending. -/
def lanesOf (n : Nat) (p : BitVec 64) : List (Fin n) := (List.finRange n).filter fun k => bit p k.val

/-- Whether a ring lies in the memory of a world that the unit is granted to, in Favar's share or in the sample store. -/
def State.ringPlace (s : State) (block : Fin 16) (u base size : Nat) : Bool :=
  decide (size = 0) || s.inShare base size || (inSampleStore base && inSampleStore (base + size - 1)) ||
    (List.finRange 2).any fun w =>
      let b := s.worlds[w].dramBase.toNat
      bit s.worlds[w].loadGrant block.val && s.unitGranted w block u && decide (b ≤ base) &&
        decide (base + size ≤ b + s.worlds[w].dramSize.toNat)

/-- The registers of a 52-word lane record are stored. -/
def State.slRecord (s : State) (n : Fin 32) (ws : List (BitVec 64)) : State :=
  let st (s : State) (r : SlReg) (i : Nat) : State := favarStore s (s.slStore .fv n r (ws.getD i 0))
  let s := st (st (st (st s .cfg 0) .ivl 1) .ring 2) .rdptr 3
  (List.finRange 16).foldl (fun (s : State) m =>
    st (st (st s (.delay m) (4 + m.val)) (.dim m) (20 + m.val)) (.scale m) (36 + m.val)) s

/-- START or STOP of LANE_SET at the present tick, and the command's end. -/
def laneActs (r : FvReq) (lanes : List (Fin 32)) (b : BitVec 64) (s : State) : Reply × State :=
  let start := bit (r.p 1) 2
  let stop := bit (r.p 1) 3
  let s := if start then lanes.foldl (fun (s : State) n => s.slStart n) s else s
  let s := if stop then lanes.foldl (fun (s : State) n => s.slStop n) s else s
  let lost := lanes.foldl (fun (x : BitVec 64) n => x ||| fbit n.val (start && !(s.sl[n].run))) 0
  (.done (if lost = 0 then stOk else stState) [if start || stop then s.now else 0, b, lost], s)

/-- LANE_SET: WRITE, COMMIT, then START or STOP; a START that follows a COMMIT waits for the commit boundary, and the row
stands again for the request until then. (DEDUCED, log 99) -/
def execLaneSet (buf : HostBuf) (s : State) : Host.Outcome State Fault Refusal :=
  ok (s.fvRow 0x20 fun r s =>
    let lanes : List (Fin 32) := lanesOf 32 (r.p 0)
    let act (k : Nat) : Bool := bit (r.p 1) k
    match s.fv.stage with
    | some b =>
      if decide (b.toNat ≤ s.now.toNat) && !(lanes.any fun n => s.sl[n].cpend) then laneActs r lanes b s else (.wait, s)
    | none =>
      if act 2 && act 3 then (.done stBadArg [], s)
      else if lanes.any fun n => !(s.slOn n) then (.done stAbsent [], s)
      else
        let recs : Except (BitVec 8) (List (BitVec 64)) := if act 0 then hostWords r 2 (52 * lanes.length) buf else .ok []
        match recs with
        | .error st => (.done st [], s)
        | .ok ws =>
          let each := (List.range lanes.length).zip lanes
          let place (e : Nat × Fin 32) : Bool :=
            let x := (recordOf ws 52 e.1).getD 2 0
            s.ringPlace 3 e.2.val (fld x 0 40).toNat (fld x 40 24).toNat
          if act 0 && !(each.all place) then (.done stBadArg [], s)
          else
            let s := if act 0 then
                each.foldl (fun (s : State) (e : Nat × Fin 32) => s.slRecord e.2 (recordOf ws 52 e.1)) s
              else s
            let s := if act 1 then lanes.foldl (fun (s : State) n => s.slAsk n) s else s
            let b := if act 1 then boundaryAfter s.now else 0
            if act 1 && act 2 then (.wait, { s with fv := { s.fv with stage := some b } }) else laneActs r lanes b s)

/-! ### DRIVE_SET -/

/-- The registers of a 5-word drive-lane record are stored. -/
def State.dlRecord (s : State) (n : Fin 16) (ws : List (BitVec 64)) : State :=
  let st (s : State) (r : DlReg) (i : Nat) : State := favarStore s (s.dlStore .fv n r (ws.getD i 0))
  st (st (st (st (st s .cfg 0) .ivl 1) .ring 2) .dim 3) .gain 4

/-- PLAY, RESUME and SOFTSTOP of DRIVE_SET, and the command's end. -/
def driveActs (r : FvReq) (lanes : List (Fin 16)) (b : BitVec 64) (s : State) : Reply × State :=
  let act (k : Nat) : Bool := bit (r.p 1) k
  let failed := lanes.foldl (fun (x : BitVec 64) n =>
    x ||| fbit n.val ((act 2 || act 3) && s.dl[n].badblk && !(s.dl[n].pend))) 0
  let s := if act 3 then lanes.foldl (fun (s : State) n => s.driveCommit n) s else s
  let ctl (k : Nat) (s : State) : State :=
    lanes.foldl (fun (s : State) n => favarStore s (s.dlStore .fv n .ctl (fbit k true))) s
  let s := if act 4 then ctl 1 s else s
  let s := if act 5 then ctl 0 s else s
  (.done (if failed = 0 then stOk else stState) [if act 3 then s.now else 0, b, failed], s)

/-- DRIVE_SET: WRITE, COMMIT, BLOCK, PLAY, RESUME and SOFTSTOP in this order. The checks that BLOCK starts are waited for,
and a PLAY that follows a COMMIT waits for the commit boundary; the row stands again for the request until then. (DEDUCED, log 99) -/
def execDriveSet (buf : HostBuf) (s : State) : Host.Outcome State Fault Refusal :=
  ok (s.fvRow 0x21 fun r s =>
    let lanes : List (Fin 16) := lanesOf 16 (r.p 0)
    let act (k : Nat) : Bool := bit (r.p 1) k
    match s.fv.stage with
    | some b =>
      let checked := !act 2 || !(lanes.any fun n => s.dl[n].checking)
      let applied := !(act 1 && act 3) || (decide (b.toNat ≤ s.now.toNat) && !(lanes.any fun n => s.dl[n].cpend))
      if checked && applied then driveActs r lanes b s else (.wait, s)
    | none =>
      if s.variantL || lanes.any fun n => !(s.dlOn n) then (.done stAbsent [], s)
      else
        let recs : Except (BitVec 8) (List (BitVec 64)) := if act 0 then hostWords r 3 (5 * lanes.length) buf else .ok []
        match recs with
        | .error st => (.done st [], s)
        | .ok ws =>
          let each := (List.range lanes.length).zip lanes
          let s := if act 0 then each.foldl (fun (s : State) (e : Nat × Fin 16) => s.dlRecord e.2 (recordOf ws 5 e.1)) s else s
          let s := if act 1 then lanes.foldl (fun (s : State) n => s.dlRequest n) s else s
          let b := if act 1 then boundaryAfter s.now else 0
          let s := if act 2 then lanes.foldl (fun (s : State) n => s.shadowStore n (put 0 (fld (r.p 2) 0 25))) s else s
          if act 2 || (act 1 && act 3) then (.wait, { s with fv := { s.fv with stage := some b } }) else driveActs r lanes b s)

/-! ### Cut lists -/

/-- The load-time check of an entry (R288). -/
def entryOk (e : Word × Word) : Bool :=
  (e.1.tag == 0x04 || e.1.tag == 0x05) && e.2.tag == 0x07 && decide (cutOp e.2 ≤ 0x0A) && fld e.2.datum 9 7 == 0 &&
    decide ((cutArg e.2).toNat < 2 ^ argBits (cutOp e.2))

/-- The entries in tagged form among payload or buffer words; none where the upper tag bits are not zero. -/
def entriesOf : List (BitVec 64) → Option (List (Word × Word))
  | d0 :: t0 :: d1 :: t1 :: rest =>
    if t0.toNat < 256 ∧ t1.toNat < 256 then
      (entriesOf rest).map fun es => (⟨t0.setWidth 8, d0⟩, ⟨t1.setWidth 8, d1⟩) :: es
    else none
  | _ => some []

/-- CUT_LOAD: entries into the shadow copy, all or none, and CL_n_SCFG. (DEDUCED, log 100) -/
def execCutLoad (buf : HostBuf) (s : State) : Host.Outcome State Fault Refusal :=
  ok (s.fvRow 0x30 fun r s =>
    let n : Fin 16 := (fld (r.p 0) 0 4).toFin
    let first := (fld (r.p 1) 0 14).toNat
    let count := (fld (r.p 1) 14 15).toNat
    let words : Except (BitVec 8) (List (BitVec 64)) :=
      if bit (r.p 0) 5 then (hostWords r 3 (4 * count) buf).map (·.take (4 * count))
      else if 126 < count ∨ r.payload.length < 3 + 4 * count then .error stBadArg
      else .ok ((r.payload.drop 3).take (4 * count))
    if s.cuts[n].cap.toNat < first + count then (.done stBadArg [], s)
    else match words with
      | .error st => (.done st [], s)
      | .ok ws =>
        match entriesOf ws with
        | none => (.done stBadArg [], s)
        | some es =>
          match es.findIdx? fun e => !(entryOk e) with
          | some i => (.done stBadArg [0, BitVec.ofNat 64 (first + i)], s)
          | none =>
            let s := s.dmaWrites (0xE100000000 + 2 * (s.cuts[n].base.toNat + first)) (es.flatMap fun e => [e.1, e.2])
            let s := if bit (r.p 0) 4 then favarStore s (s.cutStore .fv (.list n 1) (r.p 2)) else s
            (.done stOk [BitVec.ofNat 64 count], s))

/-- CUT_COMMIT: a commit of each list of the mask is requested, or withdrawn. -/
def execCutCommit (s : State) : Host.Outcome State Fault Refusal :=
  ok (s.fvRow 0x31 fun r s =>
    let s := (List.finRange 16).foldl (fun (s : State) n =>
      if !(bit (r.p 0) n.val) then s
      else if bit (r.p 0) 16 then s.clCancel n else s.clRequest n) s
    (.done stOk [boundaryAfter s.now], s))

/-! ### Time -/

/-- TIME_SOURCE: the Imtur registers, and the PTP settings (Table 12-1, R285). (DEDUCED, log 100) -/
def execTimeSource (s : State) : Host.Outcome State Fault Refusal :=
  ok (s.fvRow 0x50 fun r s =>
    let p (i : Nat) : BitVec 64 := r.p i
    let width := (fld (p 2) 0 17).toNat
    let x := p 12
    let later := fld x 41 3 != 0
    let ptp := fld (p 0) 0 2 == 2
    let eth : Fin 2 := (fld (p 0) 7 1).toFin
    let roles := !ptp || fld x 41 2 == 0 || (bit x 43 && !(bit x (41 + eth.val)))
    let good := fld (p 0) 8 56 == 0 && fld (p 1) 48 16 == 0 && fld (p 2) 19 45 == 0 && decide (1 ≤ width) &&
      decide (width ≤ 100000) && ((List.range 8).all fun k => fld (p (4 + k)) 32 32 == 0) && !(bit x 7) &&
      fld x 39 2 == 0 && fld x 44 20 == 0 && roles
    if later && s.fv.major == 2 then (.done stVersion [], s)
    else if (later && s.fv.major == 3 && s.fv.minor == 0) || !good then (.done stBadArg [], s)
    else if ptp && !(s.fv.ethUp[eth]) then (.done stState [], s)
    else if (List.finRange 8).any fun k => p (4 + k.val) != 0 && s.kmPresence k != .there then (.done stAbsent [], s)
    else
      let st (s : State) (r : ImtReg) (v : BitVec 64) : State := favarStore s (s.imtStore .fv r v)
      let s := st (st (st s .cfg (p 1)) .pps (p 2)) .refsec (p 3)
      let s := (List.finRange 8).foldl (fun (s : State) k =>
        if s.kmPresence k = .there then st s (.asym k) (p (4 + k.val)) else s) s
      let s := st s .src (p 0)
      (.done stOk [], { s with imt := { s.imt with ptp := x } }))

/-- TIME_STATUS. -/
def execTimeStatus (s : State) : Host.Outcome State Fault Refusal :=
  ok (s.fvRow 0x51 fun _ s =>
    let delays := (List.finRange 8).map fun p => if s.kmPresence p = .there then s.delayBits p else 0
    (.done stOk ([s.imtStatus, put 0 s.imt.offset, s.imt.beaconBits] ++ delays ++ [s.imt.ptpMaster]), s))

/-! ### Kamion -/

/-- What KAMION_MAP reports of a port. -/
def State.portReport (s : State) (p : Fin 8) : BitVec 64 :=
  let k := s.km.ports[p]
  if s.kmPresence p = .there then
    fbit 0 true ||| fbit 1 k.trained ||| fbit 2 k.runGen2 ||| fbit 3 k.runProto2 ||| put 4 k.nbrId ||| put 16 k.nbrPort
  else 0

/-- A routing table is loaded (R392): KM_SHAPE, the overrides and KMp_CFG are written; the routing takes effect at the next
frame boundary. -/
def State.loadTable (s : State) (ws : List (BitVec 64)) : State :=
  let s := s.kmSettle
  let x := ws.getD 1 0
  let n := (ws.getD 2 0).toNat
  let s := (List.finRange 8).foldl (fun (s : State) p =>
    if s.kmPresence p = .there then s.kmCfg p (bit x p.val) (bit x (8 + p.val)) (bit x (16 + p.val)) else s) s
  { s with km := { s.km with
      shape := ws.getD 0 0 &&& 0xFFFFFF7FFF
      ovr := Vector.ofFn fun k => if k.val < n then KmOvr.ofBits (ws.getD (3 + k.val) 0) else {}
      routeAt := some s.now, tableIn := true, retrain := fld x 24 8 } }

/-- KAMION_MAP: report the ports, load a routing table, confirm the device id. -/
def execKamionMap (buf : HostBuf) (s : State) : Host.Outcome State Fault Refusal :=
  ok (s.fvRow 0x60 fun r s =>
    let confirm := bit (r.p 0) 12
    let given := r.from?.isNone && (r.p 1 != 0 || r.p 2 != 0)
    let table : Except (BitVec 8) (List (BitVec 64)) := if given then hostWords r 1 3 buf else .ok []
    if confirm && fld (r.p 0) 0 12 != s.km.id then (.done stState [], s)
    else match table with
      | .error st => (.done st [], s)
      | .ok ws =>
        let x := ws.getD 1 0
        let n := (ws.getD 2 0).toNat
        let named := fld x 0 8 ||| fld x 24 8
        if given && (fld x 32 32 != 0 || decide (64 < n) || decide (ws.length < 3 + n)) then (.done stBadArg [], s)
        else if (List.finRange 8).any fun p => bit named p.val && s.kmPresence p != .there then (.done stAbsent [], s)
        else
          let s := if given then s.loadTable ws else s
          let s := if confirm then { s with km := { s.km with confirmed := true } } else s
          (.done stOk ((List.finRange 8).map s.portReport), s))

/-! ### Veneers (R266 to R275) -/

/-- Whether a package has the layout of Table 11-6, its match entries distinct and in range. -/
def packageOk (bs : List (BitVec 8)) : Bool :=
  let nw := leAt bs 0xC 2
  let nm := leAt bs 0xE 2
  let ms := (List.range (min nm 32)).map fun i => leAt bs (0x20 + 4 * i) 4
  let start := 0x20 + 4 * nm
  let stop := start + 21 * nw
  leAt bs 0 4 == 0x31524E56 && leAt bs 4 2 == 1 && zeroBytes bs 6 2 && zeroBytes bs 0x14 12 && decide (1 ≤ leAt bs 0xA 2) &&
    decide (1 ≤ nw) && decide (nw ≤ 512) && decide (nm ≤ 32) && decide (bs.length = cdiv stop 8 * 8 + 96) &&
    zeroBytes bs stop (cdiv stop 8 * 8 - stop) && (ms.all fun m => decide (m < 2 ^ 22)) &&
    decide ((ms.map (· % 2 ^ 13)).Nodup) && (List.range nw).all fun i => microOk (microAt bs (start + 21 * i))

/-- Whether the last 96 bytes of an image are a signature under a key. (DEDUCED, log 118) -/
def signedBy (key bs : List (BitVec 8)) : Bool :=
  Config.sigValid key (bs.take (bs.length - 96)) (bs.drop (bs.length - 96))

/-- A staged package is discarded: it is disarmed, the requests that stand are withdrawn, and the shadow banks are empty (R267). Where a
core has committed it, Favar's copy of the active package is this one, since its level is the highest committed on any core (R275). (DEDUCED,
log 64) -/
def State.discardStage (s : State) : State :=
  let kept := s.cores.toList.any fun x => fld x.ven.mcver 0 16 == s.ven.level
  { s with
    ven := { s.ven with staged := false, armed := false, rollout := false, level := 0, package := []
                        active := if kept then s.ven.package else s.ven.active }
    cores := s.cores.map fun (x : Core) => { x.setShadow {} with ven := { x.ven with pending := false } } }

/-- VENEER_STAGE: the checks of R266, or DISCARD. (DEDUCED, log 64) -/
def execVeneerStage (buf : HostBuf) (s : State) : Host.Outcome State Fault Refusal :=
  ok (s.fvRow 0x70 fun r s =>
    if bit (r.p 0) 0 then
      if !s.ven.staged then (.done stState [], s)
      else (.done stOk [], s.discardStage)
    else match hostBytes r 1 buf with
      | .error st => (.done st [], s)
      | .ok bs =>
        if !packageOk bs then (.done stBadArg [], s)
        else if !(signedBy s.fv.mcKey bs) then (.done stAuth [], s)
        else if leAt bs 8 2 ≠ s.ven.base.toNat ∨ leAt bs 0xA 2 ≤ s.ven.committed.toNat ∨ s.fv.fwver.toNat < leAt bs 0x10 4 then
          (.done stVersion [], s)
        else if s.ven.staged || s.ven.armed || s.ven.rollout then (.done stState [], s)
        else (.busy (.veneerStage bs), s))

/-- VENEER_STAGE completes: the package is in the shadow bank and the shadow set of matches of every core (R267). -/
def State.endVeneerStage (s : State) (bs : List (BitVec 8)) : WorkEnd × State :=
  (.done stOk [], { s with
    ven := { s.ven with staged := true, level := BitVec.ofNat 16 (leAt bs 0xA 2), package := bs }
    cores := s.cores.map fun (x : Core) => x.setShadow (packageBank bs) })

/-- VENEER_APPLY: commit now on every core behind, or arm the package (R270). (DEDUCED, log 64) -/
def execVeneerApply (s : State) : Host.Outcome State Fault Refusal :=
  ok (s.fvRow 0x71 fun r s =>
    if !s.ven.staged || s.ven.armed then (.done stState [], s)
    else if bit (r.p 0) 0 then (.busy .veneerApply, { s with ven := { s.ven with armed := true } })
    else (.busy .veneerApply, s.requestCommit.veneerOutcome))

/-- VENEER_APPLY completes once the package is armed, or once every core has committed or abandoned. -/
def State.endVeneerApply (s : State) : WorkEnd × State :=
  if s.ven.rollout then (.going, s)
  else
    let left := (List.finRange 32).foldl (fun (x : BitVec 64) c =>
      x ||| fbit c.val (s.ven.staged && !s.ven.armed && fld s.cores[c].ven.mcver 0 16 != s.ven.level)) 0
    (.done stOk [left], s)

/-! ### Firmware (R379, R380, R423, R430) -/

/-- The firmware image in the slot that does not run. -/
def Favar.setInactive (f : Favar) (x : FwImage) : Favar := if f.activeB then { f with fwA := x } else { f with fwB := x }
/-- The firmware image in the slot that runs. -/
def Favar.active (f : Favar) : FwImage := if f.activeB then f.fwB else f.fwA
/-- The firmware image in the other slot. -/
def Favar.inactive (f : Favar) : FwImage := if f.activeB then f.fwA else f.fwB

/-- Whether a firmware image has the layout of R430. -/
def firmwareOk (bs : List (BitVec 8)) : Bool :=
  leAt bs 0 4 == 0x57465646 && leAt bs 4 2 == 1 && decide (leAt bs 6 1 ≤ 64) && decide (leAt bs 7 1 ≤ 1) &&
    zeroBytes bs 0x71 143 && decide (bs.length = 0x100 + leAt bs 0xC 4 + 96) && decide (bs.length ≤ 8388608)

/-- Whether an image is signed with Telaust's key (R379). (DEDUCED, log 118) -/
def State.firmwareAuth (s : State) (bs : List (BitVec 8)) : Bool :=
  let key := (bs.drop 0x10).take 97
  Config.sha384 key == s.fv.telaustHash && signedBy key bs

/-- FW_STAGE. -/
def execFwStage (buf : HostBuf) (s : State) : Host.Outcome State Fault Refusal :=
  ok (s.fvRow 0x80 fun r s =>
    match hostBytes r 0 buf with
    | .error st => (.done st [], s)
    | .ok bs =>
      if !firmwareOk bs then (.done stBadArg [], s)
      else if !(s.firmwareAuth bs) then (.done stAuth [], s)
      else if leAt bs 8 4 ≤ s.fv.fwver.toNat ∨ leAt bs 6 1 < s.fv.svnFloor then (.done stVersion [], s)
      else (.busy (.fwStage bs), s))

/-- FW_STAGE completes: the image is in the inactive slot. -/
def State.endFwStage (s : State) (bs : List (BitVec 8)) : WorkEnd × State :=
  let x : FwImage := { version := BitVec.ofNat 32 (leAt bs 8 4), svn := BitVec.ofNat 8 (leAt bs 6 1), raise := leAt bs 7 1 == 1
                       valid := true }
  (.done stOk [], { s with fv := { s.fv.setInactive x with stagedFw := true } })

/-- Favar stops serving while firmware starts: SWAP = 1, READY = 0. -/
def State.beginSwap (s : State) (fresh : Bool) : State :=
  { s with fv := { s.fv with swap := true, ready := false, swapAt := s.now, swapNew := fresh } }.noteStatus s

/-- The events latched during a swap are posted, then the FIRMWARE entry with the version and a status. -/
def State.postLatched (s : State) (st : BitVec 8) : State :=
  let held := s.fv.latched
  let s := { s with fv := { s.fv with latched := [] } }
  let s := held.foldl (fun (s : State) e => s.postRing e false) s
  if bit s.fv.subs 10 then
    ({ s with fv := { s.fv with evNo := s.fv.evNo + 1 } }).postRing
      { cls := 10, code := Config.eventCode 10 1, seq := s.fv.evNo, stamp := s.now, status := st.setWidth 32, slot := 0
        data := [s.fv.fwver.setWidth 64] } false
  else s

/-- READY returns under the firmware of the active slot. (DEDUCED, log 101) -/
def State.endSwap (s : State) (st : BitVec 8) : State :=
  let s' := { s with fv := { s.fv with swap := false, ready := true, readySince := s.now, fwver := s.fv.active.version } }
  (s'.noteStatus s).postLatched st

/-- FW_SWAP: the command, and while a swap is in progress the new firmware's READY, which ends it (R380). (DEDUCED, log 101) -/
def execFwSwap (s : State) : Host.Outcome State Fault Refusal :=
  ok (if s.fv.swap then
      if !s.alive || decide (250000000 < (s.now - s.fv.swapAt).toNat) then s
      else
        let f := s.fv
        let s := if f.swapNew then { s with fv := { f with activeB := !f.activeB, preferB := !f.activeB, stagedFw := false } } else s
        s.endSwap stOk
    else s.fvRow 0x81 fun _ s =>
      let other := s.fv.busy.any fun b => match b.work with
        | .logClose _ _ => false
        | _ => true
      let restarting := s.worlds.toList.any fun w => w.state == .restarting
      if !s.fv.stagedFw || other || restarting then (.done stState [], s) else (.done stOk [], s.beginSwap true))

/-- FW_SWAP_FALLBACK: firmware that is not ready within 250 ms is given up. After a swap its slot is marked invalid and the
previous firmware is restarted from its slot; after a restart by the watchdog the other slot is started (R380, R421). -/
def execFwSwapFallback (s : State) : Host.Outcome State Fault Refusal :=
  let f := s.fv
  let late := f.swap && s.alive && decide (250000000 ≤ (s.now - f.swapAt).toNat)
  ok (if !late then s
    else if f.swapNew then
      let s := { s with fv := { f.setInactive { f.inactive with valid := false } with stagedFw := false } }
      (s.writeCrash 2 s.now 0 0).endSwap stTimeout
    else if f.inactive.valid then
      let g := if f.activeB then { f with fwB := { f.fwB with valid := false } } else { f with fwA := { f.fwA with valid := false } }
      let s := { s with fv := { g with activeB := !f.activeB } }
      (s.writeCrash 2 s.now 0 0).endSwap stTimeout
    else s)

/-- FAVAR_WATCHDOG_EXPIRY: Favar unkicked for 1 s is restarted from the same slot, with the effects of a swap, a crash
record of KIND 1, and LAST = 3 (R421). -/
def execFavarWatchdogExpiry (s : State) : Host.Outcome State Fault Refusal :=
  ok (if s.alive && s.fv.ready then
      ({ s with pwr := { s.pwr with last := 3 } }.writeCrash 1 s.now 0 0).beginSwap false
    else s)

/-- DEVICE_WATCHDOG_EXPIRY: WDOG_OUT_N and FIRED, and drive is muted (R421). -/
def execDeviceWatchdogExpiry (s : State) : Host.Outcome State Fault Refusal :=
  ok (if s.alive then
      ({ s with pwr := { s.pwr with wdFired := true }, safe := { s.safe with mute := true } }).muteLanes
    else s)

/-- FW_SLOT_FALLBACK: firmware that has not set READY within 1.5 s of its start is marked invalid and the other slot is
started. When neither succeeds, FWVER reads 0 and every switched domain is held in reset (R423). -/
def execFwSlotFallback (s : State) : Host.Outcome State Fault Refusal :=
  let f := s.fv
  ok (if !s.alive || f.ready || f.swap || f.restricted then s
    else
      let other := f.inactive
      let g := if f.activeB then { f with fwB := { f.fwB with valid := false } } else { f with fwA := { f.fwA with valid := false } }
      if other.valid && bit f.fwGood (if f.activeB then 0 else 1) && decide (s.fv.svnFloor ≤ other.svn.toNat) then
        { s with fv := { g with activeB := !f.activeB, ready := true, readySince := s.now
                                fwver := other.version } }.noteStatus s
      else
        { s with fv := { g with fwver := 0 }
                 pwr := { s.pwr with dom := s.pwr.dom.map fun (d : Dom) => { d with state := .off } } }.noteStatus s)

end Sys2Proof.Machine
end

