-- ==== Sys2Proof/Machine/Logs.lean ====
section
/-! DEFINITION. Log streams (R372 to R375), and the completion of the commands that returned BUSY (R371). -/

namespace Sys2Proof.Machine

open Sys2Proof

/-! ### Opening and closing (R372, Table 16-14) -/

/-- Words that a block of n samples takes at the most in a segment (R339, R340). -/
def blockWords (n : Nat) : Nat := 9 + cdiv (16 + 49 * n + 7 * cdiv n 256 + 32 * n) 64

/-- Words for 60 s of the channels of one lane that a selection logs (R341). A lane without an active configuration counts 0 words.
(DESIGN CHOICE, log 102) -/
def State.laneWords (s : State) (sel ret : Vector (BitVec 64) 8) (n : Fin 32) : Nat :=
  let l := s.sl[n]
  let len := slBlklen l.acfg
  let ivl := (fld l.aivl 0 48).toNat
  let chans := ((List.range (slChans l.acfg)).filter fun m => mqSelected sel n m && !(mqSelected ret n m)).length
  if chans = 0 ∨ ivl = 0 ∨ len = 0 then 0
  else (cdiv (60000000000 * 65536) (ivl * len) + 2) * (6 + chans * blockWords len)

/-- MQ_LOGSIZE where LOG_OPEN gives none. (DESIGN CHOICE, log 102) -/
def State.defaultLog (s : State) (sel ret : Vector (BitVec 64) 8) : Nat :=
  ((List.finRange 32).map fun n => s.laneWords sel ret n).foldl (· + ·) 0

/-- Whether a window source is one of Table 16-3. -/
def srcOk (b : BitVec 8) : Bool := decide (b.toNat ≤ 2) || (decide (0x20 ≤ b.toNat) && decide (b.toNat < 0x40))

/-- Words at the bottom of Favar's share that the log rings leave to its tables. -/
def shareTables : Nat := 2 ^ 20

/-- LOG_OPEN: the rings lie at the top of Favar's share, the retention ring below the log ring. (DESIGN CHOICE, log 102) -/
def execLogOpen (s : State) : Host.Outcome State Fault Refusal :=
  ok (s.fvRow 0x40 fun r s =>
    let p (i : Nat) : BitVec 64 := r.p i
    let kind := fld (p 0) 0 2
    let push := kind == 0
    let windows := (List.range 12).any fun i => p (19 + i) != 0
    let sel : Vector (BitVec 64) 8 := Vector.ofFn fun k => p (3 + k.val)
    let ret : Vector (BitVec 64) 8 := Vector.ofFn fun k => p (11 + k.val)
    let size := if p 1 = 0 then s.defaultLog sel ret else (p 1).toNat
    let rsize := (p 2).toNat
    let ringOk := !push || ((p 32).toNat % 4096 == 0 && decide (65536 ≤ (p 32).toNat))
    let srcs := (List.range 7).all fun k => srcOk (fld (p 33) (8 * k) 8)
    if windows && s.fv.major == 2 then (.done stVersion [], s)
    else if windows && s.fv.major == 3 && decide (s.fv.minor.toNat < 2) then (.done stBadArg [], s)
    else if s.fv.stream.isSome then (.done stState [], s)
    else if !ringOk || !srcs || decide (2 ^ 29 < size + rsize + shareTables) then (.done stBadArg [], s)
    else
      let top := s.dramWords
      let m := s.mq
      let mq : Marquetry := { m with
        en := true, full := bit (p 0) 2, logBase := BitVec.ofNat 40 (top - size), logSize := BitVec.ofNat 40 size
        logWr := 0, logRd := 0, retBase := BitVec.ofNat 40 (top - size - rsize), retSize := BitVec.ofNat 40 rsize
        retWr := 0, chsel := sel, chret := ret, segs := [], retSegs := [], gone := []
        ret := if windows then Vector.ofFn fun k =>
            { lanes := fld (p (19 + 3 * k.val)) 0 32, line := fld (p (19 + 3 * k.val)) 32 8, en := bit (p (19 + 3 * k.val)) 40
              pre := fld (p (20 + 3 * k.val)) 0 48, post := fld (p (21 + 3 * k.val)) 0 48 }
          else m.ret }
      let st : LogStream :=
        { transport := kind, acked := bit (p 0) 3, hostRing := p 31, hostSize := if push then p 32 else 0, next := m.seq
          ackTimeout := if fld (p 32) 16 16 = 0 then 1000 else fld (p 32) 16 16, ackFrom := s.now, dataFrom := s.now
          mtu9000 := bit (p 32) 32 && !push }
      let s' := { s with mq := mq, fv := { s.fv with stream := some st
                                                     winSrc := Vector.ofFn fun k => if k.val = 0 then 1 else fld (p 33) (8 * (k.val - 1)) 8 } }
      (.done stOk [m.seq], s'.mqJoin s))

/-- The stream is closed: EN is cleared, and every window source. -/
def State.closeLog (s : State) : State :=
  { s with mq := { s.mq with en := false }
           fv := { s.fv with stream := none, winSrc := Vector.ofFn fun k => if k.val = 0 then 1 else 0 } }

/-- LOG_CLOSE. -/
def execLogClose (s : State) : Host.Outcome State Fault Refusal :=
  ok (s.fvRow 0x41 fun r s =>
    if s.fv.stream.isNone then (.done stState [], s)
    else if bit (r.p 0) 0 then (.busy (.logClose (fld (r.p 1) 0 32) s.now), s)
    else (.done stOk [], s.closeLog))

/-- LOG_CLOSE with DRAIN completes when every segment is released, or with TIMEOUT at the limit. -/
def State.endLogClose (s : State) (limit : BitVec 32) (since : BitVec 64) : WorkEnd × State :=
  if s.mq.segs.isEmpty then (.done stOk [], s.closeLog)
  else if limit.toNat * 1000000 ≤ (s.now - since).toNat then (.done stTimeout [], s.closeLog)
  else (.going, s)

/-! ### Releasing segments -/

/-- MQ_LOGRD advances past the oldest segments for as long as they may be released. -/
def State.releaseSegs (s : State) (may : BitVec 64 → Bool) : State :=
  let gone := s.mq.segs.takeWhile fun g => may g.1
  match gone.getLast? with
  | none => s
  | some (_, off, len) =>
    { s with mq := { s.mq with segs := s.mq.segs.drop gone.length
                               logRd := BitVec.ofNat 40 (if s.mq.logSize = 0 then 0 else (off + len) % s.mq.logSize.toNat) } }

/-- In PCIe push and PCIe windows, the host's acknowledgement releases segments (R373). -/
def State.releaseAcked (s : State) : State :=
  match s.fv.stream with
  | some t => if t.transport.toNat ≤ 1 then s.releaseSegs fun q => decide (q.toNat ≤ s.fv.logack.toNat) else s
  | none => s

/-- FV_LOGACK_WRITE: a write below the value is ignored (R373). -/
def execFvLogackWrite (v : BitVec 64) (s : State) : Host.Outcome State Fault Refusal :=
  ok (if !(s.alive && s.fv.pcieUp) || decide (v.toNat < s.fv.logack.toNat) then s
    else
      let s := { s with fv := { s.fv with logack := v } }
      if s.fv.swap then s else s.releaseAcked)

/-! ### PCIe push (R373) -/

/-- The stream while Favar can carry it. -/
def State.streaming (s : State) : Option LogStream := if s.alive && !s.fv.swap then s.fv.stream else none

def State.setStream (s : State) (t : LogStream) : State := { s with fv := { s.fv with stream := some t } }

/-- The next segment that the stream has not carried. -/
def State.nextSeg (s : State) (t : LogStream) : Option (BitVec 64 × Nat × Nat) :=
  s.mq.segs.find? fun g => decide (t.next.toNat ≤ g.1.toNat)

/-- Whether bytes [a, a + n) of the host ring hold no segment that the host has not acknowledged. -/
def State.hostFree (s : State) (t : LogStream) (a n : Nat) : Bool :=
  !(t.hostSegs.any fun g => decide (s.fv.logack.toNat < g.1.toNat) && decide (a < g.2.1 + g.2.2) && decide (g.2.1 < a + n))

/-- Copy one segment into the host ring, if it has room there. -/
def State.pushSeg (s : State) (t : LogStream) (g : BitVec 64 × Nat × Nat) : State :=
  let n := 8 * g.2.2
  let size := t.hostSize.toNat
  let wraps := decide (size < t.hostOff + n)
  let mark := wraps && decide (t.hostOff + 8 ≤ size)
  let at_ := if wraps then 0 else t.hostOff
  if size < n || !(s.hostFree t at_ n) || (mark && !(s.hostFree t t.hostOff 8)) then s
  else
    let s := if mark then s.emit (.hostWrite (t.hostRing + BitVec.ofNat 64 t.hostOff) [0]) else s
    let ws := (List.range g.2.2).map fun i => (s.agentPeek 11 (s.mq.logBase.toNat + g.2.1 + i)).datum
    ((s.noteReads 11 (s.mq.logBase.toNat + g.2.1) g.2.2).emit (.hostWrite (t.hostRing + BitVec.ofNat 64 at_) ws)).setStream
      { t with hostOff := at_ + n, next := g.1 + 1, written := g.1, dataDue := true
               hostSegs := (g.1, at_, n) :: t.hostSegs.filter fun x => decide (s.fv.logack.toNat < x.1.toNat) }

/-- The LOGDATA entry that is due, at most once per ms: the last SEGSEQ written and the next host-ring offset. -/
def State.postLogData (s : State) : State :=
  match s.fv.stream with
  | none => s
  | some t =>
    let free := match t.dataAt with
      | some d => decide (1000000 ≤ (s.now - d).toNat)
      | none => true
    if !(t.dataDue && free) then s
    else
      let s := s.setStream { t with dataDue := false, dataAt := some s.now }
      if bit s.fv.subs 12 then
        s.postEvent 12 (Config.eventCode 12 1) [t.written, BitVec.ofNat 64 (t.hostOff % max 1 t.hostSize.toNat)]
      else s

/-- LOG_PUSH: Favar copies the next segment into the host ring. -/
def execLogPush (s : State) (ecc : Ecc := []) : Host.Outcome State Fault Refusal :=
  let s := s.memErrs ecc
  ok (match s.streaming with
    | some t =>
      if t.transport != 0 || !s.fv.pcieUp then s
      else
        let s' := match s.nextSeg t with
          | some g => s.pushSeg t g
          | none => s
        s'.postLogData.releaseAcked
    | none => s)

/-! ### Ethernet (R374, R375) -/

/-- The Ethernet port of a stream. -/
def LogStream.port (t : LogStream) : Option (Fin 2) :=
  if t.transport = 2 then some 0 else if t.transport = 3 then some 1 else none

/-- The stream while datagrams can be sent on its port: the link is up and no PAUSE holds it (R385). -/
def State.etherStream (s : State) : Option LogStream :=
  match s.streaming with
  | some t =>
    match t.port with
    | some p => if s.fv.ethUp[p] && decide (s.fv.ethPaused[p].toNat ≤ s.now.toNat) then some t else none
    | none => none
  | none => none

/-- LOG_DATAGRAM_SEND: the next run of words within one segment, as long as the MTU allows. -/
def execLogDatagramSend (s : State) (ecc : Ecc := []) : Host.Outcome State Fault Refusal :=
  let s := s.memErrs ecc
  ok (match s.etherStream with
    | none => s
    | some t =>
      match s.nextSeg t with
      | none => s
      | some g =>
        let woff := if g.1 = t.next then t.woff else 0
        let n := min (if t.mtu9000 then 1117 else 180) (g.2.2 - woff)
        let last := decide (g.2.2 ≤ woff + n)
        let d : Datagram :=
          { dseq := t.dseq, segseq := g.1, woff := woff, first := woff == 0, last := last
            words := (List.range n).map fun i => (s.agentPeek 11 (s.mq.logBase.toNat + g.2.1 + woff + i)).datum }
        let s := ((s.noteReads 11 (s.mq.logBase.toNat + g.2.1 + woff) n).emit (.datagram 0 d false)).setStream
          { t with next := if last then g.1 + 1 else g.1, woff := if last then 0 else woff + n, dseq := t.dseq + 1
                   held := if t.acked then t.held ++ [d] else [], dataFrom := s.now
                   ackFrom := if t.held.isEmpty then s.now else t.ackFrom }
        if !t.acked && last then s.releaseSegs fun q => decide (q.toNat ≤ g.1.toNat) else s)

/-- Whether a datagram comes from the destination address of LOG_OPEN; one from elsewhere is discarded (R375). -/
def LogStream.fromPeer (t : LogStream) (src : BitVec 32) : Bool := src == fld t.hostRing 0 32

/-- LOG_ACK_RECEIVE: a segment is released once an ACK covers the DSEQ of its last datagram. -/
def execLogAckReceive (m : Sent (BitVec 64)) (s : State) : Host.Outcome State Fault Refusal :=
  ok (match s.streaming with
    | some t =>
      if !t.acked || t.port.isNone || !(t.fromPeer m.src) then s
      else
        let dseq := m.data
        let covered := t.held.filter fun d => decide (d.dseq.toNat ≤ dseq.toNat)
        let held := t.held.filter fun d => decide (dseq.toNat < d.dseq.toNat)
        let latest := match t.lastAcked with
          | some x => if x.toNat < dseq.toNat then dseq else x
          | none => dseq
        let s := s.setStream { t with held := held, lastAcked := some latest, ackFrom := s.now }
        match (covered.filter fun d => d.last).getLast? with
        | some d => s.releaseSegs fun q => decide (q.toNat ≤ d.segseq.toNat)
        | none => s
    | none => s)

/-- Send a datagram again. -/
def State.resend (s : State) (d : Datagram) : State := s.emit (.datagram 0 d true)

/-- GONE: the lowest DSEQ still held. -/
def State.sendGone (s : State) (t : LogStream) : State :=
  s.emit (.gone (match t.held with
    | d :: _ => d.dseq
    | [] => t.dseq))

/-- One range of a NAK: what is held is sent again; what is held no longer is answered by GONE. -/
def State.nakRange (s : State) (t : LogStream) (first count : BitVec 64) : State :=
  let lo := match t.lastAcked with
    | some x => max first.toNat (x.toNat + 1)
    | none => first.toNat
  let stop := first.toNat + count.toNat
  if !t.acked then s.sendGone t
  else if stop ≤ lo then s
  else
    let hits := t.held.filter fun d => decide (lo ≤ d.dseq.toNat) && decide (d.dseq.toNat < stop)
    let s := hits.foldl (fun (s : State) d => s.resend d) s
    if hits.length < min stop t.dseq.toNat - lo then s.sendGone t else s

/-- LOG_NAK_RECEIVE: up to 32 ranges of first DSEQ and count. -/
def execLogNakReceive (m : Sent (List (BitVec 64 × BitVec 64))) (s : State) : Host.Outcome State Fault Refusal :=
  ok (match s.etherStream with
    | some t => if t.fromPeer m.src then (m.data.take 32).foldl (fun (s : State) r => s.nakRange t r.1 r.2) s else s
    | none => s)

/-- LOG_ACK_TIMEOUT: no ACK within the timeout: Favar sends again from the oldest unacknowledged datagram, at most once per
timeout. -/
def execLogAckTimeout (s : State) : Host.Outcome State Fault Refusal :=
  ok (match s.etherStream with
    | some t =>
      if t.acked && !t.held.isEmpty && decide (t.ackTimeout.toNat * 1000000 ≤ (s.now - t.ackFrom).toNat) then
        ((t.held.foldl (fun (s : State) d => s.resend d) s).setStream { t with ackFrom := s.now }).event 7 4 0 []
      else s
    | none => s)

/-- LOG_KEEPALIVE: nothing to send for one timeout; it carries the next DSEQ. -/
def execLogKeepalive (s : State) : Host.Outcome State Fault Refusal :=
  ok (match s.etherStream with
    | some t =>
      if t.acked && (s.nextSeg t).isNone && decide (t.ackTimeout.toNat * 1000000 ≤ (s.now - t.dataFrom).toNat) then
        (s.emit (.keepalive t.dseq)).setStream { t with dataFrom := s.now }
      else s
    | none => s)

/-! ### Completion of commands that returned BUSY (R371) -/

/-- The work of an outstanding command, taken to its end if it can end now. -/
def State.endWork (s : State) (w : BusyWork) : WorkEnd × State :=
  match w with
  | .partition p => s.endPartition p
  | .imageLoad w bs => s.endImageLoad w bs
  | .imageVerify w => s.endImageVerify w
  | .worldStop w => s.endWorldStop w
  | .logClose limit since => s.endLogClose limit since
  | .veneerStage bs => s.endVeneerStage bs
  | .veneerApply => s.endVeneerApply
  | .fwStage bs => s.endFwStage bs
  | .checkpoint w t rec_ early valid => s.endCheckpoint w t rec_ early valid

/-- BUSY_COMPLETION: the i-th outstanding command completes and posts its completion entry, or goes on. -/
def execBusyCompletion (i : Nat) (s : State) : Host.Outcome State Fault Refusal :=
  ok (if !s.alive || s.fv.swap then s
    else match s.fv.busy[i]? with
      | none => s
      | some b =>
        match s.endWork b.work with
        | (.going, s') => s'
        | (.done st ws, s') =>
          ({ s' with fv := { s'.fv with busy := s'.fv.busy.eraseIdx i } }).finishBusy b st ws)

end Sys2Proof.Machine
end

