-- ==== Sys2Proof/Machine/Power.lean ====
section
/-! DEFINITION. Power domains and the PWR block (R411 to R415, R452): sleep and wake of the 141 switched domains. -/

namespace Sys2Proof.Machine

open Sys2Proof

/-! ### The PWR block (Table 18-3) -/

/-- A register of the PWR block. -/
inductive PwrReg where
  | dom (d : Fin 141)
  | sleepWr | rstInfo | wdog | vcore | therm
  | vmon (r : Fin 12)
deriving DecidableEq, Repr

/-- The register at a word offset. -/
def pwrReg (off : Nat) : Option PwrReg :=
  if off < 141 then some (.dom (idx 141 off))
  else if off = 0x100 then some .sleepWr
  else if off = 0x101 then some .rstInfo
  else if off = 0x102 then some .wdog
  else if off = 0x103 then some .vcore
  else if off = 0x104 then some .therm
  else if 0x110 ≤ off ∧ off < 0x11C then some (.vmon (idx 12 (off - 0x110)))
  else none

/-- STATE codes. -/
def DomState.code : DomState → Nat
  | .off => 0
  | .ramp => 1
  | .on => 2
  | .loading => 3

/-- PWR_Dd as read. -/
def Dom.bits (x : Dom) : BitVec 64 := fbit 0 x.onReq ||| putN 1 x.state.code ||| fbit 3 x.err

/-- Whether the unit of a domain is fitted (Table 00-1). -/
def State.domFitted (s : State) (d : Fin 141) : Bool :=
  !s.variantL || !((decide (68 ≤ d.val) && decide (d.val < 72)) || (decide (104 ≤ d.val) && decide (d.val < 120)) ||
    (decide (132 ≤ d.val) && decide (d.val < 136)))

/-- A load of a PWR register. The voltages are those measured. -/
def State.pwrLoad (s : State) (r : PwrReg) : RegLd :=
  match r with
  | .dom d => s.unitLoad (if s.domFitted d then .there else .absent) (ldRaw s s.pwr.dom[d].bits)
  | .sleepWr => ldRaw s (put 0 s.pwr.sleepWr)
  | .rstInfo => ldRaw s (put 0 s.pwr.last)
  | .wdog => ldRaw s (put 0 s.pwr.wdLimit ||| fbit 16 s.pwr.wdFired)
  | .vcore => ldRaw s (put 0 s.fv.vcoreSet)
  | .therm => ldRaw s (put 0 s.pwr.warn ||| fbit 16 s.pwr.warned ||| put 32 s.pwr.tjmax)
  | .vmon r =>
    let (v, s) := drawFree s
    let s := { s with pwr := { s.pwr with vmon := vset s.pwr.vmon r (fld v 0 16) } }
    ldRaw s (put 0 (fld v 0 16))

/-! ### Sleep conditions (Table 18-2) -/

/-- Whether PTP uses an Ethernet port: as the source, as a master, or in a boundary clock (R285). (DEDUCED, log 113) -/
def State.ptpUses (s : State) (p : Fin 2) : Bool :=
  (s.imt.sel == 2 && fld s.imt.src 7 1 == BitVec.ofNat 1 p.val) || bit s.imt.ptp (41 + p.val) || bit s.imt.ptp 43

/-- Whether a run of words meets the sample store. -/
def meetsStore (base size : Nat) : Bool :=
  decide (0 < size) && decide (base ≤ 0xE0001FFFFF) && decide (0xE000000000 < base + size)

/-- Whether nothing lies in the sample store: no ring and no stage-2 mapping. -/
def State.storeUnused (s : State) : Bool :=
  !(s.sl.toList.any fun l => meetsStore l.ringBase.toNat l.ringSize.toNat) &&
  !(s.worlds.toList.any fun w => w.ssRead || w.lr.toList.any fun r => r.en && meetsStore r.base.toNat r.size.toNat) &&
  !(meetsStore s.mq.logBase.toNat s.mq.logSize.toNat) && !(meetsStore s.mq.retBase.toNat s.mq.retSize.toNat)

/-- Whether a domain may sleep. -/
def State.sleepOk (s : State) (d : Fin 141) : Bool :=
  let n := d.val
  if n < 32 then s.cores[idx 32 n].slots.toList.all fun k => k.state == .empty
  else if n < 64 then
    let k := (n - 32) / 4
    (n - 32) % 4 != 0 || [0, 1, 2, 3].all fun j => s.pwr.dom[idx 141 (4 * k + j)].state == .off
  else if n < 72 then s.lathes[idx 8 (n - 64)].queue.isEmpty
  else if n < 104 then !(s.sl[idx 32 (n - 72)].run)
  else if n < 120 then
    let st := s.dl[idx 16 (n - 104)].state
    st == .idle || st == .stopped
  else if n < 128 then false
  else if n < 136 then !(s.km.ports[idx 8 (n - 128)].en)
  else if n < 137 then false
  else if n < 139 then
    let p := idx 2 (n - 137)
    !(s.ptpUses p) && (match s.fv.stream with
      | some t => t.port != some p
      | none => true)
  else if n = 139 then !s.mq.en
  else s.storeUnused

/-! ### What sleep and wake do to a unit -/

/-- Every store and every background spill of a core reaches memory. (DEDUCED, log 112) -/
def State.settleCore (s : State) (c : Fin 32) : State :=
  let s := s.cores[c].spills.foldl (fun (s : State) e => s.backSpill c e (s.cores[c].spills.drop 1)) s
  s.drainStores c

/-- The blocks of a way group are cleaned and invalidated; with group 0 go the cards and the offcut buffer. -/
def State.sleepWays (s : State) (k : Fin 8) (g : Nat) : State :=
  let gone := s.clusters[k].blocks.filter fun b => b.way.val / 4 == g
  let s := gone.foldl (fun (s : State) b => (List.finRange 4).foldl (fun (s : State) i =>
    let x := blkSector b.blk i
    (s.writeBack k x).dropSector k x) s) s
  let s := s.modCluster k fun c => { c with blocks := c.blocks.filter fun b => b.way.val / 4 != g }
  if g = 0 then
    let s := s.clusters[k].cardQueue.foldl (fun (s : State) _ => s.drainCard k) s
    let s := s.clusters[k].offcut.foldl (fun (s : State) e => (s.writeBack k e.1).dropSector k e.1) s
    s.modCluster k fun c => { c with trackers := [], sharedTlb := [], walkCache := [], walk2Cache := [] }
  else s

/-- Every word of the sample store reads UNINIT. -/
def State.clearStore (s : State) : State := { s with mem := s.mem.filter fun e => !(inSampleStore e.1) }

/-- SYNC_BUSY ends where no powered core has a reload left (R144). -/
def State.settleSync (s : State) : State :=
  { s with worlds := Vector.ofFn fun w =>
    let x := s.worlds[w]
    { x with heap := { x.heap with syncBusy := x.heap.syncBusy && s.cores.toList.any fun c => c.reload[w] } } }

/-- What a domain loses when its power is removed. (DEDUCED, log 112) -/
def State.sleepUnit (s : State) (d : Fin 141) : State :=
  let n := d.val
  if n < 32 then
    let c := idx 32 n
    ((s.settleCore c).modCore c fun x => { ven := x.ven }).settleSync
  else if n < 64 then s.sleepWays (idx 8 ((n - 32) / 4)) ((n - 32) % 4)
  else if n < 72 then s.modLathe (idx 8 (n - 64)) fun _ => {}
  else if n < 104 then s.modSl (idx 32 (n - 72)) fun l => { l with link := false }
  else if n < 137 then s
  else if n < 139 then { s with fv := { s.fv with ethUp := vset s.fv.ethUp (idx 2 (n - 137)) false } }
  else if n = 139 then { s with mq := {} }
  else s.clearStore

/-- The first four domains of the queue ramp (R415). -/
def State.serveRamps (s : State) : State :=
  (s.pwr.rampQ.take 4).foldl (fun (s : State) d =>
    { s with pwr := { s.pwr with dom := vmod s.pwr.dom d fun x => { x with state := .ramp } } }) s

/-- The state of a domain. -/
def State.setDom (s : State) (d : Fin 141) (st : DomState) : State :=
  { s with pwr := { s.pwr with dom := vmod s.pwr.dom d fun x => { x with state := st } } }

/-- The version that a waking core takes, that of the other cores: the highest of the cores that are ON, and no lower than its own
(R273, R412). (DEDUCED, log 62) -/
def State.wakeVersion (s : State) (c : Fin 32) : BitVec 32 :=
  (List.finRange 32).foldl (fun (v : BitVec 32) d =>
    if s.domOn d.val && decide (v.toNat < s.cores[d].ven.mcver.toNat) then s.cores[d].ven.mcver else v) s.cores[c].ven.mcver

/-- A core whose control store is loaded, at the level of the other cores, is ON; its copies of the board maps are those in memory. A
package that every core has reached in this way is recorded (R275). -/
def State.loadCore (s : State) (c : Fin 32) : State :=
  let v := s.wakeVersion c
  let m : Vector (List (BitVec 64)) 2 := Vector.ofFn fun w => s.mapWords w
  let level : BitVec 16 := fld v 0 16
  let s := s.modCore c fun x =>
    { ven := { x.ven with mcver := v, pending := x.ven.pending && level != s.ven.level }
      store := s.storeAt level x.ven.bank, bmap := m }
  if s.ven.rollout then s.veneerOutcome else s.recordCommit

/-- The unit of a domain that reads ON. -/
def State.wakeUnit (s : State) (d : Fin 141) : State :=
  let n := d.val
  if n < 32 then s.loadCore (idx 32 n)
  else if 104 ≤ n ∧ n < 120 then s.modDl (idx 16 (n - 104)) fun l => { l with state := .stopped }
  else if n = 140 then s.clearStore
  else s

/-- A store to PWR_Dd (R412, R415). -/
def State.domStore (s : State) (d : Fin 141) (v : BitVec 64) : State :=
  let x := { s.pwr.dom[d] with err := w1c s.pwr.dom[d].err v 3 }
  let set (x : Dom) (s : State) : State := { s with pwr := { s.pwr with dom := vset s.pwr.dom d x } }
  if bit v 0 then
    if x.state != .off || x.onReq then set x s
    else
      let s := set { x with onReq := true } s
      ({ s with pwr := { s.pwr with rampQ := s.pwr.rampQ ++ [d] } }).serveRamps
  else if x.state == .off && !x.onReq then set x s
  else if s.sleepOk d then
    let s := set { x with onReq := false, state := .off } (s.sleepUnit d)
    (({ s with pwr := { s.pwr with rampQ := s.pwr.rampQ.filter fun e => e != d } }).serveRamps).veneerOutcome
  else set { x with err := true } s

/-- A store to a PWR register. -/
def State.pwrStore (s : State) (a : Who) (r : PwrReg) (v : BitVec 64) : RegSt :=
  match r with
  | .dom d => s.unitStore (if s.domFitted d then .there else .absent) (.ok (s.domStore d v))
  | .wdog => a.rwf s { s with pwr := { s.pwr with wdLimit := fld v 0 16 } }
  | .therm =>
    .ok { s with pwr := { s.pwr with warn := if a.isFavar then fld v 0 16 else s.pwr.warn, warned := w1c s.pwr.warned v 16 } }
  | _ => .ok s

/-! ### Commands -/

/-- PWR_SLEEP: a store of ON = 0 to PWR_Dd. -/
def execPwrSleep (a : Agent) (d : Fin 141) (v : BitVec 64) (s : State) : Host.Outcome State Fault Refusal :=
  ok (if bit v 0 then s else s.rowStore a 9 (some d.val) fun w s => s.pwrStore w (.dom d) v)

/-- PWR_WAKE: a store of ON = 1. -/
def execPwrWake (a : Agent) (d : Fin 141) (v : BitVec 64) (s : State) : Host.Outcome State Fault Refusal :=
  ok (if bit v 0 then s.rowStore a 9 (some d.val) fun w s => s.pwrStore w (.dom d) v else s)

/-- DOMAIN_RAMP_DONE: a ramp has ended; a core is LOADING then, and the row stands again for the end of that (R412, R415). -/
def execDomainRampDone (d : Fin 141) (s : State) : Host.Outcome State Fault Refusal :=
  ok (if !s.alive then s
    else match s.pwr.dom[d].state with
      | .ramp =>
        let s := { s with pwr := { s.pwr with rampQ := s.pwr.rampQ.filter fun e => e != d } }
        (if d.val < 32 then s.setDom d .loading else (s.wakeUnit d).setDom d .on).serveRamps
      | .loading => (s.wakeUnit d).setDom d .on
      | _ => s)

/-- A brownout (R410): drive is muted, and every switched domain is held in reset until POR_N is asserted. -/
def State.brownout (s : State) : State :=
  { s with safe := { s.safe with mute := true }, pwr := { s.pwr with brown := true } }

/-- BROWNOUT: a rail leaves its tolerance after POR_N is released, or SYSCLK_IN is lost (R410). -/
def execBrownout (s : State) : Host.Outcome State Fault Refusal := ok (if s.alive then s.brownout else s)

/-- WDOG_OUT_N asserted: by the device watchdog, or in a brownout (R410, R421). -/
def State.wdogOutAsserted (s : State) : Bool := s.pwr.wdFired || s.pwr.brown

/-- THERMAL_WARN: the highest sensor reads a temperature (R452); 120 °C is a brownout (R451). (DEDUCED, log 114) -/
def execThermalWarn (temp : BitVec 16) (s : State) : Host.Outcome State Fault Refusal :=
  ok (if !s.alive then s
    else
      let s := s.noteTemp temp
      if s.pwr.warn.toInt ≤ temp.toInt ∧ s.pwr.warned = false then
        let s := ({ s with pwr := { s.pwr with warned := true } }).guardEvent 9 0
        if 1200 ≤ temp.toInt then s.brownout else s
      else if 1200 ≤ temp.toInt then s.brownout
      else s)

end Sys2Proof.Machine
end

