-- ==== Sys2Proof/Machine/Boot.lean ====
section
/-! DEFINITION. Resets, cold boot and warm restart (R377, R418 to R425), debug halt, OTP, and the host links and Ethernet
messages (R285, R385, R426, R427). -/

namespace Sys2Proof.Machine

open Sys2Proof

/-! ### Cold reset (R407, R409, R418) -/

/-- What cold reset leaves of Favar: flash and OTP. -/
def Favar.cold (f : Favar) : Favar :=
  { crashFlash := f.crashFlash, fwA := f.fwA, fwB := f.fwB, preferB := f.preferB, svnFloor := f.svnFloor
    telaustHash := f.telaustHash, customerHash := f.customerHash, customerSet := f.customerSet, debugOtp := f.debugOtp
    vcoreSet := f.vcoreSet, mcKey := f.mcKey, mcA := f.mcA, mcB := f.mcB, serial := f.serial, mac := f.mac }

/-- The device held in cold reset, its supplies as given: every unit at its reset value, all of memory UNINIT. What is in
flash, in OTP and outside the device stays. -/
def State.coldReset (s : State) (supplied : Bool) : State :=
  { pending := s.pending, variantL := s.variantL, out := s.out, drawn := s.drawn, fv := s.fv.cold
    ven := { committed := s.ven.committed, base := s.ven.base, recorded := s.ven.recorded }
    pwr := { supplied := supplied, porLow := true }
    hng := s.hng.map fun (h : Hinge) => { ball := h.ball } }

/-- POR_N_ASSERT: cold reset while POR_N is low. -/
def execPorNAssert (s : State) : Host.Outcome State Fault Refusal := ok (s.coldReset s.pwr.supplied)

/-- VAON_VIO_LOSS: VAON or VIO falls below its limit; no pin is driven (R407). -/
def execVaonVioLoss (s : State) : Host.Outcome State Fault Refusal := ok (s.coldReset false)

/-- VAON_VIO_VALID: VAON and VIO are within their limits, and the board holds POR_N low (R407, R409). -/
def execVaonVioValid (s : State) : Host.Outcome State Fault Refusal :=
  ok { s with pwr := { s.pwr with supplied := true, porLow := true } }

/-! ### Cold boot (R422, R423, R250, R264, R443) -/

/-- Whether the image of a firmware slot may run. -/
def Favar.slotUsable (f : Favar) (b : Bool) : Bool :=
  let x := if b then f.fwB else f.fwA
  x.valid && decide (f.svnFloor ≤ x.svn.toNat)

/-- The slot that the ROM starts, by straps HINGE13:HINGE12: true for B; none where neither can run. -/
def Favar.bootSlot (f : Favar) (straps : BitVec 16) : Option Bool :=
  let first := match (fld straps 12 2).toNat with
    | 0 => f.preferB
    | 1 => false
    | 2 => true
    | _ => !f.preferB
  if f.slotUsable first then some first else if f.slotUsable (!first) then some (!first) else none

/-- Whether a port configuration is one of Table 10-6: CAP, RANKS, RATE. -/
def memCfgOk (c : BitVec 6) : Bool :=
  let rank := bit c 2
  (match (fld c 0 2).toNat with
    | 0 => !rank
    | 1 => true
    | 2 => rank
    | _ => false) && decide ((fld c 3 3).toNat < 4)

/-- Whether a rail in mV lies within 5 % of its nominal voltage (R448). -/
def near (nominal : Nat) (mv : BitVec 16) : Bool := decide (nominal * 95 ≤ mv.toNat * 100) && decide (mv.toNat * 100 ≤ nominal * 105)

/-- Steps 1, 3 and 4: straps, the device id, the Kamion defaults and the pin banks; every domain is ON. -/
def State.bootStraps (s : State) (e : BootEnv) : State :=
  let gen2 := bit e.straps 15
  { s with
    straps := e.straps
    pwr := { s.pwr with porLow := false, wdLimit := if e.boardOk then e.wdLimit else s.pwr.wdLimit }
    km := { s.km with
      id := fld e.straps 0 12
      ports := Vector.ofFn fun p =>
        if e.boardOk then
          { s.km.ports[p] with en := bit e.kmCfg p.val, gen2 := bit e.kmCfg (8 + p.val), proto2 := bit e.kmCfg (16 + p.val) }
        else { s.km.ports[p] with gen2 := gen2 } }
    banks := Vector.ofFn fun b => { s.banks[b] with v33 := near 3300 e.rails[b], dead := !(near 3300 e.rails[b] || near 1800 e.rails[b]) } }

/-- Whether the board section configures the ports: every configuration is one of Table 10-6, and all are equal (R249, R250). -/
def portsOk (e : BootEnv) : Bool :=
  e.boardOk && e.memCfg.toList.all fun c => memCfgOk c && c == e.memCfg[0]

/-- Step 5: each port takes its configuration and is trained; where one is not allowed, or they differ, none is trained (R250). -/
def State.bootMemory (s : State) (e : BootEnv) : State :=
  if portsOk e then
    { s with ports := Vector.ofFn fun p =>
      { s.ports[p] with cap := fld e.memCfg[p] 0 2, ranks := bit e.memCfg[p] 2, rate := fld e.memCfg[p] 3 3
                        trained := bit e.memOk p.val, scrubSince := s.now } }
  else s

/-- Whether step 5 succeeds: the board section, the configurations and the training of every port. -/
def memoryUp (e : BootEnv) : Bool := portsOk e && e.memOk == 15

/-- Every core with its control store at a level, and its MCVER accordingly (R264, R275). -/
def State.loadStores (s : State) (level : BitVec 16) : State :=
  { s with cores := s.cores.map fun (c : Core) =>
      { c with ven := { c.ven with mcver := s.ven.base ++ level }, store := s.storeAt level c.ven.bank } }

/-- Step 6: Favar keeps the verified image, its key and the committed package, and every core has the base microcode and the committed
veneer (R264). -/
def State.bootStores (s : State) (x : MicroImage) : State :=
  State.loadStores { s with ven := { s.ven with base := x.release, image := x, active := s.ven.recorded }
                            fv := { s.fv with mcKey := x.key } } s.ven.committed

/-- POR_N_RELEASE: the cold boot of Table 18-7. A failure at step 5 or 6 leaves the restricted mailbox; with no firmware
that can run, PCIe comes up alone and every switched domain stays in reset. (DEDUCED, log 116) -/
def State.coldBoot (s : State) (e : BootEnv) : State :=
  let s := s.bootStraps e
  match s.fv.bootSlot e.straps with
  | none =>
    { s with fv := { s.fv with pcieUp := true }
             pwr := { s.pwr with dom := s.pwr.dom.map fun (d : Dom) => { d with state := .off } } }
  | some b =>
    let fw := if b then s.fv.fwB else s.fv.fwA
    let s := { s with fv := { s.fv with activeB := b, fwver := fw.version, fwGood := e.fwReady, pcieUp := true } }
    let s := s.bootMemory e
    if !(memoryUp e) then { s with fv := { s.fv with restricted := true } }
    else match if e.readBack then s.fv.bootImage else none with
    | none =>
      let s := s.writeCrash 0 0 0 0
      { s with fv := { s.fv with restricted := true } }
    | some x =>
      let s := s.bootStores x
      let good := bit e.fwReady (if b then 1 else 0)
      { s with imt := { s.imt with started := true }, fv := { s.fv with ready := good } }

/-- POR_N_RELEASE. (DEDUCED, log 116) -/
def execPorNRelease (env : BootEnv) (s : State) : Host.Outcome State Fault Refusal :=
  ok (if s.pwr.supplied && s.pwr.porLow then s.coldBoot env else s)

/-! ### Warm restart (R419, R424, Table 18-8) -/

/-- The first rows of Table 18-8: issue stops, running drive lanes ramp, both worlds are RESTARTING. LAST is 1 after a fatal
event and 2 after WARM_N. (DEDUCED, log 115) -/
def State.beginRestart (s : State) (last : BitVec 3) : State :=
  let old := s
  let s := if s.variantL then s else (List.finRange 16).foldl (fun (s : State) n =>
    (s.softstop n).modDl n fun l => { l with armed := false }) s
  let s := { s with
    cores := s.cores.map fun (c : Core) => { c with stopped := true }
    worlds := s.worlds.map fun (w : World) => { w with state := .restarting }
    pwr := { s.pwr with last := last }
    fv := { s.fv with restart := true, restartAt := s.now, restarts := s.fv.restarts + 1
                      prior := Vector.ofFn fun w => s.worlds[w].state } }
  (s.noteStatus old).worldEvent 3 0

/-- Requests of the world mailboxes and their inboxes are discarded (R382). -/
def State.dropMailboxes (s : State) : State :=
  { s with
    fv := { s.fv with
      queue := s.fv.queue.filter fun (r : FvReq) => r.from?.isNone
      busy := s.fv.busy.filter fun (b : BusyOp) => match b.from_ with
        | .slot _ => true
        | .world _ => false }
    worlds := s.worlds.map fun (w : World) =>
      { w with mbx := { w.mbx with busy := false, inbox := [], result := none } } }

/-- The CCH heap registers at a warm restart: fields that only Favar writes are kept, the cycle is abandoned (Table 18-6);
the record of Jig and Planer faults is the translation unit's. -/
def Heap.warm (h : Heap) : Heap :=
  { base := h.base, count := h.count, bmap := h.bmap, cards := h.cards, seen := h.seen, poolAddr := h.poolAddr
    poolSize := h.poolSize, afaddr := h.afaddr, afinfo := h.afinfo, afValid := h.afValid }

/-- The units of Table 18-6 reset: cores with their caches at the highest level committed on any core (R275), the Jig, heaps,
the L2 caches, and the staged package. Dirty sectors have reached DRAM. -/
def State.warmUnits (s : State) : State :=
  let top := fld s.mcverMax 0 16
  let own := s.ven.staged && s.ven.level == top
  State.loadStores { s with
    stale := []
    cores := Vector.ofFn fun _ => {}
    jig := { order := s.jig.order }
    worlds := s.worlds.map fun (w : World) => { w with heap := w.heap.warm }
    clusters := s.clusters.map fun (k : Cluster) =>
      { cfg := k.cfg, perrL1 := k.perrL1, perrL2 := k.perrL2, perrOc := k.perrOc, recalls := k.recalls, cancels := k.cancels }
    ports := s.ports.map fun (p : Port) =>
      { p with queue := p.queue.filter (fun (r : PortReq) => decide (8 ≤ r.requester.val))
               granted := p.granted.filter fun (r : PortReq) => decide (8 ≤ r.requester.val) }
    ven := { s.ven with staged := false, armed := false, rollout := false, level := 0, package := []
                        active := if own then s.ven.package else s.ven.active } } top

/-- The restart record (Table 16-16A) at an address of restored memory: S1ROOT, CTXCFG and the contexts. -/
def State.readRecord (s : State) (w : Fin 2) (rec_ : Nat) : Option (BitVec 64 × BitVec 64 × List InitCtx) :=
  match s.worldMem w rec_ 3 with
  | none => none
  | some pa =>
    match recordCount (s.peek pa) with
    | none => none
    | some n =>
      let r := s.peek (pa + 1)
      let c := s.peek (pa + 2)
      if r.tag ≠ 0x07 ∨ c.tag ≠ 0x07 ∨ (s.worldMem w rec_ (3 + n)).isNone then none
      else
        let ctx (i : Nat) : InitCtx :=
          let d := (s.peek (pa + 3 + i)).datum
          { va := fld d 0 48, core := (fld d 48 5).toFin, slot := (fld d 53 6).toFin, prio := fld d 59 4 }
        some (r.datum, c.datum, (List.range n).map ctx)

/-- A context of a restored world: RESIDENT, which a checkpoint may hold, is cleared, and it is loaded READY. -/
def State.restoreContext (s : State) (w : Fin 2) (x : InitCtx) : State :=
  if !(s.domOn x.core.val) then { s with pwr := { s.pwr with sleepWr := satInc s.pwr.sleepWr } }
  else
    let v : Via := ⟨x.core, w, false, 6⟩
    let clear : M Unit := do
      let r ← viaRead v (x.va + 1)
      viaWrite v (x.va + 1) (Word.raw (setBit r.datum 11 false)) none
    let s := match clear.run s with
      | .ok _ s' => s'
      | .error _ s' => s'
    (s.modSlot x.core x.slot fun k => { k with handle := x.va, prio := x.prio }).loadSlot x.core x.slot w

/-- A world is restored from its checkpoint (R377); none where it has none, its CRC fails, or its record is malformed. -/
def State.restoreWorld (s : State) (w : Fin 2) (reason : BitVec 4) : Option State :=
  match s.worlds[w].ckpt with
  | none => none
  | some ck =>
    let s1 := ck.words.foldl (fun (s : State) (e : BitVec 40 × Word) => match s.worldMem w e.1.toNat 1 with
      | some pa => s.dmaWrite pa e.2
      | none => s) s
    match s1.readRecord w ck.record.toNat with
    | none => none
    | some (root, cfg, ctxs) =>
      if !ck.crcOk then none
      else
        let s := s1.modWorld w fun x =>
          { x with s1root := (fld root 0 43).setWidth 64, ctxcfg := (fld cfg 0 1).setWidth 64, state := .running }
        let s := ctxs.foldl (fun (s : State) x => s.restoreContext w x) s
        some (s.inboxPut w [Word.fix (reason.setWidth 64), Word.inst ck.inst, Word.inst s.fv.restartAt])

/-- The last row of Table 18-8 for a world. After a fatal event in or soon after a restart nothing is restored (R425). A
world that was not running returns to its state; one that was being stopped is VERIFIED. -/
def State.resumeWorld (s : State) (w : Fin 2) (reason : BitVec 4) : State :=
  let leave (st : WorldState) (s : State) : State := s.modWorld w fun x => { x with state := st }
  match s.fv.prior[w] with
  | .running =>
    if s.fv.noRestore then leave .verified s
    else match s.restoreWorld w reason with
      | some s' => s'
      | none => (leave .verified s).worldEvent 5 w.val
  | .stopping => leave .verified s
  | st => leave st s

/-- The rest of Table 18-8. -/
def State.endRestart (s : State) : State :=
  let fatal := s.fv.restartDue
  let reason := if fatal then s.fv.restartReason else 0
  let s := (List.finRange 8).foldl (fun (s : State) n => s.abortLathe n) s
  let s := (s.kmWarm.dropMailboxes.dropCopies 0).dropCopies 1
  let s := if fatal then s.writeCrash 0 s.fv.fatalAt s.fv.fatalDetail s.fv.fatalCluster else s
  let s := s.warmUnits
  let s := (s.resumeWorld 1 reason).resumeWorld 0 reason
  let done := { s with fv := { s.fv with restart := false, restartDue := false, noRestore := false, restartEnd := some s.now } }
  (done.noteStatus s).worldEvent 4 0

/-- WARM_N_ASSERT: WARM_N low for 1 µs starts a warm restart; a further assertion during one is ignored (R419). -/
def execWarmNAssert (s : State) : Host.Outcome State Fault Refusal :=
  ok (if s.alive && !s.fv.restart && !s.fv.restartDue && !s.fv.restricted && s.imt.started then s.beginRestart 2 else s)

/-- WARM_RESTART: the sequence of Table 18-8 for a restart that is under way or owed, once a firmware is ready (Table
16-17). (DEDUCED, log 115) -/
def execWarmRestart (s : State) : Host.Outcome State Fault Refusal :=
  ok (if s.alive && s.fv.ready && (s.fv.restart || s.fv.restartDue) then
      (if s.fv.restart then
          (if s.fv.restartDue then { s with pwr := { s.pwr with last := 1 } } else s)
        else s.beginRestart 1).endRestart
    else s)

/-! ### Host and Ethernet links (R384, R385, R420) -/

/-- PERST_N_ASSERT: the link goes down; FV_PROTO, HEAD and TAIL read 0 and every slot's OWN is 0 (R420). -/
def execPerstNAssert (s : State) : Host.Outcome State Fault Refusal :=
  ok (if s.alive then
      { s with fv := { s.fv with
          pcieUp := false, major := 0, minor := 0, head := 0, tail := 0, ring := []
          slots := s.fv.slots.map fun (m : MbSlot) => { m with own := false } } }
    else s)

/-- PCIE_LINK_CHANGE. (DEDUCED, log 117) -/
def execPcieLinkChange (up : Bool) (s : State) : Host.Outcome State Fault Refusal :=
  ok (if s.domOn 136 then { s with fv := { s.fv with pcieUp := up } } else s)

/-- ETH_LINK_CHANGE. -/
def execEthLinkChange (port : Fin 2) (up : Bool) (s : State) : Host.Outcome State Fault Refusal :=
  ok (if s.domOn (137 + port.val) then { s with fv := { s.fv with ethUp := vset s.fv.ethUp port up } } else s)

/-- ETH_FRAME_RECEIVE: ARP requests and ICMP echo are answered by Favar, PAUSE holds the port, and anything else, fragments
among it, is discarded (R385). (DEDUCED, log 117) -/
def execEthFrameReceive (port : Fin 2) (f : EthFrame) (s : State) : Host.Outcome State Fault Refusal :=
  ok (if !(s.ethOn port) then s
    else match f with
      | .arpRequest => if s.fv.ready then s.emit (.arpReply port) else s
      | .icmpEcho => if s.fv.ready then s.emit (.echoReply port) else s
      | .pause q =>
        let stop := s.now + BitVec.ofNat 64 (cdiv (q.toNat * 512) 10)
        { s with fv := { s.fv with ethPaused := vset s.fv.ethPaused port stop } }
      | .fragment => s
      | .other => s)

/-- The clock identity of a port: the EUI-64 of its MAC address. -/
def State.clockIdentity (s : State) (port : Fin 2) : BitVec 64 :=
  let m := s.fv.mac[port]
  (fld m 24 24 ++ 0xFFFE#16) ++ fld m 0 24

/-- The order of masters in the BMCA: priority1, clockClass, priority2, identity; the lowest wins. (DESIGN CHOICE, log 69) -/
def ptpOrder (p1 cls p2 : BitVec 8) (identity : BitVec 64) : Nat :=
  ((p1.toNat * 256 + cls.toNat) * 256 + p2.toNat) * 2 ^ 64 + identity.toNat

/-- This device's own place in that order. (DESIGN CHOICE, log 69) -/
def State.ptpOwn (s : State) (port : Fin 2) : Nat :=
  ptpOrder (fld s.imt.ptp 8 8) (fld s.imt.ptp 24 8) (fld s.imt.ptp 16 8) (s.clockIdentity port)

/-- Whether a PTP message is of the version, the domain and the transport that the device uses (Table 12-3). (DESIGN CHOICE, log 69) -/
def Imtur.ptpTakes (x : Imtur) (h : PtpHdr) : Bool :=
  h.version == 2 && h.domain == (fld x.ptp 0 7).setWidth 8 &&
    h.transport == (if bit x.ptp 33 then PtpTransport.ethernet else PtpTransport.udp4)

/-- PTP_MESSAGE_RECEIVE: a master answers Delay_Req, a peer-to-peer port Pdelay_Req; an Announce that is better than the
followed master and than this device names the new master; other kinds, and messages of another version, domain or transport, are
discarded (R285). -/
def execPtpMessageReceive (port : Fin 2) (m : PtpMsg) (s : State) (x : PtpHdr := {}) : Host.Outcome State Fault Refusal :=
  let p2p := bit s.imt.ptp 32
  let slave := s.imt.ptpSlave port
  let master := s.imt.ptpMasterOn port
  ok (if !(s.ethOn port) || !s.fv.ready || s.fv.swap || !(s.imt.ptpTakes x) then s
    else match m with
      | .delayReq => if master && !p2p then s.emit (.ptpReply port m) else s
      | .pdelayReq => if p2p && (master || slave) then s.emit (.ptpReply port m) else s
      | .announce identity p1 cls p2 =>
        let k := ptpOrder p1 cls p2 identity
        let better := (match s.imt.ptpKey with
          | some x => decide (k < x) || s.imt.ptpMaster == identity
          | none => true) && decide (k < s.ptpOwn port)
        if slave && better then { s with imt := { s.imt with ptpKey := some k, ptpMaster := identity, annAt := s.now } } else s
      | .followUp => s
      | .unsupported => s)

/-! ### OTP and debug (R426, R427) -/

/-- OTP_WRITE: the customer key hash once while it is blank; DEBUG only to 11. -/
def execOtpWrite (w : OtpWrite) (s : State) : Host.Outcome State Fault Refusal :=
  ok (if !s.alive then s
    else match w with
      | .customerKey h =>
        if s.fv.customerSet then s else { s with fv := { s.fv with customerHash := h, customerSet := true } }
      | .debug v => if v = 3 then ({ s with fv := { s.fv with debugOtp := 3 } }).noteStatus s else s)

/-- SVN_FLOOR_RAISE: firmware whose header sets RAISE has held READY for 24 h. -/
def execSvnFloorRaise (s : State) : Host.Outcome State Fault Refusal :=
  ok (if s.alive && s.fv.ready && s.fv.active.raise && decide (86400000000000 ≤ (s.now - s.fv.readySince).toNat) then
      { s with fv := { s.fv with svnFloor := max s.fv.svnFloor s.fv.active.svn.toNat } }
    else s)

/-- DEBUG_HALT: a core halts at its boundary, by the debug BAR or a microbreak; refused for a core of the Guard world and
for a shared one. -/
def execDebugHalt (c : Fin 32) (s : State) : Host.Outcome State Fault Refusal :=
  ok (if s.debugOn && s.domOn c.val && !s.cores[c].halted && s.fv.use[c] != .guard && s.fv.use[c] != .shared then
      s.modCore c fun x => { x with halted := true, haltAt := s.now }
    else s)

/-- DEBUG_RESUME: the core goes on; its watchdog did not count meanwhile. -/
def execDebugResume (c : Fin 32) (s : State) : Host.Outcome State Fault Refusal :=
  ok (if s.domOn c.val && s.cores[c].halted then
      s.modCore c fun x => { x with halted := false, wdStart := x.wdStart + (s.now - x.haltAt) }
    else s)

end Sys2Proof.Machine
end

