-- ==== Sys2Proof/Machine/Regs.lean ====
section
/-! DEFINITION. The map of the 16 register blocks: which register a word offset names, its unit, and its load and store with
the grants of R458; BAR0 as the host stores to it (Tables 16-2 and 16-3); the row REGISTER_WRITE. -/

namespace Sys2Proof.Machine

open Sys2Proof

/-! ### The map -/

/-- A device register. -/
inductive DevReg where
  | capsUnits | absentWrites
  | imt (r : ImtReg)
  | cut (r : CutReg)
  | gt (r : GtReg)
  | sl (n : Fin 32) (r : SlReg)
  | slWide (off : Nat)
  | dl (n : Fin 16) (r : DlReg)
  | dlWide
  | lu (n : Fin 8) (r : Fin 8)
  | mq (r : MqReg)
  | km (r : KmReg)
  | mem (p : Fin 4) (r : Fin 6)
  | memUnmapped
  | pwr (r : PwrReg)
  | hng (r : HngReg)
  | cluster (k : Fin 8) (r : Fin 4)
  | heap (w : Fin 2) (r : HeapReg)
  | twPerr
  | mbx (w : Fin 2) (r : MbxReg)
  | jig (r : JigReg)
  | safe (r : Fin 5)
  | ven (r : VenReg)
deriving DecidableEq, Repr

/-- The register of the IMT block. -/
def imtBlock (off : Nat) : Option DevReg :=
  match imtReg off with
  | some r => some (.imt r)
  | none => (cutReg off).map .cut

/-- The register of the SL block: lane n from 0x400 × n, or a block-wide one. -/
def slBlock (off : Nat) : Option DevReg :=
  if off < 0x8000 then (slReg (off % 0x400)).map (.sl (idx 32 (off / 0x400)))
  else if 0xF000 ≤ off ∧ off < 0xF004 then some (.slWide off) else none

/-- The register of the DL block: lane n from 0x100 × n, or DL_COMMIT. -/
def dlBlock (off : Nat) : Option DevReg :=
  if off < 0x1000 then (dlReg (off % 0x100)).map (.dl (idx 16 (off / 0x100)))
  else if off = 0xF000 then some .dlWide else none

/-- The register of the CCH block (Tables 06-7, 07-4, 09-6 and 10-5). -/
def cchBlock (off : Nat) : Option DevReg :=
  if off < 0x80 then
    (if h : off % 16 < 4 then some (.cluster (idx 8 (off / 16)) ⟨off % 16, h⟩) else none)
  else if off = 0x9000 then some .twPerr
  else match inRange off 0x8000 0x10 2, inRange off 0x9010 0x10 2 with
    | some (w, r), _ => (heapReg r).map (.heap (idx 2 w))
    | _, some (w, 0) => some (.heap (idx 2 w) .afaddr)
    | _, some (w, 1) => some (.heap (idx 2 w) .afinfo)
    | _, some (w, 2) => some (.heap (idx 2 w) .actl)
    | _, _ => none

/-- The register at a word offset of a block. -/
def devReg (block : Fin 16) (off : Nat) : Option DevReg :=
  match block.val with
  | 0 => if off = 0 then some .capsUnits else if off = 1 then some .absentWrites else none
  | 1 => imtBlock off
  | 2 => (gtReg off).map .gt
  | 3 => slBlock off
  | 4 => dlBlock off
  | 5 => if h : off < 0x800 ∧ off % 0x100 < 8 then some (.lu (idx 8 (off / 0x100)) ⟨off % 0x100, h.2⟩) else none
  | 6 => (mqReg off).map .mq
  | 7 => (kmReg off).map .km
  | 8 =>
    if off = 0x100 then some .memUnmapped
    else if h : off < 0x40 ∧ off % 16 < 6 then some (.mem (idx 4 (off / 16)) ⟨off % 16, h.2⟩) else none
  | 9 => (pwrReg off).map .pwr
  | 10 => (hngReg off).map .hng
  | 11 => cchBlock off
  | 12 => (mbxReg off).map fun r => .mbx r.1 r.2
  | 13 => (jigReg off).map .jig
  | 14 => if h : off < 5 then some (.safe ⟨off, h⟩) else none
  | _ => (venReg off).map .ven

/-- The unit of a register; none for a block-wide one (R21). -/
def State.regUnit (s : State) (r : DevReg) : Option Nat :=
  match r with
  | .cut (.list n _) => some n.val
  | .gt r => r.unit
  | .sl n _ => some n.val
  | .dl n _ => some n.val
  | .lu n _ => some n.val
  | .km r => r.unit
  | .mem p _ => some p.val
  | .pwr (.dom d) => some d.val
  | .hng r => r.unit
  | .cluster k _ => some k.val
  | .heap w _ => some (16 + w.val)
  | .mbx w _ => some w.val
  | .jig r => s.jigUnit r
  | .ven (.core c) => some c.val
  | _ => none

/-- The presence of the DL block as a whole (R4). -/
def State.dlBlockPresence (s : State) : Presence := if s.variantL then .absent else .there
/-- The presence of a cluster's tag control (domain 32 + 4k). -/
def State.clusterPresence (s : State) (k : Fin 8) : Presence := s.presence (32 + 4 * k.val) true
/-- The presence of Marquetry (domain 139). -/
def State.mqPresence (s : State) : Presence := s.presence 139 true

/-! ### Loads and stores -/

/-- A load of a register that its agent may load. -/
def State.devLoad (s : State) (a : Who) (r : DevReg) : RegLd :=
  match r with
  | .capsUnits => ldRaw s s.capsUnits
  | .absentWrites => ldRaw s (put 0 s.absentWrites)
  | .imt r => s.imtLoad r
  | .cut r => s.cutLoad r
  | .gt r => s.gtLoad r
  | .sl n r => s.slLoad n r
  | .slWide off => ldRaw s (if off = 0xF003 then s.slRunBits else 0)
  | .dl n r => s.dlLoad n r
  | .dlWide => s.unitLoad s.dlBlockPresence (ldRaw s 0)
  | .lu n r => s.luLoad n r.val
  | .mq r => s.unitLoad s.mqPresence (ldRaw s (s.mq.regBits r))
  | .km r => s.kmLoad r
  | .mem p r => ldRaw s (s.ports[p].regBits r.val)
  | .memUnmapped => ldRaw s (put 0 s.unmapped)
  | .pwr r => s.pwrLoad r
  | .hng r => s.hngLoad r
  | .cluster k r => s.unitLoad (s.clusterPresence k) (ldRaw s (s.clusters[k].regBits r.val))
  | .heap w r => ldRaw s (s.worlds[w].heap.regBits r)
  | .twPerr => ldRaw s (put 0 s.twPerr)
  | .mbx w r => s.mbxLoad w r
  | .jig r => s.jigLoad a r
  | .safe r => ldRaw s (s.safe.regBits r.val)
  | .ven r => s.venLoad r

/-- A store of a word to a register that its agent may store to. -/
def State.devStore (s : State) (a : Who) (r : DevReg) (x : Word) : RegSt :=
  let v := x.datum
  match r with
  | .imt r => s.imtStore a r v
  | .cut r => s.cutStore a r v
  | .gt r => s.gtStore r v
  | .sl n r => s.slStore a n r v
  | .slWide off => s.slWide a off v
  | .dl n r => s.dlStore a n r v
  | .dlWide => s.unitStore s.dlBlockPresence (.ok (s.dlWide a v))
  | .lu n r => s.luStore n r.val v
  | .mq r => s.unitStore s.mqPresence (s.mqStore a r v)
  | .km r => s.kmStore a r x
  | .mem p r => s.memStore a p r.val v
  | .pwr r => s.pwrStore a r v
  | .hng r => s.hngStore a r v
  | .cluster k r => s.unitStore (s.clusterPresence k) (if r = 0 then s.cchCfgStore a k v else .ok s)
  | .heap w r => s.heapStore a w r v
  | .mbx w r => s.mbxStore w r x
  | .jig r => s.jigStore a r v
  | .safe r => s.safeStore a r.val v
  | .ven r => s.venStore a r v
  | .capsUnits => .ok s
  | .absentWrites => .ok s
  | .memUnmapped => .ok s
  | .twPerr => .ok s

/-- The block and word offset of a physical address of the register space; none at or above 0xF0_0010_0000 (R457). -/
def blockOf (pa : Nat) : Option (Fin 16 × Nat) :=
  if 0xF000000000 ≤ pa ∧ pa < 0xF000100000 then
    some (idx 16 ((pa - 0xF000000000) / 0x10000), pa % 0x10000)
  else none

/-- A load from a word offset of a block: PRIVILEGE without the grant, RAW:0 where it names no register (R457, R458). -/
def State.blockLoad (s : State) (a : Who) (block : Fin 16) (off : Nat) : RegLd :=
  match devReg block off with
  | some r => if s.granted a block (s.regUnit r) false then s.devLoad a r else .error ()
  | none =>
    if !(s.granted a block none false) then .error ()
    else if block = 4 then s.unitLoad s.dlBlockPresence (ldRaw s 0) else ldRaw s 0

/-- A store to a word offset of a block; parks that it asks for are made at once for cores at a boundary. -/
def State.blockStore (s : State) (a : Who) (block : Fin 16) (off : Nat) (x : Word) : RegSt :=
  let r : RegSt := match devReg block off with
    | some r => if s.granted a block (s.regUnit r) true then s.devStore a r x else .error ()
    | none =>
      if !(s.granted a block none true) then .error ()
      else if block = 4 then s.unitStore s.dlBlockPresence (.ok s) else .ok s
  match r with
  | .ok s' => .ok ((List.finRange 32).foldl (fun (s : State) c => s.settlePark c) s')
  | .error e => .error e

/-- A load from a physical address of the register space. -/
def State.regLoad (s : State) (a : Who) (pa : Nat) : RegLd :=
  match blockOf pa with
  | some (b, off) => s.blockLoad a b off
  | none => ldRaw s 0

/-- A store to a physical address of the register space. -/
def State.regStore (s : State) (a : Who) (pa : Nat) (x : Word) : RegSt :=
  match blockOf pa with
  | some (b, off) => s.blockStore a b off x
  | none => .ok s

/-! ### BAR0 (R359, R360, R362) -/

/-- Bytes of a value written over part of a 64-bit image: the whole, or its low or high half. -/
def part64 (old v : BitVec 64) (size8 hi : Bool) : BitVec 64 :=
  if size8 then v else if hi then setFld old 32 (fld v 0 32) else setFld old 0 (fld v 0 32)

/-- The 8-byte groups of a slot's header: CMD, FLAGS and SEQ; LEN and STATUS. -/
def MbSlot.head (m : MbSlot) (k : Nat) : BitVec 64 :=
  if k = 0 then put 0 m.cmd ||| fbit 16 m.own ||| fbit 17 m.done ||| fbit 18 m.irq ||| put 32 m.seq
  else if k = 1 then put 0 m.len ||| put 32 m.status
  else if 4 ≤ k then m.payload.getD (k - 4) 0
  else 0

/-- A host write of 8-byte group k of a slot; what Favar has taken was read once (R364). (DESIGN CHOICE, log 105) -/
def MbSlot.write (m : MbSlot) (k : Nat) (v : BitVec 64) : MbSlot :=
  if k = 0 then
    { m with cmd := fld v 0 16, own := bit v 16, done := bit v 17, irq := bit v 18, seq := fld v 32 32 }
  else if k = 1 then { m with len := fld v 0 32, status := fld v 32 32 }
  else if 4 ≤ k ∧ k < 512 then
    { m with payload := (m.payload ++ List.replicate (k - 4 + 1 - m.payload.length) 0).set (k - 4) v }
  else m

/-- The 8-byte groups of an entry of the event ring (Table 16-13). -/
def EvEntry.group (e : EvEntry) (k : Nat) : BitVec 64 :=
  if k = 0 then put 0 e.cls ||| put 16 e.code ||| put 32 e.seq
  else if k = 1 then e.stamp
  else if k = 2 then put 0 e.status ||| put 32 e.slot
  else e.data.getD (k - 3) 0

/-- A register of BAR0 (Table 16-3); a write-only one reads zero. -/
def State.bar0Reg (s : State) (reg : Nat) : BitVec 64 :=
  let f := s.fv
  match reg with
  | 0x000 => 0x3437424C ||| put 32 (fld s.capsUnits 32 4) ||| put 36 s.km.id
  | 0x008 => put 0 f.minor ||| put 8 f.major
  | 0x010 => s.fvStatus
  | 0x020 => (List.finRange 16).foldl (fun x k => x ||| fbit k.val f.slots[k].own) (put 32 f.ignored)
  | 0x028 => put 0 f.head ||| put 32 f.lost
  | 0x030 => put 0 f.tail
  | 0x038 => f.logack
  | _ =>
    if 0x040 ≤ reg ∧ reg < 0x080 then
      let k : Fin 8 := idx 8 ((reg - 0x40) / 8)
      put 0 f.winBase[k] ||| put 40 f.winSrc[k]
    else 0

/-- The 8 aligned bytes at an offset of BAR0 as the host reads them: registers, slots, event ring, MSI-X (Table 16-2); a reserved
range reads zero, and so does all but FV_ID and FV_STATUS when no firmware could be started (R360, R423). (DEDUCED, log 121) -/
def State.bar0Group (s : State) (off : Nat) : BitVec 64 :=
  if off < 0x100 then (if s.fv.fwver = 0 ∧ s.fv.ready = false ∧ off ≠ 0x000 ∧ off ≠ 0x010 then 0 else s.bar0Reg off)
  else if 0x10000 ≤ off ∧ off < 0x20000 then s.fv.slots[idx 16 ((off - 0x10000) / 0x1000)].head (off % 0x1000 / 8)
  else if 0x20000 ≤ off ∧ off < 0x40000 then
    match s.fv.ring.find? fun e => e.1 == (off - 0x20000) / 0x40 with
    | some e => e.2.group (off % 0x40 / 8)
    | none => 0
  else if 0x40000 ≤ off ∧ off < 0x40200 then
    let k : Fin 32 := idx 32 ((off - 0x40000) / 16)
    if off % 16 < 8 then fld s.fv.msixTable[k] 0 64
    else put 0 (fld s.fv.msixTable[k] 64 32) ||| fbit 32 (bit s.fv.msixMask k.val)
  else if off = 0x41000 then put 0 s.fv.msixPend
  else 0

/-- A read of BAR0 by the host: 8 aligned bytes or 4 aligned ones; another alignment reads zero (R359). -/
def State.bar0Load (s : State) (off : Nat) (size8 : Bool) : BitVec 64 :=
  let g := s.bar0Group (off / 8 * 8)
  if off % 4 ≠ 0 ∨ (size8 ∧ off % 8 ≠ 0) then 0
  else if size8 then g
  else if off % 8 = 4 then put 0 (fld g 32 32) else put 0 (fld g 0 32)

/-- The ring that a window source names: its base and size in words (R361, Table 16-3). -/
def State.windowRing (s : State) (src : BitVec 8) : Nat × Nat :=
  if src = 1 then (s.mq.logBase.toNat, s.mq.logSize.toNat)
  else if src = 2 then (s.mq.retBase.toNat, s.mq.retSize.toNat)
  else if 0x20 ≤ src.toNat ∧ src.toNat < 0x40 then
    let l := s.sl[idx 32 (src.toNat - 0x20)]
    (l.ringBase.toNat, l.ringSize.toNat)
  else (0, 0)

/-- Word j of BAR2 window k: ring word (BASE + j) modulo the ring's size, datum and tag; a window without a source reads zero (R361). -/
def State.bar2Word (s : State) (k : Fin 8) (j : Nat) : Word :=
  let (base, size) := s.windowRing s.fv.winSrc[k]
  if size = 0 then Word.mk 0 0 else s.peek (base + (s.fv.winBase[k].toNat + j) % size)

/-- A host store in BAR0: 8 aligned bytes, or 4 aligned ones. (DESIGN CHOICE, log 105) -/
def State.bar0Store (s : State) (off : Nat) (size8 : Bool) (v : BitVec 64) : State :=
  let hi := off % 8 == 4
  let reg := off / 8 * 8
  let upd (f : Favar → Favar) : State := { s with fv := f s.fv }
  if off % 4 ≠ 0 ∨ (size8 ∧ off % 8 ≠ 0) then s
  else if reg = 0x018 then (if hi then s else favarStep (s.doorbell (fld v 0 4).toFin))
  else if reg = 0x030 then
    (if hi then s
     else
      let s1 := upd fun f => { f with tail := fld v 0 11 }
      let f := s1.fv.postOverflow s1.now
      let s2 : State := { s1 with fv := f }
      if f.head = s1.fv.head then s2 else s2.msix 0)
  else if reg = 0x038 then
    let x := part64 s.fv.logack v size8 hi
    if x.toNat < s.fv.logack.toNat then s
    else
      let s1 := upd fun f => { f with logack := x }
      if s1.fv.swap then s1 else s1.releaseAcked
  else if 0x040 ≤ reg ∧ reg < 0x080 then
    let k : Fin 8 := idx 8 ((reg - 0x40) / 8)
    upd fun f => { f with winBase := vset f.winBase k (fld (part64 (put 0 f.winBase[k]) v size8 hi) 0 40) }
  else if 0x10000 ≤ off ∧ off < 0x20000 then
    let k : Fin 16 := idx 16 ((off - 0x10000) / 0x1000)
    let g := off % 0x1000 / 8
    let m := s.fv.slots[k]
    upd fun f => { f with slots := vset f.slots k (m.write g (part64 (m.head g) v size8 hi)) }
  else if 0x40000 ≤ off ∧ off < 0x40200 then
    let k : Fin 32 := idx 32 ((off - 0x40000) / 16)
    let row := s.fv.msixTable[k]
    if off % 16 < 8 then
      let lo := part64 (fld row 0 64) v size8 hi
      upd fun f => { f with msixTable := vset f.msixTable k (setFld row 0 lo) }
    else
      let s1 := if hi then s else upd fun f => { f with msixTable := vset f.msixTable k (setFld row 64 (fld v 0 32)) }
      if hi || size8 then maskVector s1 k (if size8 then bit v 32 else bit v 0) else s1
  else s
where
  /-- Requests that a doorbell put into the order are looked at. -/
  favarStep (s : State) : State := if s.fv.served then s.drainBad s.fv.queue.length else s
  /-- Mask or unmask a vector; a pending one is signalled when it is unmasked (R384). -/
  maskVector (s : State) (k : Fin 32) (masked : Bool) : State :=
    let s := { s with fv := { s.fv with msixMask := setBit s.fv.msixMask k.val masked } }
    if !masked && bit s.fv.msixPend k.val then
      ({ s with fv := { s.fv with msixPend := setBit s.fv.msixPend k.val false } }).emit (.msix k)
    else s

/-- REGISTER_WRITE: a store to a device register by an agent, or to BAR0 by the host while the link is up (R456, R208,
R359). (DEDUCED, log 121) -/
def execRegisterWrite (t : StoreTarget) (v : Word) (s : State) : Host.Outcome State Fault Refusal :=
  ok (match t with
    | .reg a pa =>
      match s.who a with
      | none => s
      | some w =>
        if !s.alive then s
        else match s.regStore w pa.toNat v with
          | .ok s' => s'
          | .error _ => s
    | .bar0 off size8 => if s.alive && s.fv.pcieUp then s.bar0Store off.toNat size8 v.datum else s)

end Sys2Proof.Machine
end

