-- ==== Sys2Proof/Machine/Access.lean ====
section
/-! DEFINITION. The loads and stores of instructions: memory through the barriers, device registers through mappings and
DEVREFs, fields of objects, words of the stack (R21, R86, R92, R123 to R128, R458). -/

namespace Sys2Proof.Machine

open Sys2Proof

/-! ### Device registers from a core -/

/-- A load of a device register by the running code, after every earlier access (R86); PRIVILEGE where it is not granted
(R458). -/
def devLd (c : Fin 32) (f : Who → State → RegLd) : M Word := fun s =>
  let s := s.drainStores c
  match f (s.whoCore c) s with
  | .ok (w, s') => .ok w s'
  | .error _ => .error (.exc .privilege none none) s

/-- A store to a device register by the running code. -/
def devSt (c : Fin 32) (f : Who → State → RegSt) : M Unit := fun s =>
  let s := s.drainStores c
  match f (s.whoCore c) s with
  | .ok s' => .ok () s'
  | .error _ => .error (.exc .privilege none none) s

/-- The block of a DEVREF (Table 02-9). -/
def refBlock (d : BitVec 64) : Fin 16 := (fld d 0 4).toFin

/-- The checks of R21 on a DEVREF and a word offset: RD or WR, and the unit range, or the full range for a block-wide
register and for an offset that names none. The grant is that of R458. -/
def State.refOk (s : State) (d : BitVec 64) (off : Nat) (store : Bool) : Bool :=
  let lo := (fld d 8 8).toNat
  let hi := (fld d 16 8).toNat
  bit d (if store then 25 else 24) &&
    match (devReg (refBlock d) off).bind s.regUnit with
    | some u => decide (lo ≤ u) && decide (u ≤ hi)
    | none => lo == 0 && hi == 255

/-- A load through a DEVREF. -/
def refLoad (c : Fin 32) (d : BitVec 64) (off : Nat) : M Word := do
  need ((← get).refOk d off false) .privilege
  devLd c fun a s => s.blockLoad a (refBlock d) off

/-- A store through a DEVREF. -/
def refStore (c : Fin 32) (d : BitVec 64) (off : Nat) (w : Word) : M Unit := do
  need ((← get).refOk d off true) .privilege
  devSt c fun a s => s.blockStore a (refBlock d) off w

/-- What a FENCE does: every earlier spill and store is made and visible (R85). -/
def fenceAll (c : Fin 32) : M Unit := do
  spillAll c
  modify fun s => s.drainStores c

/-! ### Words at a translated address -/

/-- A load without barrier: a device register or memory. -/
def rawLoad (c : Fin 32) (t : Tr) (va : BitVec 48) : M Word :=
  if inRegs t.pa.toNat then devLd c fun a s => s.regLoad a t.pa.toNat else loadMem c t va false

/-- A store without barrier. -/
def rawStore (c : Fin 32) (t : Tr) (va : BitVec 48) (w : Word) : M Unit :=
  if inRegs t.pa.toNat then devSt c fun a s => s.regStore a t.pa.toNat w else storeMem c t va w none

/-- rb of Table 05-2: the word delivered and the address it was found at in the end. -/
def rb (c : Fin 32) (t : Tr) (va : BitVec 48) (stream : Bool) : M (BitVec 48 × Word) :=
  if inRegs t.pa.toNat then do
    let w ← rawLoad c t va
    pure (va, w)
  else rbLoad c t va stream

/-- wb of Table 05-2. -/
def wb (c : Fin 32) (t : Tr) (va : BitVec 48) (w : Word) : M Unit :=
  if inRegs t.pa.toNat then rawStore c t va w else wbStore c t va w

/-- A load at an address with translation, barrier and lchk. -/
def loadAt (c : Fin 32) (va : BitVec 48) (stream : Bool) : M Word := do
  let t ← xl c .read va
  let (_, w) ← rb c t va stream
  raiseIf (lchkWord w)
  pure w

/-- A store at an address with translation and the write barrier. -/
def storeAt (c : Fin 32) (va : BitVec 48) (w : Word) : M Unit := do
  let t ← xl c .write va
  wb c t va w

/-! ### Bases -/

/-- The address that a pointer word names. -/
def ptrAddr (w : Word) : BitVec 48 := fld w.datum 0 48

/-- Whether a word is a pointer that is not malformed (R22). -/
def goodPtr (w : Word) : Bool := isPtrTag w.tag && !(malformed w)
/-- Whether a word is a DEVREF that is not malformed (R21). -/
def goodRef (w : Word) : Bool := w.tag == 0x0E && !(malformed w)

/-- The signed offset of format M as a displacement of addresses. -/
def off48 (off : BitVec 10) : BitVec 48 := off.signExtend 48

/-- LDW and LDWS from a checked base word (R123): a pointer with a signed offset, or a DEVREF with an unsigned one. -/
def loadBase (c : Fin 32) (base : Word) (off : BitVec 10) (stream : Bool) : M Word :=
  if goodPtr base then loadAt c (ptrAddr base + off48 off) stream
  else if goodRef base then do
    let w ← refLoad c base.datum off.toNat
    raiseIf (lchkWord w)
    pure w
  else raiseC .tagMismatch

/-- STW to a checked base word (R124). -/
def storeBase (c : Fin 32) (base : Word) (off : BitVec 10) (w : Word) : M Unit :=
  if goodPtr base then do
    need (!(heapInternal w)) .tagMismatch
    storeAt c (ptrAddr base + off48 off) w
  else if goodRef base then do
    need (!(heapInternal w)) .tagMismatch
    refStore c base.datum off.toNat w
  else raiseC .tagMismatch

/-! ### Objects -/

/-- The header of an object through the read barrier: the object's base, which is that of the copy if the barrier moved
it, and the header word. -/
def objHead (c : Fin 32) (p : Word) : M (BitVec 48 × Word) := do
  let va := ptrAddr p
  let t ← xl c .read va
  rb c t va false

/-- The header of an object of a kind; a sound header of another kind is TAG_MISMATCH. (DESIGN CHOICE, log 59) -/
def objOf (c : Fin 32) (p : Word) (kind : Nat) : M (BitVec 48 × Nat) := do
  need (!(malformed p)) .tagMismatch
  let (a, h) ← objHead c p
  raiseIf (hdrCheck h)
  need (hdrKind h == kind) .tagMismatch
  pure (a, hdrLen h)

/-- A field of an object at a base. -/
def field (c : Fin 32) (base : BitVec 48) (i : Nat) : M Word := loadAt c (base + BitVec.ofNat 48 i) false

/-- Fields i to i + n - 1 of an object. (DESIGN CHOICE, log 59) -/
def fields (c : Fin 32) (base : BitVec 48) : Nat → Nat → M (List Word)
  | 0, _ => pure []
  | n + 1, i => do
    let w ← field c base i
    let ws ← fields c base n (i + 1)
    pure (w :: ws)

/-! ### Stack words (R74 to R76) -/

/-- Resolve n words of a stack upward from an address (R155). -/
def scanUp (c : Fin 32) : Nat → Nat → M Unit
  | 0, _ => pure ()
  | n + 1, a => do
    let va : BitVec 48 := BitVec.ofNat 48 a
    let v := (← get).via c 5
    let w ← viaRead v va
    let _ ← barrierWord v fwdFuel va w
    scanUp c n (a + 1)

/-- Where the unscanned part of a stack of the running context begins, if it has one. -/
def State.unscanned (s : State) (c : Fin 32) (user : Bool) : Option Nat :=
  if user then (s.running c).unscanU else (s.running c).unscanS

/-- The stack barrier: each word below an address that enters from the unscanned part is resolved, and the boundary moves
past it (R155). -/
def stackBarrier (c : Fin 32) (user : Bool) (top : Nat) : M Unit := do
  match (← get).unscanned c user with
  | none => pure ()
  | some u =>
    let u := max u ((← get).cores[c].sp user).toNat
    if u < top then
      scanUp c (top - u) u
      modify fun s => s.modSlot c s.cores[c].slot fun k =>
        if user then { k with unscanU := some top } else { k with unscanS := some top }

/-- The word of the running level's stack at an address: from the stack buffer, or by a fill (R98). -/
def stackRead (c : Fin 32) (va : BitVec 48) : M Word := do
  match (← get).cores[c].stackHit va with
  | some w => pure w
  | none => microRead c va 2

end Sys2Proof.Machine
end

