-- ==== Sys2Proof/Machine/Flow.lean ====
section
/-! DEFINITION. Control transfer: NOP, B, CALL, CALLI, RET, LOOP, LIT, TRAP, BRK, ERET, HOLD, FENCE and TLBI (R69 to R79,
R95 to R106, R140). -/

namespace Sys2Proof.Machine

open Sys2Proof

/-- PC of the instruction that a core executes. -/
def pcOf (c : Fin 32) : M (BitVec 49) := do pure (← core c).lo.pc

/-- NOP (R95). -/
def execNop (h : Hdr) (s : State) : Host.Outcome State Fault Refusal := ok (runInstr (.nop h) h false (pure .seq) s)

/-- B (R96). -/
def execB (h : Hdr) (off : BitVec 20) (s : State) : Host.Outcome State Fault Refusal :=
  ok (runInstr (.b h off) h false (do pure (.go ((← pcOf h.core) + off.signExtend 49))) s)

/-- The push of a call (R73) with the next PC that the loop-end decision chose (R78). -/
def callPush (c : Fin 32) : M Unit := do
  let s ← get
  let x := s.cores[c]
  let u := s.user c
  need (decide ((x.slim u).toNat < (x.sp u).toNat)) .stackOverflow
  let (next, x) := x.loopNext x.lo.pc (x.lo.pc + 1)
  let sp := x.sp u - 1
  set (s.modCore c fun _ => (x.pushStack u (fld sp 0 48) (mkReta next (s.world c) (!u))).setSp u sp)

/-- CALL (R97). -/
def execCall (h : Hdr) (off : BitVec 20) (s : State) : Host.Outcome State Fault Refusal :=
  ok (runInstr (.call h off) h false (do
    let pc ← pcOf h.core
    callPush h.core
    pure (.go (pc + off.signExtend 49))) s)

/-- The code object that a CALLI operand leads to, its entry PC, and whether the entry lies in it (R140). -/
def callTarget (c : Fin 32) (wa : Word) : M (BitVec 49 × Bool) := do
  let code ← if wa.tag = 0x47 then do
      let (a, _) ← objOf c wa 0x08
      field c a 1
    else pure wa
  need (code.tag == 0x48) .tagMismatch
  let (a, _) ← objOf c code 0x09
  let e ← field c a 1
  let n ← field c a 4
  need (e.tag == 0x07 && n.tag == 0x00) .tagMismatch
  pure (((a + 5).setWidth 49 <<< 1) + e.datum.setWidth 49, decide (e.datum.toNat < 2 * n.datum.toInt.toNat))

/-- CALLI (R97, R140): an entry offset outside the code is ILLEGAL_INSTR at the target. -/
def execCalli (h : Hdr) (wa : Fin 32) (s : State) : Host.Outcome State Fault Refusal :=
  ok (runInstr (.calli h wa) h false (do
    touch h.core [wa]
    let w ← rdTag h.core wa
    chk w
    need (goodPtr w && (w.tag == 0x47 || w.tag == 0x48)) .tagMismatch
    let w ← rdBase h.core .read wa 0
    let (t, good) ← callTarget h.core w
    callPush h.core
    if !good then throw (.exc .illegalInstr none (some t))
    pure (.go t)) s)

/-- What RET raises on the word at SP (R12, R19, R74). (DEDUCED, log 32) -/
def retaCheck (w : Word) (world : Fin 2) (supervisor : Bool) : Option Cause :=
  if w.tag ≠ 0x0B then some .stackFormat
  else if malformed w then some .tagMismatch
  else if fld w.datum 62 2 = BitVec.ofNat 2 world.val && bit w.datum 61 == supervisor then none
  else some .stackFormat

/-- RET (R98). (DEDUCED, log 32) -/
def execRet (h : Hdr) (s : State) : Host.Outcome State Fault Refusal :=
  ok (runInstr (.ret h) h false (do
    let c := h.core
    let u := (← get).user c
    let sp := (← core c).sp u
    let w ← stackRead c (fld sp 0 48)
    raiseIf (retaCheck w ((← get).world c) (!u))
    stackBarrier c u (sp.toNat + 1)
    modify fun s => s.modCore c fun x => x.popStack u 1
    pure (.go (retaPc w.datum))) s)

/-- LOOP (R77, R99). -/
def execLoop (h : Hdr) (wc : Fin 32) (stop : BitVec 15) (s : State) : Host.Outcome State Fault Refusal :=
  ok (runInstr (.loop h wc stop) h false (do
    let c := h.core
    touch c [wc]
    let w ← rd c wc
    chk w
    need (w.tag == 0x00) .tagMismatch
    let pc ← pcOf c
    let ls := pc + 1
    let le := pc + stop.setWidth 49
    let on := decide (1 ≤ w.datum.toInt)
    modify fun s => s.modCore c fun x =>
      ({ x with lo := { x.lo with ls := ls.setWidth 64, le := le.setWidth 64, lc := if on then w.datum else 0 } } :
        Core).setLa on
    pure (.go (if on then ls else le + 1))) s)

/-- LIT (R71, R100). -/
def execLit (h : Hdr) (wd : Fin 32) (s : State) : Host.Outcome State Fault Refusal :=
  ok (runInstr (.lit h wd) h false (do
    touch h.core [wd]
    let w ← fetchWord h.core (pcWord (← pcOf h.core) + 1)
    raiseIf (literalCheck w)
    wr h.core wd w
    pure .lit) s)

/-- TRAP (R101). -/
def execTrap (h : Hdr) (imm : BitVec 15) (s : State) : Host.Outcome State Fault Refusal :=
  ok (runInstr (.trap h imm) h false (pure (.trap .syscall)) s)

/-- BRK (R102). -/
def execBrk (h : Hdr) (imm : BitVec 15) (s : State) : Host.Outcome State Fault Refusal :=
  ok (runInstr (.brk h imm) h false (raiseC .breakpoint) s)

/-- The registers after an ERET that restores EPC and ESTAT from the two pushed words (R103), and the next PC. The bits of
ESTAT that STAT does not hold stay zero, no window is open, and FAST ends with the bank it stood for. -/
def Core.eret (x : Core) (ep st : Word) : BitVec 49 × Core :=
  let e := retaPc x.lo.epc
  let v := setBit (put 0 (fld x.lo.estat 0 16)) 15 false
  let x := x.popStack false 2
  let x := { x with
    bank := x.bank && !(bit x.lo.stat 14), holdCount := 0
    lo := { x.lo with epc := ep.datum, estat := put 0 (fld st.datum 0 16), stat := v
                      depth := if x.lo.depth = 0 then 0 else x.lo.depth - 1 } }
  if bit v 6 && e.setWidth 64 != x.lo.le then
    let (t, x) := x.loopEnd e
    (t, { x with lo := { x.lo with stat := setBit x.lo.stat 6 false } })
  else (e, x)

/-- ERET (R103). -/
def execEret (h : Hdr) (s : State) : Host.Outcome State Fault Refusal :=
  ok (runInstr (.eret h) h true (do
    let c := h.core
    let x ← core c
    let w := (← get).world c
    need (fld x.lo.epc 62 2 == BitVec.ofNat 2 w.val && bit x.lo.epc 61 == bit x.lo.estat 13) .privilege
    let sp : BitVec 48 := fld x.lo.spS 0 48
    let st ← stackRead c sp
    let ep ← stackRead c (sp + 1)
    need (st.tag == 0x07 && ep.tag == 0x0B) .stackFormat
    need (!(malformed ep)) .tagMismatch
    need (fld ep.datum 62 2 == BitVec.ofNat 2 w.val) .stackFormat
    let (t, x) := (← core c).eret ep st
    modify fun s => s.modCore c fun _ => x
    pure (.go t)) s)

/-- HOLD (R104). -/
def execHold (h : Hdr) (imm : BitVec 15) (s : State) : Host.Outcome State Fault Refusal :=
  ok (runInstr (.hold h imm) h true (do
    modify fun s =>
      let n := min imm.toNat (fld s.worlds[s.world h.core].holdmax 0 12).toNat
      s.modCore h.core fun x =>
        { x with
          holdCount := if n = 0 then 0 else if bit x.lo.stat 15 then min x.holdCount n else n
          lo := { x.lo with stat := setBit x.lo.stat 15 (n != 0) } }
    pure .seq) s)

/-- FENCE (R105). -/
def execFence (h : Hdr) (s : State) : Host.Outcome State Fault Refusal :=
  ok (runInstr (.fence h) h false (do
    fenceAll h.core
    pure .seq) s)

/-- FENCE with the I modifier: the fetch buffer is emptied and the L1 instruction cache invalidated too. -/
def execFenceI (h : Hdr) (s : State) : Host.Outcome State Fault Refusal :=
  ok (runInstr (.fenceI h) h false (do
    fenceAll h.core
    modify fun s => s.modCore h.core fun x => { x with fetchBuf := [], l1i := [] }
    pure .seq) s)

/-- TLBI VA (R106). -/
def execTlbiVa (h : Hdr) (wa : Fin 32) (s : State) : Host.Outcome State Fault Refusal :=
  ok (runInstr (.tlbiVa h wa) h true (do
    touch h.core [wa]
    let w ← rd h.core wa
    chk w
    need (w.tag == 0x07) .tagMismatch
    modify fun s => s.tlbiVa (s.world h.core) (fld w.datum 0 48)
    pure .seq) s)

/-- TLBI WORLD. -/
def execTlbiWorld (h : Hdr) (s : State) : Host.Outcome State Fault Refusal :=
  ok (runInstr (.tlbiWorld h) h true (do
    modify fun s => s.tlbiWorld (s.world h.core)
    pure .seq) s)

/-- TLBI WORLDG. -/
def execTlbiWorldg (h : Hdr) (s : State) : Host.Outcome State Fault Refusal :=
  ok (runInstr (.tlbiWorldg h) h true (do
    modify fun s => s.tlbiWorldg (s.world h.core)
    pure .seq) s)

end Sys2Proof.Machine
end

