-- ==== Sys2Proof/Machine/Level.lean ====
section
/-! DEFINITION. The sum of two levels as powers, to more bits than any format holds, and the values within two units in the
last place of its rounding (R52). -/

namespace Sys2Proof.Machine

/-- Fraction bits of the fixed-point numbers below. -/
def fxBits : Nat := 1300

/-- One in fixed point. -/
def fxOne : Nat := 2 ^ fxBits

/-- Terms of y + y³/3 + y⁵/5 + … by the square of y: a number of terms, the present power and its divisor, and the sum. -/
def atanhSum (sq : Nat) : Nat → Nat → Nat → Nat → Nat
  | 0, _, _, acc => acc
  | n + 1, pow, k, acc => atanhSum sq n (pow * sq / fxOne) (k + 2) (acc + pow / k)

/-- The inverse hyperbolic tangent of a fixed-point number of at most 1/3. -/
def fxAtanh (y : Nat) : Nat := atanhSum (y * y / fxOne) 420 y 1 0

/-- ln 2. -/
def fxLn2 : Nat := 2 * fxAtanh (fxOne / 3)

/-- ln 10 = 3 ln 2 + ln (5/4). -/
def fxLn10 : Nat := 3 * fxLn2 + 2 * fxAtanh (fxOne / 9)

/-- Terms of 1 + r + r²/2! + …: a number of terms, the present term and its place, and the sum. -/
def expSum (r : Nat) : Nat → Nat → Nat → Nat → Nat
  | 0, _, _, acc => acc
  | n + 1, term, k, acc => expSum r n (term * r / fxOne / k) (k + 1) (acc + term)

/-- The exponential of a fixed-point number taken negative. -/
def fxExpNeg (x : Nat) : Nat := fxOne * fxOne / expSum (x % fxLn2) 300 fxOne 1 0 / 2 ^ (x / fxLn2)

/-- How far the sum of two levels lies above the higher one, 10 log₁₀ (1 + 10^(−d/10)), in fixed point; it is never 0. -/
def fxAbove (d : Rat) : Nat :=
  if 3800 < d then 1
  else
    let e := fxExpNeg (d * (fxLn10 : Rat) / 10).floor.toNat
    max 1 (10 * (2 * fxAtanh (e * fxOne / (2 * fxOne + e))) * fxOne / fxLn10)

/-- 10 log₁₀ (10^(a/10) + 10^(b/10)). -/
def levelSum (a b : Rat) : Rat := max a b + (fxAbove (max a b - min a b) : Rat) / (fxOne : Rat)

/-- The place of a pattern among the values of a format, zero at 0. -/
def Fmt.place (f : Fmt) (bits : Nat) : Int :=
  let m : Nat := bits % 2 ^ (f.ew + f.fw)
  if bits / 2 ^ (f.ew + f.fw) % 2 = 1 then -m else m

/-- A pattern that the spec leaves open within two units in the last place of another one; a pattern beyond that is not
taken. -/
def Fmt.near (f : Fmt) (open_ exact : Nat) : Nat :=
  if (f.place open_ - f.place exact).natAbs ≤ 2 ∧ (f.place open_).natAbs ≤ f.infBits then open_ else exact

end Sys2Proof.Machine
end

