-- ==== Sys2Proof/Machine/Arith.lean ====
section
/-! DEFINITION. Generic arithmetic on words: operands out of the heap, results into words and objects (R34 to R52, Table
06-1), and what the conversions of CVT compute (R113). Dispatch of sample blocks stands in Dispatching.lean. -/

namespace Sys2Proof.Machine

open Sys2Proof

/-! ### Operands -/

/-- STAT.RM of a core. -/
def rmOf (c : Fin 32) : M (BitVec 3) := do pure (fld (← core c).lo.stat 0 3)

/-- The integer that the limbs of a BIG give, least significant first (Table 06-1). -/
def limbsInt (ws : List Word) : Int :=
  let n := ws.foldr (fun (w : Word) (a : Nat) => w.datum.toNat + 2 ^ 64 * a) 0
  let top := (ws.getLast?.map fun w => bit w.datum 63).getD false
  if top then (n : Int) - 2 ^ (64 * ws.length) else n

/-- The number of limbs of an integer: the least that hold its two's complement. -/
def limbCount (x : Int) : Nat :=
  let m : Nat := if x < 0 then (-x - 1).toNat else x.toNat
  (if m = 0 then 0 else m.log2 + 1) / 64 + 1

/-- The limbs of an integer. -/
def intLimbs (x : Int) : List Word :=
  (List.range (limbCount x)).map fun i => Word.raw (BitVec.ofInt 64 (x / 2 ^ (64 * i)))

/-- The value of a BIG. -/
def bigVal (c : Fin 32) (w : Word) : M Int := do
  let (a, n) ← objOf c w 0x04
  let ws ← fields c a n 1
  need (ws.all fun x => x.tag == 0x07) .tagMismatch
  pure (limbsInt ws)

/-- A FIX or BIG as an integer; anything else is TAG_MISMATCH. -/
def intVal (c : Fin 32) (w : Word) : M Int :=
  if w.tag = 0x00 then pure w.datum.toInt
  else if w.tag = 0x43 then bigVal c w
  else raiseC .tagMismatch

/-- An operand of a generic operator as a value; its tag is known to be acceptable. A WQTY whose wide word has the reserved KIND 11 or
bits [63:58] not zero or whose value is no FLT, a RAT with a denominator below 2 and a BIG with a limb that is not RAW are TAG_MISMATCH.
(DESIGN CHOICE, log 59) -/
def numVal (c : Fin 32) (w : Word) : M Val := do
  match clsOf w.tag with
  | .fix => pure (.int w.datum.toInt true)
  | .big => pure (.int (← bigVal c w) false)
  | .rat => do
    let (a, _) ← objOf c w 0x05
    let n ← intVal c (← field c a 1)
    let d ← intVal c (← field c a 2)
    need (decide (2 ≤ d)) .tagMismatch
    pure (.rat ((n : Rat) / d))
  | .flt => pure (.flt (ofF64 w.datum))
  | .qty => pure (.qty false (ofQ40 (fld w.datum 24 40)) (Dim.ofQty w.datum))
  | .wqty => do
    let (a, _) ← objOf c w 0x06
    let v ← field c a 1
    let d ← field c a 2
    need (v.tag == 0x02 && d.tag == 0x07 && fld d.datum 58 6 == 0 && fld d.datum 56 2 != 3) .tagMismatch
    pure (.qty true (ofF64 v.datum) (Dim.ofWide d.datum))
  | .inst => pure (.inst w.datum.toNat)
  | .span => pure (.span w.datum.toInt)
  | .sblk => pure .sblk
  | _ => pure .other

/-- A value of the class of a word, by which the tag pair is judged before any object is read (step 1 of R34). -/
def classVal (w : Word) : Val :=
  match clsOf w.tag with
  | .fix => .int 1 true
  | .big => .int 1 false
  | .rat => .rat (1 / 2)
  | .flt => .flt (.fin false 1)
  | .qty => .qty false (.fin false 1) {}
  | .wqty => .qty true (.fin false 1) {}
  | .inst => .inst 1
  | .span => .span 1
  | .sblk => .sblk
  | _ => .other

/-- Whether a result is TAG_MISMATCH. -/
def isTm {α : Type} (e : Except Cause α) : Bool :=
  match e with
  | .error .tagMismatch => true
  | _ => false

/-- A class that combines with a block (Tables 03-3 to 03-5): Number, Quantity or Block. -/
def blockMate (w : Word) : Bool :=
  match classVal w with
  | .inst _ => false
  | .span _ => false
  | .other => false
  | _ => true

/-- Whether an operand is a sample block. -/
def isBlk (w : Word) : Bool := w.tag == 0x46

/-- Whether a tag pair is in the table of an operator. -/
def pairOk (op : Op2) (a b : Word) : Bool :=
  if isBlk a || isBlk b then blockMate a && blockMate b
  else match op with
    | .div => !(isTm (divide 0 (classVal a) (classVal b)))
    | op => !(isTm (arith op 0 (classVal a) (classVal b)))

/-! ### Results -/

/-- A pointer word to an object. -/
def ptrTo (tag : BitVec 8) (a : BitVec 48) : Word := ⟨tag, a.setWidth 64⟩

/-- An integer delivered: FIX, or a BIG (R36). -/
def deliverInt (c : Fin 32) (x : Int) : M Word :=
  if -(2 ^ 63) ≤ x ∧ x < 2 ^ 63 then pure (Word.fix (BitVec.ofInt 64 x))
  else do pure (ptrTo 0x43 (← allocSafe c 0x04 (intLimbs x)))

/-- The word of a QTY. -/
def qtyWord (rm : BitVec 3) (v : FVal) (d : Dim) : Word := Word.qty (put 24 (toQ40 rm v) ||| d.toQty)

/-- A WQTY object. -/
def wideWord (c : Fin 32) (bits : BitVec 64) (d : Dim) : M Word := do
  pure (ptrTo 0x45 (← allocSafe c 0x06 [Word.flt bits, Word.raw d.toWide]))

/-- A result delivered as a word, its objects allocated (R36, R45, R51). -/
def deliver (c : Fin 32) (rm : BitVec 3) (r : Res) : M Word :=
  match r with
  | .int x => deliverInt c x
  | .rat x =>
    if x.den = 1 then deliverInt c x.num
    else allocWhole c do
      let n ← deliverInt c x.num
      let d ← deliverInt c x.den
      pure (ptrTo 0x44 (← allocSafe c 0x05 [n, d]))
  | .flt bits => pure (Word.flt bits)
  | .qty boxed v d => if boxed && !d.narrow then wideWord c (toF64 rm v) d else pure (qtyWord rm v d)
  | .inst t => pure (Word.inst (BitVec.ofNat 64 t))
  | .span x => pure (Word.span (BitVec.ofInt 64 x))

/-! ### Operators on operands that are no sample block -/

/-- The checks of R34 on two operands: R30 with the malformed word for each, then the tag pair. (DEDUCED, log 30) -/
def checkPair (ok : Word → Word → Bool) (a b : Word) : M Unit := do
  raiseIf (chkFull a)
  raiseIf (chkFull b)
  need (ok a b) .tagMismatch

/-- ADD and SUB. -/
def addSub (c : Fin 32) (op : Op2) (a b : Word) : M Word := do
  let rm ← rmOf c
  let x ← numVal c a
  let y ← numVal c b
  let r ← liftE (arith op rm x y)
  deliver c rm r

/-- Whether an operand makes a MUL or DIV complete inside the instruction (last row of Table 03-12). (DEDUCED, log 30) -/
def boxedOp (w : Word) : Bool :=
  match clsOf w.tag with
  | .big => true
  | .rat => true
  | .wqty => true
  | .sblk => true
  | _ => false

/-- The product registers of a MUL and whether its latency is exposed (R57, R58). -/
def mulRes (c : Fin 32) (a b : Word) : M (Word × Word × Bool) := do
  let rm ← rmOf c
  let p := a.datum.toInt * b.datum.toInt
  let lo := BitVec.ofInt 64 p
  let hi := Word.fix (BitVec.ofInt 64 (p / 2 ^ 64))
  if a.tag = 0x00 ∧ b.tag = 0x00 then pure (Word.fix lo, hi, true)
  else if (a.tag = 0x05 ∧ b.tag = 0x00) ∨ (a.tag = 0x00 ∧ b.tag = 0x05) then pure (Word.span lo, hi, true)
  else
    let x ← numVal c a
    let y ← numVal c b
    let r ← liftE (arith .mul rm x y)
    pure (← deliver c rm r, Word.nil, !(boxedOp a || boxedOp b))

/-- The quotient registers of a DIV and whether its latency is exposed. -/
def divRes (c : Fin 32) (a b : Word) : M (Word × Word × Bool) := do
  let rm ← rmOf c
  let x ← numVal c a
  let y ← numVal c b
  let (q, r) ← liftE (divide rm x y)
  let (q, r) ← allocWhole c do
    let q ← deliver c rm q
    let r ← match r with
      | some r => deliver c rm r
      | none => pure Word.nil
    pure (q, r)
  pure (q, r, !(boxedOp a || boxedOp b || q.tag == 0x43))

/-- NEG of an operand that is no sample block: Floats and Quantities by their sign bit, with the same tag and dimension (R39,
R43). (DEDUCED, log 27) -/
def negWord (c : Fin 32) (a : Word) : M Word := do
  let rm ← rmOf c
  match clsOf a.tag with
  | .flt => pure { a with datum := a.datum ^^^ (1 <<< 63) }
  | .qty => do
    need ((Dim.ofQty a.datum).kind == 0) .unitKind
    pure { a with datum := a.datum ^^^ (1 <<< 63) }
  | .wqty => do
    let x ← numVal c a
    need (x.dim.kind == 0) .unitKind
    let (p, _) ← objOf c a 0x06
    let v ← field c p 1
    wideWord c (v.datum ^^^ (1 <<< 63)) x.dim
  | _ => do
    let x ← numVal c a
    let r ← liftE (negate x)
    deliver c rm r

/-- LOGADD (R52): the value of two finite levels is the open one within two units in the last place of the rounded sum, in
the format in which the result is delivered. (DESIGN CHOICE, log 26) -/
def logaddWord (c : Fin 32) (a b : Word) : M Word := do
  let rm ← rmOf c
  let x ← numVal c a
  let y ← numVal c b
  let (wide, v, d) ← liftE (logaddVal x y)
  let boxed := wide && !d.narrow
  if logaddOpen x.exact y.exact then
    let p := toF64 0 x.exact
    let q := toF64 0 y.exact
    let sum := FVal.ofRat (levelSum x.exact.toRat y.exact.toRat)
    if boxed then wideWord c (BitVec.ofNat 64 (Fmt.f64.near (Config.logaddF rm p q).toNat (toF64 rm sum).toNat)) d
    else
      let bits : BitVec 40 := BitVec.ofNat 40 (Fmt.qty.near (Config.logaddQ rm p q).toNat (toQ40 rm sum).toNat)
      pure (Word.qty (put 24 bits ||| d.toQty))
  else deliver c rm (.qty wide v d)

/-- CMPEQ and CMPNE resolve a pointer into a condemned board first, and its register takes the resolved word (R56). -/
def rdResolved (c : Fin 32) (r : Fin 32) : M Word := do
  let w ← rd c r
  let v ← resolveWord ((← get).via c 5) w
  if v ≠ w then wr c r v
  pure v

/-- The checks of a compare on its two operands (R30, R55). -/
def cmpCheck (k : Cmp) (a b : Word) : M Unit :=
  checkPair (fun a b => !(isTm (compareVals k a b (classVal a) (classVal b)))) a b

/-- A compare of two words that have passed their checks (R55). -/
def cmpWords (c : Fin 32) (k : Cmp) (a b : Word) : M Bool := do
  if eqOnly a || eqOnly b then liftE (compareVals k a b (classVal a) (classVal b))
  else
    let x ← numVal c a
    let y ← numVal c b
    liftE (compareVals k a b x y)

/-! ### Conversions (R113) -/

/-- Whether a value is a Number or a Quantity. -/
def Val.scalar (v : Val) : Bool := v.isNumber || v.isQty

/-- A dimensionless plain value: UNIT_KIND, then UNIT_MISMATCH. -/
def Val.needPlain (v : Val) (d : Dim) : Except Cause Unit :=
  orFail (v.dim.kind == 0) .unitKind (orFail (v.dim.same d) .unitMismatch (.ok ()))

/-- A finite value. -/
def FVal.needFin (v : FVal) : Except Cause Rat := orFail v.isFin .unitRange (.ok v.toRat)

/-- The dimension of a second. -/
def dimSecond : Dim := { s := 1 }

/-- TOFLT. (DEDUCED, log 29) -/
def cvtFlt (rm : BitVec 3) (a : Val) : Except Cause Res := do
  orFail a.scalar .tagMismatch (.ok ())
  a.needPlain {}
  .ok (.flt (toF64 rm a.exact))

/-- TOINT. -/
def cvtInt (rm : BitVec 3) (a : Val) : Except Cause Res :=
  match a with
  | .inst t => .ok (.int t)
  | .span x => .ok (.int x)
  | a => do
    orFail a.scalar .tagMismatch (.ok ())
    a.needPlain {}
    let x ← a.exact.needFin
    .ok (.int (roundInt rm x))

/-- TOQTY: the value of a with the dimension and kind of the template. -/
def cvtQty (a t : Val) : Except Cause Res := do
  orFail (a.isNumber && t.isQty) .tagMismatch (.ok ())
  .ok (.qty t.isWide a.exact t.dim)

/-- STRIP. -/
def cvtStrip (a t : Val) : Except Cause Res := do
  orFail (a.isQty && t.isQty) .tagMismatch (.ok ())
  orFail (a.dim.kind == t.dim.kind) .unitKind (.ok ())
  orFail (a.dim.same t.dim) .unitMismatch (.ok ())
  .ok (.flt (toF64 0 a.exact))

/-- TOSPAN: a FIX count of ns, or a plain QTY in s. -/
def cvtSpan (rm : BitVec 3) (a : Val) : Except Cause Res :=
  match a with
  | .int x true => .ok (.span x)
  | .qty false v d => do
    Val.needPlain (.qty false v d) dimSecond
    let x ← v.needFin
    spanRes (roundInt rm (x * 1000000000))
  | _ => .error .tagMismatch

/-- SPANQ. -/
def cvtSpanq (a : Val) : Except Cause Res :=
  match a with
  | .span x => .ok (.qty false (.ofRat ((x : Rat) / 1000000000)) dimSecond)
  | _ => .error .tagMismatch

/-- TOINST. -/
def cvtInst (a : Val) : Except Cause Res :=
  match a with
  | .int x _ => instRes x
  | _ => .error .tagMismatch

/-- The checks of a conversion of one operand: R30, then the tag. -/
def check1 (c : Fin 32) (f : BitVec 3 → Val → Except Cause Res) (a : Word) : M Unit := do
  let rm ← rmOf c
  raiseIf (chkFull a)
  need (!(isTm (f rm (classVal a)))) .tagMismatch

/-- A conversion of one operand that has passed its checks. -/
def convert1 (c : Fin 32) (f : BitVec 3 → Val → Except Cause Res) (a : Word) : M Word := do
  let rm ← rmOf c
  let x ← numVal c a
  let r ← liftE (f rm x)
  deliver c rm r

/-- A conversion with a template, of operands that have passed their checks. -/
def convert2 (c : Fin 32) (f : Val → Val → Except Cause Res) (a b : Word) : M Word := do
  let rm ← rmOf c
  let x ← numVal c a
  let y ← numVal c b
  let r ← liftE (f x y)
  deliver c rm r

end Sys2Proof.Machine
end

