-- ==== Sys2Proof/Machine/LoadStore.lean ====
section
/-! DEFINITION. Memory instructions: LDW to STX, LDF, STF, LDB, STB, LDS, STS, SPADJ, ALLOC, STM and LDM (R75, R92,
R123 to R129, R135). -/

namespace Sys2Proof.Machine

open Sys2Proof

/-- The checks on a value to be stored, with POISON exempt. -/
def schk (w : Word) : M Unit := raiseIf (schkWord w)

/-- LDW and LDWS. -/
def loadBody (c : Fin 32) (stream : Bool) (wd wa : Fin 32) (off : BitVec 10) : M Next := do
  touch c [wd, wa]
  let a ← rdTag c wa
  chk a
  need (goodPtr a || goodRef a) .tagMismatch
  let a ← rdBase c .read wa (off48 off)
  wr c wd (← loadBase c a off stream)
  pure .seq

/-- LDW (R123). -/
def execLdw (h : Hdr) (wd wa : Fin 32) (off : BitVec 10) (s : State) : Host.Outcome State Fault Refusal :=
  ok (runInstr (.ldw h wd wa off) h false (loadBody h.core false wd wa off) s)

/-- LDWS (R123): the L2 fill that it causes is a streaming fill. -/
def execLdws (h : Hdr) (wd wa : Fin 32) (off : BitVec 10) (s : State) : Host.Outcome State Fault Refusal :=
  ok (runInstr (.ldws h wd wa off) h false (loadBody h.core true wd wa off) s)

/-- STW (R124). -/
def execStw (h : Hdr) (ws wa : Fin 32) (off : BitVec 10) (s : State) : Host.Outcome State Fault Refusal :=
  ok (runInstr (.stw h ws wa off) h false (do
    touch h.core [ws, wa]
    let a ← rdTag h.core wa
    let w ← rdTag h.core ws
    chk a
    schk w
    need ((goodPtr a || goodRef a) && !(heapInternal w)) .tagMismatch
    let a ← rdBase h.core .write wa (off48 off)
    storeBase h.core a off (← rd h.core ws)
    pure .seq) s)

/-- The base address of LDX and STX: RAW or a pointer. -/
def rawBase (a : Word) (off : BitVec 10) : M (BitVec 48) := do
  chk a
  need (a.tag == 0x07 || goodPtr a) .tagMismatch
  pure (ptrAddr a + off48 off)

/-- LDX (R125). -/
def execLdx (h : Hdr) (wd wa : Fin 32) (off : BitVec 10) (s : State) : Host.Outcome State Fault Refusal :=
  ok (runInstr (.ldx h wd wa off) h true (do
    touch h.core [wd, wa]
    let _ ← rawBase (← rdTag h.core wa) off
    let va ← rawBase (← rdBase h.core .read wa (off48 off)) off
    let t ← xl h.core .read va
    wr h.core wd (← rawLoad h.core t va)
    pure .seq) s)

/-- STX (R125): no card is marked. -/
def execStx (h : Hdr) (ws wa : Fin 32) (off : BitVec 10) (s : State) : Host.Outcome State Fault Refusal :=
  ok (runInstr (.stx h ws wa off) h true (do
    touch h.core [ws, wa]
    let _ ← rawBase (← rdTag h.core wa) off
    need (!((← rdTag h.core ws).tag == 0xFD)) .pendingUse
    let va ← rawBase (← rdBase h.core .write wa (off48 off)) off
    let t ← xl h.core .write va
    rawStore h.core t va (← rd h.core ws)
    pure .seq) s)

/-- The object base of LDF and STF with the index in bounds (R126). -/
def fieldAddr (c : Fin 32) (a b : Word) : M (BitVec 48) := do
  let (base, hd) ← objHead c a
  raiseIf (hdrCheck hd)
  need (decide (1 ≤ b.datum.toInt) && decide (b.datum.toInt ≤ hdrLen hd)) .tagMismatch
  pure (base + fld b.datum 0 48)

/-- LDF (R126). -/
def execLdf (h : Hdr) (wd wa wb : Fin 32) (s : State) : Host.Outcome State Fault Refusal :=
  ok (runInstr (.ldf h wd wa wb) h false (do
    let c := h.core
    touch c [wd, wa, wb]
    let a ← rdTag c wa
    let b ← rdTag c wb
    chk a
    chk b
    need (b.tag == 0x00 && (goodPtr a || (goodRef a && decide (b.datum.toNat < 65536)))) .tagMismatch
    let a ← rdBase c .read wa 0
    let w ← if goodRef a then do
        let w ← refLoad c a.datum b.datum.toNat
        raiseIf (lchkWord w)
        pure w
      else do
        let va ← fieldAddr c a b
        loadAt c va false
    wr c wd w
    pure .seq) s)

/-- STF (R126). -/
def execStf (h : Hdr) (ws wa wb : Fin 32) (s : State) : Host.Outcome State Fault Refusal :=
  ok (runInstr (.stf h ws wa wb) h false (do
    let c := h.core
    touch c [ws, wa, wb]
    let a ← rdTag c wa
    let b ← rdTag c wb
    let w ← rdTag c ws
    chk a
    chk b
    schk w
    need (b.tag == 0x00 && (goodPtr a || (goodRef a && decide (b.datum.toNat < 65536))) && !(heapInternal w)) .tagMismatch
    let a ← rdBase c .read wa 0
    let w ← rd c ws
    if goodRef a then refStore c a.datum b.datum.toNat w
    else
      let va ← fieldAddr c a b
      storeAt c va w
    pure .seq) s)

/-! ### Bytes (R127) -/

/-- A word whose bytes are reached in the register: RAW, PK32, PK16, INSTR. -/
def byteWord (w : Word) : Bool := w.tag == 0x07 || w.tag == 0x08 || w.tag == 0x09 || w.tag == 0x0A

/-- The address of the word of a string that holds byte b, checked against the string's byte count. -/
def strAddr (c : Fin 32) (a : Word) (b : Word) : M (BitVec 48) := do
  let (base, _) ← objOf c a 0x03
  let n ← field c base 1
  need (n.tag == 0x00 && decide (0 ≤ b.datum.toInt) && decide (b.datum.toInt < n.datum.toInt)) .tagMismatch
  pure (base + 2 + BitVec.ofNat 48 (b.datum.toNat / 8))

/-- A word of a string as a RAW word. (DEDUCED, log 41) -/
def strWord (w : Word) : M Unit := do
  raiseIf (chkWord w)
  need (w.tag == 0x07) .tagMismatch

/-- Whether the operands of LDB or STB are in range, but for a string's byte count. (DEDUCED, log 41) -/
def byteOk (a b : Word) : Bool :=
  b.tag == 0x00 && ((byteWord a && decide (b.datum.toNat < 8)) || (a.tag == 0x42 && goodPtr a))

/-- LDB (R127). -/
def execLdb (h : Hdr) (wd wa wb : Fin 32) (s : State) : Host.Outcome State Fault Refusal :=
  ok (runInstr (.ldb h wd wa wb) h false (do
    let c := h.core
    touch c [wd, wa, wb]
    let a ← rdTag c wa
    let b ← rdTag c wb
    chk a
    chk b
    need (byteOk a b) .tagMismatch
    let a ← rdBase c .read wa 0
    let w ← if byteWord a then pure a
      else do
        let va ← strAddr c a b
        let w ← loadAt c va false
        strWord w
        pure w
    wr c wd (Word.fix ((byteOf w.datum (b.datum.toNat % 8)).setWidth 64))
    pure .seq) s)

/-- An atomic update of a word of memory: the word as the core sees it, and its new value (R83). -/
def atomicByte (c : Fin 32) (va : BitVec 48) (b : Nat) (v : BitVec 8) : M Unit := do
  let t ← xl c .rmw va
  match (← core c).stackHit va with
  | some w =>
    strWord w
    modify fun s => s.modCore c fun x => x.stackPut va { w with datum := setByte w.datum b v }
  | none =>
    let world := (← get).world c
    let w ← atomicRead c world t
    raiseIf (lchkWord w)
    strWord w
    atomicMem c world t { w with datum := setByte w.datum b v } none

/-- STB (R127). -/
def execStb (h : Hdr) (ws wa wb : Fin 32) (s : State) : Host.Outcome State Fault Refusal :=
  ok (runInstr (.stb h ws wa wb) h false (do
    let c := h.core
    touch c [ws, wa, wb]
    let a ← rdTag c wa
    let b ← rdTag c wb
    let w ← rdTag c ws
    chk a
    chk b
    chk w
    need (byteOk a b && w.tag == 0x00 && decide (w.datum.toNat < 256)) .tagMismatch
    let a ← rdBase c .read wa 0
    let v : BitVec 8 := fld w.datum 0 8
    if byteWord a then wr c wa { a with datum := setByte a.datum b.datum.toNat v }
    else
      let va ← strAddr c a b
      atomicByte c va (b.datum.toNat % 8) v
    pure .seq) s)

/-! ### The stack (R75, R76, R128) -/

/-- SP of the running level. (DEDUCED, log 40) -/
def spOf (c : Fin 32) : M (BitVec 64) := do pure ((← core c).sp ((← get).user c))

/-- LDS. (DEDUCED, log 33) -/
def execLds (h : Hdr) (wd : Fin 32) (imm : BitVec 15) (s : State) : Host.Outcome State Fault Refusal :=
  ok (runInstr (.lds h wd imm) h false (do
    let c := h.core
    touch c [wd]
    let va : BitVec 48 := fld (← spOf c) 0 48 + imm.setWidth 48
    let t ← xl c .read va
    stackBarrier c ((← get).user c) (va.toNat + 1)
    let (_, w) ← rb c t va false
    raiseIf (lchkWord w)
    wr c wd w
    pure .seq) s)

/-- STS: a word within 32 of SP goes into the stack buffer, one further up as a store without write barrier. (DEDUCED, log 40) -/
def execSts (h : Hdr) (ws : Fin 32) (imm : BitVec 15) (s : State) : Host.Outcome State Fault Refusal :=
  ok (runInstr (.sts h ws imm) h false (do
    let c := h.core
    touch c [ws]
    schk (← rdTag c ws)
    let sp ← spOf c
    let va : BitVec 48 := fld sp 0 48 + imm.setWidth 48
    let t ← xl c .write va
    let w ← rd c ws
    if imm.toNat < 32 && !t.se then
      modify fun s => s.modCore c fun x => x.pushStack (s.user c) va w
    else rawStore c t va w
    pure .seq) s)

/-- NIL written into n newly covered words below an address, the highest first. -/
def Core.coverNil (x : Core) (user : Bool) (top : BitVec 48) : Nat → Core
  | 0 => x
  | n + 1 => (x.pushStack user (top - 1) Word.nil).coverNil user (top - 1) n

/-- SPADJ. -/
def execSpadj (h : Hdr) (imm : BitVec 15) (s : State) : Host.Outcome State Fault Refusal :=
  ok (runInstr (.spadj h imm) h false (do
    let c := h.core
    let u := (← get).user c
    let sp ← spOf c
    let i : Int := imm.toInt
    if i < 0 then
      need (decide (((← core c).slim u).toNat ≤ (sp.toNat : Int) + i)) .stackOverflow
      modify fun s => s.modCore c fun x => (x.coverNil u (fld sp 0 48) (-i).toNat).setSp u (sp + sext imm)
    else
      stackBarrier c u (sp.toNat + i.toNat)
      modify fun s => s.modCore c fun x => x.popStack u i.toNat
    pure .seq) s)

/-! ### ALLOC (R129) -/

/-- Whether the two operands of ALLOC name a length, a kind and its tag. -/
def allocOk (a b : Word) : Bool :=
  a.tag == 0x00 && decide (a.datum.toNat < 2 ^ 40) && b.tag == 0x00 && decide (b.datum.toNat < 65536) &&
    kindTag (b.datum.toNat % 256) == some (fld b.datum 8 8)

/-- ALLOC. -/
def execAlloc (h : Hdr) (wd wa wb : Fin 32) (s : State) : Host.Outcome State Fault Refusal :=
  ok (runInstr (.alloc h wd wa wb) h false (do
    let c := h.core
    touch c [wd, wa, wb]
    let a ← rd c wa
    let b ← rd c wb
    chk a
    chk b
    need (allocOk a b) .tagMismatch
    let tag : BitVec 8 := fld b.datum 8 8
    need (!((← get).user c && (tag == 0x4B || tag == 0x4C))) .privilege
    let p ← allocSafe c (b.datum.toNat % 256) (List.replicate a.datum.toNat Word.nil)
    wr c wd (ptrTo tag p)
    pure .seq) s)

/-! ### STM and LDM (R135, R178) -/

/-- Set STAT.MP: where it names a register, the core stands inside STM or LDM (R269). -/
def setMp (c : Fin 32) (k : Nat) : M Unit :=
  modify fun s => s.modCore c fun x =>
    { x with lo := { x.lo with stat := setFld x.lo.stat 7 (BitVec.ofNat 6 k) }, amid := decide (k ≠ 0) }

/-- The field of the object that register j of a mask goes to. (DEDUCED, log 39) -/
def maskField (mask : BitVec 64) (j : Nat) : Nat := 1 + popcount mask j

/-- Transfer the registers of a list; after each, MP names the next, and 0 when none is left. An interrupt may come between
two transfers, after so many. (DESIGN CHOICE, log 38) -/
def transfers (c : Fin 32) (one : Fin 32 → M Unit) : Nat → List Nat → M Unit
  | _, [] => setMp c 0
  | 0, _ :: _ => throw .stall
  | n + 1, j :: js => do
    one (idx 32 j)
    setMp c (match js with
      | [] => 0
      | k :: _ => k + 1)
    transfers c one n js

/-- The common part of STM and LDM. (DESIGN CHOICE, log 38; DEDUCED, log 39) -/
def multiple (c : Fin 32) (wa wb : Fin 32) (steps : Nat) (load : Bool) : M Next := do
  touch c [wa, wb]
  need (bit ((← get).worlds[(← get).world c].ctxcfg) 0) .illegalInstr
  let a ← rdTag c wa
  let b ← rdTag c wb
  need (!(load && b.tag == 0x00 && bit b.datum wa.val)) .illegalInstr
  chk a
  chk b
  need (goodPtr a && (a.tag == 0x41 || a.tag == 0x4A || a.tag == 0x4B) && b.tag == 0x00 && decide (b.datum.toNat < 2 ^ 32))
    .tagMismatch
  let mask := b.datum
  touch c ((bitsOf mask 32).map fun j => idx 32 j)
  let a ← rdBase c .read wa 0
  let (base, hd) ← objHead c a
  raiseIf (hdrCheck hd)
  need (decide (popcount mask 32 ≤ hdrLen hd)) .tagMismatch
  let mp := (fld (← core c).lo.stat 7 6).toNat
  let left := (bitsOf mask 32).filter fun j => decide (mp ≤ j + 1)
  transfers c (fun r => do
    let va := base + BitVec.ofNat 48 (maskField mask r.val)
    if load then do
      let w ← loadAt c va false
      wr c r w
    else do
      let w ← rdTag c r
      schk w
      need (!(heapInternal w)) .tagMismatch
      let t ← xl c .write va
      Machine.wb c t va (← rd c r)) steps left
  pure .seq

/-- STM. -/
def execStm (h : Hdr) (wa wb : Fin 32) (steps : Nat) (s : State) : Host.Outcome State Fault Refusal :=
  ok (runInstr (.stm h wa wb steps) h false (multiple h.core wa wb steps false) s)

/-- LDM. -/
def execLdm (h : Hdr) (wa wb : Fin 32) (steps : Nat) (s : State) : Host.Outcome State Fault Refusal :=
  ok (runInstr (.ldm h wa wb steps) h false (multiple h.core wa wb steps true) s)

end Sys2Proof.Machine
end

