-- ==== Sys2Proof/Machine/Issue.lean ====
section
/-! DEFINITION. The issue of lathe jobs: LATHE with its descriptor, and generic operators on sample blocks (R54, R136, R327,
R328, R330, R334). -/

namespace Sys2Proof.Machine

open Sys2Proof

/-! ### The lathe state of the running code (Table 14-2) -/

/-- Wait: the instruction is taken back to its start (R94). -/
def stall {α : Type} : M α := throw .stall

/-- LCFG of the running code; NIL acts as zero. -/
def Core.lcfg (x : Core) : BitVec 64 := if x.lathe[0].tag = 0x07 then x.lathe[0].datum else 0

/-- The first free OUT entry; with none free, 32 jobs are outstanding and the issue stalls (R328). -/
def outSlot (c : Fin 32) : M (Fin 34) := do
  let x ← core c
  match (List.finRange 34).find? fun i => decide (2 ≤ i.val) && x.lathe[i] == Word.nil with
  | some i => pure i
  | none => stall

/-- The lathe that the device chooses: of the present ones in AFFINITY, or of all present ones, that with the fewest queued
jobs, the lowest on ties (R327); UNIT_ABSENT with none present. -/
def chooseLathe (c : Fin 32) : M (Fin 8) := do
  let s ← get
  let present := (List.finRange 8).filter fun n => s.luOn n
  let named := present.filter fun n => bit (s.cores[c].lcfg) n.val
  match minBy (fun n : Fin 8 => s.lathes[n].queue.length) (if named.isEmpty then present else named) with
  | some n => pure n
  | none => raiseC .unitAbsent

/-- A lathe with room in its queue; otherwise the instruction stalls (R136). -/
def needRoom (n : Fin 8) : M Unit := do
  if 16 ≤ (← get).lathes[n].queue.length then stall

/-- The running code (R179). -/
def codeOf (c : Fin 32) : M CodeId := do
  let x ← core c
  pure ⟨c, x.slot, x.lo.depth⟩

/-- A line of LCFG: its number where it is enabled. -/
def lcfgLine (l : BitVec 64) (lo on : Nat) : Option (BitVec 8) := if bit l on then some (fld l lo 8) else none

/-- A lathe accepts a job: the serial, the lathe state, and the job number (R327, R328). -/
def acceptJob (c : Fin 32) (n : Fin 8) (out : Fin 34) (job : LatheJob) : M Word := do
  let s ← get
  let l := s.lathes[n]
  let num := Word.fix (putN 32 n.val ||| put 0 l.serial)
  let job := { job with serial := l.serial, startedAt := s.now }
  let s := s.modLathe n fun l => { l with queue := l.queue ++ [job], serial := l.serial + 1 }
  set (s.modCore c fun x => { x with lathe := vset (vset x.lathe 1 num) out num })
  pure num

/-- A job as accepted, with nothing yet but what is common to every job. -/
def newJob (c : Fin 32) (func : BitVec 64) : M LatheJob := do
  let s ← get
  let l := s.cores[c].lcfg
  pure { serial := 0, world := s.world c, user := s.user c, owner := ← codeOf c, func := func, descOk := true, srcs := []
         outs := [], accs := [], state := none, p1 := Word.nil, p2 := Word.nil, p3 := Word.nil
         doneLine := lcfgLine l 8 16, errLine := lcfgLine l 17 25 }

/-- A scalar operand of a job: its value in binary64 and its wide dimension word. -/
def scalarOf (v : Val) : BitVec 64 × BitVec 64 := (toF64 0 v.exact, v.dim.toWide)

/-- Field 7 of every result block is EMPTY from acceptance on (R326, R330): every word is translated before any is
written. -/
def markEmpty (c : Fin 32) (vas : List (BitVec 48)) : M Unit := do
  let v := (← get).via c 0
  vas.forM fun a => do
    let _ ← xlVia v .write (a + 7)
  vas.forM fun a => viaWrite v (a + 7) Word.empty none

/-! ### LATHE (R136, R330) -/

/-- Field i of a descriptor or of a vector that it names: NIL beyond its LENGTH. A reserved tag raises TAG_RESERVED (R11); any other
unfit word is an error of the descriptor, which the lathe reports (R136). -/
def descField (c : Fin 32) (base : BitVec 48) (len i : Nat) : M Word :=
  if i ≤ len then do
    let t ← xl c .read (base + BitVec.ofNat 48 i)
    let (_, w) ← rb c t (base + BitVec.ofNat 48 i) false
    need (!(clsOf w.tag == .reserved)) .tagReserved
    pure w
  else pure Word.nil

/-- The blocks that a descriptor field names: one SBLK, or a VEC of at least lo and at most hi of them; none where it
names no such thing. -/
def blockList (c : Fin 32) (w : Word) (hi : Nat) (single : Bool) : M (Option (List (BitVec 48))) := do
  if single && w.tag == 0x46 && !(malformed w) then pure (some [ptrAddr w])
  else if w.tag == 0x41 && !(malformed w) then
    let (a, h) ← objHead c w
    if hdrCheck h == none && hdrKind h == 0x02 && decide (1 ≤ hdrLen h) && decide (hdrLen h ≤ hi) then
      let ws ← (List.range (hdrLen h)).mapM fun i => descField c a (hdrLen h) (i + 1)
      pure (if ws.all fun x => x.tag == 0x46 && !(malformed x) then some (ws.map ptrAddr) else none)
    else pure none
  else pure none

/-- Whether the LSTAT of a block is EMPTY. -/
def isEmptyBlk (c : Fin 32) (va : BitVec 48) : M Bool := do
  let w ← viaRead ((← get).via c 0) (va + 7)
  pure (w == Word.empty)

/-- Read a descriptor at acceptance: the job it describes (R330). (DEDUCED, log 49) -/
def readDesc (c : Fin 32) (base : BitVec 48) (len first : Nat) (func : BitVec 64) (funcOk : Bool) : M LatheJob := do
  let f (i : Nat) : M Word := descField c base len (first + i)
  let src ← blockList c (← f 1) 64 true
  let out ← blockList c (← f 2) 64 true
  let accW ← f 3
  let acc ← if accW = Word.nil then pure (some []) else blockList c accW 3 false
  let stW ← f 4
  let stOk := stW == Word.nil || (stW.tag == 0x46 && !(malformed stW))
  let p1 ← f 5
  let p2 ← f 6
  let p3 ← f 7
  let scalar ← if func = 1 ∧ chkFull p2 = none ∧ ((classVal p2).isNumber || (classVal p2).isQty) = true then do
      tryCatch (do pure (some (scalarOf (← numVal c p2)))) fun t =>
        match t with
        | .exc .tagMismatch none _ => pure none
        | t => throw t
    else pure none
  let empties ← (acc.getD []).mapM (isEmptyBlk c)
  let j ← newJob c func
  pure { j with descOk := decide (8 ≤ len) && funcOk && src.isSome && out.isSome && acc.isSome && stOk
                srcs := src.getD [], outs := out.getD [], accs := acc.getD []
                state := if stW.tag == 0x46 && stOk then some (ptrAddr stW) else none
                p1 := p1, p2 := p2, p3 := p3, scalar := scalar, accEmpty := empties }

/-- The lathe that Wb of LATHE names: UNIT_ABSENT where it is absent or asleep. -/
def namedLathe (w : Word) : M (Option (Fin 8)) := do
  if w = Word.nil then pure none
  else
    let n : Fin 8 := (fld w.datum 0 3).toFin
    need ((← get).luOn n) .unitAbsent
    pure (some n)

/-- The checks of LATHE on its operands (R136). -/
def latheCheck (a b : Word) : M Unit := do
  chk a
  chk b
  need (goodPtr a && (a.tag == 0x41 || a.tag == 0x4A) && (b == Word.nil || (b.tag == 0x00 && decide (b.datum.toNat < 8))))
    .tagMismatch

/-- The body of LATHE on a checked descriptor: the job number, or FIX:-1 for CONFIG. Every earlier store and spill is visible
first (R87). (DEDUCED, log 49) -/
def latheIssue (c : Fin 32) (a : Word) (named : Option (Fin 8)) : M Word := do
  fenceAll c
  let (base, h) ← objHead c a
  let len := if hdrCheck h = none then hdrLen h else 0
  let first := if a.tag = 0x4A then 2 else 1
  let fw ← descField c base len first
  if fw = Word.fix 0 then
    let p ← descField c base len (first + 5)
    need (p.tag == 0x07) .tagMismatch
    modify fun s => s.modCore c fun x => { x with lathe := vset x.lathe 0 p }
    pure (Word.fix (-1))
  else
    let n ← match named with
      | some n => pure n
      | none => chooseLathe c
    needRoom n
    let out ← outSlot c
    let j ← readDesc c base len first fw.datum (fw.tag == 0x00)
    markEmpty c (j.outs ++ j.accs)
    acceptJob c n out j

/-! ### Generic operators on sample blocks (R54) -/

/-- A sample block as an operand: its fields; the operator waits while LSTAT is EMPTY (R334). -/
def blkOperand (c : Fin 32) (w : Word) : M Blk := do
  let (a, len) ← objOf c w 0x07
  let ws ← fields c a 8 1
  let b := mkBlk a (mkHdr len 0x07 0 :: ws)
  if b.empty then stall
  pure b

/-- An operand of a block operator: a block, or a scalar value. -/
def blkSide (c : Fin 32) (w : Word) : M (Blk ⊕ Val) := do
  if isBlk w then pure (.inl (← blkOperand c w)) else pure (.inr (← numVal c w))

/-- The dimension of an operand of a block operator. -/
def sideDim : Blk ⊕ Val → Dim
  | .inl b => b.dim
  | .inr v => v.dim

/-- Shape (step 4 of R34, R333): two blocks of one shape, and none of form PV. -/
def shapeOk : Blk ⊕ Val → Blk ⊕ Val → Bool
  | .inl a, .inl b => a.alike b && a.form != 3
  | .inl a, .inr _ => a.form != 3
  | .inr _, .inl b => b.form != 3
  | .inr _, .inr _ => true

/-- The blocks among the operands. -/
def sideBlks (a b : Blk ⊕ Val) : List Blk :=
  (match a with
    | .inl x => [x]
    | .inr _ => []) ++
  (match b with
    | .inl x => [x]
    | .inr _ => [])

/-- Dispatch VOP with operation p1 on blocks and a scalar: the new block is EMPTY until the job ends (R54, R326). -/
def dispatchVop (c : Fin 32) (p1 : Nat) (blks : List Blk) (scalar : Option Val) (first : Bool) : M Word := do
  let n ← chooseLathe c
  needRoom n
  let out ← outSlot c
  let f64 := blks.any (·.f64)
  let cplx := blks.any (·.cplx)
  let count := (blks.head?.map (·.count)).getD 0
  let body := (List.replicate 8 Word.nil).set 6 Word.empty ++ List.replicate (sampleWords f64 cplx false count) Word.nil
  let a ← allocSafe c 0x07 body
  modify fun s => s.drainStores c
  let j ← newJob c 1
  let _ ← acceptJob c n out { j with
    srcs := blks.map (·.va), outs := [a], p1 := Word.fix (BitVec.ofNat 64 p1), scalar := scalar.map scalarOf
    scalarFirst := first }
  pure (ptrTo 0x46 a)

/-- The operation code of VOP. -/
def Op2.vop : Op2 → Nat
  | .add => 0
  | .sub => 1
  | .mul => 2
  | .div => 3

/-- ADD, SUB, MUL or DIV with a sample block (R34, R54). -/
def blkOp (c : Fin 32) (op : Op2) (a b : Word) : M Word := do
  touchLathe c
  let x ← blkSide c a
  let y ← blkSide c b
  let d ← liftE (combineDim op (sideDim x) (sideDim y))
  need (shapeOk x y) .tagMismatch
  need d.wide .unitRange
  let scalar := match x, y with
    | .inr v, _ => some v
    | _, .inr v => some v
    | _, _ => none
  dispatchVop c op.vop (sideBlks x y) scalar (!(isBlk a))

/-- NEG of a sample block. -/
def blkNeg (c : Fin 32) (a : Word) : M Word := do
  touchLathe c
  let x ← blkOperand c a
  need (x.dim.kind == 0) .unitKind
  need (x.form != 3) .tagMismatch
  dispatchVop c 4 [x] none false

end Sys2Proof.Machine
end

