-- ==== Sys2Proof/Machine/Logic.lean ====
section
/-! DEFINITION. Arithmetic, bitwise, compare and predicate instructions: ADD to ADDI, AND to NOT, CMPEQ to CMPGE, TAGEQ, PAND
to PMOV (R114 to R122). -/

namespace Sys2Proof.Machine

open Sys2Proof

/-! ### Generic arithmetic (R115 to R119) -/

/-- ADD and SUB of two words that have passed their checks: inside the instruction, or on a lathe with a sample block (R34,
R54). -/
def sumWord (c : Fin 32) (op : Op2) (a b : Word) : M Word := do
  if isBlk a || isBlk b then blkOp c op a b else addSub c op a b

/-- ADD and SUB on registers. -/
def sumBody (c : Fin 32) (op : Op2) (wd wa wb : Fin 32) : M Next := do
  touch c [wd, wa, wb]
  checkPair (pairOk op) (← rdTag c wa) (← rdTag c wb)
  let a ← rd c wa
  let b ← rd c wb
  wr c wd (← sumWord c op a b)
  pure .seq

/-- ADD (R115). -/
def execAdd (h : Hdr) (wd wa wb : Fin 32) (s : State) : Host.Outcome State Fault Refusal :=
  ok (runInstr (.add h wd wa wb) h false (sumBody h.core .add wd wa wb) s)

/-- SUB (R115). -/
def execSub (h : Hdr) (wd wa wb : Fin 32) (s : State) : Host.Outcome State Fault Refusal :=
  ok (runInstr (.sub h wd wa wb) h false (sumBody h.core .sub wd wa wb) s)

/-- The result words of a MUL or DIV and whether their latency is exposed. -/
def productWords (c : Fin 32) (op : Op2) (wa wb : Fin 32) : M (Word × Word × Bool) := do
  touch c [wa, wb]
  touchUpper c
  checkPair (pairOk op) (← rdTag c wa) (← rdTag c wb)
  let a ← rd c wa
  let b ← rd c wb
  if isBlk a || isBlk b then do pure (← blkOp c op a b, Word.nil, false)
  else match op with
    | .div => divRes c a b
    | _ => mulRes c a b

/-- MUL (R116): the product comes into PRODLO and PRODHI when its latency ends, or at once (R58); an earlier MUL in flight
is discarded (R61). -/
def execMul (h : Hdr) (wa wb : Fin 32) (s : State) : Host.Outcome State Fault Refusal :=
  ok (runInstr (.mul h wa wb) h false (do
    let (lo, hi, open_) ← productWords h.core .mul wa wb
    modify fun s => s.modCore h.core fun x =>
      if open_ then { x with mulFly := some (lo, hi) }
      else { x with mulFly := none, hi := x.hi.setProd lo hi }
    pure .seq) s)

/-- DIV (R116). -/
def execDiv (h : Hdr) (wa wb : Fin 32) (s : State) : Host.Outcome State Fault Refusal :=
  ok (runInstr (.div h wa wb) h false (do
    let (q, r, open_) ← productWords h.core .div wa wb
    modify fun s => s.modCore h.core fun x =>
      if open_ then { x with divFly := some (q, r) }
      else { x with divFly := none, hi := x.hi.setQuo q r }
    pure .seq) s)

/-- NEG (R117). -/
def execNeg (h : Hdr) (wd wa : Fin 32) (s : State) : Host.Outcome State Fault Refusal :=
  ok (runInstr (.neg h wd wa) h false (do
    touch h.core [wd, wa]
    let a ← rdTag h.core wa
    raiseIf (chkFull a)
    need (isBlk a || !(isTm (negate (classVal a)))) .tagMismatch
    let a ← rd h.core wa
    wr h.core wd (← if isBlk a then blkNeg h.core a else negWord h.core a)
    pure .seq) s)

/-- LOGADD (R118). -/
def execLogadd (h : Hdr) (wd wa wb : Fin 32) (s : State) : Host.Outcome State Fault Refusal :=
  ok (runInstr (.logadd h wd wa wb) h false (do
    touch h.core [wd, wa, wb]
    checkPair (fun a b => !(isTm (logaddVal (classVal a) (classVal b)))) (← rdTag h.core wa) (← rdTag h.core wb)
    let a ← rd h.core wa
    let b ← rd h.core wb
    wr h.core wd (← logaddWord h.core a b)
    pure .seq) s)

/-- ADDI (R119). -/
def execAddi (h : Hdr) (wd : Fin 32) (imm : BitVec 15) (s : State) : Host.Outcome State Fault Refusal :=
  ok (runInstr (.addi h wd imm) h false (do
    touch h.core [wd]
    checkPair (pairOk .add) (← rdTag h.core wd) (Word.fix (sext imm))
    let a ← rd h.core wd
    wr h.core wd (← sumWord h.core .add a (Word.fix (sext imm)))
    pure .seq) s)

/-! ### Bitwise instructions (R120) -/

/-- A FIX or RAW word. -/
def isBits (w : Word) : Bool := w.tag == 0x00 || w.tag == 0x07

/-- AND, OR, XOR, ANDN: both operands of one tag. -/
def bitBody (c : Fin 32) (f : BitVec 64 → BitVec 64 → BitVec 64) (wd wa wb : Fin 32) : M Next := do
  touch c [wd, wa, wb]
  let a ← rdTag c wa
  let b ← rdTag c wb
  chk a
  chk b
  need (isBits a && b.tag == a.tag) .tagMismatch
  wr c wd ⟨a.tag, f a.datum b.datum⟩
  pure .seq

/-- SHL, SHR, SAR: a FIX count that is not negative. -/
def shiftBody (c : Fin 32) (f : BitVec 64 → Nat → BitVec 64) (wd wa wb : Fin 32) : M Next := do
  touch c [wd, wa, wb]
  let a ← rdTag c wa
  let b ← rdTag c wb
  chk a
  chk b
  need (isBits a && b.tag == 0x00 && !(bit b.datum 63)) .tagMismatch
  wr c wd ⟨a.tag, f a.datum (min b.datum.toNat 64)⟩
  pure .seq

/-- AND. -/
def execAnd (h : Hdr) (wd wa wb : Fin 32) (s : State) : Host.Outcome State Fault Refusal :=
  ok (runInstr (.and h wd wa wb) h false (bitBody h.core (fun a b => a &&& b) wd wa wb) s)

/-- OR. -/
def execOr (h : Hdr) (wd wa wb : Fin 32) (s : State) : Host.Outcome State Fault Refusal :=
  ok (runInstr (.or h wd wa wb) h false (bitBody h.core (fun a b => a ||| b) wd wa wb) s)

/-- XOR. -/
def execXor (h : Hdr) (wd wa wb : Fin 32) (s : State) : Host.Outcome State Fault Refusal :=
  ok (runInstr (.xor h wd wa wb) h false (bitBody h.core (fun a b => a ^^^ b) wd wa wb) s)

/-- ANDN. -/
def execAndn (h : Hdr) (wd wa wb : Fin 32) (s : State) : Host.Outcome State Fault Refusal :=
  ok (runInstr (.andn h wd wa wb) h false (bitBody h.core (fun a b => a &&& ~~~b) wd wa wb) s)

/-- SHL. -/
def execShl (h : Hdr) (wd wa wb : Fin 32) (s : State) : Host.Outcome State Fault Refusal :=
  ok (runInstr (.shl h wd wa wb) h false (shiftBody h.core (fun a n => a <<< n) wd wa wb) s)

/-- SHR. -/
def execShr (h : Hdr) (wd wa wb : Fin 32) (s : State) : Host.Outcome State Fault Refusal :=
  ok (runInstr (.shr h wd wa wb) h false (shiftBody h.core (fun a n => a >>> n) wd wa wb) s)

/-- SAR. -/
def execSar (h : Hdr) (wd wa wb : Fin 32) (s : State) : Host.Outcome State Fault Refusal :=
  ok (runInstr (.sar h wd wa wb) h false (shiftBody h.core (fun a n => a.sshiftRight n) wd wa wb) s)

/-- NOT. -/
def execNot (h : Hdr) (wd wa : Fin 32) (s : State) : Host.Outcome State Fault Refusal :=
  ok (runInstr (.not h wd wa) h false (do
    touch h.core [wd, wa]
    let a ← rdTag h.core wa
    chk a
    need (isBits a) .tagMismatch
    wr h.core wd ⟨a.tag, ~~~a.datum⟩
    pure .seq) s)

/-! ### Compares (R121) -/

/-- An ordered compare. -/
def cmpBody (c : Fin 32) (k : Cmp) (aw : Bool) (pd : Fin 16) (wa wb : Fin 32) : M Next := do
  touch c [wa, wb]
  cmpCheck k (← rdTag c wa) (← rdTag c wb)
  let a ← rd c wa
  let b ← rd c wb
  writeCmp c pd aw (← cmpWords c k a b)
  pure .seq

/-- CMPEQ and CMPNE check both operands, and resolve their pointers then (R30, R56, R92). (DEDUCED, log 142) -/
def cmpEqBody (c : Fin 32) (k : Cmp) (aw : Bool) (pd : Fin 16) (wa wb : Fin 32) : M Next := do
  touch c [wa, wb]
  cmpCheck k (← rdTag c wa) (← rdTag c wb)
  let a ← rdResolved c wa
  let b ← rdResolved c wb
  writeCmp c pd aw (← cmpWords c k a b)
  pure .seq

/-- CMPEQ. -/
def execCmpeq (h : Hdr) (aw : Bool) (pd : Fin 16) (wa wb : Fin 32) (s : State) : Host.Outcome State Fault Refusal :=
  ok (runInstr (.cmpeq h aw pd wa wb) h false (cmpEqBody h.core .eq aw pd wa wb) s)

/-- CMPNE. -/
def execCmpne (h : Hdr) (aw : Bool) (pd : Fin 16) (wa wb : Fin 32) (s : State) : Host.Outcome State Fault Refusal :=
  ok (runInstr (.cmpne h aw pd wa wb) h false (cmpEqBody h.core .ne aw pd wa wb) s)

/-- CMPLT. -/
def execCmplt (h : Hdr) (aw : Bool) (pd : Fin 16) (wa wb : Fin 32) (s : State) : Host.Outcome State Fault Refusal :=
  ok (runInstr (.cmplt h aw pd wa wb) h false (cmpBody h.core .lt aw pd wa wb) s)

/-- CMPLE. -/
def execCmple (h : Hdr) (aw : Bool) (pd : Fin 16) (wa wb : Fin 32) (s : State) : Host.Outcome State Fault Refusal :=
  ok (runInstr (.cmple h aw pd wa wb) h false (cmpBody h.core .le aw pd wa wb) s)

/-- CMPGT. -/
def execCmpgt (h : Hdr) (aw : Bool) (pd : Fin 16) (wa wb : Fin 32) (s : State) : Host.Outcome State Fault Refusal :=
  ok (runInstr (.cmpgt h aw pd wa wb) h false (cmpBody h.core .gt aw pd wa wb) s)

/-- CMPGE. -/
def execCmpge (h : Hdr) (aw : Bool) (pd : Fin 16) (wa wb : Fin 32) (s : State) : Host.Outcome State Fault Refusal :=
  ok (runInstr (.cmpge h aw pd wa wb) h false (cmpBody h.core .ge aw pd wa wb) s)

/-- The test of TAGEQ (R114): a mask of 0 stands for 0xFF. -/
def tagTest (t : BitVec 8) (d : BitVec 64) : Bool :=
  let m : BitVec 8 := if fld d 8 8 = (0 : BitVec 8) then 0xFF else fld d 8 8
  t &&& m == fld d 0 8

/-- TAGEQ (R114). -/
def execTageq (h : Hdr) (aw : Bool) (pd : Fin 16) (wa wb : Fin 32) (s : State) : Host.Outcome State Fault Refusal :=
  ok (runInstr (.tageq h aw pd wa wb) h false (do
    touch h.core [wa, wb]
    let a ← rdTag h.core wa
    let b ← rdTag h.core wb
    chk b
    need (b.tag == 0x00 && decide (b.datum.toNat < 65536)) .tagMismatch
    writeCmp h.core pd aw (tagTest a.tag b.datum)
    pure .seq) s)

/-! ### Predicates (R122) -/

/-- A predicate operation. -/
def predBody (c : Fin 32) (f : Bool → Bool → Bool) (pd : Fin 16) (na : Bool) (pa : Fin 16) (nb : Bool) (pb : Fin 16) :
    M Next := do
  modify fun s => s.modCore c fun x => x.setPred pd (f (x.pred pa != na) (x.pred pb != nb))
  pure .seq

/-- PAND. -/
def execPand (h : Hdr) (pd : Fin 16) (na : Bool) (pa : Fin 16) (nb : Bool) (pb : Fin 16) (s : State) :
    Host.Outcome State Fault Refusal :=
  ok (runInstr (.pand h pd na pa nb pb) h false (predBody h.core (fun a b => a && b) pd na pa nb pb) s)

/-- POR. -/
def execPor (h : Hdr) (pd : Fin 16) (na : Bool) (pa : Fin 16) (nb : Bool) (pb : Fin 16) (s : State) :
    Host.Outcome State Fault Refusal :=
  ok (runInstr (.por h pd na pa nb pb) h false (predBody h.core (fun a b => a || b) pd na pa nb pb) s)

/-- PXOR. -/
def execPxor (h : Hdr) (pd : Fin 16) (na : Bool) (pa : Fin 16) (nb : Bool) (pb : Fin 16) (s : State) :
    Host.Outcome State Fault Refusal :=
  ok (runInstr (.pxor h pd na pa nb pb) h false (predBody h.core (fun a b => a != b) pd na pa nb pb) s)

/-- PMOV. -/
def execPmov (h : Hdr) (pd : Fin 16) (na : Bool) (pa : Fin 16) (s : State) : Host.Outcome State Fault Refusal :=
  ok (runInstr (.pmov h pd na pa) h false (predBody h.core (fun a _ => a) pd na pa false 0) s)

end Sys2Proof.Machine
end

