-- ==== Sys2Proof/Machine/Move.lean ====
section
/-! DEFINITION. Moves, tags, special registers, time and conversion: MOV, MOVI, TYPEOF, TAGSET, MFS, MTS, NOW and CVT
(R80 to R82, R107 to R113, R59, R60). -/

namespace Sys2Proof.Machine

open Sys2Proof

/-! ### Moves and tags -/

/-- MOV (R107). -/
def execMov (h : Hdr) (wd wa : Fin 32) (s : State) : Host.Outcome State Fault Refusal :=
  ok (runInstr (.mov h wd wa) h false (do
    touch h.core [wd, wa]
    need (!(clsOf (← rdTag h.core wa).tag == .reserved)) .tagReserved
    wr h.core wd (← rd h.core wa)
    pure .seq) s)

/-- MOVI (R108). -/
def execMovi (h : Hdr) (wd : Fin 32) (imm : BitVec 15) (s : State) : Host.Outcome State Fault Refusal :=
  ok (runInstr (.movi h wd imm) h false (do
    touch h.core [wd]
    wr h.core wd (Word.fix (sext imm))
    pure .seq) s)

/-- TYPEOF (R109). -/
def execTypeof (h : Hdr) (wd wa : Fin 32) (s : State) : Host.Outcome State Fault Refusal :=
  ok (runInstr (.typeof h wd wa) h false (do
    touch h.core [wd, wa]
    let w ← rdTag h.core wa
    wr h.core wd (Word.fix (w.tag.setWidth 64))
    pure .seq) s)

/-- The causes of TAGSET on Wa, in its own order (R110). -/
def tagsetCheck (w : Word) : Option Cause :=
  match clsOf w.tag with
  | .pending => some .pendingUse
  | .uninit => some .uninitUse
  | .poison => some .poisonUse
  | _ => none

/-- TAGSET (R110). -/
def execTagset (h : Hdr) (wd wa wb : Fin 32) (s : State) : Host.Outcome State Fault Refusal :=
  ok (runInstr (.tagset h wd wa wb) h true (do
    touch h.core [wd, wa, wb]
    let b ← rdTag h.core wb
    raiseIf (tagsetCheck (← rdTag h.core wa))
    chk b
    need (b.tag == 0x00 && decide (b.datum.toNat < 256)) .tagMismatch
    wr h.core wd ⟨fld b.datum 0 8, (← rd h.core wa).datum⟩
    pure .seq) s)

/-! ### Special registers (R80, Table 04-4) -/

/-- The tag that a special register carries; none for the result registers, which hold any. -/
def srTag (sr : BitVec 8) : Option (BitVec 8) :=
  match sr.toNat with
  | 0x00 => some 0x0B
  | 0x04 => some 0x00
  | 0x11 => some 0x0B
  | n => if 8 ≤ n ∧ n ≤ 11 then none else some 0x07

/-- Whether Table 04-4 gives the executing level any access to a special register. (DEDUCED, log 92) -/
def srOpen (sr : BitVec 8) (user : Bool) : Bool :=
  if sr = 0x1F then false else !(user && decide (0x10 ≤ sr.toNat) && decide (sr.toNat ≤ 0x18))

/-- Whether the operation that fills a result register is in flight (R58). (DESIGN CHOICE, log 37) -/
def Core.resBusy (x : Core) (sr : BitVec 8) : Bool := if sr.toNat ≤ 9 then x.mulFly.isSome else x.divFly.isSome

/-- The word of a result register; a flip-marked one is resolved first, and the register takes the resolved word (R154). -/
def resWord (c : Fin 32) (sr : BitVec 8) : M Word := do
  let s ← get
  let w := s.cores[c].hi.res sr
  if bit s.cores[c].hi.marks (sr.toNat + 8) then
    let v ← resolveWord (s.via c 5) w
    modify fun s => s.modCore c fun x => { x with hi := x.hi.setRes sr v }
    pure v
  else pure w

/-- MFS of a result register (R59, R60): PENDING while its operation is in flight, unless the wait bit waits for it; a
product that does not fit in 64 bits is boxed. -/
def mfsResult (c : Fin 32) (sr : BitVec 8) (wt : Bool) : M Word := do
  touchUpper c
  if !wt && (← core c).resBusy sr then pure (Word.pending (sr.toNat - 8))
  else
    modify fun s => s.modCore c fun x => if sr.toNat ≤ 9 then x.mulDone else x.divDone
    let r := (← core c).hi
    if sr = 0x08 && r.prodhi.tag == 0x00 && r.prodhi.datum != r.prodlo.datum.sshiftRight 63 then
      if r.prodlo.tag = 0x00 then deliverInt c (r.prodhi.datum.toInt * 2 ^ 64 + r.prodlo.datum.toNat)
      else if r.prodlo.tag = 0x05 then raiseC .unitRange
      else pure r.prodlo
    else resWord c sr

/-- A special register that is no result register, as read. (DEDUCED, log 35) -/
def State.srRead (s : State) (c : Fin 32) (sr : BitVec 8) : Word :=
  let x := s.cores[c]
  let l := x.lo
  let w := s.worlds[s.world c]
  let u := s.user c
  match sr.toNat with
  | 0x00 => mkReta l.pc (s.world c) (!u)
  | 0x01 => Word.raw (x.sp u)
  | 0x02 => Word.raw (x.slim u)
  | 0x03 => Word.raw x.statVal
  | 0x04 => Word.fix l.lc
  | 0x05 => Word.raw l.ls
  | 0x06 => Word.raw l.le
  | 0x07 => Word.raw (x.preds.setWidth 64)
  | 0x0C => Word.raw l.allocp
  | 0x0D => Word.raw l.allocl
  | 0x10 => Word.raw l.cause
  | 0x11 => Word.reta l.epc
  | 0x12 => Word.raw l.estat
  | 0x13 => Word.raw l.faddr
  | 0x14 => Word.raw l.finfo
  | 0x15 => Word.raw w.entry
  | 0x16 => Word.raw w.s1root
  | 0x17 => Word.raw w.ctxcfg
  | 0x18 => Word.raw w.holdmax
  | 0x19 => Word.raw (putN 0 (s.world c).val)
  | 0x1A => Word.raw (putN 0 c.val ||| put 8 s.km.id)
  | _ => Word.raw (put 0 x.ven.mcver)

/-- MFS (R80, R111). -/
def execMfs (h : Hdr) (w : Fin 32) (wt : Bool) (sr : BitVec 8) (s : State) : Host.Outcome State Fault Refusal :=
  ok (runInstr (.mfs h w wt sr) h false (do
    let c := h.core
    touch c [w]
    need (srOpen sr ((← get).user c)) .privilege
    let v ← if srResult sr then mfsResult c sr wt else do pure ((← get).srRead c sr)
    wr c w (if h.err = some (.special sr) then poisonCore else v)
    pure .seq) s)

/-- A special register that is no result register, written; read-only registers and fields keep their values (R80, R81). (DEDUCED, log 35; DEDUCED, log 92) -/
def State.srWrite (s : State) (c : Fin 32) (sr : BitVec 8) (v : BitVec 64) : State :=
  let u := s.user c
  let lo (f : LowerHalf → LowerHalf) : State := s.modCore c fun x => { x with lo := f x.lo }
  let sup (t : State) : State := if u then s else t
  match sr.toNat with
  | 0x01 => sup (s.modCore c fun x => x.setSp false v)
  | 0x02 => sup (lo fun l => { l with slimS := v })
  | 0x03 => lo fun l => { l with stat := statWrite l.stat v u }
  | 0x04 => lo fun l => { l with lc := v }
  | 0x05 => lo fun l => { l with ls := (fld v 0 49).setWidth 64 }
  | 0x06 => lo fun l => { l with le := (fld v 0 49).setWidth 64 }
  | 0x07 => s.modCore c fun x => x.setPreds (fld v 0 16)
  | 0x0C => sup (lo fun l => { l with allocp := v })
  | 0x0D => sup (lo fun l => { l with allocl := v })
  | 0x10 => lo fun l => { l with cause := put 0 (fld v 0 37) }
  | 0x11 => lo fun l => { l with epc := v }
  | 0x12 => lo fun l => { l with estat := (fld v 0 16).setWidth 64 }
  | 0x13 => lo fun l => { l with faddr := put 0 (fld v 0 48) }
  | 0x14 => lo fun l => { l with finfo := setFld v 18 (0 : BitVec 6) }
  | 0x16 => s.modWorld (s.world c) fun x => { x with s1root := (fld v 0 43).setWidth 64 }
  | 0x17 => s.modWorld (s.world c) fun x => { x with ctxcfg := (fld v 0 1).setWidth 64 }
  | _ => s

/-- Whether an MTS to WORLD raises PRIVILEGE (R80, R189): for a Test supervisor always, for a Guard supervisor when it names
the other world. -/
def worldRefused (w : Fin 2) (user : Bool) (v : BitVec 64) : Bool := !user && (w == 0 || fld v 0 2 != 1)

/-- MTS to a result register (R82): its operation in flight is discarded. -/
def mtsResult (c : Fin 32) (sr : BitVec 8) (v : Word) : M Unit := do
  touchUpper c
  modify fun s => s.modCore c fun x =>
    { x with
      hi := x.hi.setRes sr v
      mulFly := if sr.toNat ≤ 9 then none else x.mulFly
      divFly := if sr.toNat ≤ 9 then x.divFly else none }

/-- MTS (R80, R111). -/
def execMts (h : Hdr) (w : Fin 32) (wt : Bool) (sr : BitVec 8) (s : State) : Host.Outcome State Fault Refusal :=
  ok (runInstr (.mts h w wt sr) h false (do
    let c := h.core
    touch c [w]
    let v ← rdTag c w
    chk v
    need (match srTag sr with
      | some t => v.tag == t
      | none => true) .tagMismatch
    let u := (← get).user c
    need (srOpen sr u) .privilege
    need (!(sr == 0x19 && worldRefused ((← get).world c) u v.datum)) .privilege
    let v ← rd c w
    if srResult sr then mtsResult c sr v
    else modify fun s => s.srWrite c sr v.datum
    pure .seq) s)

/-! ### Time -/

/-- NOW (R112): the Imtur count at this instant. -/
def execNow (h : Hdr) (wd : Fin 32) (s : State) : Host.Outcome State Fault Refusal :=
  ok (runInstr (.now h wd) h false (do
    touch h.core [wd]
    wr h.core wd (Word.inst (← get).now)
    pure .seq) s)

/-! ### Conversions (R113) -/

/-- A conversion of Wa into Wd. -/
def cvtBody (c : Fin 32) (wd wa : Fin 32) (f : BitVec 3 → Val → Except Cause Res) : M Next := do
  touch c [wd, wa]
  check1 c f (← rdTag c wa)
  let a ← rd c wa
  wr c wd (← convert1 c f a)
  pure .seq

/-- A conversion of Wa with the template Wb into Wd. -/
def cvtBody2 (c : Fin 32) (wd wa wb : Fin 32) (f : Val → Val → Except Cause Res) : M Next := do
  touch c [wd, wa, wb]
  checkPair (fun a b => !(isTm (f (classVal a) (classVal b)))) (← rdTag c wa) (← rdTag c wb)
  let a ← rd c wa
  let b ← rd c wb
  wr c wd (← convert2 c f a b)
  pure .seq

/-- CVT TOFLT. (DEDUCED, log 29) -/
def execCvtToflt (h : Hdr) (wd wa : Fin 32) (s : State) : Host.Outcome State Fault Refusal :=
  ok (runInstr (.cvtToflt h wd wa) h false (cvtBody h.core wd wa cvtFlt) s)

/-- CVT TOINT. -/
def execCvtToint (h : Hdr) (wd wa : Fin 32) (s : State) : Host.Outcome State Fault Refusal :=
  ok (runInstr (.cvtToint h wd wa) h false (cvtBody h.core wd wa cvtInt) s)

/-- CVT TOQTY. -/
def execCvtToqty (h : Hdr) (wd wa wb : Fin 32) (s : State) : Host.Outcome State Fault Refusal :=
  ok (runInstr (.cvtToqty h wd wa wb) h false (cvtBody2 h.core wd wa wb cvtQty) s)

/-- CVT STRIP. -/
def execCvtStrip (h : Hdr) (wd wa wb : Fin 32) (s : State) : Host.Outcome State Fault Refusal :=
  ok (runInstr (.cvtStrip h wd wa wb) h false (cvtBody2 h.core wd wa wb cvtStrip) s)

/-- CVT TOSPAN. -/
def execCvtTospan (h : Hdr) (wd wa : Fin 32) (s : State) : Host.Outcome State Fault Refusal :=
  ok (runInstr (.cvtTospan h wd wa) h false (cvtBody h.core wd wa cvtSpan) s)

/-- CVT SPANQ. -/
def execCvtSpanq (h : Hdr) (wd wa : Fin 32) (s : State) : Host.Outcome State Fault Refusal :=
  ok (runInstr (.cvtSpanq h wd wa) h false (cvtBody h.core wd wa fun _ => cvtSpanq) s)

/-- CVT TOINST. -/
def execCvtToinst (h : Hdr) (wd wa : Fin 32) (s : State) : Host.Outcome State Fault Refusal :=
  ok (runInstr (.cvtToinst h wd wa) h false (cvtBody h.core wd wa fun _ => cvtInst) s)

end Sys2Proof.Machine
end

