-- ==== Sys2Proof/Machine/Sched.lean ====
section
/-! DEFINITION. Scheduling, clamps, software saves, lathes and links: WAIT, SIGNAL, CLAMP, UNCLAMP, SAVEL to RESTU, LATHE, SEND
and RECV (R87, R94, R130 to R138, R161, R172, R176, R177, R186, R187, R400). -/

namespace Sys2Proof.Machine

open Sys2Proof

/-! ### Blocking -/

/-- What the running code blocked on when it executed its present instruction before, if it has not been taken back to its
start since. (DEDUCED, log 131) -/
def State.blockRec (s : State) (c : Fin 32) : Option Block :=
  let k := s.running c
  if k.blockDepth = s.cores[c].lo.depth then k.block else none

/-- Forget the blocking record of the running context. -/
def forgetBlock (c : Fin 32) : M Unit :=
  modify fun s => s.modSlot c s.cores[c].slot fun k => { k with block := none, timedOut := false, granted := false }

/-- A wait that nothing satisfies: it times out with a cause once its deadline has ended, else the context blocks (R130,
R297). (DEDUCED, log 131) -/
def blockOr (c : Fin 32) (d : Option (BitVec 64)) (x : Cause) (st : SlotState) (b : Block) : M Next := do
  let s ← get
  if ((s.blockRec c).isSome && (s.running c).timedOut) || s.deadlineOver d then
    forgetBlock c
    raiseC x
  else throw (.block st b)

/-! ### WAIT and SIGNAL -/

/-- The lines that a WAIT of the running context may consume: bound, latched, stamped at or before the deadline (R172). -/
def State.waitLines (s : State) (c : Fin 32) (d : Option (BitVec 64)) : List (Fin 256) :=
  ((s.jig.ev.toList.zip (List.finRange 256)).filter fun e =>
    e.1.en && e.1.latched && e.1.core == c && e.1.slot == s.cores[c].slot && atOrBefore e.1.stamp d).map (·.2)

/-- The line that WAIT consumes: the oldest stamp, the lower line number among equal ones. -/
def State.oldestLine (s : State) (c : Fin 32) (d : Option (BitVec 64)) : Option (Fin 256) :=
  minBy (fun n : Fin 256 => s.jig.ev[n].stamp.toNat * 256 + n.val) (s.waitLines c d)

/-- Clear LATCHED of a line. -/
def State.consume (s : State) (n : Fin 256) : State :=
  { s with jig := { s.jig with ev := vmod s.jig.ev n fun e => { e with latched := false } } }

/-- WAIT (R130). -/
def execWait (h : Hdr) (wd wa : Fin 32) (s : State) : Host.Outcome State Fault Refusal :=
  ok (runInstr (.wait h wd wa) h false (do
    let c := h.core
    touch c [wd, wa]
    let a ← rdTag c wa
    chk a
    let d ← match (← get).blockRec c with
      | some (.wait d) => pure d
      | _ => deadline a
    match (← get).oldestLine c d with
    | some n => do
      modify fun s => s.consume n
      wr c wd (Word.fix (BitVec.ofNat 64 n.val))
      pure .seq
    | none => blockOr c d .waitTimeout .waiting (.wait d)) s)

/-- SIGNAL (R131). -/
def execSignal (h : Hdr) (wa : Fin 32) (s : State) : Host.Outcome State Fault Refusal :=
  ok (runInstr (.signal h wa) h false (do
    let c := h.core
    touch c [wa]
    let a ← rdTag c wa
    chk a
    need (a.tag == 0x00 && decide (a.datum.toNat < 256)) .tagMismatch
    let n : Fin 256 := idx 256 a.datum.toNat
    need ((← get).jig.ev[n].swr) .privilege
    modify fun s => s.raise n
    pure .seq) s)

/-! ### Clamps -/

/-- HELD of a clamp word. -/
def clmpHeld (w : Word) : Bool := bit w.datum 15
/-- The owner of a clamp word: core and slot. -/
def clmpOwner (w : Word) : Fin 32 × Fin 64 := ((fld w.datum 6 5).toFin, (fld w.datum 0 6).toFin)
/-- WAITERS of a clamp word. -/
def clmpWaiters (w : Word) : BitVec 16 := fld w.datum 16 16
/-- A clamp word held by a context. -/
def mkClmp (c : Fin 32) (k : Fin 64) (waiters : BitVec 16) : Word :=
  Word.clmp (putN 0 k.val ||| putN 6 c.val ||| fbit 15 true ||| put 16 waiters)
/-- A free clamp word. -/
def freeClmp (waiters : BitVec 16) : Word := Word.clmp (put 16 waiters)

/-- The clamp that a context awaits, by physical address. -/
def State.awaits (s : State) (c : Fin 32) (k : Fin 64) : Option (BitVec 40) :=
  match (s.slot c k).state, (s.slot c k).block with
  | .clamped, some (.clamp pa _ _) => some pa
  | _, _ => none

/-- The chain check of CLAMP from an owner on, with the hops left: whether it reaches a context (R132, R187). -/
def State.clampChain (s : State) (me : Fin 32 × Fin 64) : Nat → Fin 32 × Fin 64 → Bool
  | 0, _ => false
  | n + 1, o =>
    if o = me then true
    else match s.awaits o.1 o.2 with
      | none => false
      | some pa =>
        let w := s.peek pa.toNat
        if w.tag == 0x0D && clmpHeld w then State.clampChain s me n (clmpOwner w) else false

/-- The clamp word that a resolved base and an offset name: its translation, after the fence before the update, and the
word as it stands (R87, R92, R161). (DEDUCED, log 43) -/
def clampWord (c : Fin 32) (base : Word) (off : BitVec 10) : M (Tr × Word) := do
  fenceAll c
  let _ ← xl c .rmw (ptrAddr base + off48 off)
  let b ← resolveWord ((← get).via c 5) base
  let va := ptrAddr b + off48 off
  let t ← xl c .rmw va
  let (va', w) ← rb c t va false
  let t ← if va' = va then pure t else xl c .rmw va'
  raiseIf (lchkWord w)
  raiseIf (chkWord w)
  need (w.tag == 0x0D && !(malformed w)) .tagMismatch
  pure (t, w)

/-- The base register takes the word that CLAMP and UNCLAMP resolved (R154, R161). -/
def keepBase (c : Fin 32) (r : Fin 32) (base : Word) : M Unit := do
  let v ← resolveWord ((← get).via c 5) base
  if v ≠ base then wr c r v

/-- Whether a clamp has been granted to the running code: by the hand-over to the CLAMP that it executes again, or, before a
handler of it blocked, to that CLAMP (R132, R186). -/
def State.grantedTo (s : State) (c : Fin 32) (pa : BitVec 40) : Bool :=
  let k := s.running c
  (match s.blockRec c with
    | some (.clamp p _ _) => k.granted && p == pa
    | _ => false) || decide ((s.cores[c].lo.depth, pa) ∈ k.grants)

/-- A grant that the running code has taken is over. -/
def endGrant (c : Fin 32) (pa : BitVec 40) : M Unit :=
  modify fun s => s.modSlot c s.cores[c].slot fun k => { k with grants := k.grants.filter fun g => g.2 != pa }

/-- CLAMP (R132). A clamp granted while the context waited is taken; a wait that has timed out raises CLAMP_TIMEOUT; else the
clamp is taken where it is free. (DEDUCED, log 42; DEDUCED, log 45) -/
def execClamp (h : Hdr) (wd wa : Fin 32) (off : BitVec 10) (s : State) : Host.Outcome State Fault Refusal :=
  ok (runInstr (.clamp h wd wa off) h false (do
    let c := h.core
    touch c [wd, wa]
    let a ← rdTag c wa
    let dw ← rdTag c wd
    chk a
    chk dw
    need (goodPtr a) .tagMismatch
    let d ← match (← get).blockRec c with
      | some (.clamp _ d _) => pure d
      | _ => deadline dw
    let (t, w) ← clampWord c a off
    keepBase c wa a
    let me : Fin 32 × Fin 64 := (c, (← core c).slot)
    let s ← get
    let world := s.world c
    if s.grantedTo c t.pa && clmpHeld w && clmpOwner w == me then
      endGrant c t.pa
      wr c wd Word.true
      pure .seq
    else if (s.blockRec c).isSome && (s.running c).timedOut then blockOr c d .clampTimeout .clamped (.clamp t.pa d s.now)
    else if !(clmpHeld w) then
      atomicMem c world t (mkClmp c me.2 (clmpWaiters w)) none
      wr c wd Word.true
      pure .seq
    else
      need (!(s.clampChain me 8 (clmpOwner w))) .clampDeadlock
      if !(s.deadlineOver d) then
        atomicMem c world t { w with datum := setFld w.datum 16 (satInc (clmpWaiters w)) } none
      blockOr c d .clampTimeout .clamped (.clamp t.pa d s.now)) s)

/-- The contexts blocked on a clamp whose deadline has not ended. -/
def State.waitersOf (s : State) (pa : BitVec 40) : List (Fin 32 × Fin 64) :=
  (List.finRange 32).flatMap fun c => ((List.finRange 64).filter fun k =>
    match (s.slot c k).state, (s.slot c k).block with
    | .clamped, some (.clamp p d _) => p == pa && !(s.deadlineOver d)
    | _, _ => false).map fun k => (c, k)

/-- The place of a waiter in the order of R186: rank, then blocking stamp, then core and slot; the least goes first. -/
def State.waiterKey (s : State) (x : Fin 32 × Fin 64) : Nat :=
  let k := s.slot x.1 x.2
  let stamp := match k.block with
    | some (.clamp _ _ t) => t.toNat
    | _ => 0
  ((31 - k.rank) * 2 ^ 64 + stamp) * 2048 + x.1.val * 64 + x.2.val

/-- CLAMP_HANDOVER (R186): the waiter that ranks highest takes the clamp and becomes READY; without one it is free. (DEDUCED, log 44) -/
def handOver (c : Fin 32) (t : Tr) (w : Word) : M Unit := do
  let s ← get
  let n := clmpWaiters w
  match if n = 0 then none else minBy s.waiterKey (s.waitersOf t.pa) with
  | none => atomicMem c (s.world c) t (freeClmp n) none
  | some x => do
    atomicMem c (s.world c) t (mkClmp x.1 x.2 (n - 1)) none
    modify fun s => (s.modSlot x.1 x.2 fun k => { k with granted := true }).makeReady x.1 x.2

/-- UNCLAMP (R133). (DEDUCED, log 42; DEDUCED, log 44) -/
def execUnclamp (h : Hdr) (wa : Fin 32) (off : BitVec 10) (s : State) : Host.Outcome State Fault Refusal :=
  ok (runInstr (.unclamp h wa off) h false (do
    let c := h.core
    touch c [wa]
    let a ← rdTag c wa
    chk a
    need (goodPtr a) .tagMismatch
    let (t, w) ← clampWord c a off
    keepBase c wa a
    need (clmpHeld w && clmpOwner w == (c, (← core c).slot)) .tagMismatch
    endGrant c t.pa
    handOver c t w
    pure .seq) s)

/-! ### Software saves (R134, R176, R177) -/

/-- A word of a record as memory holds it, through the read barrier; a reserved tag raises TAG_RESERVED (R11). -/
def recordLoad (c : Fin 32) (va : BitVec 48) : M Word := do
  let t ← xl c .read va
  let (_, w) ← rb c t va false
  need (!(clsOf w.tag == .reserved)) .tagReserved
  pure w

/-- Words of a record from an address upward. -/
def recordWords (c : Fin 32) : Nat → BitVec 48 → M (List Word)
  | 0, _ => pure []
  | n + 1, va => do
    let w ← recordLoad c va
    let ws ← recordWords c n (va + 1)
    pure (w :: ws)

/-- The list links of a context are drawers or NIL. (DEDUCED, log 46) -/
def drawerLink (w : Word) : M (Option (BitVec 48)) := do
  if w = Word.nil then pure none
  else
    need (w.tag == 0x4B && goodPtr w) .tagMismatch
    pure (some (ptrAddr w))

/-- SAVEL, SAVEU, RESTL and RESTU are legal while CTXCFG.SAVE = 0 (R134). (DEDUCED, log 46) -/
def needDrawers (c : Fin 32) : M Unit := do
  need (!(bit ((← get).worlds[(← get).world c].ctxcfg) 0)) .illegalInstr

/-- Store words from an address upward through the write barrier. -/
def storeWords (c : Fin 32) : BitVec 48 → List Word → M Unit
  | _, [] => pure ()
  | va, w :: ws => do
    storeAt c va w
    storeWords c (va + 1) ws

/-- Resolve the flip-marked registers of a half before it is saved: the lower half, or the upper one (R154). -/
def resolveHalf (c : Fin 32) (half : Nat) : M Unit := do
  ((List.finRange 32).filter fun r => decide (16 ≤ r.val) == (half == 1)).forM fun r => do
    let _ ← rd c r
  if half = 1 then [8, 9, 10, 11].forM fun sr => do
    let _ ← resWord c sr

/-- SAVEL and SAVEU: a record goes into a drawer from the free list, or a new one, which becomes the top (R177). A PENDING word
among the registers saved is PENDING_USE (R24). Every translation is made before anything is written. (DEDUCED, log 145) -/
def saveRecord (c : Fin 32) (half : Nat) (record : State → List Word) : M Unit := do
  need (!((record (← get)).any fun w => w.tag == 0xFD)) .pendingUse
  resolveHalf c half
  let ctx := ((← get).running c).handle
  let _ ← xl c .write (ctx + 2)
  let _ ← xl c .write (ctx + 3)
  let free ← drawerLink (← recordLoad c (ctx + 3))
  let top ← recordLoad c (ctx + 2)
  let (d, next) ← match free with
    | some d => do
      let next ← recordLoad c (d + 1)
      pure (d, some next)
    | none => do
      let d ← allocSafe c 0x0C (List.replicate 40 Word.nil)
      pure (d, none)
  let _ ← xl c .write (d + 1)
  let _ ← xl c .write (d + 40)
  if half = 1 then touchUpper c
  let ws := record (← get)
  storeWords c (d + 1) (top :: Word.raw (BitVec.ofNat 64 half) :: (ws ++ List.replicate 38 Word.nil).take 38)
  match next with
  | some n => storeAt c (ctx + 3) n
  | none => pure ()
  storeAt c (ctx + 2) (ptrTo 0x4B d)

/-- The lower-half record that SAVEL writes: the PC is that of the next instruction, HOLDREM what is left of an open window
(Table 07-2). -/
def State.savelRecord (s : State) (c : Fin 32) : List Word :=
  s.lowerRecord c (s.cores[c].lo.pc + 1) (if s.holdOpen c then BitVec.ofNat 64 s.cores[c].holdCount else 0)

/-- SAVEL. -/
def execSavel (h : Hdr) (s : State) : Host.Outcome State Fault Refusal :=
  ok (runInstr (.savel h) h true (do
    needDrawers h.core
    saveRecord h.core 0 fun s => s.savelRecord h.core
    pure .seq) s)

/-- SAVEU: it waits for a MUL or DIV in flight (R62); the lazy transfer comes before the drawer is taken (R181). (DEDUCED, log
145) -/
def execSaveu (h : Hdr) (s : State) : Host.Outcome State Fault Refusal :=
  ok (runInstr (.saveu h) h true (do
    needDrawers h.core
    touchUpper h.core
    modify fun s => s.modCore h.core fun x => x.mulDone.divDone
    saveRecord h.core 1 fun s => s.cores[h.core].upperWords
    pure .seq) s)

/-- RESTL and RESTU: the record of the top drawer, which goes to the free list (R177). (DEDUCED, log 47) -/
def restRecord (c : Fin 32) (half n : Nat) : M (List Word) := do
  let ctx := ((← get).running c).handle
  let _ ← xl c .write (ctx + 2)
  let _ ← xl c .write (ctx + 3)
  let top ← recordLoad c (ctx + 2)
  match ← drawerLink top with
  | none => raiseC .stackFormat
  | some d => do
    let f ← recordLoad c (d + 2)
    let _ ← xl c .read (d + 40)
    need (f.tag == 0x07 && fld f.datum 0 2 == BitVec.ofNat 2 half) .stackFormat
    let ws ← recordWords c n (d + 3)
    let next ← recordLoad c (d + 1)
    let _ ← xl c .write (d + 1)
    let free ← recordLoad c (ctx + 3)
    storeAt c (ctx + 2) next
    storeAt c (d + 1) free
    storeAt c (ctx + 3) top
    pure ws

/-- The core with a lower-half record restored: all 36 words (R177). -/
def Core.restLower (x : Core) (ws : List Word) : Core :=
  let hold := (ws.getD 34 Word.zero).datum
  let lo := lowerOf ws
  let lo := { lo with stat := setBit lo.stat 15 (hold != 0), pred := x.lo.pred }
  ({ x with lo := lo, holdCount := hold.toNat } : Core).setPreds (fld (ws.getD 16 Word.zero).datum 0 16)

/-- RESTL: execution goes on at the restored PC, with no loop-end decision. (DEDUCED, log 146) -/
def execRestl (h : Hdr) (s : State) : Host.Outcome State Fault Refusal :=
  ok (runInstr (.restl h) h true (do
    needDrawers h.core
    let ws ← restRecord h.core 0 36
    modify fun s => s.modCore h.core fun x => x.restLower ws
    pure (.go (← core h.core).lo.pc)) s)

/-- RESTU: the running code owns the upper half. -/
def execRestu (h : Hdr) (s : State) : Host.Outcome State Fault Refusal :=
  ok (runInstr (.restu h) h true (do
    needDrawers h.core
    touchUpper h.core
    let ws ← restRecord h.core 1 20
    modify fun s => s.modCore h.core fun x => { x with hi := upperOf ws, mulFly := none, divFly := none }
    pure .seq) s)

/-! ### LATHE, SEND and RECV -/

/-- LATHE (R136). -/
def execLathe (h : Hdr) (wd wa wb : Fin 32) (s : State) : Host.Outcome State Fault Refusal :=
  ok (runInstr (.lathe h wd wa wb) h false (do
    let c := h.core
    touch c [wd, wa, wb]
    touchLathe c
    let b ← rdTag c wb
    latheCheck (← rdTag c wa) b
    let named ← namedLathe b
    let a ← rdBase c .read wa 0
    wr c wd (← latheIssue c a named)
    pure .seq) s)

/-- Whether a word is a destination of SEND in a world (Table 17-3). (DESIGN CHOICE, log 48) -/
def sendDest (w : Fin 2) (a : Word) : Bool :=
  a.tag == 0x00 && decide (a.datum.toNat < 2 ^ 18) && fld a.datum 12 2 == BitVec.ofNat 2 w.val

/-- Whether a word may be sent (Table 02-13). -/
def sendable (w : Word) : Bool := isImmTag w.tag && w.tag != 0x0E

/-- SEND (R137, R399): performed when every earlier store and spill is visible (R87); where the port's queue is full it is
taken back to its start (R94). (DESIGN CHOICE, log 48) -/
def execSend (h : Hdr) (wa wb : Fin 32) (s : State) : Host.Outcome State Fault Refusal :=
  ok (runInstr (.send h wa wb) h false (do
    let c := h.core
    touch c [wa, wb]
    let a ← rdTag c wa
    let b ← rdTag c wb
    chk a
    chk b
    let w := (← get).world c
    need (sendDest w a && sendable b) .tagMismatch
    fenceAll c
    if (← core c).waits then stall
    modify fun s => s.kmOriginate (fld a.datum 0 12) (.message w (fld a.datum 14 4).toFin b)
    pure .seq) s)

/-- The entries that a RECV of the running context may take: queue, place in it and stamp. -/
def State.recvEntries (s : State) (c : Fin 32) (d : Option (BitVec 64)) : List (Fin 16 × Nat × BitVec 64 × Word) :=
  (List.finRange 16).flatMap fun q =>
    let r := s.worlds[s.world c].rq[q]
    if r.core == c && r.slot == s.cores[c].slot then
      (r.entries.zipIdx.filter fun e => atOrBefore e.1.1 d).map fun e => (q, e.2, e.1.1, e.1.2)
    else []

/-- The entry that RECV takes: the oldest stamp, the lower queue among equal ones, the earlier arrival within a queue. -/
def State.oldestEntry (s : State) (c : Fin 32) (d : Option (BitVec 64)) : Option (Fin 16 × Nat × BitVec 64 × Word) :=
  minBy (fun e : Fin 16 × Nat × BitVec 64 × Word => (e.2.2.1.toNat * 16 + e.1.val) * 64 + e.2.1) (s.recvEntries c d)

/-- RECV (R138, R400). -/
def execRecv (h : Hdr) (wd wa : Fin 32) (s : State) : Host.Outcome State Fault Refusal :=
  ok (runInstr (.recv h wd wa) h false (do
    let c := h.core
    touch c [wd, wa]
    let a ← rdTag c wa
    chk a
    let d ← match (← get).blockRec c with
      | some (.recv d) => pure d
      | _ => deadline a
    match (← get).oldestEntry c d with
    | some e => do
      modify fun s => s.modRq (s.world c) e.1 fun r => { r with entries := r.entries.eraseIdx e.2.1 }
      wr c wd e.2.2.2
      pure .seq
    | none => blockOr c d .waitTimeout .receiving (.recv d)) s)

end Sys2Proof.Machine
end

