-- ==== Sys2Proof/Machine/Dispatch.lean ====
section
/-! DEFINITION. Dispatch: one arm per command, each one direct call of the command's meaning. -/

namespace Sys2Proof.Machine

open Sys2Proof

def exec (i : Instr) (s : State) : Host.Outcome State Fault Refusal :=
  match i with
  | .nop h => Sys2Proof.Machine.execNop h s
  | .b h off => Sys2Proof.Machine.execB h off s
  | .call h off => Sys2Proof.Machine.execCall h off s
  | .calli h wa => Sys2Proof.Machine.execCalli h wa s
  | .ret h => Sys2Proof.Machine.execRet h s
  | .loop h wc stop => Sys2Proof.Machine.execLoop h wc stop s
  | .lit h wd => Sys2Proof.Machine.execLit h wd s
  | .trap h imm => Sys2Proof.Machine.execTrap h imm s
  | .brk h imm => Sys2Proof.Machine.execBrk h imm s
  | .eret h => Sys2Proof.Machine.execEret h s
  | .hold h imm => Sys2Proof.Machine.execHold h imm s
  | .fence h => Sys2Proof.Machine.execFence h s
  | .fenceI h => Sys2Proof.Machine.execFenceI h s
  | .tlbiVa h wa => Sys2Proof.Machine.execTlbiVa h wa s
  | .tlbiWorld h => Sys2Proof.Machine.execTlbiWorld h s
  | .tlbiWorldg h => Sys2Proof.Machine.execTlbiWorldg h s
  | .mov h wd wa => Sys2Proof.Machine.execMov h wd wa s
  | .movi h wd imm => Sys2Proof.Machine.execMovi h wd imm s
  | .typeof h wd wa => Sys2Proof.Machine.execTypeof h wd wa s
  | .tagset h wd wa wb => Sys2Proof.Machine.execTagset h wd wa wb s
  | .mfs h w wt sr => Sys2Proof.Machine.execMfs h w wt sr s
  | .mts h w wt sr => Sys2Proof.Machine.execMts h w wt sr s
  | .now h wd => Sys2Proof.Machine.execNow h wd s
  | .cvtToflt h wd wa => Sys2Proof.Machine.execCvtToflt h wd wa s
  | .cvtToint h wd wa => Sys2Proof.Machine.execCvtToint h wd wa s
  | .cvtToqty h wd wa wb => Sys2Proof.Machine.execCvtToqty h wd wa wb s
  | .cvtStrip h wd wa wb => Sys2Proof.Machine.execCvtStrip h wd wa wb s
  | .cvtTospan h wd wa => Sys2Proof.Machine.execCvtTospan h wd wa s
  | .cvtSpanq h wd wa => Sys2Proof.Machine.execCvtSpanq h wd wa s
  | .cvtToinst h wd wa => Sys2Proof.Machine.execCvtToinst h wd wa s
  | .add h wd wa wb => Sys2Proof.Machine.execAdd h wd wa wb s
  | .sub h wd wa wb => Sys2Proof.Machine.execSub h wd wa wb s
  | .mul h wa wb => Sys2Proof.Machine.execMul h wa wb s
  | .div h wa wb => Sys2Proof.Machine.execDiv h wa wb s
  | .neg h wd wa => Sys2Proof.Machine.execNeg h wd wa s
  | .logadd h wd wa wb => Sys2Proof.Machine.execLogadd h wd wa wb s
  | .addi h wd imm => Sys2Proof.Machine.execAddi h wd imm s
  | .and h wd wa wb => Sys2Proof.Machine.execAnd h wd wa wb s
  | .or h wd wa wb => Sys2Proof.Machine.execOr h wd wa wb s
  | .xor h wd wa wb => Sys2Proof.Machine.execXor h wd wa wb s
  | .andn h wd wa wb => Sys2Proof.Machine.execAndn h wd wa wb s
  | .shl h wd wa wb => Sys2Proof.Machine.execShl h wd wa wb s
  | .shr h wd wa wb => Sys2Proof.Machine.execShr h wd wa wb s
  | .sar h wd wa wb => Sys2Proof.Machine.execSar h wd wa wb s
  | .not h wd wa => Sys2Proof.Machine.execNot h wd wa s
  | .cmpeq h aw pd wa wb => Sys2Proof.Machine.execCmpeq h aw pd wa wb s
  | .cmpne h aw pd wa wb => Sys2Proof.Machine.execCmpne h aw pd wa wb s
  | .cmplt h aw pd wa wb => Sys2Proof.Machine.execCmplt h aw pd wa wb s
  | .cmple h aw pd wa wb => Sys2Proof.Machine.execCmple h aw pd wa wb s
  | .cmpgt h aw pd wa wb => Sys2Proof.Machine.execCmpgt h aw pd wa wb s
  | .cmpge h aw pd wa wb => Sys2Proof.Machine.execCmpge h aw pd wa wb s
  | .tageq h aw pd wa wb => Sys2Proof.Machine.execTageq h aw pd wa wb s
  | .pand h pd na pa nb pb => Sys2Proof.Machine.execPand h pd na pa nb pb s
  | .por h pd na pa nb pb => Sys2Proof.Machine.execPor h pd na pa nb pb s
  | .pxor h pd na pa nb pb => Sys2Proof.Machine.execPxor h pd na pa nb pb s
  | .pmov h pd na pa => Sys2Proof.Machine.execPmov h pd na pa s
  | .ldw h wd wa off => Sys2Proof.Machine.execLdw h wd wa off s
  | .ldws h wd wa off => Sys2Proof.Machine.execLdws h wd wa off s
  | .stw h ws wa off => Sys2Proof.Machine.execStw h ws wa off s
  | .ldx h wd wa off => Sys2Proof.Machine.execLdx h wd wa off s
  | .stx h ws wa off => Sys2Proof.Machine.execStx h ws wa off s
  | .ldf h wd wa wb => Sys2Proof.Machine.execLdf h wd wa wb s
  | .stf h ws wa wb => Sys2Proof.Machine.execStf h ws wa wb s
  | .ldb h wd wa wb => Sys2Proof.Machine.execLdb h wd wa wb s
  | .stb h ws wa wb => Sys2Proof.Machine.execStb h ws wa wb s
  | .lds h wd imm => Sys2Proof.Machine.execLds h wd imm s
  | .sts h ws imm => Sys2Proof.Machine.execSts h ws imm s
  | .spadj h imm => Sys2Proof.Machine.execSpadj h imm s
  | .alloc h wd wa wb => Sys2Proof.Machine.execAlloc h wd wa wb s
  | .wait h wd wa => Sys2Proof.Machine.execWait h wd wa s
  | .signal h wa => Sys2Proof.Machine.execSignal h wa s
  | .clamp h wd wa off => Sys2Proof.Machine.execClamp h wd wa off s
  | .unclamp h wa off => Sys2Proof.Machine.execUnclamp h wa off s
  | .savel h => Sys2Proof.Machine.execSavel h s
  | .saveu h => Sys2Proof.Machine.execSaveu h s
  | .restl h => Sys2Proof.Machine.execRestl h s
  | .restu h => Sys2Proof.Machine.execRestu h s
  | .stm h wa wb steps => Sys2Proof.Machine.execStm h wa wb steps s
  | .ldm h wa wb steps => Sys2Proof.Machine.execLdm h wa wb steps s
  | .lathe h wd wa wb => Sys2Proof.Machine.execLathe h wd wa wb s
  | .send h wa wb => Sys2Proof.Machine.execSend h wa wb s
  | .recv h wd wa => Sys2Proof.Machine.execRecv h wd wa s
  | .mulComplete c => Sys2Proof.Machine.execMulComplete c s
  | .divComplete c => Sys2Proof.Machine.execDivComplete c s
  | .stackSpill c => Sys2Proof.Machine.execStackSpill c s
  | .storeBufferDrain c => Sys2Proof.Machine.execStoreBufferDrain c s
  | .cardQueueDrain k => Sys2Proof.Machine.execCardQueueDrain k s
  | .interruptEntry c => Sys2Proof.Machine.execInterruptEntry c s
  | .fastInterruptEntry c => Sys2Proof.Machine.execFastInterruptEntry c s
  | .guardAbortEntry c => Sys2Proof.Machine.execGuardAbortEntry c s
  | .jigSwitch c => Sys2Proof.Machine.execJigSwitch c s
  | .holdExpiry c => Sys2Proof.Machine.execHoldExpiry c s
  | .waitDeadline c slot => Sys2Proof.Machine.execWaitDeadline c slot s
  | .clampDeadline c slot => Sys2Proof.Machine.execClampDeadline c slot s
  | .recvDeadline c slot => Sys2Proof.Machine.execRecvDeadline c slot s
  | .slotLoad a c slot v => Sys2Proof.Machine.execSlotLoad a c slot v s
  | .slotPark a c slot v => Sys2Proof.Machine.execSlotPark a c slot v s
  | .slotReady a c slot v => Sys2Proof.Machine.execSlotReady a c slot v s
  | .slotUnload a c slot v => Sys2Proof.Machine.execSlotUnload a c slot v s
  | .evBindWrite a line v => Sys2Proof.Machine.execEvBindWrite a line v s
  | .jigWatchdogExpiry c => Sys2Proof.Machine.execJigWatchdogExpiry c s
  | .edctlRelease a c v => Sys2Proof.Machine.execEdctlRelease a c v s
  | .cchStart a w v => Sys2Proof.Machine.execCchStart a w v s
  | .cchSync a w v => Sys2Proof.Machine.execCchSync a w v s
  | .boardMapReload c w => Sys2Proof.Machine.execBoardMapReload c w s
  | .cchGive a w v => Sys2Proof.Machine.execCchGive a w v s
  | .planerFlip w => Sys2Proof.Machine.execPlanerFlip w s
  | .planerCopy w => Sys2Proof.Machine.execPlanerCopy w s
  | .planerDrain w => Sys2Proof.Machine.execPlanerDrain w s
  | .planerSweep w => Sys2Proof.Machine.execPlanerSweep w s
  | .planerRelease w => Sys2Proof.Machine.execPlanerRelease w s
  | .coreFlip c w => Sys2Proof.Machine.execCoreFlip c w s
  | .twRetry a w v => Sys2Proof.Machine.execTwRetry a w v s
  | .l2FillComplete k sector pos e => Sys2Proof.Machine.execL2FillComplete k sector pos e s
  | .writebackAck k sector => Sys2Proof.Machine.execWritebackAck k sector s
  | .cleanDelayExpiry k sector => Sys2Proof.Machine.execCleanDelayExpiry k sector s
  | .ageSweep k => Sys2Proof.Machine.execAgeSweep k s
  | .patrolScrub p e => Sys2Proof.Machine.execPatrolScrub p e s
  | .arbiterGrant p => Sys2Proof.Machine.execArbiterGrant p s
  | .portwdBite p => Sys2Proof.Machine.execPortwdBite p s
  | .safeFailsafe a v => Sys2Proof.Machine.execSafeFailsafe a v s
  | .safeFsClear a v => Sys2Proof.Machine.execSafeFsClear a v s
  | .gsvcMissClear a v => Sys2Proof.Machine.execGsvcMissClear a v s
  | .veneerCoreCommit c => Sys2Proof.Machine.execVeneerCoreCommit c s
  | .seamLimitExpiry c => Sys2Proof.Machine.execSeamLimitExpiry c s
  | .imtMeasurement offset => Sys2Proof.Machine.execImtMeasurement offset s
  | .imtSourceLoss ppm => Sys2Proof.Machine.execImtSourceLoss s ppm
  | .beaconSend  => Sys2Proof.Machine.execBeaconSend  s
  | .beaconReceive p bc => Sys2Proof.Machine.execBeaconReceive p bc s
  | .kamionDelayExchange p toward back => Sys2Proof.Machine.execKamionDelayExchange p toward back s
  | .backupMasterTakeover  => Sys2Proof.Machine.execBackupMasterTakeover  s
  | .ppsOutPulse  => Sys2Proof.Machine.execPpsOutPulse  s
  | .cutListActivation n => Sys2Proof.Machine.execCutListActivation n s
  | .cutNop src ecc => Sys2Proof.Machine.execCutNop src ecc s
  | .laneStart src => Sys2Proof.Machine.execLaneStart src s
  | .laneStop src => Sys2Proof.Machine.execLaneStop src s
  | .driveCommit src => Sys2Proof.Machine.execDriveCommit src s
  | .driveMute src => Sys2Proof.Machine.execDriveMute src s
  | .cutEvent src => Sys2Proof.Machine.execCutEvent src s
  | .cutHinge src => Sys2Proof.Machine.execCutHinge src s
  | .hingePulseEnd pin => Sys2Proof.Machine.execHingePulseEnd pin s
  | .gaugeSnap src => Sys2Proof.Machine.execGaugeSnap src s
  | .commitTables src => Sys2Proof.Machine.execCommitTables src s
  | .veneerCommit src => Sys2Proof.Machine.execVeneerCommit src s
  | .ktrig n ecc => Sys2Proof.Machine.execKtrig n ecc s
  | .triggerArrival origin w action target => Sys2Proof.Machine.execTriggerArrival origin w action target s
  | .clCommit a n v => Sys2Proof.Machine.execClCommit a n v s
  | .clCancel a n v => Sys2Proof.Machine.execClCancel a n v s
  | .tdmFrame n bits codes => Sys2Proof.Machine.execTdmFrame n bits codes s
  | .spiConversion n codes => Sys2Proof.Machine.execSpiConversion n codes s
  | .lsl2Frame n ovld cnt codes side crcOk => Sys2Proof.Machine.execLsl2Frame n ovld cnt codes side crcOk s
  | .slCommit a v => Sys2Proof.Machine.execSlCommit a v s
  | .slStart a v => Sys2Proof.Machine.execSlStart a v s
  | .slStop a v => Sys2Proof.Machine.execSlStop a v s
  | .slConfigApply n => Sys2Proof.Machine.execSlConfigApply n s
  | .dlShadowWrite a n v => Sys2Proof.Machine.execDlShadowWrite a n v s
  | .dlShadowCheckDone n ecc => Sys2Proof.Machine.execDlShadowCheckDone n s ecc
  | .driveSampleOutput n ecc => Sys2Proof.Machine.execDriveSampleOutput n s ecc
  | .driveUnderrun n => Sys2Proof.Machine.execDriveUnderrun n s
  | .driveRampComplete n => Sys2Proof.Machine.execDriveRampComplete n s
  | .dlSoftstop a n v => Sys2Proof.Machine.execDlSoftstop a n v s
  | .dlResume a n v => Sys2Proof.Machine.execDlResume a n v s
  | .dlCommit a v => Sys2Proof.Machine.execDlCommit a v s
  | .dlConfigApply n => Sys2Proof.Machine.execDlConfigApply n s
  | .abortInAssert pinB => Sys2Proof.Machine.execAbortInAssert pinB s
  | .abortInRelease pinB => Sys2Proof.Machine.execAbortInRelease pinB s
  | .latheVop n ecc => Sys2Proof.Machine.execLatheVop n s ecc
  | .latheFft n ecc => Sys2Proof.Machine.execLatheFft n s ecc
  | .latheIfft n ecc => Sys2Proof.Machine.execLatheIfft n s ecc
  | .latheWspec n ecc => Sys2Proof.Machine.execLatheWspec n s ecc
  | .latheFir n ecc => Sys2Proof.Machine.execLatheFir n s ecc
  | .latheBiquad n ecc => Sys2Proof.Machine.execLatheBiquad n s ecc
  | .latheResample n ecc => Sys2Proof.Machine.execLatheResample n s ecc
  | .latheTrack n ecc => Sys2Proof.Machine.execLatheTrack n s ecc
  | .lathePvx n count ecc => Sys2Proof.Machine.execLathePvx n count s ecc
  | .latheJobEnd n parity => Sys2Proof.Machine.execLatheJobEnd n parity s
  | .latheSrcwaitTimeout n => Sys2Proof.Machine.execLatheSrcwaitTimeout n s
  | .mqBlockCode n choice ecc => Sys2Proof.Machine.execMqBlockCode n choice s ecc
  | .mqRetentionTrigger k stamp => Sys2Proof.Machine.execMqRetentionTrigger k stamp s
  | .mqRetentionClose k => Sys2Proof.Machine.execMqRetentionClose k s
  | .gaugeTick n => Sys2Proof.Machine.execGaugeTick n s
  | .gtCntWrite a n v => Sys2Proof.Machine.execGtCntWrite a n v s
  | .gtCmpWrite a n v => Sys2Proof.Machine.execGtCmpWrite a n v s
  | .gtEnable a n v => Sys2Proof.Machine.execGtEnable a n v s
  | .gtPreWrite a n v => Sys2Proof.Machine.execGtPreWrite a n v s
  | .gtCfgWrite a n v => Sys2Proof.Machine.execGtCfgWrite a n v s
  | .gaugeCapture n rising => Sys2Proof.Machine.execGaugeCapture n rising s
  | .gtCapPop a n => Sys2Proof.Machine.execGtCapPop a n s
  | .gtpCapPop a k => Sys2Proof.Machine.execGtpCapPop a k s
  | .fvDoorbell v => Sys2Proof.Machine.execFvDoorbell v s
  | .hello  => Sys2Proof.Machine.execHello  s
  | .caps  => Sys2Proof.Machine.execCaps  s
  | .health tjMax tjMin => Sys2Proof.Machine.execHealth tjMax tjMin s
  | .eventSub  => Sys2Proof.Machine.execEventSub  s
  | .crashRead  => Sys2Proof.Machine.execCrashRead  s
  | .worldPartition buf => Sys2Proof.Machine.execWorldPartition buf s
  | .imageLoad buf => Sys2Proof.Machine.execImageLoad buf s
  | .imageVerify  => Sys2Proof.Machine.execImageVerify  s
  | .worldStart  => Sys2Proof.Machine.execWorldStart  s
  | .worldStop  => Sys2Proof.Machine.execWorldStop  s
  | .laneSet buf => Sys2Proof.Machine.execLaneSet buf s
  | .driveSet buf => Sys2Proof.Machine.execDriveSet buf s
  | .cutLoad buf => Sys2Proof.Machine.execCutLoad buf s
  | .cutCommit  => Sys2Proof.Machine.execCutCommit  s
  | .timeSource  => Sys2Proof.Machine.execTimeSource  s
  | .timeStatus  => Sys2Proof.Machine.execTimeStatus  s
  | .kamionMap buf => Sys2Proof.Machine.execKamionMap buf s
  | .logOpen  => Sys2Proof.Machine.execLogOpen  s
  | .logClose  => Sys2Proof.Machine.execLogClose  s
  | .veneerStage buf => Sys2Proof.Machine.execVeneerStage buf s
  | .veneerApply  => Sys2Proof.Machine.execVeneerApply  s
  | .fwStage buf => Sys2Proof.Machine.execFwStage buf s
  | .fwSwap  => Sys2Proof.Machine.execFwSwap  s
  | .checkpoint  => Sys2Proof.Machine.execCheckpoint  s
  | .worldMsg  => Sys2Proof.Machine.execWorldMsg  s
  | .busyCompletion n => Sys2Proof.Machine.execBusyCompletion n s
  | .fvLogackWrite v => Sys2Proof.Machine.execFvLogackWrite v s
  | .logPush ecc => Sys2Proof.Machine.execLogPush s ecc
  | .logDatagramSend ecc => Sys2Proof.Machine.execLogDatagramSend s ecc
  | .logAckReceive m => Sys2Proof.Machine.execLogAckReceive m s
  | .logNakReceive m => Sys2Proof.Machine.execLogNakReceive m s
  | .logAckTimeout  => Sys2Proof.Machine.execLogAckTimeout  s
  | .logKeepalive  => Sys2Proof.Machine.execLogKeepalive  s
  | .mbxGo a w v => Sys2Proof.Machine.execMbxGo a w v s
  | .mbxReply w => Sys2Proof.Machine.execMbxReply w s
  | .mbxDeadlineTimeout w => Sys2Proof.Machine.execMbxDeadlineTimeout w s
  | .mbxPop a w v => Sys2Proof.Machine.execMbxPop a w v s
  | .favarWatchdogExpiry  => Sys2Proof.Machine.execFavarWatchdogExpiry  s
  | .deviceWatchdogExpiry  => Sys2Proof.Machine.execDeviceWatchdogExpiry  s
  | .fwSwapFallback  => Sys2Proof.Machine.execFwSwapFallback  s
  | .fwSlotFallback  => Sys2Proof.Machine.execFwSlotFallback  s
  | .kamionTrain p f => Sys2Proof.Machine.execKamionTrain p f s
  | .kamionLinkDown p => Sys2Proof.Machine.execKamionLinkDown p s
  | .kamionPacketRoute p pkt crc => Sys2Proof.Machine.execKamionPacketRoute p pkt crc s
  | .linkStateNotice p dev port up => Sys2Proof.Machine.execLinkStateNotice p dev port up s
  | .abortVoteReceive p origin seq => Sys2Proof.Machine.execAbortVoteReceive p origin seq s
  | .kmAbortSend a v => Sys2Proof.Machine.execKmAbortSend a v s
  | .routingTableApply  => Sys2Proof.Machine.execRoutingTableApply  s
  | .messageArrival origin w q word => Sys2Proof.Machine.execMessageArrival origin w q word s
  | .kmDmaGo a w v => Sys2Proof.Machine.execKmDmaGo a w v s
  | .kmDmaJob w ecc => Sys2Proof.Machine.execKmDmaJob w s ecc
  | .kmDmaJobEnd w refused => Sys2Proof.Machine.execKmDmaJobEnd w refused s
  | .kmDmaLostTimeout w => Sys2Proof.Machine.execKmDmaLostTimeout w s
  | .bulkLanding w ring ws => Sys2Proof.Machine.execBulkLanding w ring ws s
  | .kmLandingEnable a w k v => Sys2Proof.Machine.execKmLandingEnable a w k v s
  | .pwrSleep a d v => Sys2Proof.Machine.execPwrSleep a d v s
  | .pwrWake a d v => Sys2Proof.Machine.execPwrWake a d v s
  | .domainRampDone d => Sys2Proof.Machine.execDomainRampDone d s
  | .porNRelease env => Sys2Proof.Machine.execPorNRelease env s
  | .warmNAssert  => Sys2Proof.Machine.execWarmNAssert  s
  | .warmRestart  => Sys2Proof.Machine.execWarmRestart  s
  | .perstNAssert  => Sys2Proof.Machine.execPerstNAssert  s
  | .brownout  => Sys2Proof.Machine.execBrownout  s
  | .thermalWarn temp => Sys2Proof.Machine.execThermalWarn temp s
  | .debugHalt c => Sys2Proof.Machine.execDebugHalt c s
  | .hingeSlotBoundary pin => Sys2Proof.Machine.execHingeSlotBoundary pin s
  | .hingeInputEdge pin level => Sys2Proof.Machine.execHingeInputEdge pin level s
  | .hngCommit a bank v => Sys2Proof.Machine.execHngCommit a bank v s
  | .hngCommitApply bank => Sys2Proof.Machine.execHngCommitApply bank s
  | .uartTxWrite a bank v => Sys2Proof.Machine.execUartTxWrite a bank v s
  | .uartCharSent bank => Sys2Proof.Machine.execUartCharSent bank s
  | .uartCharReceived bank byte ferr perr => Sys2Proof.Machine.execUartCharReceived bank byte ferr perr s
  | .uartRxPop a bank => Sys2Proof.Machine.execUartRxPop a bank s
  | .owReset a bank v => Sys2Proof.Machine.execOwReset a bank v s
  | .owWrite a bank v => Sys2Proof.Machine.execOwWrite a bank v s
  | .owRead a bank v => Sys2Proof.Machine.execOwRead a bank v s
  | .owDone bank data present => Sys2Proof.Machine.execOwDone bank data present s
  | .registerWrite t v => Sys2Proof.Machine.execRegisterWrite t v s
  | .porNAssert  => Sys2Proof.Machine.execPorNAssert  s
  | .vaonVioLoss  => Sys2Proof.Machine.execVaonVioLoss  s
  | .vaonVioValid  => Sys2Proof.Machine.execVaonVioValid  s
  | .laneLinkUp n => Sys2Proof.Machine.execLaneLinkUp n s
  | .laneLinkDown n => Sys2Proof.Machine.execLaneLinkDown n s
  | .imtVoteMismatch c0 c1 c2 => Sys2Proof.Machine.execImtVoteMismatch c0 c1 c2 s
  | .pcieLinkChange up => Sys2Proof.Machine.execPcieLinkChange up s
  | .ethLinkChange port up => Sys2Proof.Machine.execEthLinkChange port up s
  | .ethFrameReceive port f => Sys2Proof.Machine.execEthFrameReceive port f s
  | .ptpMessageReceive port m x => Sys2Proof.Machine.execPtpMessageReceive port m s x
  | .otpWrite w => Sys2Proof.Machine.execOtpWrite w s
  | .svnFloorRaise  => Sys2Proof.Machine.execSvnFloorRaise  s
  | .debugResume c => Sys2Proof.Machine.execDebugResume c s

end Sys2Proof.Machine
end

