-- ==== Sys2Proof/Machine/Step.lean ====
section
/-! DEFINITION. One step: the command at the front of the queue, or, on an empty queue, the tick of the Imtur count. -/

namespace Sys2Proof.Machine

open Sys2Proof

/-- The block with the command at the front of its queue taken out; the command waits no more while it runs. -/
def State.withPending (s : State) (q : List Instr) : State := { s with pending := q }

/-- One step: run the command that waits longest; with none waiting, let one tick of Imtur time pass once the count has
been started at a cold boot, and what PTP sends at that tick leave (log entry 2). (DESIGN CHOICE, log 2; DEDUCED, log 4) -/
def step (s : State) : Host.Outcome State Fault Refusal :=
  match s.pending with
  | [] => .next (tick s).ptpSends
  | i :: rest => exec i (s.withPending rest)

/-- s with the command that a table word spells put at the front of the queue; the table gives no row any bits, so s. (DEDUCED, log 3) -/
def State.withFetchWord (s : State) (nbits w : Nat) : State :=
  match decodeTableWord nbits w with
  | some i => s.withPending (i :: s.pending)
  | none => s

end Sys2Proof.Machine
end

