-- ==== Sys2Proof/WellFormed.lean ====
section
/-! DEFINITION. Well-formed commands: an instruction whose guard and fields an encoding exists for (R64, R66, R77, R80), and
an arrival that carries something. -/

namespace Sys2Proof

/-- A guard that is not the illegal pattern GP = 0000 with GS = 1 (R66). -/
def Hdr.ok (h : Hdr) : Bool := !(h.gp == 0 && h.gs)

/-- Whether a command is well formed. (DESIGN CHOICE, log 119) -/
def WellFormed (i : Instr) : Bool :=
  match i with
  | .nop h => h.ok
  | .b h _ => h.ok
  | .call h _ => h.ok
  | .calli h _ => h.ok
  | .ret h => h.ok
  | .loop h _ stop => h.ok && stop != 0
  | .lit h _ => h.ok
  | .trap h _ => h.ok
  | .brk h _ => h.ok
  | .eret h => h.ok
  | .hold h _ => h.ok
  | .fence h => h.ok
  | .fenceI h => h.ok
  | .tlbiVa h _ => h.ok
  | .tlbiWorld h => h.ok
  | .tlbiWorldg h => h.ok
  | .mov h _ _ => h.ok
  | .movi h _ _ => h.ok
  | .typeof h _ _ => h.ok
  | .tagset h _ _ _ => h.ok
  | .mfs h _ wt sr => h.ok && srDefined sr && (!wt || srResult sr)
  | .mts h _ wt sr => h.ok && srDefined sr && (!wt || srResult sr)
  | .now h _ => h.ok
  | .cvtToflt h _ _ => h.ok
  | .cvtToint h _ _ => h.ok
  | .cvtToqty h _ _ _ => h.ok
  | .cvtStrip h _ _ _ => h.ok
  | .cvtTospan h _ _ => h.ok
  | .cvtSpanq h _ _ => h.ok
  | .cvtToinst h _ _ => h.ok
  | .add h _ _ _ => h.ok
  | .sub h _ _ _ => h.ok
  | .mul h _ _ => h.ok
  | .div h _ _ => h.ok
  | .neg h _ _ => h.ok
  | .logadd h _ _ _ => h.ok
  | .addi h _ _ => h.ok
  | .and h _ _ _ => h.ok
  | .or h _ _ _ => h.ok
  | .xor h _ _ _ => h.ok
  | .andn h _ _ _ => h.ok
  | .shl h _ _ _ => h.ok
  | .shr h _ _ _ => h.ok
  | .sar h _ _ _ => h.ok
  | .not h _ _ => h.ok
  | .cmpeq h _ _ _ _ => h.ok
  | .cmpne h _ _ _ _ => h.ok
  | .cmplt h _ _ _ _ => h.ok
  | .cmple h _ _ _ _ => h.ok
  | .cmpgt h _ _ _ _ => h.ok
  | .cmpge h _ _ _ _ => h.ok
  | .tageq h _ _ _ _ => h.ok
  | .pand h _ _ _ _ _ => h.ok
  | .por h _ _ _ _ _ => h.ok
  | .pxor h _ _ _ _ _ => h.ok
  | .pmov h _ _ _ => h.ok
  | .ldw h _ _ _ => h.ok
  | .ldws h _ _ _ => h.ok
  | .stw h _ _ _ => h.ok
  | .ldx h _ _ _ => h.ok
  | .stx h _ _ _ => h.ok
  | .ldf h _ _ _ => h.ok
  | .stf h _ _ _ => h.ok
  | .ldb h _ _ _ => h.ok
  | .stb h _ _ _ => h.ok
  | .lds h _ _ => h.ok
  | .sts h _ _ => h.ok
  | .spadj h _ => h.ok
  | .alloc h _ _ _ => h.ok
  | .wait h _ _ => h.ok
  | .signal h _ => h.ok
  | .clamp h _ _ _ => h.ok
  | .unclamp h _ _ => h.ok
  | .savel h => h.ok
  | .saveu h => h.ok
  | .restl h => h.ok
  | .restu h => h.ok
  | .stm h _ _ _ => h.ok
  | .ldm h _ _ _ => h.ok
  | .lathe h _ _ _ => h.ok
  | .send h _ _ => h.ok
  | .recv h _ _ => h.ok
  | .mulComplete _ => true
  | .divComplete _ => true
  | .stackSpill _ => true
  | .storeBufferDrain _ => true
  | .cardQueueDrain _ => true
  | .interruptEntry _ => true
  | .fastInterruptEntry _ => true
  | .guardAbortEntry _ => true
  | .jigSwitch _ => true
  | .holdExpiry _ => true
  | .waitDeadline _ _ => true
  | .clampDeadline _ _ => true
  | .recvDeadline _ _ => true
  | .slotLoad _ _ _ _ => true
  | .slotPark _ _ _ _ => true
  | .slotReady _ _ _ _ => true
  | .slotUnload _ _ _ _ => true
  | .evBindWrite _ _ _ => true
  | .jigWatchdogExpiry _ => true
  | .edctlRelease _ _ _ => true
  | .cchStart _ _ _ => true
  | .cchSync _ _ _ => true
  | .boardMapReload _ _ => true
  | .cchGive _ _ _ => true
  | .planerFlip _ => true
  | .planerCopy _ => true
  | .planerDrain _ => true
  | .planerSweep _ => true
  | .planerRelease _ => true
  | .coreFlip _ _ => true
  | .twRetry _ _ _ => true
  | .l2FillComplete _ _ _ _ => true
  | .writebackAck _ _ => true
  | .cleanDelayExpiry _ _ => true
  | .ageSweep _ => true
  | .patrolScrub _ _ => true
  | .arbiterGrant _ => true
  | .portwdBite _ => true
  | .safeFailsafe _ _ => true
  | .safeFsClear _ _ => true
  | .gsvcMissClear _ _ => true
  | .veneerCoreCommit _ => true
  | .seamLimitExpiry _ => true
  | .imtMeasurement _ => true
  | .imtSourceLoss _ => true
  | .beaconSend => true
  | .beaconReceive _ bc => decide (bc.state.toNat ≤ 4)
  | .kamionDelayExchange _ _ _ => true
  | .backupMasterTakeover => true
  | .ppsOutPulse => true
  | .cutListActivation _ => true
  | .cutNop _ _ => true
  | .laneStart _ => true
  | .laneStop _ => true
  | .driveCommit _ => true
  | .driveMute _ => true
  | .cutEvent _ => true
  | .cutHinge _ => true
  | .hingePulseEnd _ => true
  | .gaugeSnap _ => true
  | .commitTables _ => true
  | .veneerCommit _ => true
  | .ktrig _ _ => true
  | .triggerArrival _ _ _ _ => true
  | .clCommit _ _ _ => true
  | .clCancel _ _ _ => true
  | .tdmFrame _ _ codes => !codes.isEmpty
  | .spiConversion _ codes => !codes.isEmpty
  | .lsl2Frame _ _ _ codes _ _ => !codes.isEmpty
  | .slCommit _ _ => true
  | .slStart _ _ => true
  | .slStop _ _ => true
  | .slConfigApply _ => true
  | .dlShadowWrite _ _ _ => true
  | .dlShadowCheckDone _ _ => true
  | .driveSampleOutput _ _ => true
  | .driveUnderrun _ => true
  | .driveRampComplete _ => true
  | .dlSoftstop _ _ _ => true
  | .dlResume _ _ _ => true
  | .dlCommit _ _ => true
  | .dlConfigApply _ => true
  | .abortInAssert _ => true
  | .abortInRelease _ => true
  | .latheVop _ _ => true
  | .latheFft _ _ => true
  | .latheIfft _ _ => true
  | .latheWspec _ _ => true
  | .latheFir _ _ => true
  | .latheBiquad _ _ => true
  | .latheResample _ _ => true
  | .latheTrack _ _ => true
  | .lathePvx _ _ _ => true
  | .latheJobEnd _ _ => true
  | .latheSrcwaitTimeout _ => true
  | .mqBlockCode _ _ _ => true
  | .mqRetentionTrigger _ _ => true
  | .mqRetentionClose _ => true
  | .gaugeTick _ => true
  | .gtCntWrite _ _ _ => true
  | .gtCmpWrite _ _ _ => true
  | .gtEnable _ _ _ => true
  | .gtPreWrite _ _ _ => true
  | .gtCfgWrite _ _ _ => true
  | .gaugeCapture _ _ => true
  | .gtCapPop _ _ => true
  | .gtpCapPop _ _ => true
  | .fvDoorbell _ => true
  | .hello => true
  | .caps => true
  | .health _ _ => true
  | .eventSub => true
  | .crashRead => true
  | .worldPartition _ => true
  | .imageLoad _ => true
  | .imageVerify => true
  | .worldStart => true
  | .worldStop => true
  | .laneSet _ => true
  | .driveSet _ => true
  | .cutLoad _ => true
  | .cutCommit => true
  | .timeSource => true
  | .timeStatus => true
  | .kamionMap _ => true
  | .logOpen => true
  | .logClose => true
  | .veneerStage _ => true
  | .veneerApply => true
  | .fwStage _ => true
  | .fwSwap => true
  | .checkpoint => true
  | .worldMsg => true
  | .busyCompletion _ => true
  | .fvLogackWrite _ => true
  | .logPush _ => true
  | .logDatagramSend _ => true
  | .logAckReceive _ => true
  | .logNakReceive _ => true
  | .logAckTimeout => true
  | .logKeepalive => true
  | .mbxGo _ _ _ => true
  | .mbxReply _ => true
  | .mbxDeadlineTimeout _ => true
  | .mbxPop _ _ _ => true
  | .favarWatchdogExpiry => true
  | .deviceWatchdogExpiry => true
  | .fwSwapFallback => true
  | .fwSlotFallback => true
  | .kamionTrain _ _ => true
  | .kamionLinkDown _ => true
  | .kamionPacketRoute _ _ _ => true
  | .linkStateNotice _ _ _ _ => true
  | .abortVoteReceive _ _ _ => true
  | .kmAbortSend _ _ => true
  | .routingTableApply => true
  | .messageArrival _ _ _ _ => true
  | .kmDmaGo _ _ _ => true
  | .kmDmaJob _ _ => true
  | .kmDmaJobEnd _ _ => true
  | .kmDmaLostTimeout _ => true
  | .bulkLanding _ _ ws => !ws.isEmpty
  | .kmLandingEnable _ _ _ _ => true
  | .pwrSleep _ _ _ => true
  | .pwrWake _ _ _ => true
  | .domainRampDone _ => true
  | .porNRelease _ => true
  | .warmNAssert => true
  | .warmRestart => true
  | .perstNAssert => true
  | .brownout => true
  | .thermalWarn _ => true
  | .debugHalt _ => true
  | .hingeSlotBoundary _ => true
  | .hingeInputEdge _ _ => true
  | .hngCommit _ _ _ => true
  | .hngCommitApply _ => true
  | .uartTxWrite _ _ _ => true
  | .uartCharSent _ => true
  | .uartCharReceived _ _ _ _ => true
  | .uartRxPop _ _ => true
  | .owReset _ _ _ => true
  | .owWrite _ _ _ => true
  | .owRead _ _ _ => true
  | .owDone _ _ _ => true
  | .registerWrite _ _ => true
  | .porNAssert => true
  | .vaonVioLoss => true
  | .vaonVioValid => true
  | .laneLinkUp _ => true
  | .laneLinkDown _ => true
  | .imtVoteMismatch _ _ _ => true
  | .pcieLinkChange _ => true
  | .ethLinkChange _ _ => true
  | .ethFrameReceive _ _ => true
  | .ptpMessageReceive _ _ _ => true
  | .otpWrite _ => true
  | .svnFloorRaise => true
  | .debugResume _ => true

end Sys2Proof
end

