-- ==== Sys2Proof/Safety.lean ====
section
/-! DEFINITION. The terms in which claims are stated: when a core executes an instruction, when nothing else is due at the
boundary after it, when its registers are at hand, and what a sound state is. -/

namespace Sys2Proof

/-- The header of an instruction of a core; none for every other command. -/
def Instr.hdr : Instr → Option Hdr
  | .nop h => some h
  | .b h _ => some h
  | .call h _ => some h
  | .calli h _ => some h
  | .ret h => some h
  | .loop h _ _ => some h
  | .lit h _ => some h
  | .trap h _ => some h
  | .brk h _ => some h
  | .eret h => some h
  | .hold h _ => some h
  | .fence h => some h
  | .fenceI h => some h
  | .tlbiVa h _ => some h
  | .tlbiWorld h => some h
  | .tlbiWorldg h => some h
  | .mov h _ _ => some h
  | .movi h _ _ => some h
  | .typeof h _ _ => some h
  | .tagset h _ _ _ => some h
  | .mfs h _ _ _ => some h
  | .mts h _ _ _ => some h
  | .now h _ => some h
  | .cvtToflt h _ _ => some h
  | .cvtToint h _ _ => some h
  | .cvtToqty h _ _ _ => some h
  | .cvtStrip h _ _ _ => some h
  | .cvtTospan h _ _ => some h
  | .cvtSpanq h _ _ => some h
  | .cvtToinst h _ _ => some h
  | .add h _ _ _ => some h
  | .sub h _ _ _ => some h
  | .mul h _ _ => some h
  | .div h _ _ => some h
  | .neg h _ _ => some h
  | .logadd h _ _ _ => some h
  | .addi h _ _ => some h
  | .and h _ _ _ => some h
  | .or h _ _ _ => some h
  | .xor h _ _ _ => some h
  | .andn h _ _ _ => some h
  | .shl h _ _ _ => some h
  | .shr h _ _ _ => some h
  | .sar h _ _ _ => some h
  | .not h _ _ => some h
  | .cmpeq h _ _ _ _ => some h
  | .cmpne h _ _ _ _ => some h
  | .cmplt h _ _ _ _ => some h
  | .cmple h _ _ _ _ => some h
  | .cmpgt h _ _ _ _ => some h
  | .cmpge h _ _ _ _ => some h
  | .tageq h _ _ _ _ => some h
  | .pand h _ _ _ _ _ => some h
  | .por h _ _ _ _ _ => some h
  | .pxor h _ _ _ _ _ => some h
  | .pmov h _ _ _ => some h
  | .ldw h _ _ _ => some h
  | .ldws h _ _ _ => some h
  | .stw h _ _ _ => some h
  | .ldx h _ _ _ => some h
  | .stx h _ _ _ => some h
  | .ldf h _ _ _ => some h
  | .stf h _ _ _ => some h
  | .ldb h _ _ _ => some h
  | .stb h _ _ _ => some h
  | .lds h _ _ => some h
  | .sts h _ _ => some h
  | .spadj h _ => some h
  | .alloc h _ _ _ => some h
  | .wait h _ _ => some h
  | .signal h _ => some h
  | .clamp h _ _ _ => some h
  | .unclamp h _ _ => some h
  | .savel h => some h
  | .saveu h => some h
  | .restl h => some h
  | .restu h => some h
  | .stm h _ _ _ => some h
  | .ldm h _ _ _ => some h
  | .lathe h _ _ _ => some h
  | .send h _ _ => some h
  | .recv h _ _ => some h
  | _ => none

/-- The transfers after which an interrupt comes in STM and LDM; no other command holds such a number. -/
def Instr.steps : Instr → Nat
  | .stm _ _ _ n => n
  | .ldm _ _ _ n => n
  | _ => 0

/-- The instructions that only a supervisor may execute: TAGSET, ERET, HOLD, TLBI, LDX, STX, and the four saves (R91, R103 to
R134). -/
def Instr.privileged : Instr → Bool
  | .tagset _ _ _ _ => true
  | .eret _ => true
  | .hold _ _ => true
  | .tlbiVa _ _ => true
  | .tlbiWorld _ => true
  | .tlbiWorldg _ => true
  | .ldx _ _ _ _ => true
  | .stx _ _ _ _ => true
  | .savel _ => true
  | .saveu _ => true
  | .restl _ => true
  | .restu _ => true
  | _ => false

end Sys2Proof

namespace Sys2Proof.Machine

open Sys2Proof

/-- The core of h executes the instruction i now: rank 7 of Table 08-7 is reached, protection finds nothing, the fetch buffer
holds an INSTR word at PC whose slot is legal and is the encoding of i, the guard selects it, no microbreak is set, and nothing that it
waits for is still to come (R66, R70, R262, R238). -/
structure Issues (i : Instr) (h : Hdr) (s : State) : Prop where
  runs : s.canIssue h.core = true
  sound : h.err = none
  prompt : h.wait = false
  unbroken : s.cores[h.core].breaks = [] ∧ s.cores[h.core].seq = none
  slot : ∃ va w, s.cores[h.core].fetchBuf.find? (fun e => e.1 == pcWord s.cores[h.core].lo.pc) = some (va, w) ∧
    w.tag = 0x0A ∧ encode32 i = some (slotBits s.cores[h.core].lo.pc w) ∧
    legal32 (slotBits s.cores[h.core].lo.pc w) = true ∧
    (slotGp (slotBits s.cores[h.core].lo.pc w) == 0 && slotGs (slotBits s.cores[h.core].lo.pc w)) = false
  taken : (s.cores[h.core].pred h.gp != h.gs) = true

/-- Nothing else is due on a core at the next boundary: no HOLD window is open, the context awaits nothing, no park is due,
the stack buffers have room, no register carries a flip mark and no flip is being drained (R76, R154, R174, R202). -/
structure Settled (c : Fin 32) (s : State) : Prop where
  noWindow : bit s.cores[c].lo.stat 15 = false
  noBlock : (s.running c).block = none
  noPark : (s.running c).parkDue = false
  roomU : s.cores[c].stackBufU.length ≤ 30
  roomS : s.cores[c].stackBufS.length ≤ 30
  noMark : ∀ r, s.cores[c].regMark r = false
  noDrain : s.worlds[s.world c].heap.phase ≠ .drain

/-- The registers of a list are in the file for the running code: none is of the upper half, or it owns that half (R180). -/
def Core.atHand (x : Core) (rs : List (Fin 32)) : Prop := rs.any x.isUpper = true → x.ownsUpper = true

/-- An instruction with these registers can run to its end undisturbed. -/
structure Ready (i : Instr) (h : Hdr) (rs : List (Fin 32)) (s : State) : Prop where
  issues : Issues i h s
  settled : Settled h.core s
  atHand : s.cores[h.core].atHand rs

/-- The state after an instruction that changes only its core's registers and completes in sequence. -/
def State.after (s : State) (c : Fin 32) (f : Core → Core) : State :=
  (s.modCore c f).advance c s.cores[c].lo.pc .seq

/-- The state after an instruction of a core that writes one general register and completes in sequence. -/
def State.afterReg (s : State) (c : Fin 32) (r : Fin 32) (w : Word) : State := s.after c fun x => x.setReg r w

/-- The state after an instruction that ends in state s' and completes in sequence. -/
def State.afterIn (s s' : State) (c : Fin 32) : State := s'.advance c s.cores[c].lo.pc .seq

/-- The entry that an instruction of a core makes when it raises a cause without completing: EPC names it (R194). -/
def State.raises (s : State) (c : Fin 32) (x : Cause) (fault : Option (BitVec 48 × BitVec 64)) (s' : State) : State :=
  s'.enter c { cause := x, resume := s.cores[c].lo.pc, fault := fault }

/-- An instruction that writes to Wd the word that a shared operation m computes: where m answers, Wd holds its word and the
instruction completes in sequence; where m raises a cause, that exception is entered with EPC naming the instruction. -/
def Delivers (i : Instr) (h : Hdr) (wd : Fin 32) (m : M Word) (s : State) : Prop :=
  (∀ v s', m s = .ok v s' → Settled h.core s' →
    exec i s = .next (s.afterIn (s'.modCore h.core fun x => x.setReg wd v) h.core)) ∧
  ∀ x f s', m s = .error (.exc x f none) s' → exec i s = .next (s.raises h.core x f s')

/-- The word that a core reads at an address translated to ordinary memory: that of the stack buffer, else its own youngest
store, else memory (R76, R84). -/
def State.sees (s : State) (c : Fin 32) (t : Tr) (va : BitVec 48) : Word :=
  (s.cores[c].stackHit va).getD (s.coreRead c t.pa).1

/-- The state after a core reads there: the caches have had the access, unless the stack buffer held the word. -/
def State.loaded (s : State) (c : Fin 32) (t : Tr) (va : BitVec 48) (stream : Bool) : State :=
  if (s.cores[c].stackHit va).isSome then s else s.cacheRead c t.pa stream t.page

/-- The state after a core stores there: in the stack buffer where that holds the address, else in the store buffer, with
the card that the store marks. -/
def State.stored (s : State) (c : Fin 32) (t : Tr) (va : BitVec 48) (w : Word) (card : Option (Fin 2 × Nat)) : State :=
  if (s.cores[c].stackHit va).isSome then s.modCore c fun x => x.stackPut va w else s.pushStore c (s.storeOf c t w card)

/-- The running code of a core reaches an address of ordinary memory with an access, by a translation that the TLBs hold; the
burst of a load has come, and PORTWD did not drop it. -/
structure Reaches (acc : Acc) (s : State) (c : Fin 32) (va : BitVec 48) (t : Tr) : Prop where
  held : translate s c (s.world c) (s.user c) acc va = (.ok t, s)
  plain : t.se = false
  dram : s.inDram t.pa.toNat = true
  come : acc ≠ .write → s.cores[c].waits = false ∧ sectorOf t.pa.toNat ∉ s.cores[c].lostReads

/-- A word with which the read barrier does nothing: no FWD, and no pointer into a condemned board (R147). -/
def State.quietWord (s : State) (c : Fin 32) (w : Word) : Prop :=
  w.tag ≠ 0x81 ∧ (isPtrTag w.tag && s.condemned c (s.world c) (fld w.datum 0 48)) = false

/-- The running code of a core loads a word from ordinary memory, the barrier doing nothing, and ends in state s'. -/
structure Loads (s : State) (c : Fin 32) (va : BitVec 48) (w : Word) (s' : State) : Prop where
  found : ∃ t, Reaches .read s c va t ∧ w = s.sees c t va ∧ s' = s.loaded c t va false
  quiet : s.quietWord c w

/-- The running code of a core stores words from an address upward through the write barrier, in ordinary memory. -/
def Stores (c : Fin 32) : State → BitVec 48 → List Word → State → Prop
  | s, _, [], s' => s' = s
  | s, va, w :: ws, s' => ∃ t, Reaches .write s c va t ∧
      Stores c (s.stored c t va w (s.cardMark c (s.world c) va w)) (va + 1) ws s'

/-- The word on top of a stack at an address: in the stack buffer, or read from memory (R76). -/
def OnStack (s : State) (c : Fin 32) (va : BitVec 48) (w : Word) (s' : State) : Prop :=
  ∃ t, w = s.sees c t va ∧ ((s.cores[c].stackHit va).isSome = true ∧ s' = s ∨
    s.cores[c].stackHit va = none ∧ Reaches .read s c va t ∧ s' = s.loaded c t va false)

/-- An instruction that a shared operation m carries out: where m answers, the instruction completes in sequence; where m
raises a cause, that exception is entered with EPC naming the instruction. -/
def Performs (i : Instr) (h : Hdr) (m : M Unit) (s : State) : Prop :=
  (∀ s', m s = .ok () s' → Settled h.core s' → exec i s = .next (s.afterIn s' h.core)) ∧
  ∀ x f s', m s = .error (.exc x f none) s' → exec i s = .next (s.raises h.core x f s')

/-- The deadline that a word gives an instruction begun now: none for CONST:NIL, the stamp of an INST, the present count plus
a SPAN, a sum below 0 being past and one beyond the count never coming (R130). -/
def DeadlineOf (s : State) (a : Word) (d : Option (BitVec 64)) : Prop :=
  (a = Word.nil ∧ d = none) ∨ (∃ t, a = Word.inst t ∧ d = some t) ∨
  ∃ t : BitVec 64, a = Word.span t ∧
    let sum := (s.now.toNat : Int) + t.toInt
    d = if sum < 0 then some 0 else if 2 ^ 64 ≤ sum then none else some (s.now + t)

/-- The value of a word that needs no object: FIX, FLT, QTY, INST, SPAN. -/
def immVal (w : Word) : Option Val :=
  match clsOf w.tag with
  | .fix => some (.int w.datum.toInt true)
  | .flt => some (.flt (ofF64 w.datum))
  | .qty => some (.qty false (ofQ40 (fld w.datum 24 40)) (Dim.ofQty w.datum))
  | .inst => some (.inst w.datum.toNat)
  | .span => some (.span w.datum.toInt)
  | _ => none

/-- The word of a result that needs no object: an integer that fits in 64 bits, FLT, QTY, INST, SPAN. -/
def immRes (rm : BitVec 3) (r : Res) : Option Word :=
  match r with
  | .int x => if -(2 ^ 63) ≤ x ∧ x < 2 ^ 63 then some (Word.fix (BitVec.ofInt 64 x)) else none
  | .flt bits => some (Word.flt bits)
  | .qty false v d => some (qtyWord rm v d)
  | .inst t => some (Word.inst (BitVec.ofNat 64 t))
  | .span x => some (Word.span (BitVec.ofInt 64 x))
  | _ => none

/-- The agent of a register row is there, and the partition grants it a store to a unit of a block (R458). -/
def Grants (s : State) (a : Agent) (block : Fin 16) (unit : Option Nat) (w : Who) : Prop :=
  s.who a = some w ∧ s.granted w block unit true = true

/-- It is the turn of a source of actions (R290): the entry that list n has reached, or the next trigger, holds an action; w is the
world for which it acts, s1 the state in which it is performed (the action counted, its lateness recorded, a trigger taken
from the queue), and `done` goes past it. -/
inductive ActsNow (s : State) : ActSrc → Word → Fin 2 → State → (State → State) → Prop where
  | list (n : Fin 16) (h : CutHead) (turn : s.cutTurn (.list n) = true) (head : s.cutHead n = some h) (good : h.bad = false)
      (raw : h.action.tag = 0x07) :
      ActsNow s (.list n) h.action (worldIx s.cuts[n].world) (s.countAction.cutLate n h) fun t => t.cutDone n h
  | trigger (t : Trig) (turn : s.cutTurn .trigger = true) (head : s.nextTrig = some t) (raw : t.action.tag = 0x07) :
      ActsNow s .trigger t.action t.world
        (State.trigLate { s.countAction with trigq := { s.countAction.trigq with queue := s.trigq.queue.erase t } } t) id

/-- The row of an action of a source, by the OP of Table 12-5; none for KTRIG and undefined OPs. -/
def cutRow (src : ActSrc) (op : Nat) : Option Instr :=
  match op with
  | 0x00 => some (.cutNop src .clean)
  | 0x01 => some (.laneStart src)
  | 0x02 => some (.laneStop src)
  | 0x03 => some (.driveCommit src)
  | 0x04 => some (.driveMute src)
  | 0x05 => some (.cutEvent src)
  | 0x06 => some (.cutHinge src)
  | 0x07 => some (.gaugeSnap src)
  | 0x08 => some (.commitTables src)
  | 0x09 => some (.veneerCommit src)
  | _ => none

/-- An event line is not routed as an interrupt: an event on it only latches, and takes no context out of a clamp's waiters. -/
def State.unrouted (s : State) (line : BitVec 8) : Prop := s.jig.irq[line.toFin].en = false

/-- Favar executes the request r of a command now: it serves requests, r is at the front of its order and nothing precedes the
command's own preconditions (R364); s1 is the state without r. -/
structure Serves (s : State) (code : Nat) (r : FvReq) (s1 : State) : Prop where
  served : s.fv.served = true
  alive : s.alive = true
  front : ∃ rest, s.fv.queue = r :: rest ∧ s1 = { s with fv := { s.fv with queue := rest } }
  cmd : r.cmd.toNat = code
  sound : r.bad = false
  free : s.precheck r = none

/-- After each request, those now at the front that no command answers complete with their status. -/
def State.dispatched (s : State) : State := s.drainBad s.fv.queue.length

/-- A row completes its request with a status and a result, in state t. -/
def Answers (i : Instr) (s : State) (r : FvReq) (st : BitVec 8) (ws : List (BitVec 64)) (t : State) : Prop :=
  exec i s = .next (State.finish { t with fv := { t.fv with stage := none } } r st ws).dispatched

/-- A row leaves its request at the front, in state t: what it asked for has still to happen. -/
def Waits (i : Instr) (s : State) (r : FvReq) (t : State) : Prop :=
  exec i s = .next (State.dispatched { t with fv := { t.fv with queue := r :: t.fv.queue } })

/-- A row takes its request as work outstanding, in state t; a host slot is answered BUSY (R364, R371). -/
def TakesOn (i : Instr) (s : State) (r : FvReq) (work : BusyWork) (t : State) : Prop :=
  let u : State := { t with fv := { t.fv with busy := t.fv.busy ++ [⟨r.from_, r.cmd, r.seq, r.cls.getD .log, work⟩] } }
  exec i s = .next (State.dispatched (match r.from_ with
    | .slot k => u.slotResult k r.irq stBusy []
    | .world _ => u))

/-- The end of every register row: a park that the store asked for is made at once on a core that stands at a boundary. -/
def State.settleAll (s : State) : State := (List.finRange 32).foldl (fun (s : State) c => s.settlePark c) s

/-- The second core is the first but for its store buffer, L1 caches and TLBs, and the bursts that it waits for. -/
def Core.calm (x y : Core) : Prop :=
  y = { x with storeBuf := y.storeBuf, l1i := y.l1i, l1d := y.l1d, itlb := y.itlb, dtlb := y.dtlb, awaits := y.awaits }

/-- The second state is the first but for memory, caches, store buffers, TLBs, port queues, and free values drawn. -/
structure State.Calm (s t : State) : Prop where
  rest : t = { s with cores := t.cores, clusters := t.clusters, ports := t.ports, mem := t.mem, stale := t.stale
                      unmapped := t.unmapped, drawn := t.drawn }
  cores : ∀ c : Fin 32, s.cores[c].calm t.cores[c]
  wf : memWf s.mem = true → memWf t.mem = true

/-- Memory and the active copy of the cut-list memory are in canonical form: what every command keeps. -/
def State.Sound (s : State) : Prop := memWf s.mem = true ∧ memWf s.cutActive = true

end Sys2Proof.Machine
end

