-- ==== Sys2Proof/Certificates/Slice0/Obligations.lean ====
section
/-! DEFINITION. The statements about the model, each from the numbered rules of spec/ that its docstring cites. Every command
has its effect as the conclusion of one of them: the state it answers, as an equation where the effect is small, so that the
equation is its frame too. -/

section

open Sys2Proof Sys2Proof.Machine

/-! ## The queue and the state as a whole -/

/-- The command at the front of the queue runs, with the rest of the queue waiting: a step is `exec` of that command and
nothing else. -/
def Obligations.StepRunsFrontCommand : Prop :=
  ∀ (s : State) (i : Instr) (rest : List Instr), s.pending = i :: rest →
    step s = exec i (s.withPending rest) ∧ (s.withPending rest).pending = rest ∧
      s = (s.withPending rest).withPending (i :: rest)

/-- On an empty queue a step lets one tick of Imtur time pass, once the count has been started at a cold boot (R277; that
the step does so is log entry 2): the count advances by 1, the end of a pulse on IMT_PPS_OUT follows it (R286), and the PTP
messages that are due at the tick leave (R285), none while Favar's firmware does not serve or both Ethernet ports are off; before that
nothing changes. -/
def Obligations.IdleStepIsOneTick : Prop :=
  ∀ s : State, s.pending = [] →
    (s.imt.started = false → step s = .next s) ∧
    (s.imt.started = true → ∃ t : State, step s = .next t ∧ t.now = s.now + 1 ∧
      t = { s with imt := { s.imt with count := t.imt.count, ppsOut := t.imt.ppsOut }, out := t.out } ∧
      (t.imt.ppsOut = true ↔ s.imt.ppsOut = true ∧ (s.now + 1).toNat < s.imt.ppsEnd.toNat) ∧
      (s.fv.ready = false ∨ s.fv.swap = true ∨ (∀ p, s.ethOn p = false) → t.out = s.out))

/-- The registers that the spec gives a reset value hold it: MUTE asserted and DRIVE_EN off (Table 08-12), result registers
CONST:NIL, PRED 1, LC 0 (Table 04-4), Imtur FREE with ERR 0xFFFF (Table 12-1), PROMOTE_AGE 2 and NCHUNK 11 (Table 06-3), lanes
stopped, no world loaded, POR_N low; no command waits and memory lists nothing. -/
def Obligations.ResetLeaves : Prop :=
  let s := State.reset
  s.pending = [] ∧ s.mem = [] ∧ s.Sound ∧ s.safe.mute = true ∧ s.safe.driveEn = false ∧ s.safe.fs = false ∧
  s.imt.state = .free ∧ s.imt.err = 0xFFFF ∧ s.imt.started = false ∧ s.pwr.porLow = true ∧ s.fv.ready = false ∧
  (∀ c : Fin 32, s.cores[c].running = false ∧ s.cores[c].hi.prodlo = Word.nil ∧ s.cores[c].hi.prodhi = Word.nil ∧
    s.cores[c].hi.quo = Word.nil ∧ s.cores[c].hi.rem = Word.nil ∧ s.cores[c].lo.pred = 1 ∧ s.cores[c].lo.lc = 0 ∧
    s.cores[c].lo.stat = 0) ∧
  (∀ w : Fin 2, s.worlds[w].state = .empty ∧ s.worlds[w].heap.promoteAge = 2 ∧ s.worlds[w].heap.nchunk = 11 ∧
    s.worlds[w].heap.phase = .idle) ∧
  (∀ n : Fin 32, s.sl[n].run = false) ∧ ∀ n : Fin 16, s.dl[n].state = .idle

/-- Memory keeps its canonical form (addresses strictly rising, nothing listed that reads UNINIT), and so does the active copy
of the cut-list memory, whatever command runs. -/
def Obligations.StepKeepsMemorySound : Prop :=
  ∀ s t : State, s.Sound → step s = .next t → t.Sound

/-- The encodings of Table 04-2 and Table 05-1 lose no bit: a well-formed instruction, encoded in a slot and decoded again, is
itself, with every operand at every value. -/
def Obligations.DecodeOfEncode : Prop :=
  ∀ (i : Instr) (h : Hdr) (w : BitVec 32), i.hdr = some h → WellFormed i = true → encode32 i = some w →
    decode32 h.core h.mc h.err h.wait i.steps w = some i

/-- The other direction: a slot whose guard is not the illegal pattern and that decodes to an instruction is that
instruction's encoding, so no two slots stand for one instruction and no reserved encoding falls through to a neighbour (R64). -/
def Obligations.EncodeOfDecode : Prop :=
  ∀ (c : Fin 32) (mc steps : Nat) (err : Option ArrayErr) (wait : Bool) (i : Instr) (w : BitVec 32),
    (slotGp w == 0 && slotGs w) = false → decode32 c mc err wait steps w = some i →
      encode32 i = some w ∧ WellFormed i = true

/-- The words of Example 05-1, and encodings that R64 makes illegal: an undefined opcode, a nonzero reserved field, LOOP with
END = 0, WT on a register that is no result register. -/
def Obligations.DecodeExampleWords : Prop :=
  let d := decode32 0 1 none false 0
  let h : Hdr := { core := 0, gp := 0, gs := false }
  d 0x01118000 = some (.movi h 3 0) ∧ d 0x00710000 = some (.lit h 2) ∧ d 0x00620004 = some (.loop h 4 4) ∧
  d 0x045284C0 = some (.ldf h 5 1 6) ∧ d 0x03409440 = some (.cmpgt h false 1 5 2) ∧
  d 0x12618001 = some (.addi { h with gp := 1 } 3 1) ∧ d 0x1A618001 = some (.addi { h with gp := 1, gs := true } 3 1) ∧
  d 0x00100000 = some (.nop h) ∧
  d 0x00000000 = none ∧ d 0x00100001 = none ∧ d 0x00620000 = none ∧ d 0x01404003 = none

/-! ## The course of an instruction -/

/-- At the boundary the next PC is the next slot, except where the instruction stands at LE with STAT.LA = 1: there LC counts
down by one, and the next PC is LS unless LC came to 0, which ends the loop (R68, R78). Nothing else of the state changes but
the mark of the first instruction at ENTRY (R195). -/
def Obligations.LoopEndDecision : Prop :=
  ∀ (s : State) (c : Fin 32) (pc : BitVec 49),
    let x := s.cores[c]
    (¬ (bit x.lo.stat 5 = true ∧ x.lo.le = pc.setWidth 64) → s.advance c pc .seq = s.setPc c (pc + 1)) ∧
    (bit x.lo.stat 5 = true → x.lo.le = pc.setWidth 64 →
      (x.lo.lc ≠ 1 → s.advance c pc .seq =
        (s.modCore c fun x => { x with lo := { x.lo with lc := x.lo.lc - 1 } }).setPc c (fld x.lo.ls 0 49)) ∧
      (x.lo.lc = 1 → s.advance c pc .seq =
        (s.modCore c fun x => { x with lo := { x.lo with lc := 0, stat := setBit x.lo.stat 5 false } }).setPc c (pc + 1)))

/-- Before the guard an instruction is judged legal, and a guarded-off one has no effect but to move on, LIT past its literal,
with the loop-end decision where it is due (R66, R67). -/
def Obligations.GuardedOffHasNoEffect : Prop :=
  ∀ (s : State) (i : Instr) (h : Hdr) (va : BitVec 48) (w : Word),
    let x := s.cores[h.core]
    i.hdr = some h → s.canIssue h.core = true → h.err = none → h.wait = false → Settled h.core s →
    x.fetchBuf.find? (fun e => e.1 == pcWord x.lo.pc) = some (va, w) → w.tag = 0x0A →
    encode32 i = some (slotBits x.lo.pc w) → legal32 (slotBits x.lo.pc w) = true →
    (slotGp (slotBits x.lo.pc w) == 0 && slotGs (slotBits x.lo.pc w)) = false → (x.pred h.gp != h.gs) = false →
      exec i s = .next (s.advance h.core x.lo.pc (match i with
        | .lit _ _ => .lit
        | _ => .seq))

/-- An instruction of the supervisor that is executed at user level raises PRIVILEGE with EPC naming it and does nothing else
(R66, R91). -/
def Obligations.PrivilegedAtUserLevel : Prop :=
  ∀ (s : State) (i : Instr) (h : Hdr), i.hdr = some h → i.privileged = true → Issues i h s →
    Settled h.core s → s.user h.core = true → exec i s = .next (s.raises h.core .privilege none s)

/-- A slot with GP = 0000 and GS = 1 raises ILLEGAL_GUARD, and otherwise an illegal one ILLEGAL_INSTR, whatever instruction the
command names; an INSTR word of another tag raises the cause of R70 (R66). -/
def Obligations.IllegalSlotRaises : Prop :=
  ∀ (s : State) (i : Instr) (h : Hdr) (va : BitVec 48) (w : Word),
    let x := s.cores[h.core]
    i.hdr = some h → s.canIssue h.core = true → h.err = none → h.wait = false →
    x.fetchBuf.find? (fun e => e.1 == pcWord x.lo.pc) = some (va, w) →
      (w.tag = 0xFE → exec i s = .next (s.raises h.core .poisonUse none s)) ∧
      (w.tag = 0xFF → exec i s = .next (s.raises h.core .uninitUse none s)) ∧
      (w.tag = 0x00 → exec i s = .next (s.raises h.core .illegalInstr none s)) ∧
      (w.tag = 0x0A → (slotGp (slotBits x.lo.pc w) == 0 && slotGs (slotBits x.lo.pc w)) = true →
        exec i s = .next (s.raises h.core .illegalGuard none s)) ∧
      (w.tag = 0x0A → (slotGp (slotBits x.lo.pc w) == 0 && slotGs (slotBits x.lo.pc w)) = false →
        legal32 (slotBits x.lo.pc w) = false → exec i s = .next (s.raises h.core .illegalInstr none s))

/-- An exception enters the supervisor of the running world (R194): where DEPTH is below 31, SP of the supervisor is an address
at least 2 above SLIM, and both pushes translate (and lie beside the room whose BOOK is cleared, R182), then SP goes down by 2 with the old EPC and ESTAT in the stack buffer, EPC is a
RETA of the resume PC with the world and the level left, ESTAT is the old STAT with HW 0 and LEND where a loop-end decision is
owed, CAUSE names the cause, DEPTH goes up by 1, STAT is that of a handler, and PC is ENTRY of the world. FADDR and FINFO are
written where the cause writes them, and kept otherwise. -/
def Obligations.ExceptionEntry : Prop :=
  ∀ (s : State) (c : Fin 32) (e : Entry) (t1 t2 : Tr),
    let x := s.cores[c]
    let a1 : BitVec 48 := fld x.lo.spS 0 48 - 1
    let a2 : BitVec 48 := fld x.lo.spS 0 48 - 2
    let y := (s.enter c e).cores[c]
    x.lo.depth ≠ 31 → fld x.lo.spS 48 16 = (0 : BitVec 16) → 2 ≤ x.lo.spS.toNat →
    x.lo.slimS.toNat + 2 ≤ x.lo.spS.toNat →
    translate s c (s.world c) false .write a1 = (.ok t1, s) → translate s c (s.world c) false .write a2 = (.ok t2, s) →
    (x.stackBufU.any fun e => e.va == a1 || e.va == a2) = false → x.stackBufS.length ≤ 38 →
    (∀ a, (s.running c).room (x.lo.depth.toNat + 1) = some a → a ≠ a1 ∧ a ≠ a2) →
      y.lo.spS = x.lo.spS - 2 ∧
      y.stackHit a1 = some (Word.reta x.lo.epc) ∧ y.stackHit a2 = some (Word.raw x.lo.estat) ∧
      y.lo.epc = (mkReta e.resume (s.world c) (!(s.user c))).datum ∧ y.lo.estat = x.entryStat e ∧
      fld y.lo.cause 0 8 = e.cause.code ∧ fld y.lo.cause 24 8 = e.arg ∧ y.lo.depth = x.lo.depth + 1 ∧
      y.lo.stat = handlerStat (e.cause == .fastInterrupt) ∧ y.bank = (e.cause == .fastInterrupt || x.bank) ∧
      y.lo.pc = fld s.worlds[s.world c].entry 0 49 ∧ y.holdCount = 0 ∧
      y.lo.faddr = (match e.fault with
        | some (a, _) => a.setWidth 64
        | none => x.lo.faddr) ∧
      y.lo.finfo = (match e.fault with
        | some (_, f) => f
        | none => x.lo.finfo) ∧
      y.lo.w = x.lo.w ∧ y.lo.pred = x.lo.pred ∧ y.hi = x.hi ∧ y.lo.spU = x.lo.spU ∧ y.lo.lc = x.lo.lc

/-! ## Moves, special registers, conversions -/

/-- MOV, MOVI, TYPEOF, TAGSET and NOW write their one word and complete in sequence; nothing else changes (R107 to R110, R112). A
reserved tag raises TAG_RESERVED in MOV; TAGSET takes the tag from a FIX in 0 to 255. -/
def Obligations.MovesAndTags : Prop :=
  ∀ (s : State) (h : Hdr) (wd wa wb : Fin 32) (imm : BitVec 15),
    let r := s.cores[h.core].reg
    (Ready (.mov h wd wa) h [wd, wa] s →
      exec (.mov h wd wa) s = .next (if clsOf (r wa).tag = .reserved then s.raises h.core .tagReserved none s
        else s.afterReg h.core wd (r wa))) ∧
    (Ready (.movi h wd imm) h [wd] s →
      exec (.movi h wd imm) s = .next (s.afterReg h.core wd (Word.fix (imm.signExtend 64)))) ∧
    (Ready (.typeof h wd wa) h [wd, wa] s →
      exec (.typeof h wd wa) s = .next (s.afterReg h.core wd (Word.fix ((r wa).tag.setWidth 64)))) ∧
    (Ready (.tagset h wd wa wb) h [wd, wa, wb] s → s.user h.core = false → tagsetCheck (r wa) = none →
      (∀ t : BitVec 8, r wb = Word.fix (t.setWidth 64) →
        exec (.tagset h wd wa wb) s = .next (s.afterReg h.core wd ⟨t, (r wa).datum⟩)) ∧
      (chkWord (r wb) = none → ((r wb).tag ≠ 0x00 ∨ 256 ≤ (r wb).datum.toNat) →
        exec (.tagset h wd wa wb) s = .next (s.raises h.core .tagMismatch none s))) ∧
    (Ready (.tagset h wd wa wb) h [wd, wa, wb] s → s.user h.core = false → ∀ e,
      (tagsetCheck (r wa) = some e ∨ tagsetCheck (r wa) = none ∧ chkWord (r wb) = some e) →
        exec (.tagset h wd wa wb) s = .next (s.raises h.core e none s)) ∧
    (Ready (.now h wd) h [wd] s → exec (.now h wd) s = .next (s.afterReg h.core wd (Word.inst s.imt.count)))

/-- MFS delivers each special register with the tag of Table 04-4 (R80): the PC of the MFS as a RETA, SP and SLIM of the running
level, STAT with LZU and LZL, the predicate file with P0 set, the exception registers for a supervisor only, and the registers of
the world and the core. A result register without a flip mark is delivered as it stands when no operation is in flight, PRODLO where the
product fits in 64 bits (R59); in flight it is PENDING naming the register, or with the wait bit set the word that the operation
brings (R60). -/
def Obligations.SpecialRegisterReads : Prop :=
  ∀ (s : State) (h : Hdr) (w : Fin 32) (wt : Bool),
    let c := h.core
    let x := s.cores[c]
    let u := s.user c
    let v := s.worlds[s.world c]
    let reads (sr : BitVec 8) (d : Word) : Prop :=
      Ready (.mfs h w wt sr) h [w] s → exec (.mfs h w wt sr) s = .next (s.afterReg c w d)
    reads 0x00 (mkReta x.lo.pc (s.world c) (!u)) ∧ reads 0x01 (Word.raw (if u then x.lo.spU else x.lo.spS)) ∧
    reads 0x02 (Word.raw (if u then x.lo.slimU else x.lo.slimS)) ∧ reads 0x03 (Word.raw x.statVal) ∧
    reads 0x04 (Word.fix x.lo.lc) ∧ reads 0x05 (Word.raw x.lo.ls) ∧ reads 0x06 (Word.raw x.lo.le) ∧
    reads 0x07 (Word.raw (x.preds.setWidth 64)) ∧ reads 0x0C (Word.raw x.lo.allocp) ∧
    reads 0x0D (Word.raw x.lo.allocl) ∧ reads 0x19 (Word.raw (BitVec.ofNat 64 (s.world c).val)) ∧
    reads 0x1A (Word.raw (BitVec.ofNat 64 c.val ||| (s.km.id.setWidth 64 <<< 8))) ∧
    reads 0x1B (Word.raw (x.ven.mcver.setWidth 64)) ∧
    (u = false → reads 0x10 (Word.raw x.lo.cause) ∧ reads 0x11 (Word.reta x.lo.epc) ∧ reads 0x12 (Word.raw x.lo.estat) ∧
      reads 0x13 (Word.raw x.lo.faddr) ∧ reads 0x14 (Word.raw x.lo.finfo) ∧ reads 0x15 (Word.raw v.entry) ∧
      reads 0x16 (Word.raw v.s1root) ∧ reads 0x17 (Word.raw v.ctxcfg) ∧ reads 0x18 (Word.raw v.holdmax)) ∧
    (∀ sr : BitVec 8, u = true → 0x10 ≤ sr.toNat → sr.toNat ≤ 0x18 → Ready (.mfs h w wt sr) h [w] s →
      exec (.mfs h w wt sr) s = .next (s.raises c .privilege none s)) ∧
    (x.ownsUpper = true → x.mulFly = none → x.divFly = none → fld x.hi.marks 16 4 = (0 : BitVec 4) →
      reads 0x09 x.hi.prodhi ∧ reads 0x0A x.hi.quo ∧ reads 0x0B x.hi.rem ∧
      ((x.hi.prodhi.tag ≠ 0x00 ∨ x.hi.prodhi.datum = x.hi.prodlo.datum.sshiftRight 63) → reads 0x08 x.hi.prodlo)) ∧
    (x.ownsUpper = true → wt = false →
      (x.mulFly.isSome → reads 0x08 (Word.pending 0) ∧ reads 0x09 (Word.pending 1)) ∧
      (x.divFly.isSome → reads 0x0A (Word.pending 2) ∧ reads 0x0B (Word.pending 3))) ∧
    (x.ownsUpper = true → wt = true → ∀ p q : Word,
      (x.mulFly = some (p, q) → Ready (.mfs h w wt 0x09) h [w] s →
        exec (.mfs h w wt 0x09) s = .next (s.after c fun x =>
          ({ x with hi := x.hi.setProd p q, mulFly := none } : Core).setReg w q)) ∧
      (x.divFly = some (p, q) → Ready (.mfs h w wt 0x0A) h [w] s →
        exec (.mfs h w wt 0x0A) s = .next (s.after c fun x =>
          ({ x with hi := x.hi.setQuo p q, divFly := none } : Core).setReg w p)) ∧
      (x.divFly = some (p, q) → Ready (.mfs h w wt 0x0B) h [w] s →
        exec (.mfs h w wt 0x0B) s = .next (s.after c fun x =>
          ({ x with hi := x.hi.setQuo p q, divFly := none } : Core).setReg w q)))

/-- MTS writes a special register from a word of its tag (R80, R81, R82): a supervisor writes SP and SLIM of its level, the
allocation region, the loop and predicate registers, the exception registers, S1ROOT and CTXCFG in the bits that they hold; at user
level STAT takes RM only; a read-only register keeps its value; WORLD takes no change, and a supervisor of the Test world that writes it raises PRIVILEGE; a write to a result register discards the operation in flight on
its pair; a word of another tag raises TAG_MISMATCH, and an exception register PRIVILEGE at user level. The bits that S1ROOT, CTXCFG,
LS, LE, ESTAT, CAUSE, FADDR and FINFO hold are those of their layouts (log entry 92). -/
def Obligations.SpecialRegisterWrites : Prop :=
  ∀ (s : State) (h : Hdr) (w : Fin 32) (wt : Bool) (d : BitVec 64),
    let c := h.core
    let x := s.cores[c]
    let u := s.user c
    let v := x.reg w
    let writes (sr : BitVec 8) (t : State) : Prop :=
      Ready (.mts h w wt sr) h [w] s → exec (.mts h w wt sr) s = .next (s.afterIn t c)
    let lower (f : LowerHalf → LowerHalf) : State := s.modCore c fun x => { x with lo := f x.lo }
    (v = Word.raw d →
      writes 0x05 (lower fun l => { l with ls := (fld d 0 49).setWidth 64 }) ∧
      writes 0x06 (lower fun l => { l with le := (fld d 0 49).setWidth 64 }) ∧
      writes 0x07 (s.modCore c fun x => x.setPreds (fld d 0 16)) ∧ writes 0x1A s ∧ writes 0x1B s ∧
      (u = true → writes 0x03 (lower fun l => { l with stat := setFld l.stat 0 (fld d 0 3) }) ∧
        writes 0x01 s ∧ writes 0x02 s ∧ writes 0x0C s ∧ writes 0x0D s ∧ writes 0x19 s) ∧
      (u = false →
        writes 0x03 (lower fun l => { l with stat := statWrite l.stat d false }) ∧
        writes 0x01 (lower fun l => { l with spS := d }) ∧ writes 0x02 (lower fun l => { l with slimS := d }) ∧
        writes 0x0C (lower fun l => { l with allocp := d }) ∧ writes 0x0D (lower fun l => { l with allocl := d }) ∧
        writes 0x10 (lower fun l => { l with cause := (fld d 0 37).setWidth 64 }) ∧
        writes 0x12 (lower fun l => { l with estat := (fld d 0 16).setWidth 64 }) ∧
        writes 0x13 (lower fun l => { l with faddr := (fld d 0 48).setWidth 64 }) ∧
        writes 0x14 (lower fun l => { l with finfo := setFld d 18 (0 : BitVec 6) }) ∧
        writes 0x15 s ∧ writes 0x18 s ∧ (s.world c = 1 → fld d 0 2 = (1 : BitVec 2) → writes 0x19 s) ∧
        (s.world c = 0 → Ready (.mts h w wt 0x19) h [w] s →
          exec (.mts h w wt 0x19) s = .next (s.raises c .privilege none s)) ∧
        writes 0x16 (s.modWorld (s.world c) fun x => { x with s1root := (fld d 0 43).setWidth 64 }) ∧
        writes 0x17 (s.modWorld (s.world c) fun x => { x with ctxcfg := (fld d 0 1).setWidth 64 }))) ∧
    (v = Word.fix d → writes 0x04 (lower fun l => { l with lc := d })) ∧
    (v = Word.reta d → u = false → writes 0x11 (lower fun l => { l with epc := d })) ∧
    (chkWord v = none → x.ownsUpper = true →
      writes 0x08 (s.modCore c fun x =>
        { x with hi := { x.hi with prodlo := v, marks := setBit x.hi.marks 16 false }, mulFly := none }) ∧
      writes 0x09 (s.modCore c fun x =>
        { x with hi := { x.hi with prodhi := v, marks := setBit x.hi.marks 17 false }, mulFly := none }) ∧
      writes 0x0A (s.modCore c fun x =>
        { x with hi := { x.hi with quo := v, marks := setBit x.hi.marks 18 false }, divFly := none }) ∧
      writes 0x0B (s.modCore c fun x =>
        { x with hi := { x.hi with rem := v, marks := setBit x.hi.marks 19 false }, divFly := none })) ∧
    ∀ sr : BitVec 8, Ready (.mts h w wt sr) h [w] s →
      (∀ e, chkWord v = some e → exec (.mts h w wt sr) s = .next (s.raises c e none s)) ∧
      (chkWord v = none → (match srTag sr with
        | some t => v.tag ≠ t
        | none => False) → exec (.mts h w wt sr) s = .next (s.raises c .tagMismatch none s)) ∧
      (chkWord v = none → srTag sr = some v.tag → u = true → 0x10 ≤ sr.toNat → sr.toNat ≤ 0x18 →
        exec (.mts h w wt sr) s = .next (s.raises c .privilege none s))

/-- CVT on words that need no object: the result of the function that FN selects, delivered as a word (R113). TOFLT and TOINT take a
number, TOINT also the ns count of a SPAN or INST; TOQTY gives the value of Wa the dimension and kind of Wb; STRIP asks for equal
kinds and dimensions; TOSPAN takes a FIX of ns or a plain QTY in s; SPANQ gives it back; TOINST takes an integer. A cause that the
function raises is entered. -/
def Obligations.Conversions : Prop :=
  ∀ (s : State) (h : Hdr) (wd wa wb : Fin 32) (x y : Val),
    let c := h.core
    let a := s.cores[c].reg wa
    let b := s.cores[c].reg wb
    let rm := fld s.cores[c].lo.stat 0 3
    let one (i : Instr) (f : Val → Except Cause Res) : Prop :=
      Ready i h [wd, wa] s → chkFull a = none → immVal a = some x → isTm (f (classVal a)) = false →
        (∀ r v, f x = .ok r → immRes rm r = some v → exec i s = .next (s.afterReg c wd v)) ∧
        (∀ e, f x = .error e → exec i s = .next (s.raises c e none s))
    let two (i : Instr) (f : Val → Val → Except Cause Res) : Prop :=
      Ready i h [wd, wa, wb] s → chkFull a = none → chkFull b = none → immVal a = some x → immVal b = some y →
        isTm (f (classVal a) (classVal b)) = false →
        (∀ r v, f x y = .ok r → immRes rm r = some v → exec i s = .next (s.afterReg c wd v)) ∧
        (∀ e, f x y = .error e → exec i s = .next (s.raises c e none s))
    one (.cvtToflt h wd wa) (cvtFlt rm) ∧ one (.cvtToint h wd wa) (cvtInt rm) ∧ one (.cvtTospan h wd wa) (cvtSpan rm) ∧
    one (.cvtSpanq h wd wa) cvtSpanq ∧ one (.cvtToinst h wd wa) cvtInst ∧
    two (.cvtToqty h wd wa wb) cvtQty ∧ two (.cvtStrip h wd wa wb) cvtStrip ∧
    (∀ n : BitVec 64, a = Word.fix n → Ready (.cvtToflt h wd wa) h [wd, wa] s →
      exec (.cvtToflt h wd wa) s = .next (s.afterReg c wd (Word.flt (toF64 rm (.ofRat n.toInt))))) ∧
    (∀ n : BitVec 64, a = Word.span n ∨ a = Word.fix n → Ready (.cvtToint h wd wa) h [wd, wa] s →
      exec (.cvtToint h wd wa) s = .next (s.afterReg c wd (Word.fix n))) ∧
    (∀ n : BitVec 64, a = Word.fix n → Ready (.cvtTospan h wd wa) h [wd, wa] s →
      exec (.cvtTospan h wd wa) s = .next (s.afterReg c wd (Word.span n))) ∧
    (∀ n : BitVec 64, a = Word.fix n → 0 ≤ n.toInt → Ready (.cvtToinst h wd wa) h [wd, wa] s →
      exec (.cvtToinst h wd wa) s = .next (s.afterReg c wd (Word.inst n)))

/-! ## Arithmetic, logic, predicates -/

/-- ADD, SUB and ADDI write Wd as R115 and R119 state: on any operands, checked in the order of R34, the word that generic addition
delivers, or the cause it raises; on two FIX whose sum or difference fits in 64 bits that FIX; on other words that need no object, the exact result rounded
once (R40, R46). -/
def Obligations.AddSub : Prop :=
  ∀ (s : State) (h : Hdr) (wd wa wb : Fin 32) (imm : BitVec 15),
    let c := h.core
    let a := s.cores[c].reg wa
    let b := s.cores[c].reg wb
    let d := s.cores[c].reg wd
    let rm := fld s.cores[c].lo.stat 0 3
    let k := Word.fix (imm.signExtend 64)
    let sum (op : Op2) (a b : Word) : M Word := do
      checkPair (pairOk op) a b
      sumWord c op a b
    (Ready (.add h wd wa wb) h [wd, wa, wb] s →
      Delivers (.add h wd wa wb) h wd (sum .add a b) s ∧
      (∀ m n : BitVec 64, a = Word.fix m → b = Word.fix n → -(2 ^ 63) ≤ m.toInt + n.toInt → m.toInt + n.toInt < 2 ^ 63 →
        exec (.add h wd wa wb) s = .next (s.afterReg c wd (Word.fix (m + n)))) ∧
      ∀ x y r v, chkFull a = none → chkFull b = none → immVal a = some x → immVal b = some y → pairOk .add a b = true →
        arith .add rm x y = .ok r → immRes rm r = some v → exec (.add h wd wa wb) s = .next (s.afterReg c wd v)) ∧
    (Ready (.sub h wd wa wb) h [wd, wa, wb] s →
      Delivers (.sub h wd wa wb) h wd (sum .sub a b) s ∧
      (∀ m n : BitVec 64, a = Word.fix m → b = Word.fix n → -(2 ^ 63) ≤ m.toInt - n.toInt → m.toInt - n.toInt < 2 ^ 63 →
        exec (.sub h wd wa wb) s = .next (s.afterReg c wd (Word.fix (m - n)))) ∧
      ∀ x y r v, chkFull a = none → chkFull b = none → immVal a = some x → immVal b = some y → pairOk .sub a b = true →
        arith .sub rm x y = .ok r → immRes rm r = some v → exec (.sub h wd wa wb) s = .next (s.afterReg c wd v)) ∧
    (Ready (.addi h wd imm) h [wd] s →
      Delivers (.addi h wd imm) h wd (sum .add d k) s ∧
      ∀ m : BitVec 64, d = Word.fix m → -(2 ^ 63) ≤ m.toInt + (imm.signExtend 64).toInt →
        m.toInt + (imm.signExtend 64).toInt < 2 ^ 63 →
        exec (.addi h wd imm) s = .next (s.afterReg c wd (Word.fix (m + imm.signExtend 64))))

/-- MUL and DIV of two FIX (R41, R42, R57, R58, R61, R116): the 128-bit product, or the quotient and the remainder truncated
toward zero, comes into flight, an earlier operation of the pair being lost; the other pair and the result registers stay as they
are. DIV by zero raises DIV_ZERO and changes nothing. On other operands that pass the checks of R34 and are no sample block, the words
that generic multiplication or division gives come into flight, or into the pair at once where it says so, or its cause is raised; a
failed check raises its cause. MUL_COMPLETE and DIV_COMPLETE put what is in flight into the pair. -/
def Obligations.MulDiv : Prop :=
  ∀ (s : State) (h : Hdr) (wa wb : Fin 32) (m n : BitVec 64),
    let c := h.core
    let x := s.cores[c]
    let product := (Word.fix (m * n), Word.fix (BitVec.ofInt 64 (m.toInt * n.toInt / 2 ^ 64)))
    let quotient := (Word.fix (BitVec.ofInt 64 (Int.tdiv m.toInt n.toInt)), Word.fix (BitVec.ofInt 64 (Int.tmod m.toInt n.toInt)))
    (x.reg wa = Word.fix m → x.reg wb = Word.fix n → x.ownsUpper = true →
      (Ready (.mul h wa wb) h [wa, wb] s →
        exec (.mul h wa wb) s = .next (s.after c fun x => { x with mulFly := some product })) ∧
      (Ready (.div h wa wb) h [wa, wb] s → n ≠ 0 → ¬ (m.toInt = -(2 ^ 63) ∧ n.toInt = -1) →
        exec (.div h wa wb) s = .next (s.after c fun x => { x with divFly := some quotient })) ∧
      (Ready (.div h wa wb) h [wa, wb] s → n = 0 → exec (.div h wa wb) s = .next (s.raises c .divZero none s))) ∧
    (x.ownsUpper = true →
      let a := x.reg wa
      let b := x.reg wb
      let good (op : Op2) : Prop := chkFull a = none ∧ chkFull b = none ∧ pairOk op a b = true ∧ isBlk a = false ∧ isBlk b = false
      let failed (op : Op2) (e : Cause) : Prop := chkFull a = some e ∨ chkFull a = none ∧ chkFull b = some e ∨
        chkFull a = none ∧ chkFull b = none ∧ pairOk op a b = false ∧ e = .tagMismatch
      (Ready (.mul h wa wb) h [wa, wb] s →
        (good .mul → (∀ p q fly s', mulRes c a b s = .ok (p, q, fly) s' → Settled c s' →
          exec (.mul h wa wb) s = .next (s.afterIn (s'.modCore c fun x => if fly then { x with mulFly := some (p, q) }
            else { x with mulFly := none, hi := x.hi.setProd p q }) c)) ∧
          ∀ e f s', mulRes c a b s = .error (.exc e f none) s' → exec (.mul h wa wb) s = .next (s.raises c e f s')) ∧
        ∀ e, failed .mul e → exec (.mul h wa wb) s = .next (s.raises c e none s)) ∧
      (Ready (.div h wa wb) h [wa, wb] s →
        (good .div → (∀ p q fly s', divRes c a b s = .ok (p, q, fly) s' → Settled c s' →
          exec (.div h wa wb) s = .next (s.afterIn (s'.modCore c fun x => if fly then { x with divFly := some (p, q) }
            else { x with divFly := none, hi := x.hi.setQuo p q }) c)) ∧
          ∀ e f s', divRes c a b s = .error (.exc e f none) s' → exec (.div h wa wb) s = .next (s.raises c e f s')) ∧
        ∀ e, failed .div e → exec (.div h wa wb) s = .next (s.raises c e none s))) ∧
    ∀ (c : Fin 32) (p q : Word),
      (s.cores[c].mulFly = some (p, q) → exec (.mulComplete c) s = .next (s.modCore c fun x =>
        { x with hi := x.hi.setProd p q, mulFly := none })) ∧
      (s.cores[c].divFly = some (p, q) → exec (.divComplete c) s = .next (s.modCore c fun x =>
        { x with hi := x.hi.setQuo p q, divFly := none })) ∧
      (s.cores[c].mulFly = none → exec (.mulComplete c) s = .next s) ∧
      (s.cores[c].divFly = none → exec (.divComplete c) s = .next s)

/-- NEG and LOGADD (R43, R52, R117, R118): NEG of a FIX other than −2⁶³ is its negative, of a FLT or a plain QTY the same word with
bit 63 flipped, and of a QTY of another kind raises UNIT_KIND; LOGADD of two QTY levels of one dimension carries that dimension and
kind, and two finite ones give a value within two units in the last place of their sum as powers, rounded (the choice within that bound
is a free value: the statement holds for every one; the sum is worked out in fixed point, log entry 26). -/
def Obligations.NegAndLogadd : Prop :=
  ∀ (s : State) (h : Hdr) (wd wa wb : Fin 32) (d : BitVec 64),
    let c := h.core
    let a := s.cores[c].reg wa
    let b := s.cores[c].reg wb
    (Ready (.neg h wd wa) h [wd, wa] s →
      (a = Word.fix d → d.toInt ≠ -(2 ^ 63) → exec (.neg h wd wa) s = .next (s.afterReg c wd (Word.fix (-d)))) ∧
      (a = Word.flt d → exec (.neg h wd wa) s = .next (s.afterReg c wd (Word.flt (d ^^^ (1 <<< 63))))) ∧
      (a = Word.qty d → malformed a = false →
        (fld d 1 2 = (0 : BitVec 2) → exec (.neg h wd wa) s = .next (s.afterReg c wd (Word.qty (d ^^^ (1 <<< 63))))) ∧
        (fld d 1 2 ≠ (0 : BitVec 2) → exec (.neg h wd wa) s = .next (s.raises c .unitKind none s)))) ∧
    (Ready (.logadd h wd wa wb) h [wd, wa, wb] s →
      ∀ e : BitVec 64, a = Word.qty d → b = Word.qty e → malformed a = false → malformed b = false →
        (fld d 1 2 = (2 : BitVec 2) → fld e 1 23 = fld d 1 23 →
          ∃ v : BitVec 40, exec (.logadd h wd wa wb) s = .next (s.afterReg c wd (Word.qty (put 24 v ||| put 0 (fld d 0 24)))) ∧
            let p := ofQ40 (fld d 24 40)
            let q := ofQ40 (fld e 24 40)
            (p.isFin = true → q.isFin = true → (Fmt.qty.place v.toNat -
              Fmt.qty.place (toQ40 (fld s.cores[c].lo.stat 0 3) (FVal.ofRat (levelSum p.toRat q.toRat))).toNat).natAbs ≤ 2)) ∧
        (fld d 1 2 ≠ (2 : BitVec 2) → exec (.logadd h wd wa wb) s = .next (s.raises c .unitKind none s)))

/-- The bitwise instructions work on FIX or RAW datums as bit patterns and give the result the tag of Wa (R120): both operands of
one tag for AND to ANDN; a FIX count that is not negative for the shifts, where a count of 64 or more gives 0, or the sign fill for
SAR; NOT takes one. chk(Wa) and then chk(Wb) raise their causes, and anything else, a negative count too, raises TAG_MISMATCH. -/
def Obligations.Bitwise : Prop :=
  ∀ (s : State) (h : Hdr) (wd wa wb : Fin 32) (t : BitVec 8) (d e : BitVec 64),
    let c := h.core
    let a := s.cores[c].reg wa
    let b := s.cores[c].reg wb
    let two (i : Instr) : Prop := i = .and h wd wa wb ∨ i = .or h wd wa wb ∨ i = .xor h wd wa wb ∨ i = .andn h wd wa wb
    let shift (i : Instr) : Prop := i = .shl h wd wa wb ∨ i = .shr h wd wa wb ∨ i = .sar h wd wa wb
    ((t = 0x00 ∨ t = 0x07) → a = ⟨t, d⟩ → b = ⟨t, e⟩ →
      (Ready (.and h wd wa wb) h [wd, wa, wb] s → exec (.and h wd wa wb) s = .next (s.afterReg c wd ⟨t, d &&& e⟩)) ∧
      (Ready (.or h wd wa wb) h [wd, wa, wb] s → exec (.or h wd wa wb) s = .next (s.afterReg c wd ⟨t, d ||| e⟩)) ∧
      (Ready (.xor h wd wa wb) h [wd, wa, wb] s → exec (.xor h wd wa wb) s = .next (s.afterReg c wd ⟨t, d ^^^ e⟩)) ∧
      (Ready (.andn h wd wa wb) h [wd, wa, wb] s → exec (.andn h wd wa wb) s = .next (s.afterReg c wd ⟨t, d &&& ~~~e⟩))) ∧
    ((t = 0x00 ∨ t = 0x07) → a = ⟨t, d⟩ → b = Word.fix e → 0 ≤ e.toInt →
      (Ready (.shl h wd wa wb) h [wd, wa, wb] s →
        exec (.shl h wd wa wb) s = .next (s.afterReg c wd ⟨t, if 64 ≤ e.toNat then 0 else d <<< e.toNat⟩)) ∧
      (Ready (.shr h wd wa wb) h [wd, wa, wb] s →
        exec (.shr h wd wa wb) s = .next (s.afterReg c wd ⟨t, if 64 ≤ e.toNat then 0 else d >>> e.toNat⟩)) ∧
      (Ready (.sar h wd wa wb) h [wd, wa, wb] s →
        exec (.sar h wd wa wb) s = .next (s.afterReg c wd ⟨t, if 64 ≤ e.toNat then (if bit d 63 then BitVec.allOnes 64 else 0)
          else d.sshiftRight e.toNat⟩))) ∧
    ((t = 0x00 ∨ t = 0x07) → a = ⟨t, d⟩ → Ready (.not h wd wa) h [wd, wa] s →
      exec (.not h wd wa) s = .next (s.afterReg c wd ⟨t, ~~~d⟩)) ∧
    (∀ i, (two i ∨ shift i) → Ready i h [wd, wa, wb] s →
      (∀ x, (chkWord a = some x ∨ chkWord a = none ∧ chkWord b = some x) → exec i s = .next (s.raises c x none s)) ∧
      (chkWord a = none → chkWord b = none →
        ((a.tag ≠ 0x00 ∧ a.tag ≠ 0x07) ∨ (two i ∧ b.tag ≠ a.tag) ∨ (shift i ∧ (b.tag ≠ 0x00 ∨ b.datum.toInt < 0))) →
          exec i s = .next (s.raises c .tagMismatch none s))) ∧
    (Ready (.not h wd wa) h [wd, wa] s →
      (∀ x, chkWord a = some x → exec (.not h wd wa) s = .next (s.raises c x none s)) ∧
      (chkWord a = none → a.tag ≠ 0x00 → a.tag ≠ 0x07 → exec (.not h wd wa) s = .next (s.raises c .tagMismatch none s)))

/-- The compares of two FIX, as signed integers (R55, R121), and TAGEQ with a FIX filter (R114) write Pd, and with AW = 1 the AND of
their result and its old value; PAND, POR, PXOR and PMOV write Pd (R122); a write to P0 is ignored (R65). -/
def Obligations.ComparesAndPredicates : Prop :=
  ∀ (s : State) (h : Hdr) (aw : Bool) (pd pa pb : Fin 16) (na nb : Bool) (wa wb : Fin 32) (m n : BitVec 64),
    let c := h.core
    let x := s.cores[c]
    let a := x.reg wa
    let b := x.reg wb
    let sets (i : Instr) (rs : List (Fin 32)) (r : Bool) : Prop :=
      Ready i h rs s → exec i s = .next (s.after c fun x => x.setPred pd r)
    let old := fun r : Bool => if aw then r && x.pred pd else r
    (a = Word.fix m → b = Word.fix n →
      sets (.cmpeq h aw pd wa wb) [wa, wb] (old (decide (m = n))) ∧ sets (.cmpne h aw pd wa wb) [wa, wb] (old (decide (m ≠ n))) ∧
      sets (.cmplt h aw pd wa wb) [wa, wb] (old (decide (m.toInt < n.toInt))) ∧
      sets (.cmple h aw pd wa wb) [wa, wb] (old (decide (m.toInt ≤ n.toInt))) ∧
      sets (.cmpgt h aw pd wa wb) [wa, wb] (old (decide (n.toInt < m.toInt))) ∧
      sets (.cmpge h aw pd wa wb) [wa, wb] (old (decide (n.toInt ≤ m.toInt)))) ∧
    (b = Word.fix n → n.toNat < 65536 →
      sets (.tageq h aw pd wa wb) [wa, wb]
        (old (a.tag &&& (if fld n 8 8 = (0 : BitVec 8) then 0xFF else fld n 8 8) == fld n 0 8))) ∧
    sets (.pand h pd na pa nb pb) [] ((x.pred pa != na) && (x.pred pb != nb)) ∧
    sets (.por h pd na pa nb pb) [] ((x.pred pa != na) || (x.pred pb != nb)) ∧
    sets (.pxor h pd na pa nb pb) [] ((x.pred pa != na) != (x.pred pb != nb)) ∧
    sets (.pmov h pd na pa) [] (x.pred pa != na) ∧
    ∀ (k : Fin 16) (r : Bool), (x.setPred pd r).pred k = if k = 0 then true else if k = pd then r else x.pred k


/-! ## Control transfer and system instructions -/

/-- NOP, B, CALL, CALLI and RET (R73, R74, R78, R95 to R98): B goes to PC + SOFF; a call pushes a RETA of the next PC, chosen by the
loop-end decision where it is due, at SP − 1, and raises STACK_OVERFLOW where SP is at SLIM; CALLI goes to the entry of a code
object, or to that of a closure's, and an entry outside the code is ILLEGAL_INSTR there; RET, where no flip has left the stack unscanned
(R155), pops a RETA of the same world and level and goes there; a malformed RETA raises TAG_MISMATCH, and any other word STACK_FORMAT. -/
def Obligations.Transfers : Prop :=
  ∀ (s : State) (h : Hdr) (off : BitVec 20) (wa : Fin 32) (w : Word) (s' : State) (t : BitVec 49),
    let c := h.core
    let x := s.cores[c]
    let u := s.user c
    let pushed (s : State) : State :=
      let r := s.cores[c].loopNext x.lo.pc (x.lo.pc + 1)
      let sp := s.cores[c].sp u - 1
      s.modCore c fun _ => (r.2.pushStack u (fld sp 0 48) (mkReta r.1 (s.world c) (!u))).setSp u sp
    (Ready (.nop h) h [] s → exec (.nop h) s = .next (s.after c id)) ∧
    (Ready (.b h off) h [] s → exec (.b h off) s = .next (s.setPc c (x.lo.pc + off.signExtend 49))) ∧
    (Ready (.call h off) h [] s →
      ((x.slim u).toNat < (x.sp u).toNat →
        exec (.call h off) s = .next ((pushed s).setPc c (x.lo.pc + off.signExtend 49))) ∧
      ((x.sp u).toNat ≤ (x.slim u).toNat → exec (.call h off) s = .next (s.raises c .stackOverflow none s))) ∧
    (Ready (.calli h wa) h [wa] s → w = x.reg wa → goodPtr w = true → (w.tag = 0x47 ∨ w.tag = 0x48) →
      callTarget c w s = .ok (t, true) s' → Settled c s' → s'.user c = u → s'.cores[c].lo.pc = x.lo.pc →
      (s'.cores[c].slim u).toNat < (s'.cores[c].sp u).toNat →
        exec (.calli h wa) s = .next ((pushed s').setPc c t)) ∧
    (Ready (.calli h wa) h [wa] s → w = x.reg wa → goodPtr w = true → (w.tag = 0x47 ∨ w.tag = 0x48) →
      callTarget c w s = .ok (t, false) s' → (s'.cores[c].slim u).toNat < (s'.cores[c].sp u).toNat → s'.user c = u →
      s'.cores[c].lo.pc = x.lo.pc →
        exec (.calli h wa) s = .next ((pushed s').enter c { cause := .illegalInstr, resume := t })) ∧
    (Ready (.calli h wa) h [wa] s → chkWord (x.reg wa) = none → (x.reg wa).tag ≠ 0x47 → (x.reg wa).tag ≠ 0x48 →
      exec (.calli h wa) s = .next (s.raises c .tagMismatch none s)) ∧
    (∀ (hd : Word) (e n : BitVec 64) (s1 s2 s3 : State), goodPtr w = true → w.tag = 0x48 →
      Loads s c (ptrAddr w) hd s1 → hdrCheck hd = none → hdrKind hd = 0x09 → Loads s1 c (ptrAddr w + 1) (Word.raw e) s2 →
      Loads s2 c (ptrAddr w + 4) (Word.fix n) s3 → e.toNat < 2 * n.toNat → bit n 63 = false →
        callTarget c w s = .ok (((ptrAddr w + 5).setWidth 49 <<< 1) + e.setWidth 49, true) s3) ∧
    (Ready (.ret h) h [] s → OnStack s c (fld (x.sp u) 0 48) w s' →
      (w = mkReta t (s.world c) (!u) → s.unscanned c u = none →
        exec (.ret h) s = .next ((s'.modCore c fun x => x.popStack u 1).setPc c t)) ∧
      (w.tag ≠ 0x0B → exec (.ret h) s = .next (s.raises c .stackFormat none s')) ∧
      (w.tag = 0x0B → malformed w = true → exec (.ret h) s = .next (s.raises c .tagMismatch none s')) ∧
      (w.tag = 0x0B → malformed w = false → (fld w.datum 62 2 ≠ BitVec.ofNat 2 (s.world c).val ∨ bit w.datum 61 = u) →
        exec (.ret h) s = .next (s.raises c .stackFormat none s')))

/-- LOOP and LIT (R71, R77, R99, R100): LOOP sets LS to the next slot, LE to PC + END and LC to the count, and enters the loop with
LA = 1, or skips it with LA = 0 and LC = 0 where the count is below 1; LIT loads the word after its own, checked as R71 says, and goes
on past it. -/
def Obligations.LoopAndLit : Prop :=
  ∀ (s : State) (h : Hdr) (r : Fin 32) (stop : BitVec 15) (n : BitVec 64) (va : BitVec 48) (w : Word),
    let c := h.core
    let x := s.cores[c]
    let ls := x.lo.pc + 1
    let le := x.lo.pc + stop.setWidth 49
    let looped (lc : BitVec 64) (on : Bool) : State := s.modCore c fun x =>
      { x with lo := { x.lo with ls := ls.setWidth 64, le := le.setWidth 64, lc := lc, stat := setBit x.lo.stat 5 on } }
    (Ready (.loop h r stop) h [r] s → x.reg r = Word.fix n →
      (1 ≤ n.toInt → exec (.loop h r stop) s = .next ((looped n true).setPc c ls)) ∧
      (n.toInt < 1 → exec (.loop h r stop) s = .next ((looped 0 false).setPc c (le + 1)))) ∧
    (Ready (.loop h r stop) h [r] s →
      (∀ e, chkWord (x.reg r) = some e → exec (.loop h r stop) s = .next (s.raises c e none s)) ∧
      (chkWord (x.reg r) = none → (x.reg r).tag ≠ 0x00 → exec (.loop h r stop) s = .next (s.raises c .tagMismatch none s))) ∧
    (Ready (.lit h r) h [r] s → x.fetchBuf.find? (fun e => e.1 == pcWord x.lo.pc + 1) = some (va, w) →
      (literalCheck w = none →
        exec (.lit h r) s = .next ((s.modCore c fun x => x.setReg r w).advance c x.lo.pc .lit)) ∧
      (∀ e, literalCheck w = some e → exec (.lit h r) s = .next (s.raises c e none s)))

/-- TRAP enters with SYSCALL and EPC naming the next slot, BRK with BREAKPOINT and EPC naming itself (R101, R102). ERET in the
world of EPC takes ESTAT into STAT and EPC into PC, pops the pushed ESTAT and EPC of the level below, lowers DEPTH, and swaps
the fast bank back where STAT.FAST = 1 (R103, R183); HOLD with no window open opens one of IMM microcycles bounded by HOLDMAX,
none with IMM = 0 (R104, R201). -/
def Obligations.SupervisorControl : Prop :=
  ∀ (s : State) (h : Hdr) (imm : BitVec 15) (st ep : Word) (s1 s2 : State),
    let c := h.core
    let x := s.cores[c]
    let n := min imm.toNat (fld s.worlds[s.world c].holdmax 0 12).toNat
    let y := (s2.cores[c].eret ep st).2
    (Ready (.trap h imm) h [] s → exec (.trap h imm) s =
      .next ((s.setPc c (x.lo.pc + 1)).enter c { cause := .syscall, resume := x.lo.pc + 1, atLe := x.atLoopEnd x.lo.pc })) ∧
    (Ready (.brk h imm) h [] s → exec (.brk h imm) s = .next (s.raises c .breakpoint none s)) ∧
    (Ready (.eret h) h [] s → s.user c = false →
      ((fld x.lo.epc 62 2 ≠ BitVec.ofNat 2 (s.world c).val ∨ bit x.lo.epc 61 ≠ bit x.lo.estat 13) →
        exec (.eret h) s = .next (s.raises c .privilege none s)) ∧
      (fld x.lo.epc 62 2 = BitVec.ofNat 2 (s.world c).val → bit x.lo.epc 61 = bit x.lo.estat 13 →
        OnStack s c (fld x.lo.spS 0 48) st s1 → OnStack s1 c (fld x.lo.spS 0 48 + 1) ep s2 →
        (st.tag = 0x07 → ep.tag = 0x0B → malformed ep = false → fld ep.datum 62 2 = BitVec.ofNat 2 (s.world c).val →
          exec (.eret h) s = .next ((s2.modCore c fun _ => y).setPc c (s2.cores[c].eret ep st).1) ∧
          y.lo.spS = x.lo.spS + 2 ∧ y.lo.epc = ep.datum ∧ y.lo.estat = (fld st.datum 0 16).setWidth 64 ∧
          y.lo.depth = (if x.lo.depth = 0 then 0 else x.lo.depth - 1) ∧ y.bank = (x.bank && !(bit x.lo.stat 14)) ∧
          (bit x.lo.estat 6 = false → (s2.cores[c].eret ep st).1 = retaPc x.lo.epc ∧
            y.lo.stat = setBit (put 0 (fld x.lo.estat 0 16)) 15 false)) ∧
        ((st.tag ≠ 0x07 ∨ ep.tag ≠ 0x0B ∨ malformed ep = false ∧ fld ep.datum 62 2 ≠ BitVec.ofNat 2 (s.world c).val) →
          exec (.eret h) s = .next (s.raises c .stackFormat none s2)) ∧
        (st.tag = 0x07 → ep.tag = 0x0B → malformed ep = true → exec (.eret h) s = .next (s.raises c .tagMismatch none s2)))) ∧
    (Ready (.hold h imm) h [] s → s.user c = false →
      exec (.hold h imm) s = .next (s.after c fun x =>
        { x with holdCount := n, lo := { x.lo with stat := setBit x.lo.stat 15 (n != 0) } }))

/-- FENCE makes every earlier spill and store and makes them visible; FENCE.I empties the fetch buffer and the L1 instruction cache too
(R85, R105). Where a spill cannot be made its cause is raised. TLBI Wa removes the translations of the world, of any size, that cover
the address, TLBI WORLD those that are not global, TLBI WORLDG all, from the TLBs of every core and the shared TLB of every cluster,
and the stage-1 walk-cache entries on the path of the address, or all of the world (R106, R231). Nothing else changes. -/
def Obligations.FencesAndInvalidation : Prop :=
  ∀ (s : State) (h : Hdr) (wa : Fin 32) (d : BitVec 64) (s' : State),
    let c := h.core
    let x := s.cores[c]
    let v := s.world c
    let a : BitVec 48 := fld d 0 48
    let emptied (s : State) : State := s.modCore c fun x => { x with fetchBuf := [], l1i := [] }
    let clears (i : Instr) (gone : TlbEntry → Prop) (walk : WalkEntry → Prop) : Prop :=
      ∃ t : State, exec i s = .next (s.afterIn t c) ∧ t = { s with cores := t.cores, clusters := t.clusters } ∧
        (∀ k : Fin 32, t.cores[k] = { s.cores[k] with itlb := t.cores[k].itlb, dtlb := t.cores[k].dtlb } ∧
          ∀ e, (e ∈ t.cores[k].itlb ↔ e ∈ s.cores[k].itlb ∧ ¬ gone e) ∧ (e ∈ t.cores[k].dtlb ↔ e ∈ s.cores[k].dtlb ∧ ¬ gone e)) ∧
        ∀ k : Fin 8, t.clusters[k] = { s.clusters[k] with sharedTlb := t.clusters[k].sharedTlb, walkCache := t.clusters[k].walkCache } ∧
          (∀ e, e ∈ t.clusters[k].sharedTlb ↔ e ∈ s.clusters[k].sharedTlb ∧ ¬ gone e) ∧
          ∀ e, e ∈ t.clusters[k].walkCache ↔ e ∈ s.clusters[k].walkCache ∧ ¬ walk e
    (Ready (.fence h) h [] s → x.stackBufU = [] → x.stackBufS = [] →
      exec (.fence h) s = .next (s.afterIn (s.drainStores c) c) ∧ s.Calm (s.drainStores c) ∧ (s.drainStores c).cores[c].storeBuf = []) ∧
    (Ready (.fenceI h) h [] s → x.stackBufU = [] → x.stackBufS = [] →
      exec (.fenceI h) s = .next (s.afterIn (emptied (s.drainStores c)) c)) ∧
    (fenceAll c s = .ok () s' → x.stackMarks = [] →
      s'.cores[c].stackBufU = [] ∧ s'.cores[c].stackBufS = [] ∧ s'.cores[c].storeBuf = []) ∧
    (fenceAll c s = .ok () s' → Settled c s' →
      (Ready (.fence h) h [] s → exec (.fence h) s = .next (s.afterIn s' c)) ∧
      (Ready (.fenceI h) h [] s → exec (.fenceI h) s = .next (s.afterIn (emptied s') c))) ∧
    (∀ e f, fenceAll c s = .error (.exc e f none) s' →
      (Ready (.fence h) h [] s → exec (.fence h) s = .next (s.raises c e f s')) ∧
      (Ready (.fenceI h) h [] s → exec (.fenceI h) s = .next (s.raises c e f s'))) ∧
    (s.user c = false →
      (Ready (.tlbiVa h wa) h [wa] s → x.reg wa = Word.raw d →
        clears (.tlbiVa h wa) (fun e => e.covers v a = true) fun e => e.world = v ∧
          e.prefix_ = a.toNat / 2 ^ (9 * (rootLevels s.worlds[v].s1root - e.level))) ∧
      (Ready (.tlbiVa h wa) h [wa] s → ∀ e, chkWord (x.reg wa) = some e → exec (.tlbiVa h wa) s = .next (s.raises c e none s)) ∧
      (Ready (.tlbiVa h wa) h [wa] s → chkWord (x.reg wa) = none → (x.reg wa).tag ≠ 0x07 →
        exec (.tlbiVa h wa) s = .next (s.raises c .tagMismatch none s)) ∧
      (Ready (.tlbiWorld h) h [] s → clears (.tlbiWorld h) (fun e => e.world = v ∧ e.global = false) fun e => e.world = v) ∧
      (Ready (.tlbiWorldg h) h [] s → clears (.tlbiWorldg h) (fun e => e.world = v) fun e => e.world = v))

/-! ## Memory instructions -/

/-- LDW, LDWS, LDX, LDF and LDS (R92, R123, R125, R126, R128) in ordinary memory: Wd takes the word that the core sees at the address,
the barrier doing nothing; LDX takes any word without barrier; a word that lchk refuses raises its cause; a translation fault raises
LOAD_FAULT or ACCESS_FLAG with FADDR and FINFO. Through a DEVREF LDW and LDF read the register of the block, or raise PRIVILEGE (R21).
LDF checks the header and its bounds. A base of another tag raises TAG_MISMATCH. A load that finds its burst still to come (`wait` of the
header) leaves the core at the instruction, to be executed again (R238, log entry 147). -/
def Obligations.LoadsDeliver : Prop :=
  ∀ (s : State) (h : Hdr) (wd wa wb : Fin 32) (off : BitVec 10) (imm : BitVec 15) (w : Word) (s' : State) (t : Tr),
    let c := h.core
    let x := s.cores[c]
    let a := x.reg wa
    let va := ptrAddr a + off48 off
    let into (s' : State) : State := s.afterIn (s'.modCore c fun x => x.setReg wd w) c
    (Ready (.ldw h wd wa off) h [wd, wa] s →
      (goodPtr a = true → Loads s c va w s' →
        (lchkWord w = none → exec (.ldw h wd wa off) s = .next (into s')) ∧
        ∀ e, lchkWord w = some e → exec (.ldw h wd wa off) s = .next (s.raises c e none s')) ∧
      (goodPtr a = true → ∀ f, translate s c (s.world c) (s.user c) .read va = (.error f, s') →
        exec (.ldw h wd wa off) s = .next (s.raises c (f.cause .read) (some (va, f.finfo .read 0))
          (s'.countStage2 (s.world c) f))) ∧
      (goodRef a = true → s.refOk a.datum off.toNat false = true → let s1 := s.drainStores c
        (s1.blockLoad (s1.whoCore c) (refBlock a.datum) off.toNat = .ok (w, s') → lchkWord w = none → Settled c s' →
          exec (.ldw h wd wa off) s = .next (into s')) ∧
        ((s1.blockLoad (s1.whoCore c) (refBlock a.datum) off.toNat = .error ()) →
          exec (.ldw h wd wa off) s = .next (s.raises c .privilege none s1))) ∧
      (goodRef a = true → s.refOk a.datum off.toNat false = false →
        exec (.ldw h wd wa off) s = .next (s.raises c .privilege none s)) ∧
      (chkWord a = none → goodPtr a = false → goodRef a = false →
        exec (.ldw h wd wa off) s = .next (s.raises c .tagMismatch none s)) ∧
      (∀ e, chkWord a = some e → exec (.ldw h wd wa off) s = .next (s.raises c e none s)) ∧
      (goodPtr a = true → Reaches .read s c va t → x.stackHit va = none →
        let s1 := (s.modCore c fun x => { x with waits := true }).cacheRead c t.pa false t.page
        let b := sectorOf t.pa.toNat
        s1.clusters[clusterOf c].sector b = .filling →
          exec (.ldw { h with wait := true } wd wa off) s =
            .next ((s1.modCore c fun x => { x with awaits := some b }).modCore c fun x => { x with waits := false }))) ∧
    (Ready (.ldws h wd wa off) h [wd, wa] s → goodPtr a = true → Reaches .read s c va t → w = s.sees c t va →
      s.quietWord c w → lchkWord w = none → exec (.ldws h wd wa off) s = .next (into (s.loaded c t va true))) ∧
    (Ready (.ldx h wd wa off) h [wd, wa] s → s.user c = false → (a.tag = 0x07 ∨ goodPtr a = true) →
      Reaches .read s c va t → w = s.sees c t va → exec (.ldx h wd wa off) s = .next (into (s.loaded c t va false))) ∧
    (Ready (.ldf h wd wa wb) h [wd, wa, wb] s → goodPtr a = true →
      ∀ (n : BitVec 64) (hd : Word) (s1 : State), x.reg wb = Word.fix n → Loads s c (ptrAddr a) hd s1 →
        (∀ e, hdrCheck hd = some e → exec (.ldf h wd wa wb) s = .next (s.raises c e none s1)) ∧
        (hdrCheck hd = none →
          (1 ≤ n.toInt → n.toInt ≤ hdrLen hd → Loads s1 c (ptrAddr a + fld n 0 48) w s' → lchkWord w = none →
            exec (.ldf h wd wa wb) s = .next (into s')) ∧
          (n.toInt < 1 ∨ (hdrLen hd : Int) < n.toInt → exec (.ldf h wd wa wb) s = .next (s.raises c .tagMismatch none s1)))) ∧
    (Ready (.ldf h wd wa wb) h [wd, wa, wb] s → goodRef a = true → ∀ n : BitVec 64, x.reg wb = Word.fix n → n.toNat < 65536 →
      (s.refOk a.datum n.toNat false = true → let s1 := s.drainStores c
        (s1.blockLoad (s1.whoCore c) (refBlock a.datum) n.toNat = .ok (w, s') → lchkWord w = none → Settled c s' →
          exec (.ldf h wd wa wb) s = .next (into s')) ∧
        (s1.blockLoad (s1.whoCore c) (refBlock a.datum) n.toNat = .error () →
          exec (.ldf h wd wa wb) s = .next (s.raises c .privilege none s1))) ∧
      (s.refOk a.datum n.toNat false = false → exec (.ldf h wd wa wb) s = .next (s.raises c .privilege none s))) ∧
    (Ready (.lds h wd imm) h [wd] s → s.unscanned c (s.user c) = none → Loads s c (fld (x.sp (s.user c)) 0 48 + imm.setWidth 48) w s' → lchkWord w = none →
      exec (.lds h wd imm) s = .next (into s'))

/-- STW, STX, STF and STS (R92, R124, R125, R126, R128) in ordinary memory: the word goes to the address, with the card that the
write barrier marks for STW and STF; STS below 32 goes into the stack buffer; heap-internal words, a base of another tag, an index out
of bounds raise TAG_MISMATCH and store nothing; STX stores no PENDING word; a translation fault raises its cause. Through a DEVREF STW and
STF store to the register of the block, or raise PRIVILEGE. No register changes. -/
def Obligations.StoresPut : Prop :=
  ∀ (s : State) (h : Hdr) (ws wa wb : Fin 32) (off : BitVec 10) (imm : BitVec 15) (s' : State) (t : Tr),
    let c := h.core
    let x := s.cores[c]
    let a := x.reg wa
    let w := x.reg ws
    let va := ptrAddr a + off48 off
    let ends (i : Instr) (s' : State) : Prop := exec i s = .next (s.afterIn s' c)
    (Ready (.stw h ws wa off) h [ws, wa] s →
      (goodPtr a = true → schkWord w = none → heapInternal w = false → Reaches .write s c va t →
        ends (.stw h ws wa off) (s.stored c t va w (s.cardMark c (s.world c) va w))) ∧
      (goodPtr a = true → schkWord w = none → heapInternal w = false →
        ∀ f, translate s c (s.world c) (s.user c) .write va = (.error f, s') →
          exec (.stw h ws wa off) s = .next (s.raises c (f.cause .write) (some (va, f.finfo .write 0))
            (s'.countStage2 (s.world c) f))) ∧
      (goodRef a = true → schkWord w = none → heapInternal w = false → s.refOk a.datum off.toNat true = true →
        (s.drainStores c).blockStore ((s.drainStores c).whoCore c) (refBlock a.datum) off.toNat w = .ok s' → Settled c s' →
          ends (.stw h ws wa off) s') ∧
      (goodRef a = true → schkWord w = none → heapInternal w = false →
        (s.refOk a.datum off.toNat true = false → exec (.stw h ws wa off) s = .next (s.raises c .privilege none s)) ∧
        (s.refOk a.datum off.toNat true = true →
          (s.drainStores c).blockStore ((s.drainStores c).whoCore c) (refBlock a.datum) off.toNat w = .error () →
            exec (.stw h ws wa off) s = .next (s.raises c .privilege none (s.drainStores c)))) ∧
      (chkWord a = none → schkWord w = none → (goodPtr a || goodRef a) = false ∨ heapInternal w = true →
        exec (.stw h ws wa off) s = .next (s.raises c .tagMismatch none s)) ∧
      ∀ e, (chkWord a = some e ∨ chkWord a = none ∧ schkWord w = some e) →
        exec (.stw h ws wa off) s = .next (s.raises c e none s)) ∧
    (Ready (.stx h ws wa off) h [ws, wa] s → s.user c = false → (a.tag = 0x07 ∨ goodPtr a = true) → w.tag ≠ 0xFD →
      Reaches .write s c va t → ends (.stx h ws wa off) (s.stored c t va w none)) ∧
    (Ready (.stx h ws wa off) h [ws, wa] s → s.user c = false → chkWord a = none →
      ((a.tag ≠ 0x07 ∧ goodPtr a = false) → exec (.stx h ws wa off) s = .next (s.raises c .tagMismatch none s)) ∧
      ((a.tag = 0x07 ∨ goodPtr a = true) → w.tag = 0xFD → exec (.stx h ws wa off) s = .next (s.raises c .pendingUse none s))) ∧
    (Ready (.stf h ws wa wb) h [ws, wa, wb] s → goodPtr a = true → schkWord w = none → heapInternal w = false →
      ∀ (n : BitVec 64) (hd : Word) (s1 : State), x.reg wb = Word.fix n → Loads s c (ptrAddr a) hd s1 → hdrCheck hd = none →
        (1 ≤ n.toInt → n.toInt ≤ hdrLen hd → Reaches .write s1 c (ptrAddr a + fld n 0 48) t →
          ends (.stf h ws wa wb) (s1.stored c t (ptrAddr a + fld n 0 48) w
            (s1.cardMark c (s1.world c) (ptrAddr a + fld n 0 48) w))) ∧
        (n.toInt < 1 ∨ (hdrLen hd : Int) < n.toInt → exec (.stf h ws wa wb) s = .next (s.raises c .tagMismatch none s1))) ∧
    (Ready (.stf h ws wa wb) h [ws, wa, wb] s → goodRef a = true → schkWord w = none → heapInternal w = false →
      ∀ n : BitVec 64, x.reg wb = Word.fix n → n.toNat < 65536 →
        (s.refOk a.datum n.toNat true = true → Settled c s' →
          (s.drainStores c).blockStore ((s.drainStores c).whoCore c) (refBlock a.datum) n.toNat w = .ok s' →
            ends (.stf h ws wa wb) s') ∧
        (s.refOk a.datum n.toNat true = false → exec (.stf h ws wa wb) s = .next (s.raises c .privilege none s))) ∧
    (Ready (.sts h ws imm) h [ws] s → schkWord w = none →
      let va := fld (x.sp (s.user c)) 0 48 + imm.setWidth 48
      Reaches .write s c va t →
        (imm.toNat < 32 → ends (.sts h ws imm) (s.modCore c fun x => x.pushStack (s.user c) va w)) ∧
        (32 ≤ imm.toNat → ends (.sts h ws imm) (s.stored c t va w none)))

/-- The stores of a core become visible in order (R84): a drain takes the oldest word of the store buffer to memory, where every agent
reads it; every other word of memory reads as before, but for a card that a full card queue sets first (R152). A drain of the card queue
sets one card bit and keeps every other word of memory. A spill takes the oldest word of a stack buffer, where it carries no flip mark,
to the store buffer (R76). No register of any core changes. -/
def Obligations.DrainsMakeVisible : Prop :=
  ∀ (s : State) (c : Fin 32) (k : Fin 8) (user : Bool) (e : StoreEntry) (r : List StoreEntry),
    s.Sound → s.cores[c].stopped = false →
    (s.cores[c].storeBuf = e :: r → s.inDram e.pa.toNat = true →
      ∃ t : State, exec (.storeBufferDrain c) s = .next t ∧ s.Calm t ∧ t.cores[c].storeBuf = r ∧
        t.peek e.pa.toNat = e.word ∧
        (e.card = none ∨ s.clusters[clusterOf c].cardQueue.length < 64 → ∀ a, a ≠ e.pa.toNat → t.peek a = s.peek a) ∧
        ∀ m, e.card = some m → m ∈ t.clusters[clusterOf c].cardQueue) ∧
    (∀ (w : Fin 2) (n : Nat) (q : List (Fin 2 × Nat)), s.clusters[k].cardQueue = (w, n) :: q →
      let a := s.worlds[w].heap.cards.toNat + n / 64
      s.inDram a = true →
        ∃ t : State, exec (.cardQueueDrain k) s = .next t ∧ s.Calm t ∧ t.clusters[k].cardQueue = q ∧
          t.peek a = Word.raw (setBit (s.peek a).datum (n % 64) true) ∧ ∀ b, b ≠ a → t.peek b = s.peek b) ∧
    (∀ (va : BitVec 48) (w : Word) (q : List StackEntry) (t : Tr), s.cores[c].spills = [] → s.cores[c].running = true →
      (user = s.user c ∨ user = !(s.user c) ∧ s.cores[c].stackBuf (s.user c) = []) → s.cores[c].stackBuf user = ⟨va, w⟩ :: q →
      let s1 := s.modCore c fun x => x.setStackBuf user q
      s1.cores[c].stackHit va = none → va ∉ s.cores[c].stackMarks →
      translate s1 c (s.world c) user .write va = (.ok t, s1) → t.se = false → s.inDram t.pa.toNat = true →
        exec (.stackSpill c) s = .next (s1.pushStore c (s.storeOf c t w none))) ∧
    (∀ (e : SpillEntry) (q : List SpillEntry) (t : Tr), s.cores[c].spills = e :: q →
      let s1 := s.modCore c fun x => { x with spills := q }
      s1.cores[c].stackHit e.va = none → e.va ∉ s.cores[c].stackMarks →
      translate s1 c e.world e.user .write e.va = (.ok t, s1) → t.se = false → s.inDram t.pa.toNat = true →
        exec (.stackSpill c) s = .next (s1.pushStore c (s.storeOf c t e.word none)))

/-- LDB and STB take and replace one byte of a RAW, PK32, PK16 or INSTR word in its register, or of a string in memory, bounded by its
byte count (R127); SPADJ moves SP up where no flip has left the stack unscanned (R155), or down, covering newly used words with
CONST:NIL, and raises STACK_OVERFLOW below SLIM (R75, R128). -/
def Obligations.BytesAndSpadj : Prop :=
  ∀ (s : State) (h : Hdr) (wd wa wb : Fin 32) (imm : BitVec 15) (n v : BitVec 64),
    let c := h.core
    let x := s.cores[c]
    let a := x.reg wa
    let u := s.user c
    let byte (w : Word) : Word := Word.fix ((byteOf w.datum (n.toNat % 8)).setWidth 64)
    (x.reg wb = Word.fix n → chkWord a = none →
      (Ready (.ldb h wd wa wb) h [wd, wa, wb] s →
        (byteWord a = true → n.toNat < 8 → exec (.ldb h wd wa wb) s = .next (s.afterReg c wd (byte a))) ∧
        (byteWord a = true → 8 ≤ n.toNat → exec (.ldb h wd wa wb) s = .next (s.raises c .tagMismatch none s)) ∧
        (∀ (hd w : Word) (m : BitVec 64) (s1 s2 s3 : State), a.tag = 0x42 → goodPtr a = true →
          Loads s c (ptrAddr a) hd s1 → hdrCheck hd = none → hdrKind hd = 0x03 → Loads s1 c (ptrAddr a + 1) (Word.fix m) s2 →
          0 ≤ n.toInt → n.toInt < m.toInt → Loads s2 c (ptrAddr a + 2 + BitVec.ofNat 48 (n.toNat / 8)) w s3 →
          w.tag = 0x07 → exec (.ldb h wd wa wb) s = .next (s.afterIn (s3.modCore c fun x => x.setReg wd (byte w)) c))) ∧
      (Ready (.stb h wd wa wb) h [wd, wa, wb] s → x.reg wd = Word.fix v → v.toNat < 256 →
        (byteWord a = true → n.toNat < 8 → exec (.stb h wd wa wb) s =
          .next (s.afterReg c wa { a with datum := setByte a.datum n.toNat (fld v 0 8) })) ∧
        (∀ (hd w : Word) (m : BitVec 64) (s1 s2 : State) (t : Tr), a.tag = 0x42 → goodPtr a = true →
          Loads s c (ptrAddr a) hd s1 → hdrCheck hd = none → hdrKind hd = 0x03 → Loads s1 c (ptrAddr a + 1) (Word.fix m) s2 →
          0 ≤ n.toInt → n.toInt < m.toInt →
          let va := ptrAddr a + 2 + BitVec.ofNat 48 (n.toNat / 8)
          Reaches .rmw s2 c va t → s2.cores[c].stackHit va = none →
          w = (s2.drainStores c).peek t.pa.toNat → w.tag = 0x07 →
            let s3 := (s2.drainStores c).drainStores c
            exec (.stb h wd wa wb) s = .next (s.afterIn (s3.storeWatched c
              (s3.storeOf c t { w with datum := setByte w.datum (n.toNat % 8) (fld v 0 8) } none)) c)))) ∧
    (Ready (.spadj h imm) h [] s →
      (0 ≤ imm.toInt → s.unscanned c u = none → exec (.spadj h imm) s = .next (s.after c fun x => x.popStack u imm.toNat)) ∧
      (imm.toInt < 0 → ((x.slim u).toNat : Int) ≤ (x.sp u).toNat + imm.toInt →
        exec (.spadj h imm) s = .next ((s.after c fun x =>
          (x.coverNil u (fld (x.sp u) 0 48) (-imm.toInt).toNat).setSp u (x.sp u + imm.signExtend 64)).boundary c)) ∧
      (imm.toInt < 0 → ((x.sp u).toNat : Int) + imm.toInt < (x.slim u).toNat →
        exec (.spadj h imm) s = .next (s.raises c .stackOverflow none s)))

/-- ALLOC (R129, R156): a small object comes from the region of the context: its header at ALLOCP with the length, the kind and age 0,
every field CONST:NIL, ALLOCP past it, the words counted (R164), and Wd a pointer of the kind's tag; bad operands raise TAG_MISMATCH; a DRAWER or CONTEXT at user
level raises PRIVILEGE; any other allocation is what the shared operation delivers, or ALLOC_FAIL with the region as it was. -/
def Obligations.AllocDelivers : Prop :=
  ∀ (s : State) (h : Hdr) (wd wa wb : Fin 32) (n k : BitVec 64) (s1 s' : State),
    let c := h.core
    let x := s.cores[c]
    let a := x.reg wa
    let b := x.reg wb
    let tag : BitVec 8 := fld k 8 8
    let p := x.lo.allocp
    let body := List.replicate n.toNat Word.nil
    Ready (.alloc h wd wa wb) h [wd, wa, wb] s →
    (a = Word.fix n → b = Word.fix k → allocOk a b = true → (s.user c = true → tag ≠ 0x4B ∧ tag ≠ 0x4C) →
      (n.toNat ≤ 256 → kindPinned (k.toNat % 256) = false → p.toNat + n.toNat + 1 ≤ x.lo.allocl.toNat →
        x.lo.allocl.toNat < 2 ^ 48 → s.condemned c (s.world c) (fld p 0 48) = false →
        s1 = (s.modCore c fun x => { x with lo := { x.lo with allocp := p + n + 1 } }) →
        Stores c s1 (fld p 0 48) (mkHdr n.toNat (k.toNat % 256) 0 :: body) s' → Settled c s' →
          exec (.alloc h wd wa wb) s =
            .next (s.afterIn ((s'.countAlloc (n.toNat + 1)).modCore c fun x => x.setReg wd (ptrTo tag (fld p 0 48))) c)) ∧
      (∀ q s', allocSafe c (k.toNat % 256) body s = .ok q s' → Settled c s' →
        exec (.alloc h wd wa wb) s = .next (s.afterIn (s'.modCore c fun x => x.setReg wd (ptrTo tag q)) c)) ∧
      ∀ e f s', allocSafe c (k.toNat % 256) body s = .error (.exc e f none) s' →
        exec (.alloc h wd wa wb) s = .next (s.raises c e f s')) ∧
    (chkWord a = none → chkWord b = none → allocOk a b = false →
      exec (.alloc h wd wa wb) s = .next (s.raises c .tagMismatch none s)) ∧
    (a = Word.fix n → b = Word.fix k → allocOk a b = true → s.user c = true → (tag = 0x4B ∨ tag = 0x4C) →
      exec (.alloc h wd wa wb) s = .next (s.raises c .privilege none s))

/-! ## Waiting, messages, clamps, saves, lathe jobs -/

/-- WAIT consumes the oldest latched line bound to its context, the lower number among equal stamps, and delivers the number; with none
it blocks, or times out once its deadline has ended (R130, R172). SIGNAL raises a line that software may raise (R131). SEND hands a
message of its world to the links when every earlier store is visible (R137), and where its port has no room (`wait` of the header) is
taken back to its start (R94, log entry 147); RECV takes the oldest word of the queues bound to its
context, or blocks (R138, R400). -/
def Obligations.WaitsAndMessages : Prop :=
  ∀ (s : State) (h : Hdr) (wd wa : Fin 32) (d : Option (BitVec 64)),
    let c := h.core
    let x := s.cores[c]
    let a := x.reg wa
    let v := s.world c
    let timedOut : State := s.raises c .waitTimeout none (s.modSlot c x.slot fun k =>
      { k with block := none, timedOut := false, granted := false })
    (Ready (.wait h wd wa) h [wd, wa] s → DeadlineOf s a d →
      (∀ n, s.oldestLine c d = some n → exec (.wait h wd wa) s =
        .next (s.afterIn ((s.consume n).modCore c fun x => x.setReg wd (Word.fix (BitVec.ofNat 64 n.val))) c)) ∧
      (s.oldestLine c d = none →
        (s.deadlineOver d = true → exec (.wait h wd wa) s = .next timedOut) ∧
        (s.deadlineOver d = false → exec (.wait h wd wa) s = .next (s.blockContext c .waiting (.wait d))))) ∧
    (Ready (.signal h wa) h [wa] s → ∀ n : Fin 256, a = Word.fix (BitVec.ofNat 64 n.val) →
      (s.jig.ev[n].swr = true → Settled c (s.raise n) → exec (.signal h wa) s = .next (s.afterIn (s.raise n) c)) ∧
      (s.jig.ev[n].swr = false → exec (.signal h wa) s = .next (s.raises c .privilege none s))) ∧
    (Ready (.send h wd wa) h [wd, wa] s → chkWord (x.reg wd) = none → chkWord a = none →
      let t := (s.drainStores c).kmOriginate (fld (x.reg wd).datum 0 12) (.message v (fld (x.reg wd).datum 14 4).toFin a)
      (sendDest v (x.reg wd) = true → sendable a = true → x.stackBufU = [] → x.stackBufS = [] →
        (x.waits = false → Settled c t → exec (.send h wd wa) s = .next (s.afterIn t c)) ∧
        exec (.send { h with wait := true } wd wa) s = .next (((s.modCore c fun x => { x with waits := true }).drainStores c).modCore c
          fun x => { x with waits := false })) ∧
      (sendDest v (x.reg wd) = false ∨ sendable a = false →
        exec (.send h wd wa) s = .next (s.raises c .tagMismatch none s))) ∧
    (Ready (.recv h wd wa) h [wd, wa] s → DeadlineOf s a d →
      (∀ q i t w, s.oldestEntry c d = some (q, i, t, w) → exec (.recv h wd wa) s =
        .next (s.afterIn ((s.modRq v q fun r => { r with entries := r.entries.eraseIdx i }).modCore c fun x =>
          x.setReg wd w) c)) ∧
      (s.oldestEntry c d = none →
        (s.deadlineOver d = true → exec (.recv h wd wa) s = .next timedOut) ∧
        (s.deadlineOver d = false → exec (.recv h wd wa) s = .next (s.blockContext c .receiving (.recv d)))))

/-- CLAMP takes a free clamp for its context and delivers CONST:TRUE, and so it does where the clamp was granted to this code while a
handler of it ran; a clamp held by another adds a waiter and blocks; one held by its own context, or by a chain of waiters that ends
there within eight hops, raises CLAMP_DEADLOCK; a deadline that has ended raises CLAMP_TIMEOUT (R87, R132, R187). UNCLAMP by the owner
frees a clamp without waiters, and hands one with waiters to the waiter that ranks highest, which becomes READY (R133, R186). By any
other context it raises TAG_MISMATCH. -/
def Obligations.Clamps : Prop :=
  ∀ (s : State) (h : Hdr) (wd wa : Fin 32) (off : BitVec 10) (t : Tr) (w : Word) (d : Option (BitVec 64)),
    let c := h.core
    let x := s.cores[c]
    let a := x.reg wa
    let va := ptrAddr a + off48 off
    let me : Fin 32 × Fin 64 := (c, x.slot)
    let s1 := s.drainStores c
    let s2 := s1.loaded c t va false
    let put (s : State) (w : Word) : State := (s.drainStores c).storeWatched c ((s.drainStores c).storeOf c t w none)
    let s3 := s2.modSlot c x.slot fun k => { k with grants := k.grants.filter fun g => g.2 != t.pa }
    goodPtr a = true → s.quietWord c a → x.stackBufU = [] → x.stackBufS = [] →
    Reaches .rmw s1 c va t → w = s1.sees c t va → w.tag = 0x0D → malformed w = false →
    (Ready (.clamp h wd wa off) h [wd, wa] s → DeadlineOf s (x.reg wd) d →
      ((x.lo.depth, t.pa) ∈ (s.running c).grants → clmpHeld w = true → clmpOwner w = me →
        exec (.clamp h wd wa off) s = .next (s.afterIn (s3.modCore c fun x => x.setReg wd Word.true) c)) ∧
      (clmpHeld w = false → exec (.clamp h wd wa off) s =
        .next (s.afterIn ((put s2 (mkClmp c x.slot (clmpWaiters w))).modCore c fun x => x.setReg wd Word.true) c)) ∧
      (((x.lo.depth, t.pa) ∉ (s.running c).grants ∨ clmpOwner w ≠ me) → clmpHeld w = true →
        (s2.clampChain me 8 (clmpOwner w) = true → exec (.clamp h wd wa off) s = .next (s.raises c .clampDeadlock none s2)) ∧
        (s2.clampChain me 8 (clmpOwner w) = false →
          (s.deadlineOver d = false → exec (.clamp h wd wa off) s =
            .next ((put s2 { w with datum := setFld w.datum 16 (satInc (clmpWaiters w)) }).blockContext c .clamped
              (.clamp t.pa d s.now))) ∧
          (s.deadlineOver d = true → exec (.clamp h wd wa off) s = .next (s.raises c .clampTimeout none
            (s2.modSlot c x.slot fun k => { k with block := none, timedOut := false, granted := false })))))) ∧
    (Ready (.unclamp h wa off) h [wa] s →
      (clmpHeld w = true → clmpOwner w = me → (clmpWaiters w = 0 ∨ s3.waitersOf t.pa = []) →
        exec (.unclamp h wa off) s = .next (s.afterIn (put s3 (freeClmp (clmpWaiters w))) c)) ∧
      (clmpHeld w = true → clmpOwner w = me → clmpWaiters w ≠ 0 → ∀ y, minBy s3.waiterKey (s3.waitersOf t.pa) = some y →
        let s4 := ((put s3 (mkClmp y.1 y.2 (clmpWaiters w - 1))).modSlot y.1 y.2 fun k => { k with granted := true }).makeReady y.1 y.2
        Settled c s4 → exec (.unclamp h wa off) s = .next (s.afterIn s4 c)) ∧
      (clmpHeld w = false ∨ clmpOwner w ≠ me → exec (.unclamp h wa off) s = .next (s.raises c .tagMismatch none s2)))

/-- SAVEL and SAVEU write a record of their half into a drawer, RESTL and RESTU restore one (R134, R176, R177): where CTXCFG.SAVE = 1
they raise ILLEGAL_INSTR. RESTL goes on at the restored PC with the restored lower half, RESTU puts the record into the upper half. STM
and LDM move the registers of a mask to and from the fields of an object in ascending order (R135, R178): where SAVE = 0 they raise
ILLEGAL_INSTR. -/
def Obligations.SavesAndMultiples : Prop :=
  ∀ (s : State) (h : Hdr) (wa wb : Fin 32) (steps : Nat) (s' : State) (ws : List Word),
    let c := h.core
    let x := s.cores[c]
    let save := bit s.worlds[s.world c].ctxcfg 0
    let a := x.reg wa
    (s.user c = false →
      (Ready (.savel h) h [] s → save = false → Performs (.savel h) h (saveRecord c 0 fun s => s.savelRecord c) s) ∧
      (Ready (.saveu h) h [] s → save = false → x.ownsUpper = true → x.mulFly = none → x.divFly = none →
        Performs (.saveu h) h (saveRecord c 1 fun s => s.cores[c].upperWords) s) ∧
      (Ready (.restl h) h [] s → save = false → restRecord c 0 36 s = .ok ws s' →
        Settled c (s'.modCore c fun x => x.restLower ws) → exec (.restl h) s =
          .next ((s'.modCore c fun x => x.restLower ws).setPc c (retaPc (ws.getD 17 Word.zero).datum))) ∧
      (Ready (.restu h) h [] s → save = false → x.ownsUpper = true → restRecord c 1 20 s = .ok ws s' → Settled c s' →
        exec (.restu h) s =
          .next (s.afterIn (s'.modCore c fun x => { x with hi := upperOf ws, mulFly := none, divFly := none }) c)) ∧
      (save = true → ∀ i, (i = .savel h ∨ i = .saveu h ∨ i = .restl h ∨ i = .restu h) → Ready i h [] s →
        exec i s = .next (s.raises c .illegalInstr none s))) ∧
    (∀ i, (i = .stm h wa wb steps ∨ i = .ldm h wa wb steps) → Ready i h [wa, wb] s → save = false →
      exec i s = .next (s.raises c .illegalInstr none s)) ∧
    (∀ (r : Fin 32) (hd w : Word) (s1 : State), save = true → goodPtr a = true →
      (a.tag = 0x41 ∨ a.tag = 0x4A ∨ a.tag = 0x4B) → x.reg wb = Word.fix (1 <<< r.val) → fld x.lo.stat 7 6 = (0 : BitVec 6) →
      Loads s c (ptrAddr a) hd s1 → hdrCheck hd = none → 1 ≤ hdrLen hd → 1 ≤ steps →
      let va := ptrAddr a + 1
      let done (s : State) : State := s.modCore c fun x => { x with lo := { x.lo with stat := setFld x.lo.stat 7 (0 : BitVec 6) }, amid := false }
      (∀ t, Ready (.stm h wa wb steps) h [wa, wb, r] s → w = x.reg r → schkWord w = none → heapInternal w = false →
        Reaches .write s1 c va t → exec (.stm h wa wb steps) s =
          .next (s.afterIn (done (s1.stored c t va w (s1.cardMark c (s1.world c) va w))) c)) ∧
      (Ready (.ldm h wa wb steps) h [wa, wb, r] s → r ≠ wa → Loads s1 c va w s' → lchkWord w = none →
        exec (.ldm h wa wb steps) s = .next (s.afterIn (done (s'.modCore c fun x => x.setReg r w)) c)))

/-- LATHE delivers the number of the job that a lathe has accepted, or FIX:−1 for CONFIG, which puts its P1 into the configuration of
the running code (R136, R330); a named lathe that is absent or asleep raises UNIT_ABSENT, and operands of other tags TAG_MISMATCH. An
accepted job stands last in its lathe's queue, with the next serial, and its number is the latest one and one of those
outstanding (R327, R328). -/
def Obligations.LatheIssues : Prop :=
  ∀ (s : State) (h : Hdr) (wd wa wb : Fin 32) (n : Fin 8) (o : Fin 34) (j : LatheJob),
    let c := h.core
    let x := s.cores[c]
    let a := x.reg wa
    let b := x.reg wb
    (Ready (.lathe h wd wa wb) h [wd, wa, wb] s → x.ownsLathe = true →
      Delivers (.lathe h wd wa wb) h wd (do
        latheCheck a b
        latheIssue c a (← namedLathe b)) s ∧
      (goodPtr a = true → (a.tag = 0x41 ∨ a.tag = 0x4A) → b = Word.fix (BitVec.ofNat 64 n.val) → s.luOn n = false →
        exec (.lathe h wd wa wb) s = .next (s.raises c .unitAbsent none s)) ∧
      (chkWord a = none → chkWord b = none →
        (goodPtr a = false ∨ a.tag ≠ 0x41 ∧ a.tag ≠ 0x4A ∨ b ≠ Word.nil ∧ (b.tag ≠ 0x00 ∨ 8 ≤ b.datum.toNat)) →
        exec (.lathe h wd wa wb) s = .next (s.raises c .tagMismatch none s)) ∧
      (∀ (hd : Word) (p : BitVec 64) (s1 s2 s3 : State), goodPtr a = true → a.tag = 0x41 → b = Word.nil →
        x.stackBufU = [] → x.stackBufS = [] → Loads (s.drainStores c) c (ptrAddr a) hd s1 → hdrCheck hd = none → 6 ≤ hdrLen hd → Loads s1 c (ptrAddr a + 1) (Word.fix 0) s2 →
        Loads s2 c (ptrAddr a + 6) (Word.raw p) s3 → exec (.lathe h wd wa wb) s =
          .next (s.afterIn (s3.modCore c fun x =>
            ({ x with lathe := vset x.lathe 0 (Word.raw p) } : Core).setReg wd (Word.fix (-1))) c))) ∧
    (let l := s.lathes[n]
     let num := Word.fix (putN 32 n.val ||| put 0 l.serial)
     ∃ t : State, acceptJob c n o j s = .ok num t ∧ t.lathes[n].serial = l.serial + 1 ∧
      t.lathes[n].queue = l.queue ++ [{ j with serial := l.serial, startedAt := s.now }] ∧
      t.cores[c].lathe[o] = num ∧ (o ≠ 1 → t.cores[c].lathe[(1 : Fin 34)] = num) ∧ t.mem = s.mem ∧
      (∀ r, t.cores[c].reg r = x.reg r) ∧ ∀ m, m ≠ n → t.lathes[m] = s.lathes[m])


/-! ## The Jig -/

/-- At a boundary where nothing of higher rank is due (Table 08-7): INTERRUPT_ENTRY and FAST_INTERRUPT_ENTRY clear PEND of the lowest
pending line routed to the running context and enter with the line in ARG (R197, R199, R200); GUARD_ABORT_ENTRY, not before the first
instruction at ENTRY (R195), delivers the oldest abort and counts it, or delivers the oldest STACK_INVALID (R206, R210); HOLD_EXPIRY closes the window and sets the HX latch of the world (R202). -/
def Obligations.EntriesAtBoundary : Prop :=
  ∀ (s : State) (c : Fin 32) (n : Fin 256) (arg : BitVec 8) (args : List (BitVec 8)) (from_ : BitVec 64) (more : List (BitVec 64)),
    let x := s.cores[c]
    let k := s.running c
    let entry (s : State) (z : Cause) (arg : BitVec 8) : State := s.enter c { cause := z, resume := x.lo.pc, arg := arg }
    (s.entryOpen c = true → s.abortDue c = false → s.switchDue c = none →
      (s.fastDue c = none → s.intDue c = some n →
        exec (.interruptEntry c) s = .next (entry (s.setPend n false) .interrupt (BitVec.ofNat 8 n.val))) ∧
      (s.fastDue c = some n →
        exec (.fastInterruptEntry c) s = .next (entry (s.setPend n false) .fastInterrupt (BitVec.ofNat 8 n.val)))) ∧
    (s.intDue c = some n → s.irqDue c false s.jig.irq[n] = true ∧ s.holdOpen c = false ∧ x.fresh = false ∧
      ∀ m, m < n → s.irqDue c false s.jig.irq[m] = false) ∧
    (s.fastDue c = some n → s.irqDue c true s.jig.irq[n] = true ∧ s.holdOpen c = false ∧ x.bank = false ∧ x.fresh = false ∧
      ∀ m, m < n → s.irqDue c true s.jig.irq[m] = false) ∧
    (s.entryOpen c = true → x.fresh = false → k.abort = arg :: args → exec (.guardAbortEntry c) s =
      .next (entry { s.modSlot c x.slot (fun y => { y with abort := args }) with
        safe := { s.safe with aborts := satInc s.safe.aborts } } .guardAbort arg)) ∧
    (s.entryOpen c = true → x.fresh = false → k.abort = [] → k.stackInvalid = from_ :: more → exec (.guardAbortEntry c) s =
      .next ((entry (s.modSlot c x.slot fun y => { y with stackInvalid := more }) .stackInvalid (fld from_ 0 8)).modCore c
        Core.serviceCause)) ∧
    (s.coreLive c = true → s.holdOpen c = true → x.holdCount = 0 → exec (.holdExpiry c) s = .next (s.modCore c fun x =>
      { x with lo := { x.lo with stat := setBit x.lo.stat 15 false }, hx := vset x.hx (s.world c) true }))

/-- JIG_SWITCH makes the switch that is due (R169, R173, R174): the READY context that ranks highest, the one READY longest among
equals, comes in, and a running one goes out to READY with its window kept; a core whose last context blocked inside a window or with the
fast bank in takes that one back, or out of a Test window a Guard context (log entry 138). The context that came in runs with the lower
half of its record, its SWITCHES counted. -/
def Obligations.JigSwitches : Prop :=
  ∀ (s : State) (c : Fin 32) (k j : Fin 64) (ws : List Word) (s' : State),
    let x := s.cores[c]
    let rem := if s.holdOpen c then BitVec.ofNat 64 x.holdCount else 0
    (s.coreLive c = true → s.switchDue c = some k →
      (x.running = false → s.commitDue c = false → exec (.jigSwitch c) s = .next (s.switchIn c k)) ∧
      (x.running = true → s.entryOpen c = true → s.abortDue c = false →
        exec (.jigSwitch c) s = .next ((s.switchOut c .ready x.lo.pc rem).switchIn c k))) ∧
    (s.switchDue c = some k → (∀ i, (s.slot c i).readySince < 2 ^ 64) → (s.slot c k).state = .ready ∧
      (x.running = false → s.leftHeld c = true →
        k = x.slot ∨ x.bank = false ∧ (s.slot c k).world = 1 ∧ (s.slot c x.slot).world = 0) ∧
      ((x.running = true ∨ s.leftHeld c = false) → (s.slot c j).state = .ready → (s.slot c j).rank ≤ (s.slot c k).rank ∧
        ((s.slot c j).rank = (s.slot c k).rank → (s.slot c k).readySince ≤ (s.slot c j).readySince)) ∧
      (x.running = true → (s.running c).rank < (s.slot c k).rank ∧ x.bank = false ∧ x.fresh = false)) ∧
    ((getWords (s.viaSlot c k 6) 36 ((s.slot c k).handle + 9)).run s = .ok ws s' →
      let y := (s.switchIn c k).cores[c]
      y.running = true ∧ y.slot = k ∧ y.slots[k].state = .running ∧ y.switches = s'.cores[c].switches + 1 ∧
      y.lo.pc = retaPc (ws.getD 17 Word.zero).datum ∧ y.lo.depth = fld (ws.getD 24 Word.zero).datum 0 5 ∧
      (∀ r : Fin 16, y.lo.w[r] = ws.getD r.val Word.nil) ∧ y.hi = s'.cores[c].hi)

/-- The deadlines of WAIT, CLAMP and RECV (R130, R132, R138): once the tick of the deadline has ended the context becomes READY and owes
the timeout, a CLAMP with one waiter less in its clamp word. The Jig watchdog raises line 253 once per switch and parks the context
where it is told to (R188). EDCTL_RELEASE frees the emergency drawer (R205). -/
def Obligations.DeadlinesAndWatchdog : Prop :=
  ∀ (s : State) (c : Fin 32) (slot : Fin 64) (d : Option (BitVec 64)) (pa : BitVec 40) (t v : BitVec 64) (a : Agent) (w : Who),
    let x := s.cores[c]
    let owes (s : State) : State := (s.modSlot c slot fun x => { x with timedOut := true }).makeReady c slot
    (s.deadlineOver d = true →
      ((s.slot c slot).state = .waiting → (s.slot c slot).block = some (.wait d) →
        exec (.waitDeadline c slot) s = .next (owes s)) ∧
      ((s.slot c slot).state = .clamped → (s.slot c slot).block = some (.clamp pa d t) →
        exec (.clampDeadline c slot) s = .next (owes (s.unwait c pa))) ∧
      ((s.slot c slot).state = .receiving → (s.slot c slot).block = some (.recv d) →
        exec (.recvDeadline c slot) s = .next (owes s))) ∧
    (s.deadlineOver d = true ↔ ∃ e : BitVec 64, d = some e ∧ e.toNat < s.now.toNat) ∧
    (s.domOn c.val = true → x.running = true → x.halted = false → x.wdLimit ≠ 0 → x.wdDone = false →
      x.wdSet.toNat / 1000 < s.now.toNat / 1000 → x.wdLimit.toNat ≤ (s.now - x.wdStart).toNat / 1000 →
      let t := (s.modCore c fun x => { x with wdFired := true, wdDone := true }).raise 253
      (x.wdForce = false → exec (.jigWatchdogExpiry c) s = .next t) ∧
      (x.wdForce = true → exec (.jigWatchdogExpiry c) s =
        .next ((t.modSlot c x.slot fun k => { k with parkDue := true }).settlePark c))) ∧
    (Grants s a 13 (some c.val) w → s.domOn c.val = true → bit v 0 = true → exec (.edctlRelease a c v) s =
      .next (s.modCore c fun x => { x with drawerFull := false }).settleAll)

/-- Stores to JIG_Cc_Ss and JIG_EVn_BIND (R165, R168, R170, R172, Table 07-3): a load reads the CONTEXT object, sets RESIDENCE and makes
the slot READY, or refuses it with ERR and line 253; a READY or blocked context parks at once, its blocking instruction taken back,
and a running one at its next boundary; a parked one becomes READY, or ERR where its record was lost (R228), or is unloaded to EMPTY; BIND binds a line and clears LATCHED when
CORE, SLOT or EN change. -/
def Obligations.SlotCommands : Prop :=
  ∀ (s : State) (a : Agent) (c : Fin 32) (k : Fin 64) (v : BitVec 64) (w : Who) (n : Fin 256),
    let x := s.slot c k
    let target : Fin 2 := if w.isFavar then worldIx (fld v 55 2) else w.world
    let s1 := s.modSlot c k fun x => { x with
      handle := fld v 0 48, prio := fld v 48 4, err := x.err && !(bit v 57), world := if w.isFavar then fld v 55 2 else x.world }
    let mine := w.isFavar = true ∨ w.user = false ∧ (x.state = .empty ∨ w.world = worldIx x.world)
    (Grants s a 13 (some c.val) w → s.domOn c.val = true → mine →
      (x.state = .empty → fld v 52 3 = (1 : BitVec 3) →
        exec (.slotLoad a c k v) s = .next (s1.loadSlot c k target).settleAll) ∧
      (x.state = .ready → fld v 52 3 = (6 : BitVec 3) →
        exec (.slotPark a c k v) s = .next (s1.modSlot c k fun x => { x with state := .parked }).settleAll) ∧
      (x.state = .running → fld v 52 3 = (6 : BitVec 3) →
        exec (.slotPark a c k v) s = .next (s1.modSlot c k fun x => { x with parkDue := true }).settleAll) ∧
      (x.state.blocked = true → fld v 52 3 = (6 : BitVec 3) → exec (.slotPark a c k v) s =
        .next ((s1.abandonBlock c k).modSlot c k fun x => { x with state := .parked }).settleAll) ∧
      (x.state = .parked → x.lost = true → fld v 52 3 = (1 : BitVec 3) → exec (.slotReady a c k v) s =
        .next (s.modSlot c k fun x => { x with err := true }).settleAll) ∧
      (x.state = .parked → x.lost = false → fld v 52 3 = (1 : BitVec 3) →
        exec (.slotReady a c k v) s = .next (s1.makeReady c k).settleAll) ∧
      (x.state = .parked → fld v 52 3 = (0 : BitVec 3) →
        exec (.slotUnload a c k v) s = .next (s1.unloadSlot c k).settleAll)) ∧
    (∀ (m d : BitVec 5) (hold : BitVec 64) (s' : State), s1.assigned c target = true →
      (loadContext ⟨c, target, false, 6⟩ k (s1.slot c k).handle).run s1 = .ok (some (m, d, hold)) s' →
        s1.loadSlot c k target = (s'.modSlot c k fun x => { x with
          world := BitVec.ofNat 2 target.val, frames := m, depth := d, holdRem := hold, block := none, timedOut := false
          granted := false, grants := [], abort := [], stackInvalid := [], parkDue := false, lost := false
          unscanU := s'.freshStack target (s1.slot c k).handle, unscanS := s'.freshStack target (s1.slot c k).handle }).makeReady c k) ∧
    (∀ s', s1.assigned c target = true → (loadContext ⟨c, target, false, 6⟩ k (s1.slot c k).handle).run s1 = .ok none s' →
      s1.loadSlot c k target = (s'.modSlot c k fun x => { x with state := .empty, err := true }).raise 253) ∧
    (s1.assigned c target = false →
      s1.loadSlot c k target = (s1.modSlot c k fun x => { x with state := .empty, err := true }).raise 253) ∧
    (let e := s.jig.ev[n]
     let same := decide ((fld v 0 5).toFin = e.core) && decide ((fld v 5 6).toFin = e.slot) && (bit v 11 == e.en)
     Grants s a 13 none w → (w.isFavar = true ∨ w.user = false ∧ w.world = worldIx e.world) →
      exec (.evBindWrite a n v) s = .next (State.settleAll { s with jig := { s.jig with ev := vset s.jig.ev n { e with
        core := (fld v 0 5).toFin, slot := (fld v 5 6).toFin, en := bit v 11, swr := bit v 12
        latched := e.latched && same, ovf := e.ovf && !(bit v 14), world := if w.isFavar then fld v 15 2 else e.world } } }))

/-! ## Heap and Planer -/

/-- Stores to the heap registers of a world (R143 to R146, R153, R228): START takes KIND and PROMOTE_AGE and, in IDLE only, begins a
cycle in FLIP; SYNC asks every powered core of the world for a reload of its board map; GIVE appends a board to the pool ring, or loses
it where the ring is full; RETRY lets a held cycle go on. BOARD_MAP_RELOAD gives a core the map as memory holds it, and the last one
ends SYNC_BUSY. -/
def Obligations.HeapCommands : Prop :=
  ∀ (s : State) (a : Agent) (w : Fin 2) (v : BitVec 64) (u : Who) (c : Fin 32),
    let hp := s.worlds[w].heap
    let s1 := s.modHeap w fun h => { h with kind := bit v 1, promoteAge := fld v 4 4 }
    let all := s.cores.toList.all fun x => !x.reload[w]
    (Grants s a 11 (some (16 + w.val)) u →
      (bit v 0 = true → bit v 2 = false →
        (hp.phase = .idle → exec (.cchStart a w v) s = .next (State.settleAll
          (({ s1.modHeap w (fun h => { h with fullCycle := bit v 1, cycleOrd := s.jig.order, live := 0 }) with
            jig := { s.jig with order := s.jig.order + 1 } }).setPhase w .flip))) ∧
        (hp.phase ≠ .idle → exec (.cchStart a w v) s = .next s1.settleAll)) ∧
      (bit v 2 = true → bit v 0 = false → exec (.cchSync a w v) s = .next (s1.askReload w).settleAll) ∧
      exec (.cchGive a w v) s = .next (s.givePool w (fld v 0 32)).settleAll ∧
      (bit v 0 = true → exec (.twRetry a w v) s =
        .next (s.modHeap w fun h => { h with phHeld := false, afValid := h.afValid && !(bit v 2) }).settleAll)) ∧
    ((s.askReload w).cores[c].reload[w] = (s.cores[c].reload[w] || (s.assigned c w && s.domOn c.val))) ∧
    (∀ b : BitVec 32, let p := (hp.poolTail - hp.poolHead).toNat
      (hp.poolSize ≠ 0 → p < hp.poolSize.toNat → s.givePool w b =
        (s.dmaWrite (hp.poolAddr.toNat + hp.poolTail.toNat % hp.poolSize.toNat) (Word.raw (b.setWidth 64))).modHeap w fun h =>
          { h with poolTail := h.poolTail + 1 }) ∧
      (hp.poolSize = 0 ∨ hp.poolSize.toNat ≤ p → s.givePool w b = s.modHeap w fun h => { h with giveLost := true })) ∧
    (s.cores[c].reload[w] = true → ∃ t : State, exec (.boardMapReload c w) s = .next t ∧
      t.cores[c].bmap[w] = s.mapWords w ∧ t.cores[c].reload[w] = false ∧ t.mem = s.mem ∧
      (∀ r, t.cores[c].reg r = s.cores[c].reg r) ∧
      t.worlds[w].heap.syncBusy = (hp.syncBusy && t.cores.toList.any fun x => x.reload[w])) ∧
    (all = true → exec (.boardMapReload c w) s = .next s)

/-- CORE_FLIP and the phases of the Planer (R153, R154, R157, R228): a core that takes the flip has made its stores visible, marks each
register that points into a condemned board, and retires every region of its contexts on one; FLIP, COPY, DRAIN and SWEEP do the work of
their phase, each after the one before, and a fault in it is recorded with line 253 and holds the cycle; RELEASE, once no mark, no word
to scan and no queued card is left, gives the condemned boards back, clears the flip, counts the cycle and ends in IDLE. -/
def Obligations.PlanerPhases : Prop :=
  ∀ (s : State) (c : Fin 32) (w : Fin 2) (v : Via) (s' : State) (t : Trap) (va : BitVec 48) (info : BitVec 64),
    let x := s.cores[c]
    let hp := s.worlds[w].heap
    let f1 := (s.drainStores c).markCore c w
    let others := ((f1.slotsOf c w).filter fun k => !(x.running && k == x.slot)).map fun k => (f1.slot c k).handle
    let atRisk := x.running && decide (x.lo.allocp.toNat < x.lo.allocl.toNat) && f1.condemned c w (fld x.lo.allocp 0 48)
    let retire : M Unit := do
      retireAll ⟨c, w, false, 6⟩ others
      if atRisk then retireRegion c
    let ends (i : Instr) (act : M Unit) (s0 : State) : Prop :=
      (act.run s0 = .ok () s' → exec i s = .next (s'.modHeap w fun h => { h with workDone := true })) ∧
      (act.run s0 = .error t s' → t.fault = some (va, info) →
        exec i s = .next ((s'.jigFault w va info).modHeap w fun h => { h with phHeld := true })) ∧
      (act.run s0 = .error t s' → t.fault = none → exec i s = .next s')
    let flip0 := s.modHeap w fun h => { h with largeCond := [], seenQ := [], ctxQ := [], ctxDone := [], toSpace := [] }
    let cs := (List.finRange 32).filter fun c => s.assigned c w && s.domOn c.val
    (s.coreLive c = true → x.flipDue[w] = true → x.reload[w] = false → (x.running = false ∨ s.world c = w) →
      (others = [] → atRisk = false → exec (.coreFlip c w) s = .next f1) ∧
      (retire.run f1 = .ok () s' → exec (.coreFlip c w) s = .next s') ∧
      (retire.run f1 = .error t s' →
        (x.running = true → exec (.coreFlip c w) s =
          .next (s'.enter c { cause := .storeFault, resume := x.lo.pc, fault := t.fault })) ∧
        (x.running = false → t.fault = some (va, info) → exec (.coreFlip c w) s = .next (s'.jigFault w va info)))) ∧
    (f1.cores[c].flipDue[w] = false ∧ f1.cores[c].flipped[w] = true ∧
      (x.running = true → s.world c = w → ∀ r : Fin 16, f1.cores[c].lo.w[r] = x.lo.w[r] ∧
        bit f1.cores[c].lo.marks r.val = (isPtrTag x.lo.w[r].tag && s.condemned c w (fld x.lo.w[r].datum 0 48)))) ∧
    (s.planerVia w = some v → s.planerFree w = true →
      (hp.phase = .flip → hp.workDone = false →
        (condemnBoards v (s.poolBoards w) hp.fullCycle hp.count.toNat 0).run flip0 = .ok () s' →
        let s2 := s'.modHeap w fun h => { h with workDone := true }
        let s3 := s2.modHeap w fun h =>
          { h with nursery := s2.keepArea w h.nursery, survivor := s2.keepArea w h.survivor, oldTo := s2.keepArea w h.oldTo }
        exec (.planerFlip w) s = .next ((((List.finRange 32).filter fun c => s3.assigned c w).foldl (fun (s : State) c =>
          s.modCore c fun x => { x with flipDue := vset x.flipDue w true }) s3).askReload w)) ∧
      (hp.mayDo .flip .copy = true → s.flipsDone w = true → ends (.planerCopy w) (scanRoots v) (s.intoPhase w .copy)) ∧
      ((hp.mayDo .copy .drain = true ∨ hp.phase = .drain ∧ s.collected w = false) → ends (.planerDrain w) (do
          drainCores v cs
          modify State.emptyCardQueues
          let h := (← get).worlds[w].heap
          modify fun s => s.modHeap w fun h => { h with ctxDone := [], ctxQ := s.ctxRoots w }
          if !h.fullCycle then scanCardTable v (16 * h.count.toNat) 0
          scanQueues v h.queueFuel
          modify State.emptyCardQueues)
        (cs.foldl (fun (s : State) c => s.drainStores c) (s.intoPhase w .drain)).emptyCardQueues) ∧
      (hp.fullCycle = true → hp.mayDo .drain .sweep = true → s.collected w = true → ends (.planerSweep w) (do
          sweepBoards v hp.largeCond 0
          modify fun s => s.dmaWrites hp.seen.toNat (List.replicate (16 * hp.count.toNat) Word.zero))
        (s.intoPhase w .sweep))) ∧
    (hp.workDone = true → hp.phase = (if hp.fullCycle then .sweep else .drain) → s.planerFree w = true → s.collected w = true →
      let s1 := (List.range hp.count.toNat).foldl (fun (s : State) k => s.releaseBoard w k) (s.setPhase w .release)
      let s2 : State := { s1 with cores := s1.cores.map fun (x : Core) =>
        { x with flipped := vset x.flipped w false, flipDue := vset x.flipDue w false
                 slots := x.slots.map fun (k : Slot) =>
                   if worldIx k.world = w then { k with unscanU := none, unscanS := none } else k } }
      exec (.planerRelease w) s = .next (((s2.askReload w).modHeap w fun h =>
        { h with cycles := h.cycles + 1, largeCond := [], ctxDone := [] }).setPhase w .idle))


/-! ## Caches, ports, safety, time -/

/-- The L2, its write-backs and the memory ports (R237 to R239, R242, R244, R252 to R256): a fill that arrives makes its sector Clean, or
Dirty where a store waited for it, and lets the loads that waited go on, with what SECDED finds in a word applied to it (a word already
POISON is not lost again); an acknowledged write-back, the last under way, makes a Cleaning sector Clean and its offcut entry clean; a
Dirty sector not stored to for CLEAN_DELAY is cleaned; AGE_SWEEP ages every block to at most 3; the arbiter grants of the requests that
the requesters present the one with the largest age, on ties of the lower requester; scrub reads one word when no request waits, skips
one that a cluster holds valid, and moves on, or joins the arbiter when it is behind; the watchdog of a port drops the requester that
hangs it, counts and records it, and of an agent beside the clusters the writes dropped leave POISON and the reads dropped are noted. -/
def Obligations.CachesAndPorts : Prop :=
  ∀ (s : State) (k : Fin 8) (x : BitVec 36) (pos : Fin 16) (e : Secded) (p : Fin 4),
    let cl := s.clusters[k]
    let q := sectorPort x
    let seen (t : State) (p : Fin 4) (a : Nat) (u : State) : Prop :=
      match e with
      | .clean => u = t
      | .corrected => u = t.modPort p fun y => { y with ce := satInc y.ce }
      | .lost => if (t.peek a).tag = 0xFE then u = t
          else u.mem = memPut t.mem a (poisonDram a) ∧ u.clusters = t.clusters ∧ u.cores = t.cores ∧
            u.ports = vmod t.ports p fun y => { y with ueLast := BitVec.ofNat 40 a, ueCount := satInc y.ueCount }
    (cl.sector x = .filling → s.ports[q].granted.any (fun r => r.requester == clusterReq k && !r.write && r.sector == x) = true →
      let f := s.endFill k x
      (∃ u : State, seen f q (x.toNat * 16 + pos.val) u ∧
        exec (.l2FillComplete k x pos e) s = .next (if cl.isOwed x then u.keepCap k else u)) ∧
      (cl.isOwed x = false → f.clusters[k].sector x = .clean) ∧
      ((∀ b ∈ cl.blocks, b.blk = sectorBlk x → b.owed[sectorIx x] = true) → f.clusters[k].sector x = .dirty) ∧
      (∀ c : Fin 32, clusterOf c = k → f.cores[c].awaits ≠ some x) ∧ f.mem = s.mem ∧
      ∀ o ∈ f.ports[q].granted, ¬ (o.requester = clusterReq k ∧ o.write = false ∧ o.sector = x)) ∧
    (∀ r, s.ports[q].granted.find? (fun r => r.requester == clusterReq k && r.write && r.sector == x) = some r →
      let t := s.modPort q fun y => { y with queue := y.queue.erase r, granted := y.granted.erase r }
      exec (.writebackAck k x) s = .next (State.renewStale (if (t.writeOf k x).isSome then t else t.modCluster k fun c =>
        (if c.sector x = .cleaning then c.setSector x .clean else c).setOffcut x .clean) r.data)) ∧
    (cl.sector x = .dirty → (cl.blocks.any fun b => b.blk == sectorBlk x &&
        decide ((fld cl.cfg 8 16).toNat * 1000 ≤ s.now.toNat - b.lastStore[sectorIx x])) = true →
      exec (.cleanDelayExpiry k x) s = .next ((s.modCluster k fun c => c.setSector x .cleaning).modPort q fun y =>
        { y with queue := y.queue ++ [{ requester := clusterReq k, at_ := s.now, write := true, sector := x
                                        data := s.carried x }] })) ∧
    ((fld cl.cfg 0 8 : BitVec 8) ≠ 0 → (fld cl.cfg 0 8 : BitVec 8).toNat * 1000 ≤ (s.now - cl.lastSweep).toNat →
      exec (.ageSweep k) s = .next (s.modCluster k fun c =>
        { c with lastSweep := s.now, blocks := c.blocks.map fun b => { b with age := if b.age = 3 then 3 else b.age + 1 } })) ∧
    (s.ports[p].trained = true → (s.ports[p].scrubPos.toNat / 64) % 4 = p.val →
      let a := s.ports[p].scrubPos.toNat
      let n := scrubNext s.ports[p].cap p a
      let on (t : State) : State := t.modPort p fun y =>
        { y with scrubPos := BitVec.ofNat 40 n.1, passes := if n.2 then y.passes + 1 else y.passes, scrubAt := none
                 scrubSince := if n.2 then s.now else y.scrubSince }
      (s.ports[p].queue = [] → (s.clusters.toList.any fun c => c.holdsValid (sectorOf a)) = true →
        exec (.patrolScrub p e) s = .next (on s)) ∧
      (s.ports[p].queue = [] → (s.clusters.toList.any fun c => c.holdsValid (sectorOf a)) = false →
        ∃ u : State, exec (.patrolScrub p e) s = .next (on u) ∧ seen s p a u) ∧
      (s.ports[p].queue ≠ [] → s.ports[p].scrubAt = none → exec (.patrolScrub p e) s = .next
        (if s.ports[p].scrubBehind s.now then s.modPort p fun y => { y with scrubAt := some s.now } else s))) ∧
    (∀ (n : Fin 13) (r : PortReq), s.ports[p].presents n = some r →
      (∀ m o, s.ports[p].presents m = some o → m ≠ n →
        o.age s.now < r.age s.now ∨ o.age s.now = r.age s.now ∧ n.val < m.val) →
      let t := s.modPort p fun y => { y with queue := y.queue.erase r
                                             granted := (y.granted.filter fun g => g.requester.val < 8) ++ [{ r with at_ := s.now }] }
      ((r.write = false ∨ 8 ≤ r.requester.val) → exec (.arbiterGrant p) s = .next t) ∧
      (r.write = true → r.requester.val < 8 → exec (.arbiterGrant p) s =
        .next (t.modCluster (idx 8 r.requester.val) fun c => { c with offcut := c.offcut.map fun o =>
          if o.1 = r.sector ∧ o.2 = .dirty then (o.1, .issued) else o }))) ∧
    (∀ r, s.hung p = some r →
      let t := s.modPort p fun y => { y with granted := y.granted.filter fun o => o.requester != r.requester
                                             queue := y.queue.filter fun o => o.requester != r.requester
                                             lastReq := BitVec.ofNat 4 r.requester.val, bites := satInc y.bites }
      (∃ u : State, exec (.portwdBite p) s = .next u ∧ u.ports[p].lastReq = BitVec.ofNat 4 r.requester.val ∧
        u.ports[p].bites = satInc s.ports[p].bites ∧ ∀ o ∈ u.ports[p].granted, o.requester ≠ r.requester) ∧
      (8 ≤ r.requester.val →
        let gone := (s.ports[p].granted ++ s.ports[p].queue).filter fun o => o.requester == r.requester
        let u := gone.foldl (fun (u : State) o =>
          if o.write then o.data.foldl (fun (u : State) d => u.dramPut d.1 (poisonAt 2 d.1)) u
          else u.modPort p fun y => { y with lost := (o.requester, o.sector) :: y.lost }) t
        exec (.portwdBite p) s = .next ((u.guardEvent 4 p.val).event 5 2 p.val [BitVec.ofNat 64 r.requester.val])))

/-- The SAFE block and the abort inputs (R208, R209, R320 to R322): FAILSAFE, from the Guard supervisor only, applies the fail-safe
state in one tick with REASON 5 and aborts the contexts; writing FS := 1 clears FS and REASON and releases none of MUTE, ABORT_OUT,
DRIVE_EN and LEVEL, each of which the Guard supervisor releases by its own write (MUTE not while an ABORT_IN input is asserted), and no
output depends on FS; GSVC_MISS is cleared by writing 1. The fail-safe state mutes, asserts ABORT_OUT, sets LEVEL to SAFEVAL, takes
DRIVE_EN away and sets FS, and hinge pins with FSEN take FSLVL. An abort input that is asserted sets MUTE, shows in its AIN bit, mutes
the lanes, and sends a vote and a GUARD_ABORT; released, MUTE stays. -/
def Obligations.SafetyControls : Prop :=
  ∀ (s : State) (a : Agent) (v : BitVec 64) (w : Who) (r : BitVec 4) (pinB : Bool),
    let f := s.failSafe r
    let ain := if pinB then s.safe.ainB else s.safe.ainA
    let pin (s : State) (b : Bool) : Safe := if pinB then { s.safe with ainB := b } else { s.safe with ainA := b }
    (Grants s a 14 none w → w.gs = true →
      (bit v 3 = true →
        let x := s.safe
        let s1 := State.muteLanes { s with safe := { x with
          mute := bit v 0 || x.ainA || x.ainB, abortOut := bit v 1, driveEn := bit v 2 } }
        exec (.safeFailsafe a v) s = .next ((s1.failSafe 5).guardAbort 5).settleAll) ∧
      (bit v 0 = true → exec (.safeFsClear a v) s = .next (State.settleAll { s with safe := { s.safe with
        fs := false, reason := 0, gsvcMiss := s.safe.gsvcMiss && !(bit v 8) } })) ∧
      (bit v 8 = true → bit v 0 = false → exec (.gsvcMissClear a v) s =
        .next (State.settleAll { s with safe := { s.safe with gsvcMiss := false } }))) ∧
    (w.gs = true →
      (bit v 3 = false → s.safeStore w 0 v = .ok (State.muteLanes { s with safe := { s.safe with
        mute := bit v 0 || s.safe.ainA || s.safe.ainB, abortOut := bit v 1, driveEn := bit v 2 } })) ∧
      s.safeStore w 1 v = .ok { s with safe := { s.safe with level := fld v 0 8, safeval := fld v 8 8 } }) ∧
    (∀ (b : Bool) (n : Fin 64) (l : Fin 16), let t : State := { s with safe := { s.safe with fs := b } }
      t.abortOutAsserted = s.abortOutAsserted ∧ t.pinDrives n = s.pinDrives n ∧ t.laneMuted l = s.laneMuted l) ∧
    (w.gs = false → w.isFavar = false → Grants s a 14 none w → (bit v 0 || bit v 8) = true →
      exec (.safeFsClear a v) s = .next s ∧ exec (.gsvcMissClear a v) s = .next s) ∧
    (f.safe.mute = true ∧ f.safe.abortOut = true ∧ f.safe.level = s.safe.safeval ∧ f.safe.driveEn = false ∧
      f.safe.fs = true ∧ f.safe.reason = r ∧ f.mem = s.mem ∧
      (∀ n : Fin 64, f.hng[n].out = if s.hng[n].fsen then s.hng[n].fslvl else s.hng[n].out) ∧
      (s.variantL = false → ∀ n : Fin 16, f.dl[n].state ≠ .run ∧ f.dl[n].state ≠ .ramp)) ∧
    (s.alive = true → ain = false →
      let s1 : State := { s with safe := { pin s true with mute := true } }
      let t := s1.muteLanes.sendVote.abortDelivery pinB
      exec (.abortInAssert pinB) s = .next t ∧ t.safe.mute = true ∧ t.safe.driveEn = s.safe.driveEn ∧
        (if pinB then t.safe.ainB else t.safe.ainA) = true ∧ t.km.mySeq = s.km.mySeq + 1) ∧
    (ain = true → exec (.abortInRelease pinB) s = .next { s with safe := pin s false })

/-- The count of Imtur and its sources (R277, R280 to R283, R286): a measurement sets OFFSET, of REF to IMT_REFSEC less the count with
the part of a tick measured, IMT_REFSEC going on by 10⁹, of PTP to the offset; only a first lock steps the count, by whole ticks, and
backward only while no world runs; otherwise TRIM is driven within 200 ppm, a device that has been locked goes from ACQUIRE to SLEWING,
and 16 small offsets in a run end ACQUIRE and SLEWING in LOCKED; the loss of the source enters HOLDOVER from LOCKED, TRIM frozen at its
mean over the lock, with FU at least 1 ppb; beacons are sent at frame boundaries on trained ports, and the one to follow is that of the
best port; DELAY is the mean of the two ways; a backup that has been silent for 10 ms becomes master; IMT_PPS_OUT is asserted for WIDTH;
a copy of the count that differs is reloaded, and no majority is fatal. What the servo computes is free (its values are the spec's to
leave open). -/
def Obligations.TimeKeeping : Prop :=
  ∀ (s : State) (off : Int) (ppm : Nat) (p u : Fin 8) (bc : Beacon) (d0 d1 : BitVec 32) (c0 c1 c2 : BitVec 64),
    let x := s.imt
    let o := if x.sel = 1 then (x.refsec - x.count).toInt * 1000 + off else off
    let big := (fld x.cfg 16 16 : BitVec 16).toNat * 1000 < o.natAbs
    let small := o.natAbs < (fld x.cfg 0 16 : BitVec 16).toNat * 1000
    let steps := x.state = .acquire ∧ big ∧ x.lockedEver = false ∧ (0 < o ∨ s.worldRuns = false)
    let fixed (v : BitVec 64) (k : Nat) : State := State.event { s with imt := { x with
      count := v, voteFix := true, fixes := satInc x.fixes, last := BitVec.ofNat 2 k } } 4 3 0 []
    (s.alive = true → x.started = true → (x.sel = 1 ∨ x.sel = 2 ∧ s.fv.swap = false) →
      ∃ t : State, exec (.imtMeasurement off) s = .next t ∧ t.imt.offset = BitVec.ofInt 48 o ∧
        t.imt.refsec = (if x.sel = 1 then x.refsec + 1000000000 else x.refsec) ∧ t.mem = s.mem ∧
        (steps → t.imt.count = x.count + BitVec.ofInt 64 (o / 1000) ∧ t.imt.stepped = true ∧ t.imt.state = .acquire) ∧
        (¬ steps → t.imt.count = x.count ∧ t.imt.stepped = x.stepped) ∧
        (x.state = .free → t.imt.trim = x.trim ∧ t.imt.state = .free) ∧
        (x.state ≠ .free → -trimMax ≤ t.imt.trim ∧ t.imt.trim ≤ trimMax) ∧
        (x.state = .locked → t.imt.state = .locked) ∧
        (x.state = .holdover → t.imt.state = .slewing) ∧
        (x.state = .acquire → x.lockedEver = true → t.imt.state = .slewing) ∧
        ((x.state = .acquire ∧ x.lockedEver = false ∧ ¬ big ∨ x.state = .slewing) → small → 15 ≤ x.good →
          t.imt.state = .locked ∧ t.imt.lockedEver = true)) ∧
    (x.started = true → s.sourceLost ppm = true →
      ((x.state = .locked ∨ x.state = .slewing ∧ x.lockedEver = true) →
        ∃ t : State, exec (.imtSourceLoss ppm) s = .next t ∧ t.imt.state = .holdover ∧ t.imt.holdAt = x.count ∧
          t.imt.errAtHold = x.err ∧ 1000 ≤ t.imt.holdFu ∧ t.imt.bcValid = false ∧ t.imt.count = x.count ∧
          t.imt.trim = clampTrim (if x.state = .locked then x.lockMean else x.lockTrim)) ∧
      (x.state = .slewing → x.lockedEver = false →
        ∃ t : State, exec (.imtSourceLoss ppm) s = .next t ∧ t.imt.state = .acquire ∧ t.imt.err = 0xFFFF ∧ t.imt.count = x.count) ∧
      (x.state = .acquire →
        exec (.imtSourceLoss ppm) s = .next { s with imt := { x with bcValid := false, ptpKey := none } })) ∧
    (s.alive = true → x.started = true → x.count.toNat % 10000 = 0 → ∃ t : State, exec .beaconSend s = .next t ∧
      t = { s with out := t.out } ∧ ∀ p, s.km.ports[p].trained = true →
        (if x.isTheMaster then Emission.beacon p s.km.id x.mprio 0 (BitVec.ofNat 3 x.state.code) x.count
          else Emission.beacon p x.bcMaster x.bcPrio x.bcHops (BitVec.ofNat 3 x.state.code) x.count) ∈ t.out) ∧
    (s.km.ports[p].trained = true → x.started = true →
      let b : PortBeacon := { master := bc.master, mprio := bc.mprio, hops := bc.hops, at_ := s.now, valid := true }
      let s0 : State := { s with imt := { x with seenBc := vset x.seenBc p b } }
      let s1 : State := if s0.beaconValid p then { s0 with imt := { s0.imt with bcLast := s.now } } else s0
      let follow (u : Fin 8) : State :=
        let b := s1.imt.seenBc[u]
        { s1 with imt := { s1.imt with isMaster := false, bcMaster := b.master, bcPrio := b.mprio, bcHops := b.hops + 1
                                       bcUport := BitVec.ofNat 3 u.val, bcValid := true, bcAt := s.now } }
      ((x.sel ≠ 3 ∨ s1.bestPort = none) → exec (.beaconReceive p bc) s = .next s1) ∧
      (x.sel = 3 → s1.bestPort = some u → exec (.beaconReceive p bc) s = .next (if u = p then
        (follow u).measure (bc.stamp + x.kmDelay[p].delay.toNat - x.kmAsym[p].toInt - bc.arrival) else follow u)) ∧
      (s1.bestPort = some u → s1.beaconValid u = true ∧ ∀ q, s1.beaconValid q = true →
        (s1.imt.seenBc[q].mprio.toNat ≤ s1.imt.seenBc[u].mprio.toNat))) ∧
    (s.km.ports[p].trained = true → 
      let d : KmDelay := { delay := BitVec.ofNat 32 ((d0.toNat + d1.toNat) / 2), at_ := s.now, valid := true }
      exec (.kamionDelayExchange p d0 d1) s = .next { s with imt := { x with kmDelay := vset x.kmDelay p d } }) ∧
    (x.sel = 3 → x.master = true → x.state = .holdover → 10000000 ≤ (s.now - x.bcLast).toNat →
      exec .backupMasterTakeover s = .next { s with imt := { x with isMaster := true, bcValid := false } }) ∧
    (s.alive = true → x.started = true → x.count.toNat % 1000000000 = 0 → bit x.pps 17 = true →
      exec .ppsOutPulse s = .next { s with imt := { x with
        ppsOut := true, ppsEnd := x.count + BitVec.ofNat 64 ((fld x.pps 0 17 : BitVec 17).toNat * 1000) } }) ∧
    (x.started = true →
      (c1 = c2 → c0 ≠ c1 → exec (.imtVoteMismatch c0 c1 c2) s = .next (fixed c1 0)) ∧
      (c0 = c2 → c0 ≠ c1 → exec (.imtVoteMismatch c0 c1 c2) s = .next (fixed c0 1)) ∧
      (c0 = c1 → c1 ≠ c2 → exec (.imtVoteMismatch c0 c1 c2) s = .next (fixed c0 2)) ∧
      (c0 ≠ c1 → c1 ≠ c2 → c0 ≠ c2 → ∃ t : State, exec (.imtVoteMismatch c0 c1 c2) s = .next t ∧ t.imt.state = .acquire ∧
        t.imt.err = 0xFFFF ∧ t.safe.fs = true ∧ t.safe.reason = 4 ∧ t.safe.mute = true ∧
        (∀ c : Fin 32, t.cores[c].stopped = true) ∧
        t.imt.count = if c0 = x.count then c0 else if c1 = x.count then c1 else if c2 = x.count then c2 else c0))

/-! ## Cut lists and triggers -/

/-- The actions of Table 12-5 (R289, R290): on its turn, an action that passes its checks is performed, counted, its lateness recorded,
and its source goes past it; COMMIT_TABLES requests commits of the tables it names, of the lane configurations granted to the list's
world; a HINGE action clears, sets or pulses a pin with a TRIG_OUT leaf (after a commit of its bank whose boundary has come), and the end
of a pulse restores the level. An action of a list that fails a check is recorded with its entry and raises line 252 (R294), and so is
an entry with nothing to perform (FORMAT) or with an uncorrectable error (ECC); a corrected error is counted (R32). The turn is that of
the least due tick, the lower list among equals, the triggers last, and comes when no commit of a list is left to take effect. -/
def Obligations.CutActions : Prop :=
  ∀ (s s1 : State) (src : ActSrc) (a : Word) (w : Fin 2) (done : State → State) (n m : Fin 16) (p : Fin 64) (h k : CutHead)
    (t : BitVec 64) (e : BitVec 3) (i : Instr),
    let arg := cutArg a
    let may (block : Fin 16) (u : Nat) : Bool := s1.cutMay w block u
    let lanes {c : Nat} (q : Fin c → Bool) (f : State → Fin c → State) (s : State) : State :=
      (List.finRange c).foldl (fun (s : State) x => if q x then f s x else s) s
    let tables (s : State) : State :=
      let s := lanes (fun x : Fin 4 => bit arg (16 + x.val)) State.hngRequest (lanes (fun x => bit arg x.val) State.clRequest s)
      let s := if bit arg 20 then lanes (fun x : Fin 32 => may 3 x.val) State.slAsk s else s
      if bit arg 21 then lanes (fun x : Fin 16 => may 4 x.val) State.dlRequest s else s
    let snapped (x : Fin 32) : Gauge := if bit arg x.val then { s1.gauges[x] with snap := s1.gauges[x].cnt } else s1.gauges[x]
    let pin (f : Hinge → Hinge) : State :=
      let u := s1.hngSettle (bankOf p)
      if u.hng[p].hasTrig then u.modHinge p f else u
    let wrong (e : BitVec 3) (h : CutHead) (s : State) : State := ((s.modCut n fun l =>
        { l with errCode := e, errEntry := BitVec.ofNat 15 h.entry, errs := satInc l.errs }).guardEvent 5 n.val).cutDone n h
    (ActsNow s src a w s1 done → s.cutCheck w a = none →
      (cutOp a = 0 → exec (.cutNop src .clean) s = .next (done s1) ∧ (src = .list n →
        exec (.cutNop src .corrected) s = .next (done { s1 with cutFixed := satInc s1.cutFixed }))) ∧
      (cutOp a = 1 → exec (.laneStart src) s = .next (done (lanes (fun x => bit arg x.val) State.slStart s1))) ∧
      (cutOp a = 2 → exec (.laneStop src) s = .next (done (lanes (fun x => bit arg x.val) State.slStop s1))) ∧
      (cutOp a = 3 → exec (.driveCommit src) s = .next (done (lanes (fun x => bit arg x.val) State.driveCommit s1))) ∧
      (cutOp a = 4 → exec (.driveMute src) s = .next (done (lanes (fun x => bit arg x.val)
        (fun s x => (s.modDl x fun l => { l with lmute := true }).muteLane x) s1))) ∧
      (cutOp a = 5 → exec (.cutEvent src) s = .next (done (s1.raiseAt (fld arg 0 8 : BitVec 8).toFin s.now))) ∧
      (cutOp a = 6 → p = (fld arg 0 6 : BitVec 6).toFin →
        ((fld arg 6 2 : BitVec 2) = 0 →
          exec (.cutHinge src) s = .next (done (pin fun h => { h with trig := false, pulseEnd := none }))) ∧
        ((fld arg 6 2 : BitVec 2) = 1 →
          exec (.cutHinge src) s = .next (done (pin fun h => { h with trig := true, pulseEnd := none }))) ∧
        ((fld arg 6 2 : BitVec 2) = 2 → exec (.cutHinge src) s = .next (done (pin fun h =>
          { h with trig := true, pulseEnd := some (s.now + (fld arg 8 16 : BitVec 16).setWidth 64)
                   pulseBack := if h.pulseEnd.isSome then h.pulseBack else h.trig })))) ∧
      (cutOp a = 7 → exec (.gaugeSnap src) s = .next (done { s1 with gtSnapT := s.now, gauges := Vector.ofFn snapped })) ∧
      (cutOp a = 8 → exec (.commitTables src) s = .next (done (tables s1))) ∧
      (cutOp a = 9 → exec (.veneerCommit src) s = .next (done (if s.ven.armed then s1.requestCommit.veneerOutcome
        else { s1 with ven := { s1.ven with ignored := satInc s1.ven.ignored } })))) ∧
    (s.cutTurn (.list n) = true → s.cutHead n = some h → h.bad = false → h.action.tag = 0x07 →
      s.cutCheck (worldIx s.cuts[n].world) h.action = some e → cutRow (.list n) (cutOp h.action) = some i →
      exec i s = .next (wrong e h s.countAction)) ∧
    (s.cutTurn (.list n) = true → s.cutHead n = some h →
      exec (.cutNop (.list n) .lost) s = .next (wrong 1 h s.countAction) ∧
      ((h.bad = true ∨ h.action.tag ≠ 0x07 ∨ 0x0A < cutOp h.action) →
        exec (.cutNop (.list n) .clean) s = .next (wrong 2 h s.countAction))) ∧
    (s.cutTurn (.list n) = true → s.cutHead n = some h → s.alive = true ∧ h.due ≤ s.now.toNat ∧
      (∀ x : Fin 16, s.activationDue x = false) ∧ (s.cutHead m = some k → h.due ≤ k.due ∧ (h.due = k.due → n ≤ m)) ∧ ∀ x ∈ s.trigq.queue, h.due ≤ x.due) ∧
    (s.hng[p].pulseEnd = some t → t.toNat ≤ s.now.toNat → exec (.hingePulseEnd p) s = .next (s.modHinge p fun h =>
      { h with trig := h.pulseBack, pulseEnd := none }))

/-- The registers and copies of a cut list and the triggers between devices (R292, R293, R295): COMMIT keeps the request, CANCEL drops
it, from Favar or the supervisor of the list's world only, after a commit whose boundary has come, and with both CANCEL wins (the model's
choice, log entry 157); at the frame boundary after the request the copies of the list's region and
its configurations change places, no other word of either memory changing, and the list starts; KTRIG sends its payload with T at least
2,000 ticks ahead, or records ECC, FORMAT or LEAD, a corrected error counted; a trigger that arrives enters the queue of 64 where its
world is accepted, and is dropped and counted otherwise. -/
def Obligations.CutLists : Prop :=
  ∀ (s s1 : State) (n : Fin 16) (a : Agent) (u : Who) (v : BitVec 64) (h : CutHead) (d x action : Word) (w : Fin 2)
    (done : State → State) (o : BitVec 12) (target : BitVec 64) (e : Secded),
    let l := s.cuts[n]
    let owner := u.isFavar || u.sup (worldIx l.world)
    let at_ := boundaryAfter l.pendAt
    let ask : State := (s.activate n).modCut n fun l => if l.pending then l else { l with pending := true, pendAt := s.now }
    let T : Int := h.inst + d.datum.toInt
    let arg := cutArg h.action
    let wrong (c : BitVec 3) : State := ((s.countAction.cutCorrected e).cutError n c h.entry).cutDone n h
    let k := s.kmSettle
    let accepts := if w = 0 then k.trigq.acceptT else k.trigq.acceptG
    (Grants s a 1 (some n.val) u →
      (bit v 0 = true → bit v 1 = false → exec (.clCommit a n v) s = .next (if owner then ask.settleAll else s)) ∧
      (bit v 1 = true → bit v 0 = false → exec (.clCancel a n v) s =
        .next (if owner then ((s.activate n).modCut n fun l => { l with pending := false }).settleAll else s)) ∧
      (bit v 0 = true → bit v 1 = true →
        let t := if owner then (ask.clCancel n).settleAll else s
        exec (.clCommit a n v) s = .next t ∧ exec (.clCancel a n v) s = .next t)) ∧
    (s.Sound → s.alive = true → l.pending = true → at_.toNat ≤ s.now.toNat → ∃ t : State, exec (.cutListActivation n) s = .next t ∧
      t.cuts[n].acfg = (fld l.scfg 0 48 : BitVec 48).setWidth 64 ∧ t.cuts[n].scfg = l.acfg ∧ t.cuts[n].pending = false ∧
      t.cuts[n].started = true ∧ t.cuts[n].actAt = at_ ∧ t = { s with cuts := t.cuts, mem := t.mem, cutActive := t.cutActive } ∧
      (∀ i, i < 2 * l.cap.toNat → memGet t.mem (0xE100000000 + (2 * l.base.toNat + i)) = memGet s.cutActive (2 * l.base.toNat + i) ∧
        memGet t.cutActive (2 * l.base.toNat + i) = memGet s.mem (0xE100000000 + (2 * l.base.toNat + i))) ∧
      (∀ b, (b < 0xE100000000 + 2 * l.base.toNat ∨ 0xE100000000 + 2 * l.base.toNat + 2 * l.cap.toNat ≤ b) →
        memGet t.mem b = memGet s.mem b) ∧
      (∀ b, (b < 2 * l.base.toNat ∨ 2 * l.base.toNat + 2 * l.cap.toNat ≤ b) → memGet t.cutActive b = memGet s.cutActive b) ∧
      ∀ m : Fin 16, m ≠ n → t.cuts[m] = s.cuts[m]) ∧
    (s.cutTurn (.list n) = true → s.cutHead n = some h → h.bad = false → isKtrig h.action = true →
      (e = .lost → exec (.ktrig n e) s = .next (wrong 1)) ∧
      (e ≠ .lost → cutFormat h.action = false ∨ payloadOk h.payload = false → exec (.ktrig n e) s = .next (wrong 2)) ∧
      (e ≠ .lost → cutFormat h.action = true → payloadOk h.payload = true → h.payload = some (d, x) →
        (T - s.now.toNat < 2000 → exec (.ktrig n e) s = .next (wrong 4)) ∧
        (2000 ≤ T - s.now.toNat → ActsNow s (.list n) h.action w s1 done → 
          exec (.ktrig n e) s = .next (done (if bit arg 12 then (s1.cutCorrected e).kmBroadcast w x (BitVec.ofInt 64 T)
            else (s1.cutCorrected e).kmOriginate (fld arg 0 12) (.trigger w x (BitVec.ofInt 64 T) none)))))) ∧
    (k.alive = true →
      (k.km.carries = true → accepts = true → k.trigq.queue.length < 64 →
        exec (.triggerArrival o w action target) s = .next { k with trigq := { k.trigq with
          queue := k.trigq.queue ++ [⟨w, action, target, max target.toNat k.now.toNat⟩] } }) ∧
      (k.km.carries = true → (accepts = false ∨ 64 ≤ k.trigq.queue.length) →
        exec (.triggerArrival o w action target) s = .next { k with trigq := { k.trigq with
          dropped := satInc k.trigq.dropped } }) ∧
      (k.km.carries = false → exec (.triggerArrival o w action target) s =
        .next { k with km := { k.km with unconf := satInc k.km.unconf } }))

/-! ## Sensor and drive lanes -/

/-- Sensor lanes (R301 to R313): a TDM frame of a wrong length, and an LSL-2 frame with a bad CRC, join the open period marked; an SPI
conversion bears its exact grid instant; a gap in CNT of up to 64 inserts marked samples, a larger jump restarts blocks; a period that
is not full only grows; a full one becomes an SBLK in the ring, its words at WR and nowhere else, WR and SEQ advancing (shown for one
channel, no stash and no wrap). SL_COMMIT, SL_START and SL_STOP act on the lanes named and granted; a commit applies at its boundary or
sets CFGERR, and a frame or a start after that boundary finds it handled; LINK follows the line. -/
def Obligations.SensorLanes : Prop :=
  ∀ (s : State) (n : Fin 32) (a : Agent) (u : Who) (v : BitVec 64) (bits : Nat) (cnt : BitVec 32) (codes : List (BitVec 32))
    (side : BitVec 24) (ovld : Bool) (f : OpenFrame),
    let l := s.sl[n]
    let calm := l.cpend = true → s.now.toNat < (boundaryAfter l.cpendAt).toNat
    let live := s.slOn n = true ∧ l.run = true ∧ codes.length = slChans l.acfg ∧ calm
    let due := gridTick l.gridStart (fld l.aivl 0 48 : BitVec 48).toNat l.gridIndex
    let lanes (f : State → Fin 32 → State) : State := (List.finRange 32).foldl (fun (s : State) x =>
      if bit v x.val && (u.isFavar || s.unitGranted u.world 3 x.val) then f s x else s) s
    let good : OpenFrame := { stamp := some s.now, marked := false, codes := codes, ovld := ovld }
    let lost : OpenFrame := { stamp := none, marked := true, codes := [] }
    let s1 := (s.takeSide n side).modSl n fun l => { l with lastCnt := some cnt }
    let jump := match l.lastCnt with
      | none => 1
      | some c => (cnt - c).toNat
    let fs := l.opened ++ [f]
    let r := recordedIvl l.acfg l.aivl fs
    let b := laneBlock l s.km.id n 0 fs [] r (ivlOff l.aivl r) false
    let top := l.ringBase.toNat + l.wr.toNat
    let stops := l.run && (l.cfg ^^^ l.acfg) &&& slFraming != 0
    ((calm → s.slSettle n = s) ∧
      exec (.tdmFrame n bits codes) s = exec (.tdmFrame n bits codes) (s.slSettle n) ∧
      exec (.spiConversion n codes) s = exec (.spiConversion n codes) (s.slSettle n) ∧
      exec (.lsl2Frame n ovld cnt codes side true) s = exec (.lsl2Frame n ovld cnt codes side true) (s.slSettle n) ∧
      exec (.lsl2Frame n ovld cnt codes side false) s = exec (.lsl2Frame n ovld cnt codes side false) (s.slSettle n) ∧
      s.slStart n = (s.slSettle n).slStart n ∧ s.slStop n = (s.slSettle n).slStop n) ∧
    (live → slMode l.acfg = 0 → exec (.tdmFrame n bits codes) s = .next (s.addFrames n [{
      stamp := some s.now, marked := decide (bits < 256) || decide (320 < bits)
      codes := codes.map fun (c : BitVec 32) => c >>> (32 - slWidth (fld l.acfg 7 2)) }])) ∧
    (live → slMode l.acfg = 1 → due ≤ s.now.toNat → exec (.spiConversion n codes) s =
      .next ((s.modSl n fun l => { l with gridIndex := l.gridIndex + 1 }).addFrames n
        [{ stamp := some (BitVec.ofNat 64 due), marked := false, codes := codes }])) ∧
    (live → slMode l.acfg = 2 → l.link = true →
      exec (.lsl2Frame n ovld cnt codes side false) s = .next ((s.modSl n fun l => { l with crc := true }).addFrames n
        [{ stamp := some s.now, marked := true, codes := codes, crcBad := true }]) ∧
      (jump = 1 → exec (.lsl2Frame n ovld cnt codes side true) s = .next (s1.addFrames n [good])) ∧
      (2 ≤ jump → jump ≤ 65 → exec (.lsl2Frame n ovld cnt codes side true) s =
        .next (((s1.modSl n fun l => { l with gap := true }).event 1 4 n.val []).addFrames n
          (List.replicate (jump - 1) lost ++ [good]))) ∧
      ((jump = 0 ∨ 65 < jump) → exec (.lsl2Frame n ovld cnt codes side true) s = .next ((((s1.closeShort n).modSl n fun l =>
        { l with resync := true, resyncs := satInc l.resyncs }).event 1 5 n.val []).addFrames n [good]))) ∧
    (fs.length < slBlklen l.acfg → s.addFrames n [f] = s.modSl n fun l => { l with
      opened := fs, badfr := BitVec.ofNat 32 (min (l.badfr.toNat + if f.marked then slChans l.acfg else 0) (2 ^ 32 - 1)) }) ∧
    (s.Sound → (bit l.acfg 50 = true → s.unrouted (fld l.acfg 42 8)) → fs.length = slBlklen l.acfg → 2 ≤ slBlklen l.acfg → slChans l.acfg = 1 → bit l.acfg 24 = false →
      l.wr.toNat + b.length ≤ l.ringSize.toNat → b.length ≤ s.ringFree n → (∀ i, i < b.length → s.mapped (top + i) = true) →
      let t := s.addFrames n [f]
      (∀ i, i < b.length → memGet t.mem (top + i) = b.getD i Word.zero) ∧
      (∀ x, (x < top ∨ top + b.length ≤ x) → memGet t.mem x = memGet s.mem x) ∧ t.sl[n].opened = [] ∧
      t.sl[n].wr = BitVec.ofNat 24 ((l.wr.toNat + b.length) % l.ringSize.toNat) ∧ t.sl[n].seq = l.seq + 1) ∧
    (Grants s a 3 none u →
      exec (.slCommit a v) s = .next (lanes State.slAsk).settleAll ∧
      exec (.slStart a v) s = .next (lanes State.slStart).settleAll ∧
      exec (.slStop a v) s = .next (lanes State.slStop).settleAll) ∧
    (s.slOn n = true → calm → l.cpend = false → s.slAsk n = s.modSl n fun l => { l with cpend := true, cpendAt := s.now }) ∧
    (s.slOn n = true → l.run = true → calm → s.slStop n = (s.closeShort n).modSl n fun l => { l with run := false }) ∧
    (s.slOn n = true → l.run = false → calm →
      (l.ringSize ≠ 0 → (slMode l.acfg = 1 ∨ l.link = true) → s.slStart n = s.modSl n fun l =>
        { l with run := true, opened := [], lastCnt := none, gridStart := s.now, gridIndex := 0 }) ∧
      ((l.ringSize = 0 ∨ slMode l.acfg ≠ 1 ∧ l.link = false) →
        s.slStart n = (s.modSl n fun l => { l with cfgerr := true }).event 1 1 n.val [])) ∧
    (s.slOn n = true → l.cpend = true → (boundaryAfter l.cpendAt).toNat ≤ s.now.toNat →
      (slCfgOk l.cfg l.ivl = false → exec (.slConfigApply n) s =
        .next ((s.modSl n fun l => { l with cpend := false, cfgerr := true }).event 1 1 n.val [])) ∧
      (slCfgOk l.cfg l.ivl = true → ∃ t : State, exec (.slConfigApply n) s = .next t ∧ t.sl[n].acfg = l.cfg ∧
        t.sl[n].aivl = l.ivl ∧ t.sl[n].achans = l.chans ∧ t.sl[n].cpend = false ∧ t.sl[n].run = (l.run && !stops) ∧
        t.sl[n].cfgstop = (l.cfgstop || stops) ∧ (l.run = true → t.sl[n].opened = []))) ∧
    (s.slOn n = true →
      exec (.laneLinkUp n) s = .next (s.modSl n fun l => { l with link := true }) ∧
      exec (.laneLinkDown n) s = .next (s.modSl n fun l => { l with link := false }))

/-- Drive lanes (R315 to R320, R459, R460): a store to DLn_SHADOW clears PEND and starts a check; the check reads the block at
BASE + OFFSET and sets PEND, or sets BADBLK; a commit takes the pending block from its tick on, or counts as ignored; a sample at its
instant is x times GAIN, clipped to the width, x from the word fetched ahead; POISON and NaN, and the end of a block with no commit,
enter the ramp with UNDERRUN; the ramp goes to zero in RAMP and ends in STOPPED; IDLE and STOPPED output zero codes; SOFTSTOP begins a
ramp, RESUME arms; a configuration applies at its boundary or sets CFGERR, and a sample, a check or a commit after that boundary finds it
handled. What SECDED finds in the words read is applied first. -/
def Obligations.DriveLanes : Prop :=
  ∀ (s : State) (n : Fin 16) (a : Agent) (u : Who) (v : BitVec 64) (b : DriveBlock) (ecc : Ecc),
    let l := s.dl[n]
    let early := l.storedAt = some s.now
    let calm := l.cpend = true → s.now.toNat < (boundaryAfter l.cpendAt).toNat
    let pa := l.ringBase.toNat + l.offset.toNat
    let i := l.nextK % b.count
    let t := l.sampleTick l.nextK
    let w := (s.sampleWord b i).1
    let read := (s.sampleWord b i).2.noteRead 8 (b.samples.toNat + i / 2)
    let word (j : Nat) : Word := s.agentPeek 8 (pa + j)
    let x := b.value w i
    let y := mulF64 x (ofF64 l.again)
    let out := clipCode (slWidth (fld l.acfg 4 2)) y
    let k := l.rampK
    let frozen := (l.state == .run || l.state == .ramp) && (fld l.cfg 0 8 : BitVec 8) != fld l.acfg 0 8
    let act (s : State) : State :=
      let s := if bit v 0 then (if l.state = .run then s.enterRamp n (l.sampleTick l.nextK) else s) else s
      if bit v 1 then s.modDl n fun l => { l with armed := true } else s
    let ctl : State := if u.gs then (act (s.modDl n fun l => { l with lmute := bit v 2 })).muteLane n
      else if u.isFavar || bit v 2 == l.lmute then act s else s
    let ctl' : State := if u.gs || u.isFavar || bit v 2 == l.lmute then ctl.settleAll else s
    (s.dlOn n = true → Grants s a 4 (some n.val) u →
      exec (.dlShadowWrite a n v) s = .next (s.modDl n fun l =>
        { l with offset := fld v 0 24, loop_ := bit v 24, pend := false, checking := true, shadow := none
                 storedAt := some s.now, oldPend := if early then l.oldPend else l.pend
                 oldShadow := if early then l.oldShadow else l.shadow }).settleAll ∧
      (bit v 0 = true → exec (.dlSoftstop a n v) s = .next ctl') ∧
      (bit v 1 = true → exec (.dlResume a n v) s = .next ctl')) ∧
    (exec (.dlShadowCheckDone n ecc) s = exec (.dlShadowCheckDone n []) ((s.memErrs ecc).dlSettle n) ∧
      exec (.driveSampleOutput n ecc) s = exec (.driveSampleOutput n []) ((s.memErrs ecc).dlSettle n) ∧
      s.driveCommit n = (s.dlSettle n).driveCommit n ∧ (calm → s.dlSettle n = s)) ∧
    (s.dlOn n = true → l.checking = true → calm →
      (s.checkShadow n = some b → exec (.dlShadowCheckDone n []) s =
        .next ((s.noteReads 8 pa 9).modDl n fun l => { l with checking := false, pend := true, shadow := some b })) ∧
      (s.checkShadow n = none → exec (.dlShadowCheckDone n []) s = .next
        ((((s.noteReads 8 pa 9).modDl n fun l => { l with checking := false, badblk := true }).guardEvent 8 n.val).event 2 3 n.val []))) ∧
    (s.checkShadow n = some b → (word 0).tag = 0x80 ∧ hdrKind (word 0) = 0x07 ∧
      l.offset.toNat + 1 + hdrLen (word 0) ≤ l.ringSize.toNat ∧ (b.count : Int) = (word 2).datum.toInt ∧ 1 ≤ b.count ∧
      (word 5).datum = l.adim ∧ (word 6).tag = 0x02 ∧ b.scale = (word 6).datum ∧ b.loop_ = l.loop_ ∧
      b.samples = BitVec.ofNat 40 (pa + 9) ∧ bit (word 7).datum 36 = false ∧
      b.ahead = (List.range (min 128 (cdiv b.count 2))).map fun j => s.agentPeek 8 (pa + 9 + j)) ∧
    (¬ early → calm → s.settleUnderrun n = s → (l.pend = true → l.shadow = some b →
        let plays := l.armed && !(s.laneMuted n)
        s.driveCommit n = s.modDl n fun l =>
          { l with current := some b, pos := 0, lastCommit := s.now, nextK := 0, lowDone := false, pend := false, shadow := none
                   oldPend := false, oldShadow := none, state := if plays then .run else l.state, armed := l.armed && !plays }) ∧
      (l.pend = false → s.driveCommit n = ((s.modDl n fun l =>
        { l with ignored := true, ignores := satInc l.ignores }).guardEvent 7 n.val).event 2 2 n.val [])) ∧
    (s.dlOn n = true → calm → l.state = .run → l.current = some b → t ≤ s.now.toNat → (b.loop_ = true ∨ l.nextK < b.count) →
      (w.tag = 0xFE → exec (.driveSampleOutput n []) s =
        .next (((read.modDl n fun l => { l with poison := true }).underrunAt n t).event 2 4 n.val [])) ∧
      (w.tag ≠ 0xFE → x.isNan = true → exec (.driveSampleOutput n []) s =
        .next ((read.modDl n fun l => { l with nan := true }).underrunAt n t)) ∧
      (w.tag ≠ 0xFE → x.isNan = false → y.isNan = false → exec (.driveSampleOutput n []) s = .next (State.fetchSamples (State.lowWater
        (State.emit (read.modDl n fun l => { l with pos := BitVec.ofNat 32 i, nextK := l.nextK + 1, lastCode := out.1
                                                    clips := if out.2 then satInc l.clips else l.clips })
          (.driveCode n (BitVec.ofNat 32 i) out.1)) n b i t) n b i)) ∧
      (w.tag ≠ 0xFE → x.isNan = false → y.isNan = true → ∃ c : Int, ∃ z : State, exec (.driveSampleOutput n []) s = .next z ∧
        z.dl[n].lastCode = c ∧ .driveCode n (BitVec.ofNat 32 i) c ∈ z.out ∧ z.dl[n].nextK = l.nextK + 1)) ∧
    (s.sampleWord b i = (s.agentPeek 8 (b.samples.toNat + i / 2), s) ∨
      ∃ d ∈ b.ahead.head?, d ≠ s.agentPeek 8 (b.samples.toNat + i / 2) ∧
        (w = d ∨ w = s.agentPeek 8 (b.samples.toNat + i / 2))) ∧
    (s.dlOn n = true → calm → (l.state = .idle ∨ l.state = .stopped) → l.period ≠ 0 → exec (.driveSampleOutput n []) s =
      .next (State.emit (s.modDl n fun l => { l with lastCode := 0 }) (.driveCode n l.pos 0))) ∧
    (s.dlOn n = true → l.state = .ramp →
      (calm → gridTick l.rampAt l.period k ≤ s.now.toNat → exec (.driveSampleOutput n []) s = .next (State.emit
        (s.modDl n fun l => { l with lastCode := l.rampCode k, rampK := k + 1 }) (.driveCode n l.pos (l.rampCode k)))) ∧
      (l.rampAt.toNat + l.rampTicks ≤ s.now.toNat → exec (.driveRampComplete n) s = .next (State.emit
        (s.modDl n fun l => { l with lastCode := 0, state := .stopped }) (.driveCode n l.pos 0)))) ∧
    (l.rampTicks ≤ gridTick 0 l.period k → l.rampCode k = 0) ∧
    (s.dlOn n = true → l.state = .run → l.current = some b → b.loop_ = false → l.sampleTick b.count < s.now.toNat →
      exec (.driveUnderrun n) s = .next ((State.guardEvent (s.modDl n fun l =>
        { l with state := .ramp, rampFrom := l.lastCode, rampAt := BitVec.ofNat 64 (l.sampleTick b.count), rampK := 0
                 underrun := true, underruns := satInc l.underruns }) 6 n.val).event 2 1 n.val [])) ∧
    (Grants s a 4 none u → s.variantL = false → exec (.dlCommit a v) s = .next
      (State.settleAll ((List.finRange 16).foldl (fun (s : State) z =>
        if bit v z.val && (u.isFavar || s.unitGranted u.world 4 z.val) then s.dlRequest z else s) s))) ∧
    (s.dlOn n = true → l.cpend = true → (boundaryAfter l.cpendAt).toNat ≤ s.now.toNat →
      exec (.dlConfigApply n) s = .next (s.modDl n fun l =>
        if !(dlCfgOk l.cfg l.ivl) || frozen then { l with cpend := false, cfgerr := true }
        else { l with cpend := false, acfg := l.cfg, aivl := l.ivl, adim := l.dim, again := l.gain }))

/-! ## Lathes, Marquetry, gauges, hinge pins -/

/-- Lathe jobs (R326, R327, R329, R332 to R335): the row of a function computes the head job's result once, when no source is EMPTY,
after what SECDED finds in the words it reads is applied, and its reads are made; a result tells in ERR whether it has a code. The end of
a job writes the words of its result and no other, then counts JOBS and ERRS, names the error, and lets the next job come to the head;
parity errors poison the samples that they name; a job whose descriptor is not acceptable ends with DESC, one that waits for an EMPTY
source for SRCWAIT_LIMIT is ended and counted as an error. -/
def Obligations.LatheJobs : Prop :=
  ∀ (s : State) (n : Fin 8) (j : LatheJob) (rest : List LatheJob) (res r : LatheResult) (count : Nat) (parity : List Nat)
    (l lst : List (Nat × Word)) (e : Nat × Option (BitVec 48 × BitVec 64)) (ecc : Ecc),
    let x := s.lathes[n]
    let reads := (s.jobSpots j).foldl (fun (t : State) a => t.noteRead 9 a) (s.countLatheFault j.world res.fault)
    let computes (k count : Nat) (i : Ecc → Instr) : Prop := exec (i ecc) s = exec (i []) (s.memErrs ecc) ∧
      (x.queue = j :: rest → s.luOn n = true → j.result = none → s.srcWaiting j = false → j.func.toNat = k →
      (s.jobCompute j count s.drawn = .ok res ∨ s.jobCompute j count s.drawn = .error e ∧ res = errResult j [] e.1 e.2) →
      exec (i []) s = .next (State.modLathe { reads with drawn := reads.drawn + 1 } n fun l =>
        { l with queue := { j with result := some res } :: rest }))
    let ends (r : LatheResult) (t : State) : Prop :=
      let y := t.lathes[n]
      y.jobs = x.jobs + 1 ∧ (y.errs = if r.code = 0 then x.errs else satInc x.errs) ∧ y.queue.length = rest.length ∧
        (r.code = 0 → y.lastErr = x.lastErr) ∧ (r.code ≠ 0 → (fld y.lastErr 0 8 : BitVec 8) = r.code ∧
          (fld y.lastErr 16 32 : BitVec 32) = j.serial) ∧ ∀ m : Fin 8, m ≠ n → t.lathes[m] = s.lathes[m]
    let wrote (ws : List (Nat × Word)) (t : State) : Prop :=
      (∀ a, (∀ w ∈ ws, w.1 ≠ a) → memGet t.mem a = memGet s.mem a) ∧
      ((ws.map (·.1)).Nodup → (∀ w ∈ ws, s.mapped w.1 = true ∧ s.cutHidden j.world w.1 = false) →
        ∀ w ∈ ws, memGet t.mem w.1 = w.2)
    let final := if parity = [] ∨ r.code ≠ 0 then r
      else { r with code := 6, samples := spoil parity 0 r.samples, lstats := markErr r.lstats }
    (computes 1 0 (fun e => .latheVop n e) ∧ computes 2 0 (fun e => .latheFft n e) ∧ computes 3 0 (fun e => .latheIfft n e) ∧
      computes 4 0 (fun e => .latheWspec n e) ∧ computes 5 0 (fun e => .latheFir n e) ∧
      computes 6 0 (fun e => .latheBiquad n e) ∧ computes 7 0 (fun e => .latheResample n e) ∧
      computes 8 0 (fun e => .latheTrack n e) ∧ computes 9 count (fun e => .lathePvx n count e)) ∧
    (s.jobCompute j count s.drawn = .ok res → ∀ q ∈ res.lstats, bit q.2 47 = (res.code != 0)) ∧
    (s.Sound → x.queue = j :: rest → s.luOn n = true → (∀ k ∈ j.doneLine.toList ++ j.errLine.toList, s.unrouted k) →
      (j.result = some r ∨ j.result = none ∧ j.undone = true ∧ r = errResult j [] 1 none ∧ r.code = 1) →
      (s.latheTargets j (final.heads ++ final.samples) = .ok l → lst = (s.lathePut j.world l).lstatTargets j final.lstats →
        ∃ t : State, exec (.latheJobEnd n parity) s = .next t ∧ ends final t ∧ wrote (l ++ lst) t ∧
          t.lathes[n].perr = BitVec.ofNat 32 (min (x.perr.toNat + parity.length) (2 ^ 32 - 1))) ∧
      (s.latheTargets j (final.heads ++ final.samples) = .error e → e.1 = 7 → ∃ t : State, exec (.latheJobEnd n parity) s = .next t ∧
        ends { final with code := 7 } t ∧ wrote (s.lstatTargets j (markErr final.lstats)) t ∧
        t.lathes[n].lastFaddr = (e.2.map (·.1)).getD x.lastFaddr)) ∧
    (s.Sound → x.queue = j :: rest → s.luOn n = true → j.result = none → s.srcWaiting j = true →
      j.startedAt.toNat + x.srcwaitLimit.toNat * 1000 ≤ s.now.toNat → ∃ t : State, exec (.latheSrcwaitTimeout n) s = .next t ∧ t.lathes[n].jobs = x.jobs + 1 ∧
        t.lathes[n].errs = satInc x.errs ∧ t.lathes[n].queue.length = rest.length)

/-- Marquetry (R338 to R342): the next block period of a logged lane becomes one segment of KIND 0 in the log ring, with the next SEGSEQ,
its words where the ring has room and nowhere else but in a FILL run before the wrap; while the ring has no room, HOLD keeps the period
and otherwise it is dropped and counted; channels in CHRET go to the retention ring. A trigger opens or extends a window and copies what
it wants; a window closes at its end. A segment ends with the CRC-32C of its words. What SECDED finds in the words read is applied
first. -/
def Obligations.MarquetryLogs : Prop :=
  ∀ (s : State) (n : Fin 32) (k : Fin 4) (choice : List (Fin 4 × Fin 32)) (stamp q w4 : BitVec 64) (kind : Nat)
    (body : List (BitVec 64)) (ecc : Ecc),
    let m := s.mq
    let l := s.sl[n]
    let size := l.ringSize.toNat
    let period := s.mqPeriod l.ringBase.toNat size l.wr.toNat 34 m.pos[n].toNat none
    let sel := period.1.filter fun b => mqSelected m.chsel n b.chan
    let b1 := (mqBody choice (sel.filter fun b => !(mqSelected m.chret n b.chan))).1
    let rets := sel.filter fun b => mqSelected m.chret n b.chan
    let samples : Nat := (sel.map fun b => (b.fields.getD 1 Word.nil).datum.toNat).foldl (· + ·) 0
    let past (s : State) : State :=
      let s := s.noteRing l.ringBase.toNat size m.pos[n].toNat (period.2 % size)
      { s with mq := { s.mq with
      pos := vset s.mq.pos n (BitVec.ofNat 40 (period.2 % size)), gap := vset s.mq.gap n false
      samplesIn := s.mq.samplesIn + BitVec.ofNat 64 samples } }
    let span := mqSpan sel
    let w := m.ret[k]
    let w' : RetWindow := { w with last := stamp, until_ := stamp + w.post.setWidth 64, isOpen := true
                                   from_ := if w.isOpen then w.from_ else BitVec.ofNat 64 (stamp.toNat - w.pre.toNat) }
    let opened : State := { s with mq := { m with ret := vset m.ret k w' } }
    let seg := mkSegment kind m.seq stamp q w4 body
    let put := s.logPut kind stamp q w4 body
    let spot := ringSpot m.logSize.toNat m.logWr.toNat seg.length
    let base := m.logBase.toNat
    exec (.mqBlockCode n choice ecc) s = exec (.mqBlockCode n choice []) (s.memErrs ecc) ∧
    (s.alive = true → s.logged n = true → m.pos[n].toNat ≠ l.wr.toNat → size ≠ 0 → period.1 ≠ [] →
      (∀ b ∈ period.1, b.bad = false) → sel ≠ [] →
      (rets = [] → m.room (6 + b1.length) = true → exec (.mqBlockCode n choice []) s =
        .next ((past s).logPut 0 span.1 span.2 (mqWord4 s.km.id n sel.length m.gap[n]) b1)) ∧
      (rets = [] → m.room (6 + b1.length) = false → m.full = true → exec (.mqBlockCode n choice []) s = .next s) ∧
      (rets = [] → m.room (6 + b1.length) = false → m.full = false → exec (.mqBlockCode n choice []) s = .next ((past s).logDrop n)) ∧
      (rets = sel → m.retSize ≠ 0 → (∀ k : Fin 4, m.ret[k].isOpen = false) → exec (.mqBlockCode n choice []) s =
        .next ((State.retPut { past s with mq := { (past s).mq with gap := m.gap } } n span.1 span.2
          (mqWord4 s.km.id n sel.length m.gap[n]) (mqBody choice sel).1)))) ∧
    (s.Sound → 0 < m.logSize.toNat → seg.length ≤ m.logSize.toNat → m.logWr.toNat < m.logSize.toNat →
      (∀ i, i < m.logSize.toNat → s.mapped (base + i) = true) →
      (∀ i, i < seg.length → memGet put.mem (base + spot.1 + i) = Word.raw (seg.getD i 0)) ∧
      (spot.2 ≠ 0 → memGet put.mem (base + m.logWr.toNat) = Word.fill (BitVec.ofNat 64 spot.2) ∨ spot.1 + seg.length > m.logWr.toNat) ∧
      (∀ a, (a < base + spot.1 ∨ base + spot.1 + seg.length ≤ a) → a ≠ base + m.logWr.toNat → memGet put.mem a = memGet s.mem a) ∧
      put.mq.seq = m.seq + 1 ∧ put.mq.logWr = BitVec.ofNat 40 ((spot.1 + seg.length) % m.logSize.toNat)) ∧
    (seg.length = 6 + body.length ∧ seg.getD 1 0 = m.seq ∧ (fld (seg.getD 0 0) 0 16 : BitVec 16) = 0x4D51 ∧
      seg.getLast? = some ((crc32c (wordBytes seg.dropLast)).setWidth 64)) ∧
    (s.alive = true → m.en = true → w.en = true → exec (.mqRetentionTrigger k stamp) s = .next
      ((if w.isOpen then opened else opened.event 7 3 k.val []).countTrunc w' |>.copyWanted w')) ∧
    (w.isOpen = true → w.until_.toNat ≤ s.now.toNat → exec (.mqRetentionClose k) s =
      .next { s with mq := { m with ret := vset m.ret k { w with isOpen := false } } })

/-- Gauge timers (R346, R347, R350 to R355): a counter tick counts down, reloads or stops at 1, raises ZF and CF, advances CMP by IVL
unless it was stored to, and drives the output by OUTMODE; two linked gauges do so as one of 64 bits; the accumulator keeps its
remainder, and a zero event is a source edge of every running gauge that has that gauge as its source. A store to CNT stands at the end of the tick while the counter runs; CTL starts and stops; a CFG that the spec refuses sets
CFGERR. An edge of CAPEDGE captures the count; a pop takes the oldest capture, 5th captures being lost with OVF. -/
def Obligations.GaugeTimers : Prop :=
  ∀ (s : State) (n : Fin 32) (k : Fin 16) (a : Agent) (u : Who) (v : BitVec 64) (rising : Bool) (c : Capture)
    (q : List Capture) (acc ratio : Nat),
    let g := s.gauges[n]
    let lo := pairLo k
    let g0 := s.gauges[lo]
    let g1 := s.gauges[pairHi k]
    let drives (g : Gauge) (zero hit : Bool) : Bool := match (fld g.cfg 27 2 : BitVec 2).toNat with
      | 1 => g.out ^^ hit
      | 2 => hit
      | 3 => g.out ^^ zero
      | _ => g.out
    let marks (g : Gauge) (zero hit : Bool) : Gauge :=
      { g with zf := g.zf || zero, cf := g.cf || hit, en := g.en && !(zero && bit g.cfg 15)
               acc := if gtSrc g.cfg = 4 then g.acc else gtAcc g.acc (gtRatio g.pre), due := g.due - 1
               cntStored := none, cmpStored := false, out := drives g zero hit }
    let lines (s : State) (g : Gauge) (zero hit : Bool) : State :=
      let s := if zero && bit g.cfg 37 then s.raise (fld g.cfg 29 8 : BitVec 8).toFin else s
      if hit && bit g.cfg 46 then s.raise (fld g.cfg 38 8 : BitVec 8).toFin else s
    let zero := g.cntStored.isNone && g.cnt == 1
    let cnt := g.cntStored.getD (if g.cnt = 1 then (if bit g.cfg 15 then 0 else g.reload) else g.cnt - 1)
    let hit := cnt == g.cmp
    let cmp := if hit && bit g.cfg 17 && !g.cmpStored then g.cmp + g.ivl else g.cmp
    let stored2 := g0.cntStored.isSome || g1.cntStored.isSome
    let zero2 := !stored2 && pair64 g0.cnt g1.cnt == 1
    let cnt2 : BitVec 64 := if stored2 then pair64 (g0.cntStored.getD g0.cnt) (g1.cntStored.getD g1.cnt)
      else if pair64 g0.cnt g1.cnt = 1 then (if bit g0.cfg 15 then 0 else pair64 g0.reload g1.reload) else pair64 g0.cnt g1.cnt - 1
    let hit2 := cnt2 == pair64 g0.cmp g1.cmp
    let cmp2 : BitVec 64 := if hit2 && bit g0.cfg 17 && !(g0.cmpStored || g1.cmpStored)
      then pair64 g0.cmp g1.cmp + pair64 g0.ivl g1.ivl else pair64 g0.cmp g1.cmp
    let s1 := (s.modGauge lo fun g => marks { g with cnt := fld cnt2 0 32, cmp := fld cmp2 0 32 } zero2 hit2).modGauge (pairHi k)
      fun g => { g with cnt := fld cnt2 32 32, cmp := fld cmp2 32 32, cntStored := none, cmpStored := false }
    let halt (g : Gauge) : Gauge := { g with cnt := g.cntStored.getD g.cnt, cntStored := none, cmpStored := false }
    let t := s.modGauge n fun g => if bit v 0 then
      (if g.en then g else { g with en := true, acc := 0, due := 0, out := false, cmpStored := false }) else { g with en := false }
    let capture : State := s.modGauge n fun g =>
      { g.upTo s.now with late := (g.upTo s.now).late ++ [⟨if s.linked n then pair64 g.cnt s.gauges[pairHi (pairOf n)].cnt
          else put 0 g.cnt, s.now, false⟩], lateAt := s.now }
    let sees := s.aonOn && bit g.cfg 18 && capEdge g.cfg rising && !(s.linked n && n.val % 2 == 1) &&
      s.gaugeSees (fld g.cfg 19 6 : BitVec 6).toFin
    let popped (n : Fin 32) : State := s.modGauge n fun g => { g.upTo s.now with queue := q, capt := c.stamp, lastovf := c.ovf }
    (s.aonOn = true → g.en = true → s.gtTicks g = true → s.linked n = false → exec (.gaugeTick n) s =
      .next (lines ((s.modGauge n fun g => marks { g with cnt := cnt, cmp := cmp } zero hit).gtFeed n zero) g zero hit)) ∧
    (s.aonOn = true → g0.en = true → s.gtTicks g0 = true → s.linked lo = true →
      exec (.gaugeTick lo) s = .next (lines (s1.gtFeed lo zero2) g0 zero2 hit2)) ∧
    (∀ x : Fin 32, let y := s.gauges[x]
      (s.gtFeed n true).gauges[x] = if y.en = true ∧ gtSrc y.cfg = 4 ∧ (fld y.cfg 9 5 : BitVec 5) = BitVec.ofNat 5 n.val then
        (if gtRatio y.pre ≤ y.acc + 65536 then { y with acc := y.acc + 65536 - gtRatio y.pre, due := y.due + 1 }
          else { y with acc := y.acc + 65536 }) else y) ∧
    (acc < ratio → 65536 ≤ ratio → ratio < 2 ^ 32 → gtAcc acc ratio < 65536 ∧ (gtAcc acc ratio + ratio) % 65536 = acc % 65536) ∧
    (Grants s a 2 (some n.val) u →
      exec (.gtCntWrite a n v) s = .next (s.modGauge n fun g =>
        if s.gtRuns n then { g with cntStored := some (fld v 0 32) } else { g with cnt := fld v 0 32 }).settleAll ∧
      exec (.gtCmpWrite a n v) s = .next (s.modGauge n fun g => { g with cmp := fld v 0 32, cmpStored := true }).settleAll ∧
      exec (.gtPreWrite a n v) s = .next (s.modGauge n fun g => { g with pre := (fld v 0 32 : BitVec 32).setWidth 64 }).settleAll ∧
      (s.gtCfgBad n v = true → exec (.gtCfgWrite a n v) s = .next (s.modGauge n fun g => { g with cfgerr := true }).settleAll) ∧
      (s.gtCfgBad n v = false → exec (.gtCfgWrite a n v) s = .next (s.modGauge n fun g =>
        { g with cfg := (fld v 0 47 : BitVec 47).setWidth 64, acc := if gtSrc v = gtSrc g.cfg then g.acc else 0
                 due := if gtSrc v = gtSrc g.cfg then g.due else 0 }).settleAll) ∧
      exec (.gtEnable a n v) s = .next (if t.gtRuns n then t
        else if s.linked n then (t.modGauge (pairLo (pairOf n)) halt).modGauge (pairHi (pairOf n)) halt
        else t.modGauge n halt).settleAll) ∧
    ((gtSrc v ≥ 5 ∨ (fld v 25 2 : BitVec 2) = 3 ∨ bit v 16 = true ∧ n.val % 2 = 1) → s.gtCfgBad n v = true) ∧
    (exec (.gaugeCapture n rising) s = .next (if sees then capture else s)) ∧
    (s.who a = some u → s.granted u 2 (some n.val) false = true →
      ((g.upTo s.now).queue = c :: q → exec (.gtCapPop a n) s = .next (popped n) ∧
        (s.gtPop n false).1 = Word.raw ((fld c.count 0 32 : BitVec 32).setWidth 64)) ∧
      ((g.upTo s.now).queue = [] → exec (.gtCapPop a n) s = .next s ∧ (s.gtPop n false).1 = Word.empty)) ∧
    (s.who a = some u → s.granted u 2 (some (2 * k.val)) false = true →
      ((g0.upTo s.now).queue = c :: q → exec (.gtpCapPop a k) s = .next (popped lo) ∧ (s.gtPop lo true).1 = Word.raw c.count) ∧
      ((g0.upTo s.now).queue = [] → exec (.gtpCapPop a k) s = .next s)) ∧
    (g.queue.length < 4 → g.append c = { g with queue := g.queue ++ [c] }) ∧
    (g.queue.length = 4 → (g.append c).queue.length = 4 ∧ (g.append c).capovf = true ∧ (g.append c).lost = satInc g.lost ∧
      (g.append c).queue.take 3 = g.queue.take 3 ∧ ∃ e, (g.append c).queue.getLast? = some e ∧ e.ovf = true)

/-- Hinge pins and their banks (R434 to R441): at a slot boundary the pin passes to the leaf of its slot, with a break of 20 ns where the
driver changes and one of the two is an output; an input leaf sees an edge, which raises LINE under EDGE; a commit is kept for the frame
boundary, and then every pin of the bank takes its shadow, or CFGERR is set; whatever comes after that boundary finds it so. The UART FIFOs hold 64 characters, the next being lost with
OVR; a first character received raises RXLINE with RXEV. A one-wire operation starts where none is in progress, and its end raises LINE. -/
def Obligations.HingePins : Prop :=
  ∀ (s : State) (p : Fin 64) (b : Fin 4) (a : Agent) (u : Who) (v : BitVec 64) (level ferr perr present : Bool)
    (byte data : BitVec 8) (x : BitVec 8 × Bool × Bool) (r : List (BitVec 8 × Bool × Bool)) (tx : List (BitVec 8)),
    let h := s.hng[p]
    let k := s.banks[b]
    let now := slotOf s.now
    let left : Driver × Option Bool := match leafAt h.aslots h.slotNow with
      | .none_ => (h.lastDriver, h.driven)
      | l => (l, if leafOut? (leafFun h.acfg l) then some (s.leafLevel h (leafFun h.acfg l)) else none)
    let new := leafAt h.aslots now
    let breaks := new ≠ left.1 ∧ (leafOut? (leafFun h.acfg new) = true ∨ left.2.isSome = true)
    let edge := (fld h.acfg 22 2 : BitVec 2).toNat
    let fires := (h.owner = 1 ∨ h.owner = 9) ∧ (edge = 3 ∨ edge = 1 ∧ level = true ∨ edge = 2 ∧ level = false)
    let balled : State := s.modHinge p fun h => { h with ball := level }
    let seen : State := s.modHinge p fun h => { h with ball := level, inp := level }
    let flagged : State := s.modHinge p fun h => { h with ball := level, inp := level, edgef := true }
    let stamp := if s.now.toNat < h.breakEnd.toNat then h.breakEnd else s.now
    let ow (op : OwOp) : State :=
      let t := s.modBank b fun k => { k with owData := fld v 0 8, owLine := fld v 13 8, owLev := bit v 21 }
      if k.owOp = .none_ then State.emit (t.modBank b fun k => { k with owOp := op, owAt := s.now }) (.oneWire b op (fld v 0 8))
      else t
    let owEnd : State := s.modBank b fun k => { k with owOp := .none_, owData := if k.owOp = .read then data else k.owData
                                                       owPresent := if k.owOp = .reset then present else k.owPresent }
    (exec (.hingeSlotBoundary p) s = exec (.hingeSlotBoundary p) (s.hngSettle (bankOf p)) ∧
      exec (.hingeInputEdge p level) s = exec (.hingeInputEdge p level) (s.hngSettle (bankOf p))) ∧
    (s.hngDue (bankOf p) = false → s.alive = true → s.imt.started = true → h.slotNow ≠ now → ∃ t : State, exec (.hingeSlotBoundary p) s = .next t ∧
      t.hng[p].slotNow = now ∧ t.hng[p].lastDriver = left.1 ∧ t.hng[p].driven = left.2 ∧
      (new ≠ .none_ → breaks → t.hng[p].breakEnd = s.now + 20) ∧ (new ≠ .none_ → ¬ breaks → t.hng[p].breakEnd = s.now) ∧
      (new = .none_ → t.hng[p].breakEnd = h.breakEnd) ∧
      (∀ o : Fin 64, o ≠ p → t.hng[o] = s.hng[o]) ∧ t.banks[bankOf p].phaseOut = bit s.banks[bankOf p].amap now.val ∧
      (s.unrouted (fld h.acfg 14 8) → t.mem = s.mem)) ∧
    (s.hngDue (bankOf p) = false → s.alive = true →
      ((leafIn? h.owner = false ∨ level = h.inp) → exec (.hingeInputEdge p level) s = .next balled) ∧
      (leafIn? h.owner = true → level ≠ h.inp → ¬ fires → exec (.hingeInputEdge p level) s = .next seen) ∧
      (leafIn? h.owner = true → level ≠ h.inp → fires → exec (.hingeInputEdge p level) s =
        .next (flagged.raiseAt (fld h.acfg 14 8 : BitVec 8).toFin stamp))) ∧
    (Grants s a 10 (some (16 * b.val)) u →
      (bit v 0 = true → exec (.hngCommit a b v) s = .next ((s.hngSettle b).modBank b fun k =>
        { k with cfgerr := k.cfgerr && !(bit v 2), cpend := true, cpendAt := if k.cpend then k.cpendAt else s.now }).settleAll) ∧
      (exec (.uartTxWrite a b v) s = .next (s.modBank b fun k =>
        if k.tx.length < 64 then { k with tx := k.tx ++ [fld v 0 8] } else { k with ovr := true }).settleAll) ∧
      (bit v 8 = true → exec (.owReset a b v) s = .next (ow .reset).settleAll) ∧
      (bit v 8 = false → bit v 9 = true → exec (.owWrite a b v) s = .next (ow .write).settleAll) ∧
      (bit v 8 = false → bit v 9 = false → bit v 10 = true → exec (.owRead a b v) s = .next (ow .read).settleAll)) ∧
    (s.alive = true → k.cpend = true → (boundaryAfter k.cpendAt).toNat ≤ s.now.toNat →
      (s.bankOk b = false → exec (.hngCommitApply b) s = .next (s.modBank b fun k => { k with cpend := false, cfgerr := true })) ∧
      (s.bankOk b = true → ∃ t : State, exec (.hngCommitApply b) s = .next t ∧ t.banks[b].amap = k.map ∧ t.banks[b].cpend = false ∧
        (p ∈ bankPins b → t.hng[p].acfg = h.cfg ∧ t.hng[p].aslots = h.slots ∧ t.hng[p].cfg = h.cfg) ∧
        (p ∉ bankPins b → t.hng[p] = h))) ∧
    (k.tx = byte :: tx → exec (.uartCharSent b) s = .next (State.emit (s.modBank b fun k => { k with tx := tx }) (.uart b byte))) ∧
    (s.alive = true → let y := k.upTo s.now
      let t := s.modBank b fun _ => { y with rxLate := y.rxLate ++ [(byte, ferr, perr)], rxLateAt := s.now }
      exec (.uartCharReceived b byte ferr perr) s = .next (if y.rx = [] ∧ y.rxLate = [] ∧ bit y.ucfg 31 = true
        then t.raise (fld y.ucfg 23 8 : BitVec 8).toFin else t)) ∧
    (k.rx.length < 64 → k.append x = { k with rx := k.rx ++ [x] }) ∧
    (64 ≤ k.rx.length → k.append x = { k with ovr := true }) ∧
    (s.who a = some u → s.granted u 10 (some (16 * b.val)) false = true → 
      ((k.upTo s.now).rx = x :: r → exec (.uartRxPop a b) s = .next (s.modBank b fun _ => { k.upTo s.now with rx := r }) ∧
        (s.uartPop b).1 = Word.raw (x.1.setWidth 64 ||| fbit 8 x.2.1 ||| fbit 9 x.2.2)) ∧
      ((k.upTo s.now).rx = [] → exec (.uartRxPop a b) s = .next s ∧ (s.uartPop b).1 = Word.empty)) ∧
    (k.owOp ≠ .none_ → k.owAt.toNat + k.owOp.ticks ≤ s.now.toNat → exec (.owDone b data present) s =
      .next (if k.owLev then owEnd.raise k.owLine.toFin else owEnd))

/-! ## Favar: requests, identity, time, worlds -/

/-- How Favar takes and answers requests (R362 to R364, R371, R382): a doorbell takes a slot that the host owns, reading it once, and is
otherwise ignored and counted; a request that a check refuses completes with that check's status; a host's request ends with its result
in its slot, OWN 0 and DONE 1, a world's with a reply that Favar writes with its stamp and line; work that had been answered BUSY ends
with an entry in the event ring. A world's GO joins Favar's order, and a request not begun by its deadline ends with TIMEOUT. A register
store reaches the register of its block and offset where the agent is granted it (R456 to R458), or what the host stores to in BAR0. -/
def Obligations.FavarRequests : Prop :=
  ∀ (s s' s1 : State) (r : FvReq) (rest : List FvReq) (v : BitVec 64) (buf : HostBuf) (h0 h1 : BitVec 16) (st : BitVec 8)
    (ws : List (BitVec 64)) (i : Instr) (k j : Fin 16) (w : Fin 2) (n : Nat) (b : BusyOp)
    (a : Agent) (who : Who) (x : Word) (xs : List Word) (at_ : BitVec 64) (block : Fin 16) (off : Nat) (g : DevReg) (pa : BitVec 40),
    let m := s.fv.slots[(fld v 0 4 : BitVec 4).toFin]
    let u := s.doorbell (fld v 0 4 : BitVec 4).toFin
    let req : FvReq := { from_ := .slot (fld v 0 4 : BitVec 4).toFin, cmd := m.cmd, seq := m.seq, irq := m.irq
                         payload := m.payload.take (m.len.toNat / 8), bad := decide (m.len.toNat % 8 ≠ 0 ∨ 4064 < m.len.toNat) }
    let taken : State := { s with fv := { s.fv with queue := s.fv.queue ++ [req]
                                                    slots := vset s.fv.slots (fld v 0 4 : BitVec 4).toFin { m with taken := true } } }
    let rows : List (Nat × Instr) := [(0x01, .hello), (0x02, .caps), (0x03, .health h0 h1), (0x90, .eventSub), (0xF0, .crashRead),
      (0x14, .worldPartition buf), (0x10, .imageLoad buf), (0x11, .imageVerify), (0x12, .worldStart), (0x13, .worldStop),
      (0x20, .laneSet buf), (0x21, .driveSet buf), (0x30, .cutLoad buf), (0x31, .cutCommit), (0x50, .timeSource),
      (0x51, .timeStatus), (0x60, .kamionMap buf), (0x40, .logOpen), (0x41, .logClose), (0x70, .veneerStage buf),
      (0x71, .veneerApply), (0x80, .fwStage buf), (0x81, .fwSwap), (0xA0, .checkpoint), (0xB0, .worldMsg)]
    let t := s.finish r st ws
    let entry : EvEntry := { cls := 0, code := b.cmd, seq := b.seq, stamp := s.now, status := st.setWidth 32
                             slot := BitVec.ofNat 8 k.val, data := ws.take 5 }
    let y := s.worlds[w].mbx
    let stored : State := s.modWorld w fun x => { x with mbx := { x.mbx with
      cmd := fld v 0 16, nwords := fld v 16 5, seq := fld v 32 32 } }
    let begun : State := stored.modWorld w fun x => { x with mbx := { x.mbx with
      busy := true, done := false, goSeq := fld v 32 32, goDeadline := y.deadline, result := none } }
    let sends := y.req.toList.take (fld v 16 5 : BitVec 5).toNat
    let load : List (BitVec 64) := if (fld v 0 16 : BitVec 16) = 0xB0 then (sends.take 1).map (·.datum) ++
        (sends.drop 1).flatMap (fun x => [x.datum, x.tag.setWidth 64]) else sends.map (·.datum)
    let asked : FvReq := { from_ := .world w, cmd := fld v 0 16, seq := fld v 32 32, payload := load }
    let joined : State := { begun with fv := { begun.fv with queue := s.fv.queue ++ [asked] } }
    let z := s.mbxReply w st xs at_
    let mz := z.worlds[w].mbx
    (s.alive = true → s.fv.pcieUp = true →
      exec (.fvDoorbell v) s = .next (if s.fv.served then u.dispatched else u) ∧
      (m.own = true → m.taken = false → s.fv.served = true → u = taken) ∧
      ((m.own = false ∨ m.taken = true ∨ s.fv.served = false) →
        u = { s with fv := { s.fv with ignored := satInc s.fv.ignored } })) ∧
    ((∀ q ∈ s.fv.queue, q.bad = false ∧ knownCmd q.cmd.toNat = true) → s.dispatched = s) ∧
    (s.fv.served = true → s.alive = true → s.fv.queue = r :: rest → r.bad = false → (r.cmd.toNat, i) ∈ rows →
      s.precheck r = some st → s1 = { s with fv := { s.fv with queue := rest } } → exec i s = .next (s1.finish r st []).dispatched) ∧
    (r.bad = true → s.precheck r = some stBadArg) ∧
    (r.bad = false → s.fv.restricted = false → r.from_ = .world w → r.worldMay = false → s.precheck r = some stAuth) ∧
    (r.bad = false → s.fv.restricted = false → r.from_ = .slot k → s.fv.major = 0 → r.cmd.toNat ≠ 0x01 → r.cmd.toNat ≠ 0x02 →
      s.precheck r = some stState) ∧
    (r.from_ = .slot k → t.fv.slots[k].own = false ∧ t.fv.slots[k].done = true ∧ t.fv.slots[k].taken = false ∧
      t.fv.slots[k].status = st.setWidth 32 ∧ t.fv.slots[k].payload.take ws.length = ws ∧
      t.fv.slots[k].len = BitVec.ofNat 32 (8 * ws.length) ∧ (j ≠ k → t.fv.slots[j] = s.fv.slots[j]) ∧
      (r.irq = true → bit s.fv.msixMask 1 = false → .msix 1 ∈ t.out) ∧
      t = { s with fv := { s.fv with slots := t.fv.slots, msixPend := t.fv.msixPend }, out := t.out }) ∧
    (r.from_ = .world w → t = s.modWorld w fun x => { x with mbx := { x.mbx with
      result := some (st, (ws.map Word.raw).take 16) } }) ∧
    (s.alive = true → s.fv.swap = false → s.fv.busy[n]? = some b →
      (s.endWork b.work = (.going, s') → exec (.busyCompletion n) s = .next s') ∧
      (s.endWork b.work = (.done st ws, s') →
        exec (.busyCompletion n) s = .next (State.finishBusy { s' with fv := { s'.fv with busy := s'.fv.busy.eraseIdx n } } b st ws))) ∧
    (b.from_ = .slot k → s.fv.ringFree ≠ 0 → let e := s.finishBusy b st ws
      e.fv.head = s.fv.head + 1 ∧ e.fv.ring.head? = some (s.fv.head.toNat, entry) ∧ e.mem = s.mem) ∧
    (b.from_ = .world w → s.finishBusy b st ws = s.modWorld w fun x => { x with mbx := { x.mbx with
      result := some (st, (ws.map Word.raw).take 16) } }) ∧
    (Grants s a 12 (some w.val) who →
      (bit v 21 = true → y.busy = true → exec (.mbxGo a w v) s = .next stored.settleAll) ∧
      (bit v 21 = true → y.busy = false → y.deadline ≠ Word.nil → y.deadline.tag ≠ 0x04 →
        exec (.mbxGo a w v) s = .next (begun.mbxReply w stBadArg [] s.now).settleAll) ∧
      (bit v 21 = true → y.busy = false → (y.deadline = Word.nil ∨ y.deadline.tag = 0x04) →
        exec (.mbxGo a w v) s = .next (if s.fv.served then joined.dispatched else joined).settleAll) ∧
      (bit v 9 = true → exec (.mbxPop a w v) s = .next (s.modWorld w fun x =>
        { x with mbx := { x.mbx with inbox := x.mbx.inbox.tail } }).settleAll)) ∧
    (y.result = some (st, xs) → s.fv.served = true → exec (.mbxReply w) s = .next (s.mbxReply w st xs s.now)) ∧
    (mz.repStatus = st ∧ mz.repWords = BitVec.ofNat 5 xs.length ∧ mz.done = true ∧ mz.busy = false ∧ mz.repSeq = y.goSeq ∧ mz.rept = at_ ∧
        mz.result = none ∧ (∀ i : Fin 16, mz.rep[i] = xs.getD i.val y.rep[i]) ∧ z.fv = s.fv ∧
        (mz.late = true ↔ y.goDeadline.tag = 0x04 ∧ y.goDeadline.datum.toNat < at_.toNat)) ∧
    (y.busy = true → y.goDeadline.tag = 0x04 → y.goDeadline.datum.toNat < s.now.toNat →
      (∃ q ∈ s.fv.queue, q.from_ = .world w) → exec (.mbxDeadlineTimeout w) s = .next (State.mbxReply { s with fv := { s.fv with
        queue := s.fv.queue.filter fun (q : FvReq) => !(q.from_ == ReqFrom.world w) } } w stTimeout [] (y.goDeadline.datum + 1))) ∧
    (s.alive = true → s.who a = some who → pa.toNat = 0xF000000000 + 0x10000 * block.val + off → off < 0x10000 →
      devReg block off = some g →
      (s.granted who block (s.regUnit g) true = true → s.devStore who g x = .ok s' →
        exec (.registerWrite (.reg a pa) x) s = .next s'.settleAll) ∧
      ((s.granted who block (s.regUnit g) true = false ∨ s.devStore who g x = .error ()) →
        exec (.registerWrite (.reg a pa) x) s = .next s)) ∧
    (s.alive = true → s.fv.pcieUp = true → x.datum = v →
      (∃ t : State, exec (.registerWrite (.bar0 0x030 true) x) s = .next t ∧ t.fv.tail = fld v 0 11 ∧ t.mem = s.mem) ∧
      exec (.registerWrite (.bar0 (BitVec.ofNat 20 (0x10000 + 0x1000 * k.val)) true) x) s = .next { s with fv := { s.fv with
        slots := vset s.fv.slots k { s.fv.slots[k] with cmd := fld v 0 16, own := bit v 16, done := bit v 17, irq := bit v 18
                                                        seq := fld v 32 32 } } } ∧
      exec (.registerWrite (.bar0 (BitVec.ofNat 20 (0x10008 + 0x1000 * k.val)) true) x) s = .next { s with fv := { s.fv with
        slots := vset s.fv.slots k { s.fv.slots[k] with len := fld v 0 32, status := fld v 32 32 } } } ∧
      exec (.registerWrite (.bar0 0x018 true) x) s = exec (.fvDoorbell v) s)

/-- The identity commands, events, crash records, time, and messages to worlds (Table 16-8, Table 16-10, Table 16-11, R285, R366, R383):
HELLO takes the highest version that both sides have; CAPS, HEALTH, CRASH_READ and TIME_STATUS report; EVENT_SUB takes the mask without
bits 0 and 15; TIME_SOURCE checks its payload and takes the settings; a message enters a running world's inbox, or becomes an event. -/
def Obligations.FavarIdentity : Prop :=
  ∀ (s s1 : State) (r : FvReq) (h0 h1 : BitVec 16) (v : Nat × Nat) (k : Fin 16) (w : Fin 2),
    let p := r.p 0
    let key (v : Nat × Nat) : Nat := v.1 * 256 + v.2
    let fits (v : Nat × Nat) : Prop := v ∈ fvVersions ∧ (fld p 24 8 : BitVec 8).toNat * 256 + (fld p 16 8 : BitVec 8).toNat ≤ key v ∧
      key v ≤ (fld p 8 8 : BitVec 8).toNat * 256 + (fld p 0 8 : BitVec 8).toNat
    let held := if bit p 4 then s.fv.crashFlash else s.fv.crash
    let n := (fld p 8 4 : BitVec 4).toNat
    let words := r.tagged 1 n
    let eth : Fin 2 := (fld p 7 1 : BitVec 1).toFin
    let later := (fld (r.p 12) 41 3 : BitVec 3) ≠ 0
    let sound := (fld p 8 56 : BitVec 56) = 0 ∧ (fld (r.p 1) 48 16 : BitVec 16) = 0 ∧ (fld (r.p 2) 19 45 : BitVec 45) = 0 ∧
      1 ≤ (fld (r.p 2) 0 17 : BitVec 17).toNat ∧ (fld (r.p 2) 0 17 : BitVec 17).toNat ≤ 100000 ∧
      (∀ q : Fin 8, (fld (r.p (4 + q.val)) 32 32 : BitVec 32) = 0) ∧ bit (r.p 12) 7 = false ∧
      (fld (r.p 12) 39 2 : BitVec 2) = 0 ∧ (fld (r.p 12) 44 20 : BitVec 20) = 0
    let roles := (fld (r.p 12) 41 2 : BitVec 2) = 0 ∨ bit (r.p 12) 43 = true ∧ bit (r.p 12) (41 + eth.val) = false
    (Serves s 0x01 r s1 →
      (s.fv.busy ≠ [] → Answers .hello s r stState [] s1) ∧
      (s.fv.busy = [] → fits v → (∀ x, fits x → key x ≤ key v) → Answers .hello s r stOk [putN 0 v.2 ||| putN 8 v.1,
        s.fv.fwver.setWidth 64] { s1 with fv := { s1.fv with minor := BitVec.ofNat 8 v.2, major := BitVec.ofNat 8 v.1 } }) ∧
      (s.fv.busy = [] → (∀ x, ¬ fits x) → Answers .hello s r stVersion [] s1)) ∧
    (Serves s 0x02 r s1 → Answers .caps s r stOk [if s.variantL then 0x000000010F0F0000 else 0x00000000FFFFFFFF,
      put 0 s.mcverMin ||| put 32 s.mcverMax, BitVec.ofNat 64 s.dramWords, put 0 s.km.id ||| fbit 12 s.km.confirmed |||
        fbit 13 s.debugOn ||| fbit 14 s.fv.customerSet ||| fbit 15 s.fv.activeB, s.fv.fwver.setWidth 64] s1) ∧
    (Serves s 0x03 r s1 → ∃ a : BitVec 64, (∀ q : Fin 4, bit a q.val = s.ports[q].trained) ∧
      (∀ q : Fin 8, bit a (4 + q.val) = s.km.ports[q].trained) ∧ bit a 12 = s.fv.ethUp[(0 : Fin 2)] ∧
      bit a 13 = s.fv.ethUp[(1 : Fin 2)] ∧ bit a 14 = s.fv.pcieUp ∧
      Answers (.health h0 h1) s r stOk ([put 0 h0 ||| put 16 h1, a] ++
        s.ports.toList.map (fun (p : Port) => put 0 p.ce ||| put 32 p.bites ||| putN 48 (min p.ueCount.toNat 65535)) ++
        [put 0 s.worlds[(0 : Fin 2)].stage2Faults ||| put 32 s.worlds[(1 : Fin 2)].stage2Faults, s.imtStatus,
          put 0 s.fv.restarts ||| put 32 s.fv.fatals, put 0 s.mq.dropped ||| put 16 s.mq.trunc,
          put 0 s.ven.csRecov ||| put 16 s.ven.csFavar ||| put 32 s.ven.ignored])
        { s1 with pwr := { s1.pwr with tjmax := if s.pwr.tjmax.toInt < h0.toInt then h0 else s.pwr.tjmax } }) ∧
    (Serves s 0x90 r s1 → Answers .eventSub s r stOk [s.fv.subs.setWidth 64]
      { s1 with fv := { s1.fv with subs := fld p 0 16 &&& 0x7FFE } }) ∧
    (Serves s 0xF0 r s1 →
      (∀ c, held[(fld p 0 4 : BitVec 4).toNat]? = some c → Answers .crashRead s r stOk c.words s1) ∧
      (held[(fld p 0 4 : BitVec 4).toNat]? = none → Answers .crashRead s r stBadArg [] s1)) ∧
    (Serves s 0x50 r s1 → ((later ∧ s.fv.major = 2 → Answers .timeSource s r stVersion [] s1) ∧
      (¬ sound → (later → s.fv.major ≠ 2) → Answers .timeSource s r stBadArg [] s1) ∧
      (sound → (later → s.fv.major = 3 ∧ s.fv.minor ≠ 0) → (fld p 0 2 : BitVec 2) = 2 → s.fv.ethUp[eth] = false → roles →
        Answers .timeSource s r stState [] s1) ∧
      (sound → (later → s.fv.major = 3 ∧ s.fv.minor ≠ 0) → ((fld p 0 2 : BitVec 2) = 2 → s.fv.ethUp[eth] = true ∧ roles) →
        (∀ q : Fin 8, s.kmPresence q = .there ∨ r.p (4 + q.val) = 0) → ∃ t : State, Answers .timeSource s r stOk [] t ∧
          t.imt.ptp = r.p 12 ∧ t.imt.cfg = (fld (r.p 1) 0 48 : BitVec 48).setWidth 64 ∧
          t.imt.pps = (fld (r.p 2) 0 19 : BitVec 19).setWidth 64 ∧ t.imt.refsec = r.p 3 ∧ t.imt.count = s.imt.count ∧
          ∀ q : Fin 8, s.kmPresence q = .there → t.imt.kmAsym[q] = fld (r.p (4 + q.val)) 0 32))) ∧
    (Serves s 0x51 r s1 → Answers .timeStatus s r stOk ([s.imtStatus, put 0 s.imt.offset, s.imt.beaconBits] ++
      (List.finRange 8).map (fun q => if s.kmPresence q = .there then s.delayBits q else 0) ++ [s.imt.ptpMaster]) s1) ∧
    (Serves s 0xB0 r s1 → r.from_ = .slot k → w = r.world →
      ((n = 0 ∨ 8 < n ∨ r.taggedOk 1 n = false) → Answers .worldMsg s r stBadArg [] s1) ∧
      (1 ≤ n → n ≤ 8 → r.taggedOk 1 n = true →
        ((s.worlds[w].state ≠ .running ∨ 16 ≤ s.worlds[w].mbx.inbox.length) → Answers .worldMsg s r stState [] s1) ∧
        (s.worlds[w].state = .running → s.worlds[w].mbx.inbox.length < 16 → Answers .worldMsg s r stOk []
          ((s1.modWorld w fun x => { x with mbx := { x.mbx with inbox := x.mbx.inbox ++ [words] } }).raise
            (idx 256 (250 + w.val)))))) ∧
    (Serves s 0xB0 r s1 → r.from_ = .world w → 
      ((n = 0 ∨ 4 < n ∨ r.taggedOk 1 n = false) → Answers .worldMsg s r stBadArg [] s1) ∧
      (1 ≤ n → n ≤ 4 → r.taggedOk 1 n = true → bit s.fv.subs 11 = false → Answers .worldMsg s r stOk [] s1) ∧
      (1 ≤ n → n ≤ 4 → r.taggedOk 1 n = true → bit s.fv.subs 11 = true → s.fv.major ≠ 2 → Answers .worldMsg s r stOk []
        (s1.postEvent 11 (Config.eventCode 11 1) ((List.range 4).map (fun q => (words.getD q Word.zero).datum) ++
          [(List.range n).foldl (fun x q => x ||| put (8 * q) (words.getD q Word.zero).tag) 0]))))

/-! ## Favar: worlds, lanes and lists, log streams, veneers and firmware, mailboxes -/

/-- The commands on worlds (R190, R211, R367 to R370, R376): a partition, while both worlds are stopped, gives each world its memory, its
grants, its stage-2 root and its cut lists, and clears translations; an image is loaded into the memory of its world and LOADED, then
VERIFIED if key and signature hold and EMPTY otherwise (of an image whose host buffer failed as it was read, the words that had come
become POISON); a start sets RUNNING and loads the contexts in order; a stop takes PLAYING lanes
down, parks, and unloads; a checkpoint keeps the words of its ranges. Each refuses with its status in every other world state. -/
def Obligations.WorldCommands : Prop :=
  ∀ (s s1 : State) (r : FvReq) (buf : HostBuf) (p : List (BitVec 64)) (bs : List (BitVec 8)) (x : ImageParts) (w v : Fin 2)
    (st : BitVec 8) (at_ : BitVec 64) (rec_ : BitVec 40) (early ws : List (BitVec 40 × Word)) (s' : State) (n : Fin 16),
    let y := s.worlds[w]
    let stopped := s.worldStopped 0 && s.worldStopped 1
    let guardHas := s.fv.use.toList.any fun u => u == .guard || u == .shared
    let behind := (List.finRange 2).any fun x => decide (s.mcverMin.toNat < s.worlds[x].image.mcverMin.toNat)
    let quiet := s.variantL || (List.finRange 16).all fun n =>
      s.laneMuted n || s.dl[n].state == .idle || s.dl[n].state == .stopped
    let mayStop := s.worlds[r.world].state = .running ∧ (r.world = 1 →
      (s.worlds[(0 : Fin 2)].state = .verified ∨ s.worlds[(0 : Fin 2)].state = .empty) ∧ quiet = true)
    let runs := (s1.modWorld r.world fun x => { x with state := .running, entry := x.image.entry.setWidth 64, s1root := 0 })
    let begun := s.worlds[r.world].image.ctxs.foldl (fun (s : State) x => s.startContext r.world x) runs
    let a := s.applyPartition p
    let from_ := r.from?.getD r.world
    let count := (fld (r.p 0) 4 5 : BitVec 5).toNat
    let ranges := (List.range count).map fun i =>
      ((fld (r.p (2 + i)) 0 40 : BitVec 40).toNat, (fld (r.p (2 + i)) 40 24 : BitVec 24).toNat)
    let rlen := 3 + ((s.worldMem from_ (r.p 1).toNat 1).bind fun pa => recordCount (s.peek pa)).getD 0
    let within := 1 ≤ count ∧ count ≤ 16 ∧ 2 + count ≤ r.payload.length ∧ (ranges.map (·.2)).foldl (· + ·) 0 ≤ 67108864 ∧
      (∀ e ∈ ranges, (s.worldMem from_ e.1 e.2).isSome = true) ∧ ∃ e ∈ ranges, e.1 ≤ (r.p 1).toNat ∧ (r.p 1).toNat + rlen ≤ e.1 + e.2
    (Serves s 0x14 r s1 →
      (stopped = false → Answers (.worldPartition buf) s r stState [] s1) ∧
      (stopped = true → hostWords r 0 66 buf = .error st → Answers (.worldPartition buf) s r st [] s1) ∧
      (stopped = true → hostWords r 0 66 buf = .ok p → s.partOk p = false → Answers (.worldPartition buf) s r stBadArg [] s1) ∧
      (stopped = true → hostWords r 0 66 buf = .ok p → s.partOk p = true → TakesOn (.worldPartition buf) s r (.partition p) s1)) ∧
    (s.partOk p = true → (∀ b n : Nat, (b, n) = partDram p w → b % 2 ^ 21 = 0 ∧ n % 2 ^ 21 = 0 ∧ b + n ≤ s.shareBase) ∧
      (∀ b n c m : Nat, (b, n) = partDram p 0 → (c, m) = partDram p 1 → n ≠ 0 → m ≠ 0 → b + n ≤ c ∨ c + m ≤ b)) ∧
    ((stopped = false → s.endWork (.partition p) = (.done stState [], s)) ∧
      (stopped = true → s.endWork (.partition p) = (.done stOk [], a))) ∧
    (a.fv.partitioned = true ∧ a.worlds[w].state = .empty ∧ a.worlds[w].dramBase = BitVec.ofNat 40 (partDram p w).1 ∧
      a.worlds[w].dramSize = BitVec.ofNat 40 (partDram p w).2 ∧ a.worlds[w].s2root = putN 0 (s.treeBase w) ||| putN 40 1 ∧
      bit a.worlds[w].storeGrant 12 = true ∧ (w = 1 → bit a.worlds[w].storeGrant 14 = true) ∧
      (∀ k : Fin 16, bit (p.getD 6 0) (2 * k.val + 1 + 32 * w.val) = true → bit a.worlds[w].storeGrant k.val = true) ∧
      (∀ c : Fin 32, a.cores[c].itlb = [] ∧ a.cores[c].dtlb = []) ∧ (∀ k : Fin 8, a.clusters[k].sharedTlb = []) ∧
      a.cuts[n].base = fld (p.getD (41 + n.val) 0) 0 14 ∧ a.cuts[n].cap = fld (p.getD (41 + n.val) 0) 14 15) ∧
    (Serves s 0x10 r s1 →
      let marred := match buf with
        | .poisoned b => s1.poisonSegs r.world (b.take (r.p 2).toNat) (r.p 2).toNat
        | _ => s1
      (s.worldStopped r.world = false ∨ s.fv.partitioned = false → Answers (.imageLoad buf) s r stState [] s1) ∧
      (s.worldStopped r.world = true → s.fv.partitioned = true →
        (hostBytes r 1 buf = .error st → Answers (.imageLoad buf) s r st [] marred) ∧
        (hostBytes r 1 buf = .ok bs → parseImage bs r.world = none → Answers (.imageLoad buf) s r stBadArg [] s1) ∧
        (hostBytes r 1 buf = .ok bs → parseImage bs r.world = some x → s.segsFit r.world x = true →
          TakesOn (.imageLoad buf) s r (.imageLoad r.world bs) s1))) ∧
    (parseImage bs w = some x → s.worldStopped w = true → s.segsFit w x = true → ∃ t : State, s.endWork (.imageLoad w bs) =
      (.done stOk [BitVec.ofNat 64 ((x.segs.map (·.2.length)).foldl (· + ·) 0)], t) ∧ t.worlds[w].state = .loaded ∧
      t.worlds[w].image = x.image ∧ (v ≠ w → t.worlds[v] = s.worlds[v]) ∧
      ∀ pa, (∀ g ∈ x.segs, ∀ b, s.worldMem w g.1 g.2.length = some b → pa < b ∨ b + g.2.length ≤ pa) →
        memWf s.mem = true → memGet t.mem pa = memGet s.mem pa) ∧
    (Serves s 0x11 r s1 →
      (s.worlds[r.world].state ≠ .loaded → Answers .imageVerify s r stState [] s1) ∧
      (s.worlds[r.world].state = .loaded → s.worlds[r.world].image.format ≠ 1 → Answers .imageVerify s r stVersion [] s1) ∧
      (s.worlds[r.world].state = .loaded → s.worlds[r.world].image.format = 1 →
        TakesOn .imageVerify s r (.imageVerify r.world) s1)) ∧
    (y.state = .loaded →
      (s.imageAuth y.image = true → ∃ t : State, s.endWork (.imageVerify w) = (.done stOk [y.image.mcverMin.setWidth 64], t) ∧
        t.worlds[w] = { y with state := .verified }) ∧
      (s.imageAuth y.image = false → ∃ t : State, s.endWork (.imageVerify w) = (.done stAuth [], t) ∧
        t.worlds[w] = { y with state := .empty, image := {} })) ∧
    (Serves s 0x12 r s1 →
      ((s.worlds[r.world].state ≠ .verified ∨ r.world = 0 ∧ guardHas = true ∧ s.worlds[(1 : Fin 2)].state ≠ .running) →
        Answers .worldStart s r stState [] s1) ∧
      (s.worlds[r.world].state = .verified → (r.world = 0 → guardHas = true → s.worlds[(1 : Fin 2)].state = .running) →
        (behind = true → Answers .worldStart s r stVersion [] s1) ∧
        (behind = false → Answers .worldStart s r stOk [s.now] ((begun.noteStatus s1).event 8 1 r.world.val [])))) ∧
    (Serves s 0x13 r s1 →
      (¬ mayStop → Answers .worldStop s r stState [] s1) ∧
      (mayStop → ∃ t : State, TakesOn .worldStop s r (.worldStop r.world) t ∧ t.worlds[r.world].state = .stopping ∧
        ∀ d : Fin 16, s.variantL = false → s.dl[d].state = .run → s.cutMay r.world 4 d.val = true → t.dl[d].state = .ramp)) ∧
    (y.state = .stopping → (∀ (c : Fin 32) (k : Fin 64), s.slotOf w c k = true → (s.slot c k).state = .parked) →
      (∀ c : Fin 32, (s.running c).parkDue = false) → ∃ t : State, s.endWork (.worldStop w) = (.done stOk [], t) ∧
        t.worlds[w].state = .verified) ∧
    (Serves s 0xA0 r s1 →
      (s.worlds[from_].state ≠ .running → Answers .checkpoint s r stState [] s1) ∧
      (s.worlds[from_].state = .running → ¬ within → Answers .checkpoint s r stBadArg [] s1) ∧
      (s.worlds[from_].state = .running → within → TakesOn .checkpoint s r
        (.checkpoint from_ s.now (BitVec.ofNat 40 (r.p 1).toNat) (s.rangeWords from_ ranges) true) s1)) ∧
    ((s.endWork (.checkpoint w at_ rec_ early false) = (.done stState [], s)) ∧
      (s.copyWords w early = (ws, s') → s.endWork (.checkpoint w at_ rec_ early true) = (.done stOk [at_], s'.modWorld w fun x =>
        { x with ckpt := some { inst := at_, record := rec_, words := ws } }) ∧ ws.map (·.1) = early.map (·.1)))

/-- The commands that set up lanes, cut lists and Kamion (Table 16-10, R288, R293, R392): LANE_SET and DRIVE_SET refuse lanes that are
absent, write their records, request commits, and start, stop or play; what follows a commit waits for its boundary. CUT_LOAD writes its
entries into the shadow copy, all or none, and SCFG after a commit whose boundary has come; CUT_COMMIT requests or withdraws commits; KAMION_MAP reports ports, loads a routing table and
confirms the id of this device. -/
def Obligations.SetupCommands : Prop :=
  ∀ (s s1 : State) (r : FvReq) (buf : HostBuf) (b : BitVec 64) (ws : List (BitVec 64)) (es : List (Word × Word)) (m : Fin 32)
    (st : BitVec 8),
    let lanes : List (Fin 32) := (List.finRange 32).filter fun k => bit (r.p 0) k.val
    let drives : List (Fin 16) := (List.finRange 16).filter fun k => bit (r.p 0) k.val
    let act (k : Nat) : Bool := bit (r.p 1) k
    let all {n : Nat} (l : List (Fin n)) (f : State → Fin n → State) (s : State) : State := l.foldl f s
    let staged (s : State) : State := { s with fv := { s.fv with stage := some (boundaryAfter s.now) } }
    let written := ((List.range lanes.length).zip lanes).foldl (fun (s : State) e => s.slRecord e.2 (recordOf ws 52 e.1)) s1
    let written' := ((List.range drives.length).zip drives).foldl (fun (s : State) e => s.dlRecord e.2 (recordOf ws 5 e.1)) s1
    let spot (e : Nat × Fin 32) : Bool := let x := (recordOf ws 52 e.1).getD 2 0
      s.ringPlace 3 e.2.val (fld x 0 40 : BitVec 40).toNat (fld x 40 24 : BitVec 24).toNat
    let started := all lanes State.slStart s1
    let silent := lanes.foldl (fun (x : BitVec 64) n => x ||| fbit n.val (!(started.sl[n].run))) 0
    let bad := drives.foldl (fun (x : BitVec 64) n => x ||| fbit n.val (s.dl[n].badblk && !(s.dl[n].pend))) 0
    let n : Fin 16 := (fld (r.p 0) 0 4 : BitVec 4).toFin
    let first := (fld (r.p 1) 0 14 : BitVec 14).toNat
    let count := (fld (r.p 1) 14 15 : BitVec 15).toNat
    let given' := bit (r.p 0) 5 = false ∧ count ≤ 126 ∧ 3 + 4 * count ≤ r.payload.length ∧ ws = (r.payload.drop 3).take (4 * count) ∨
      bit (r.p 0) 5 = true ∧ ∃ z, hostWords r 3 (4 * count) buf = .ok z ∧ ws = z.take (4 * count)
    let placed := s1.dmaWrites (0xE100000000 + 2 * (s.cuts[n].base.toNat + first)) (es.flatMap fun e => [e.1, e.2])
    let asks (s : State) : State := (List.finRange 16).foldl (fun (s : State) k => if !(bit (r.p 0) k.val) then s
      else if bit (r.p 0) 16 then s.clCancel k else s.clRequest k) s
    let mine := bit (r.p 0) 12 = true → (fld (r.p 0) 0 12 : BitVec 12) = s.km.id
    let given := r.from?.isNone = true ∧ (r.p 1 ≠ 0 ∨ r.p 2 ≠ 0)
    let x := ws.getD 1 0
    let tableOk := (fld x 32 32 : BitVec 32) = 0 ∧ (ws.getD 2 0).toNat ≤ 64 ∧ 3 + (ws.getD 2 0).toNat ≤ ws.length
    let fitted := ∀ p : Fin 8, bit (fld x 0 8 ||| fld x 24 8 : BitVec 8) p.val = true → s.kmPresence p = .there
    let confirmed (s : State) : State := if bit (r.p 0) 12 then { s with km := { s.km with confirmed := true } } else s
    (Serves s 0x20 r s1 → s.fv.stage = none →
      (act 2 = true → act 3 = true → Answers (.laneSet buf) s r stBadArg [] s1) ∧
      ((act 2 && act 3) = false → (∃ k ∈ lanes, s.slOn k = false) → Answers (.laneSet buf) s r stAbsent [] s1) ∧
      ((act 2 && act 3) = false → (∀ k ∈ lanes, s.slOn k = true) →
        (act 0 = true → hostWords r 2 (52 * lanes.length) buf = .error st → Answers (.laneSet buf) s r st [] s1) ∧
        (act 0 = true → hostWords r 2 (52 * lanes.length) buf = .ok ws → ((List.range lanes.length).zip lanes).all spot = false →
          Answers (.laneSet buf) s r stBadArg [] s1) ∧
        (act 0 = true → act 1 = false → act 2 = false → act 3 = false → hostWords r 2 (52 * lanes.length) buf = .ok ws →
          ((List.range lanes.length).zip lanes).all spot = true → Answers (.laneSet buf) s r stOk [0, 0, 0] written) ∧
        (act 0 = false → act 1 = true → act 2 = true → Waits (.laneSet buf) s r (staged (all lanes State.slAsk s1))) ∧
        (act 0 = false → act 1 = true → act 2 = false → act 3 = false →
          Answers (.laneSet buf) s r stOk [0, boundaryAfter s.now, 0] (all lanes State.slAsk s1)) ∧
        (act 0 = false → act 1 = false → act 2 = true → Answers (.laneSet buf) s r (if silent = 0 then stOk else stState)
          [s.now, 0, silent] started) ∧
        (act 0 = false → act 1 = false → act 3 = true → Answers (.laneSet buf) s r stOk [s.now, 0, 0] (all lanes State.slStop s1)))) ∧
    (Serves s 0x20 r s1 → s.fv.stage = some b → act 2 = true → act 3 = false →
      ((s.now.toNat < b.toNat ∨ ∃ k ∈ lanes, s.sl[k].cpend = true) → Waits (.laneSet buf) s r s1) ∧
      (b.toNat ≤ s.now.toNat → (∀ k ∈ lanes, s.sl[k].cpend = false) → Answers (.laneSet buf) s r
        (if silent = 0 then stOk else stState) [s.now, b, silent] started)) ∧
    (Serves s 0x21 r s1 → s.fv.stage = none →
      ((s.variantL = true ∨ ∃ k ∈ drives, s.dlOn k = false) → Answers (.driveSet buf) s r stAbsent [] s1) ∧
      (s.variantL = false → (∀ k ∈ drives, s.dlOn k = true) →
        (act 0 = true → hostWords r 3 (5 * drives.length) buf = .error st → Answers (.driveSet buf) s r st [] s1) ∧
        (act 0 = true → (∀ k, 1 ≤ k → k ≤ 5 → act k = false) → hostWords r 3 (5 * drives.length) buf = .ok ws →
          Answers (.driveSet buf) s r stOk [0, 0, 0] written') ∧
        (act 0 = false → act 1 = false → act 2 = true → Waits (.driveSet buf) s r
          { all drives (fun s k => s.shadowStore k (put 0 (fld (r.p 2) 0 25))) s1 with
            fv := { s1.fv with stage := some 0 } }) ∧
        (act 0 = false → act 1 = false → act 2 = false → act 3 = true → act 4 = false → act 5 = false →
          Answers (.driveSet buf) s r (if bad = 0 then stOk else stState) [s.now, 0, bad] (all drives State.driveCommit s1)))) ∧
    (Serves s 0x30 r s1 →
      (s.cuts[n].cap.toNat < first + count → Answers (.cutLoad buf) s r stBadArg [] s1) ∧
      (first + count ≤ s.cuts[n].cap.toNat → given' → entriesOf ws = none → Answers (.cutLoad buf) s r stBadArg [] s1) ∧
      (first + count ≤ s.cuts[n].cap.toNat → given' → entriesOf ws = some es →
        (∀ i, es.findIdx? (fun e => !(entryOk e)) = some i →
          Answers (.cutLoad buf) s r stBadArg [0, BitVec.ofNat 64 (first + i)] s1) ∧
        ((∀ e ∈ es, entryOk e = true) → Answers (.cutLoad buf) s r stOk [BitVec.ofNat 64 count]
          (if bit (r.p 0) 4 then (placed.activate n).modCut n fun l => { l with scfg := (fld (r.p 2) 0 48 : BitVec 48).setWidth 64 } else placed)))) ∧
    (Serves s 0x31 r s1 → Answers .cutCommit s r stOk [boundaryAfter s.now] (asks s1)) ∧
    (Serves s 0x60 r s1 →
      (¬ mine → Answers (.kamionMap buf) s r stState [] s1) ∧
      (mine → ¬ given → ∃ reps : List (BitVec 64), Answers (.kamionMap buf) s r stOk reps (confirmed s1) ∧ reps.length = 8 ∧
        ∀ p : Fin 8, s.kmPresence p = .there → bit (reps.getD p.val 0) 0 = true ∧ bit (reps.getD p.val 0) 1 = s.km.ports[p].trained) ∧
      (mine → given → hostWords r 1 3 buf = .ok ws → ¬ tableOk → Answers (.kamionMap buf) s r stBadArg [] s1) ∧
      (mine → given → hostWords r 1 3 buf = .ok ws → tableOk → ¬ fitted → Answers (.kamionMap buf) s r stAbsent [] s1) ∧
      (mine → given → hostWords r 1 3 buf = .ok ws → tableOk → fitted → ∃ reps : List (BitVec 64), ∃ t : State,
        Answers (.kamionMap buf) s r stOk reps t ∧ t.km.shape = ws.getD 0 0 &&& 0xFFFFFF7FFF ∧ t.km.routeAt = some s.now ∧
        t.km.retrain = fld x 24 8 ∧ t.km.tableIn = true ∧ t.km.confirmed = (s.km.confirmed || bit (r.p 0) 12) ∧
        ∀ k : Fin 64, t.km.ovr[k] = if k.val < (ws.getD 2 0).toNat then KmOvr.ofBits (ws.getD (3 + k.val) 0) else {}))

/-! ## Log streams, veneers and firmware, mailboxes and registers -/

/-- Log streams (R341, R372 to R375, Table 16-14): LOG_OPEN sets the rings at the top of Favar's share and opens the stream once; LOG_CLOSE
ends it, with DRAIN when every segment is released or at the limit; LOGACK releases what it covers and never goes back; a segment goes
into the host ring, or in datagrams of at most the MTU, after what SECDED finds in its words is applied; an ACK releases the segments
whose last datagram it covers; a NAK sends again what is held and answers GONE for the rest; either is discarded where it does not come
from the address of the stream; a timeout sends all held again; KEEPALIVE bears the next DSEQ. -/
def Obligations.LogStreams : Prop :=
  ∀ (s s1 : State) (r : FvReq) (st : LogStream) (g : BitVec 64 × Nat × Nat) (v dseq first count : BitVec 64) (limit src : BitVec 32)
    (ecc : Ecc) (ranges : List (BitVec 64 × BitVec 64)),
    let p (i : Nat) : BitVec 64 := r.p i
    let kind : BitVec 2 := fld (p 0) 0 2
    let windows := (List.range 12).any fun i => p (19 + i) != 0
    let size := if p 1 = 0 then s.defaultLog (Vector.ofFn fun k => p (3 + k.val)) (Vector.ofFn fun k => p (11 + k.val)) else (p 1).toNat
    let sound := (kind = 0 → (p 32).toNat % 4096 = 0 ∧ 65536 ≤ (p 32).toNat) ∧
      (∀ k, k < 7 → srcOk (fld (p 33) (8 * k) 8) = true) ∧ size + (p 2).toNat + shareTables ≤ 2 ^ 29
    let shown := windows = true → s.fv.major = 3 ∧ 2 ≤ s.fv.minor.toNat
    let acked : State := { s with fv := { s.fv with logack := v } }
    let words (off n : Nat) : List (BitVec 64) := (List.range n).map fun i => (s.agentPeek 11 (s.mq.logBase.toNat + off + i)).datum
    let woff := if g.1 = st.next then st.woff else 0
    let n := min (if st.mtu9000 then 1117 else 180) (g.2.2 - woff)
    let last := decide (g.2.2 ≤ woff + n)
    let d : Datagram := { dseq := st.dseq, segseq := g.1, woff := woff, first := woff == 0, last := last, words := words (g.2.1 + woff) n }
    let sent : State := ((s.noteReads 11 (s.mq.logBase.toNat + g.2.1 + woff) n).emit (.datagram 0 d false)).setStream
      { st with next := if last then g.1 + 1 else g.1, woff := if last then 0 else woff + n, dseq := st.dseq + 1
                held := if st.acked then st.held ++ [d] else [], dataFrom := s.now
                ackFrom := if st.held.isEmpty then s.now else st.ackFrom }
    let covered := st.held.filter fun d => decide (d.dseq.toNat ≤ dseq.toNat)
    let left : State := s.setStream { st with held := st.held.filter fun d => decide (dseq.toNat < d.dseq.toNat), ackFrom := s.now,
                                              lastAcked := some (match st.lastAcked with
                                                | some x => if x.toNat < dseq.toNat then dseq else x
                                                | none => dseq) }
    let lo := match st.lastAcked with
      | some x => max first.toNat (x.toNat + 1)
      | none => first.toNat
    let hits := st.held.filter fun d => decide (lo ≤ d.dseq.toNat) && decide (d.dseq.toNat < first.toNat + count.toNat)
    let again (s : State) (l : List Datagram) : State := l.foldl (fun (s : State) d => s.emit (.datagram 0 d true)) s
    let gone (s : State) : State := s.emit (.gone (match st.held with
      | d :: _ => d.dseq
      | [] => st.dseq))
    let late (t : BitVec 64) : Prop := st.ackTimeout.toNat * 1000000 ≤ (s.now - t).toNat
    (Serves s 0x40 r s1 →
      (windows = true → s.fv.major = 2 → Answers .logOpen s r stVersion [] s1) ∧
      (shown → s.fv.stream.isSome = true → Answers .logOpen s r stState [] s1) ∧
      (shown → s.fv.stream = none → ¬ sound → Answers .logOpen s r stBadArg [] s1) ∧
      (shown → s.fv.stream = none → sound → ∃ t : State, ∃ q : LogStream, Answers .logOpen s r stOk [s.mq.seq] t ∧
        t.fv.stream = some q ∧ q.transport = kind ∧ q.next = s.mq.seq ∧ q.acked = bit (p 0) 3 ∧ q.held = [] ∧ t.mq.en = true ∧
        t.mq.full = bit (p 0) 2 ∧ t.mq.logSize = BitVec.ofNat 40 size ∧ t.mq.logBase = BitVec.ofNat 40 (s.dramWords - size) ∧
        t.mq.retSize = BitVec.ofNat 40 (p 2).toNat ∧ t.mq.segs = [] ∧ (∀ k : Fin 8, t.mq.chsel[k] = p (3 + k.val)) ∧ t.mem = s.mem)) ∧
    (Serves s 0x41 r s1 →
      (s.fv.stream = none → Answers .logClose s r stState [] s1) ∧
      (s.fv.stream.isSome = true → bit (p 0) 0 = true → TakesOn .logClose s r (.logClose (fld (p 1) 0 32) s.now) s1) ∧
      (s.fv.stream.isSome = true → bit (p 0) 0 = false → ∃ t : State, Answers .logClose s r stOk [] t ∧
        t.mq = { s.mq with en := false } ∧ t.fv.stream = none)) ∧
    (s.mq.segs ≠ [] → (s.now - v).toNat < limit.toNat * 1000000 → s.endWork (.logClose limit v) = (.going, s)) ∧
    ((s.mq.segs = [] ∨ limit.toNat * 1000000 ≤ (s.now - v).toNat) → s.endWork (.logClose limit v) =
      (.done (if s.mq.segs = [] then stOk else stTimeout) [], s.closeLog)) ∧
    (s.alive = true → s.fv.pcieUp = true →
      (v.toNat < s.fv.logack.toNat → exec (.fvLogackWrite v) s = .next s) ∧
      (s.fv.logack.toNat ≤ v.toNat → s.fv.swap = true → exec (.fvLogackWrite v) s = .next acked) ∧
      (s.fv.logack.toNat ≤ v.toNat → s.fv.swap = false → s.fv.stream = some st → st.transport.toNat ≤ 1 →
        exec (.fvLogackWrite v) s = .next (acked.releaseSegs fun q => decide (q.toNat ≤ v.toNat)))) ∧
    (∀ may : BitVec 64 → Bool, (s.releaseSegs may).mq.segs = s.mq.segs.dropWhile fun g => may g.1) ∧
    (exec (.logPush ecc) s = exec (.logPush []) (s.memErrs ecc) ∧
      exec (.logDatagramSend ecc) s = exec (.logDatagramSend []) (s.memErrs ecc)) ∧
    (s.streaming = some st → st.transport = 0 → s.fv.pcieUp = true →
      (s.nextSeg st = none → exec (.logPush []) s = .next s.postLogData.releaseAcked) ∧
      (s.nextSeg st = some g → st.hostOff + 8 * g.2.2 ≤ st.hostSize.toNat → s.hostFree st st.hostOff (8 * g.2.2) = true →
        ∃ t : State, exec (.logPush []) s = .next t.postLogData.releaseAcked ∧ ∃ q : LogStream, t.fv.stream = some q ∧
          q.next = g.1 + 1 ∧ q.written = g.1 ∧ q.hostOff = st.hostOff + 8 * g.2.2 ∧ q.dataDue = true ∧
          t.out = .hostWrite (st.hostRing + BitVec.ofNat 64 st.hostOff) (words g.2.1 g.2.2) :: s.out)) ∧
    (s.nextSeg st = some g → g ∈ s.mq.segs ∧ st.next.toNat ≤ g.1.toNat) ∧
    (s.etherStream = some st → s.nextSeg st = some g → exec (.logDatagramSend []) s =
      .next (if st.acked = false ∧ last = true then sent.releaseSegs fun q => decide (q.toNat ≤ g.1.toNat) else sent)) ∧
    (s.streaming = some st → st.fromPeer src = false → exec (.logAckReceive ⟨src, dseq⟩) s = .next s) ∧
    (s.etherStream = some st → st.fromPeer src = false → exec (.logNakReceive ⟨src, ranges⟩) s = .next s) ∧
    (s.streaming = some st → st.acked = true → st.port.isSome = true → st.fromPeer src = true → exec (.logAckReceive ⟨src, dseq⟩) s =
      .next (match (covered.filter fun d => d.last).getLast? with
        | some d => left.releaseSegs fun q => decide (q.toNat ≤ d.segseq.toNat)
        | none => left)) ∧
    (s.etherStream = some st → st.acked = true → st.fromPeer src = true → lo < first.toNat + count.toNat →
      exec (.logNakReceive ⟨src, [(first, count)]⟩) s =
      .next (if hits.length < min (first.toNat + count.toNat) st.dseq.toNat - lo then gone (again s hits) else again s hits)) ∧
    (s.etherStream = some st → st.acked = false → st.fromPeer src = true →
      exec (.logNakReceive ⟨src, [(first, count)]⟩) s = .next (gone s)) ∧
    (s.etherStream = some st → st.acked = true → st.held ≠ [] → late st.ackFrom → exec .logAckTimeout s =
      .next (((again s st.held).setStream { st with ackFrom := s.now }).event 7 4 0 [])) ∧
    (s.etherStream = some st → st.acked = true → s.nextSeg st = none → late st.dataFrom → exec .logKeepalive s =
      .next ((s.emit (.keepalive st.dseq)).setStream { st with dataFrom := s.now }))

/-- Veneers, firmware and the watchdogs (R266 to R275, R379, R380, R421, R423, R426, R427): a package is staged, in the shadow bank of
every core, if its layout, signature and version hold, discarded, applied at once or armed; a commit is requested on the cores behind; a
core with a commit pending changes level at a seam, or, where it has reached none within SEAM_LIMIT, abandons or, with FORCE, closes the
window and commits, which none inside STM or LDM does. Firmware is staged, swapped in and falls back; the watchdogs restart Favar and mute drive;
OTP is written once; the SVN floor rises after 24 h. -/
def Obligations.VeneersAndFirmware : Prop :=
  ∀ (s s1 : State) (r : FvReq) (buf : HostBuf) (bs : List (BitVec 8)) (st : BitVec 8) (c : Fin 32) (h : BitVec 384) (v : BitVec 2),
    let n (k w : Nat) : Nat := leAt bs k w
    let newer := n 8 2 = s.ven.base.toNat ∧ s.ven.committed.toNat < n 0xA 2 ∧ n 0x10 4 ≤ s.fv.fwver.toNat
    let idle := s.ven.staged = false ∧ s.ven.armed = false ∧ s.ven.rollout = false
    let x := s.cores[c]
    let level (x : Core) : Core :=
      { x with ven := { x.ven with mcver := setFld x.ven.mcver 0 s.ven.level, bank := !x.ven.bank, pending := false } }
    let closed (x : Core) : Core := if s.holdOpen c then
      { x with lo := { x.lo with stat := setBit x.lo.stat 15 false }, holdCount := 0, hx := vset x.hx (s.world c) true } else x
    let f := s.fv
    let other := if f.activeB then f.fwA else f.fwB
    let fails (b : Bool) : Favar := if b then { f with fwB := { f.fwB with valid := false } } else { f with fwA := { f.fwA with valid := false } }
    let working := f.busy.any fun b => match b.work with
      | .logClose _ _ => false
      | _ => true
    let restarting := s.worlds.toList.any fun w => w.state == .restarting
    let down (s : State) (fresh : Bool) : State := State.noteStatus { s with fv := { s.fv with
      swap := true, ready := false, swapAt := s.now, swapNew := fresh } } s
    let image : FwImage := { version := BitVec.ofNat 32 (n 8 4), svn := BitVec.ofNat 8 (n 6 1), raise := n 7 1 == 1, valid := true }
    (Serves s 0x70 r s1 →
      (bit (r.p 0) 0 = true → s.ven.staged = true → Answers (.veneerStage buf) s r stOk [] s1.discardStage) ∧
      (bit (r.p 0) 0 = true → s.ven.staged = false → Answers (.veneerStage buf) s r stState [] s1) ∧
      (bit (r.p 0) 0 = false → hostBytes r 1 buf = .error st → Answers (.veneerStage buf) s r st [] s1) ∧
      (bit (r.p 0) 0 = false → hostBytes r 1 buf = .ok bs →
        (packageOk bs = false → Answers (.veneerStage buf) s r stBadArg [] s1) ∧
        (packageOk bs = true → signedBy s.fv.mcKey bs = false → Answers (.veneerStage buf) s r stAuth [] s1) ∧
        (packageOk bs = true → signedBy s.fv.mcKey bs = true → ¬ newer → Answers (.veneerStage buf) s r stVersion [] s1) ∧
        (packageOk bs = true → signedBy s.fv.mcKey bs = true → newer → ¬ idle → Answers (.veneerStage buf) s r stState [] s1) ∧
        (packageOk bs = true → signedBy s.fv.mcKey bs = true → newer → idle → TakesOn (.veneerStage buf) s r (.veneerStage bs) s1))) ∧
    (let z := s.discardStage;
      z = { s with ven := z.ven, cores := z.cores } ∧ z.ven.staged = false ∧ z.ven.armed = false ∧ z.ven.rollout = false ∧
        z.ven.level = 0 ∧ z.ven.package = [] ∧ z.cores[c] = { x.setShadow {} with ven := { x.ven with pending := false } } ∧
        ((∀ d : Fin 32, (fld s.cores[d].ven.mcver 0 16 : BitVec 16) ≠ s.ven.level) → z.ven.active = s.ven.active)) ∧
    (s.endWork (.veneerStage bs) = (.done stOk [], { s with
      ven := { s.ven with staged := true, level := BitVec.ofNat 16 (n 0xA 2), package := bs }
      cores := s.cores.map fun (y : Core) => { y with store := { y.store with
        banks := vset y.store.banks (if y.ven.bank then 0 else 1) (packageBank bs) } } })) ∧
    (Serves s 0x71 r s1 →
      ((s.ven.staged = false ∨ s.ven.armed = true) → Answers .veneerApply s r stState [] s1) ∧
      (s.ven.staged = true → s.ven.armed = false →
        (bit (r.p 0) 0 = true → TakesOn .veneerApply s r .veneerApply { s1 with ven := { s1.ven with armed := true } }) ∧
        (bit (r.p 0) 0 = false → TakesOn .veneerApply s r .veneerApply s1.requestCommit.veneerOutcome))) ∧
    (s.requestCommit.cores[c] = if (fld x.ven.mcver 0 16 : BitVec 16).toNat < s.ven.level.toNat ∧ x.ven.pending = false then
      { x with ven := { x.ven with pending := true, since := s.now } } else x) ∧
    ((s.ven.rollout = true → s.endWork .veneerApply = (.going, s)) ∧ (s.ven.rollout = false → ∃ m : BitVec 64,
      s.endWork .veneerApply = (.done stOk [m], s) ∧ (s.ven.staged = true → s.ven.armed = false →
        bit m c.val = ((fld x.ven.mcver 0 16 : BitVec 16) != s.ven.level)))) ∧
    (s.commitDue c = (x.ven.pending && !(s.holdOpen c) && !(x.running && x.amid)) ∧
      (s.commitDue c = true → exec (.veneerCoreCommit c) s = .next (s.modCore c level).veneerOutcome)) ∧
    (x.ven.pending = true → s.commitDue c = false → s.ven.seamLimit.toNat * 1000 ≤ (s.now - x.ven.since).toNat →
      (s.ven.force = false → exec (.seamLimitExpiry c) s = .next (s.modCore c fun x =>
        { x with ven := { x.ven with pending := false, abandoned := true } }).veneerOutcome) ∧
      (s.ven.force = true → x.amid = true → exec (.seamLimitExpiry c) s = .next s) ∧
      (s.ven.force = true → x.amid = false → exec (.seamLimitExpiry c) s = .next (s.modCore c fun x =>
        let y := level (closed x)
        { y with ven := { y.ven with forced := true } }).veneerOutcome)) ∧
    (Serves s 0x80 r s1 →
      (hostBytes r 0 buf = .error st → Answers (.fwStage buf) s r st [] s1) ∧
      (hostBytes r 0 buf = .ok bs →
        (firmwareOk bs = false → Answers (.fwStage buf) s r stBadArg [] s1) ∧
        (firmwareOk bs = true → s.firmwareAuth bs = false → Answers (.fwStage buf) s r stAuth [] s1) ∧
        (firmwareOk bs = true → s.firmwareAuth bs = true → (n 8 4 ≤ s.fv.fwver.toNat ∨ n 6 1 < s.fv.svnFloor) →
          Answers (.fwStage buf) s r stVersion [] s1) ∧
        (firmwareOk bs = true → s.firmwareAuth bs = true → s.fv.fwver.toNat < n 8 4 → s.fv.svnFloor ≤ n 6 1 →
          TakesOn (.fwStage buf) s r (.fwStage bs) s1))) ∧
    (s.endWork (.fwStage bs) = (.done stOk [], { s with fv := if f.activeB then { f with fwA := image, stagedFw := true }
      else { f with fwB := image, stagedFw := true } })) ∧
    (Serves s 0x81 r s1 →
      ((f.stagedFw = false ∨ working = true ∨ restarting = true) → Answers .fwSwap s r stState [] s1) ∧
      (f.stagedFw = true → working = false → restarting = false → Answers .fwSwap s r stOk [] (down s1 true))) ∧
    (f.swap = true → s.alive = true →
      ((s.now - f.swapAt).toNat ≤ 250000000 → f.swapNew = true → exec .fwSwap s = .next (State.endSwap { s with fv := { f with
        activeB := !f.activeB, preferB := !f.activeB, stagedFw := false } } stOk)) ∧
      ((s.now - f.swapAt).toNat ≤ 250000000 → f.swapNew = false → exec .fwSwap s = .next (s.endSwap stOk)) ∧
      (250000000 ≤ (s.now - f.swapAt).toNat → f.swapNew = true → exec .fwSwapFallback s = .next (State.endSwap
        (State.writeCrash { s with fv := { fails (!f.activeB) with stagedFw := false } } 2 s.now 0 0) stTimeout)) ∧
      (250000000 ≤ (s.now - f.swapAt).toNat → f.swapNew = false → other.valid = true → exec .fwSwapFallback s = .next (State.endSwap
        (State.writeCrash { s with fv := { fails f.activeB with activeB := !f.activeB } } 2 s.now 0 0) stTimeout))) ∧
    (s.alive = true → f.ready = true → exec .favarWatchdogExpiry s =
      .next (down (State.writeCrash { s with pwr := { s.pwr with last := 3 } } 1 s.now 0 0) false)) ∧
    (s.alive = true → exec .deviceWatchdogExpiry s = .next (State.muteLanes { s with
      pwr := { s.pwr with wdFired := true }, safe := { s.safe with mute := true } })) ∧
    (s.alive = true → f.ready = false → f.swap = false → f.restricted = false →
      let runs := other.valid = true ∧ bit f.fwGood (if f.activeB then 0 else 1) = true ∧ f.svnFloor ≤ other.svn.toNat
      (runs → exec .fwSlotFallback s = .next (State.noteStatus { s with fv := { fails f.activeB with
        activeB := !f.activeB, ready := true, readySince := s.now, fwver := other.version } } s)) ∧
      (¬ runs → ∃ t : State, exec .fwSlotFallback s = .next t ∧ t.fv.fwver = 0 ∧ t.fv.ready = false ∧
        ∀ d : Fin 141, t.pwr.dom[d].state = .off)) ∧
    (s.alive = true →
      (f.customerSet = false → exec (.otpWrite (.customerKey h)) s =
        .next { s with fv := { f with customerHash := h, customerSet := true } }) ∧
      (f.customerSet = true → exec (.otpWrite (.customerKey h)) s = .next s) ∧
      (v ≠ 3 → exec (.otpWrite (.debug v)) s = .next s) ∧
      (v = 3 → exec (.otpWrite (.debug v)) s = .next (State.noteStatus { s with fv := { f with debugOtp := 3 } } s)) ∧
      (f.ready = true → (if f.activeB then f.fwB else f.fwA).raise = true → 86400000000000 ≤ (s.now - f.readySince).toNat →
        exec .svnFloorRaise s = .next { s with fv := { f with
          svnFloor := max f.svnFloor (if f.activeB then f.fwB else f.fwA).svn.toNat } }))

/-! ## Kamion, power, resets, links -/

/-- Kamion links (R386 to R396): an enabled port trains with a far end of its generation, not with its own id; a lost link sets DOWN,
counts, and loses its delay; a packet is delivered, sent on by the route, or counted in NOROUTE, and a flooded trigger is taken and sent
on once; with a payload CRC that fails, protocol 2 delivers a bulk block poisoned and protocol 1 loses the link; a new notice is kept and
sent on; a vote not seen before is kept, sent on, and with ACCEPT mutes drive and aborts; SEND originates one; a routing table takes effect
at its frame boundary, and a packet finds in effect what is due (the model's reading, log 79). -/
def Obligations.KamionLinks : Prop :=
  ∀ (i s : State) (p q : Fin 8) (f : TrainFrame) (pkt : Packet) (n : Nat) (w : Fin 2) (ring : Fin 8) (ws : List Word)
    (dev origin : BitVec 12) (up : Bool) (seq flood : BitVec 16) (a : Agent) (u : Who) (v at_ target : BitVec 64) (action : Word),
    let k := s.km.ports[p]
    let undelayed (s : State) : State :=
      { s with imt := { s.imt with kmDelay := vmod s.imt.kmDelay p fun d => { d with valid := false } } }
    let trains := s.kmFitted p = true ∧ s.domOn (128 + p.val) = true ∧ k.en = true ∧ k.trained = false ∧ k.gen2 = f.gen2
    let tried (n : Nat) : State := s.modKm p fun k => { k with retries := BitVec.ofNat 16 (min (k.retries.toNat + min n 8) 65535) }
    let spoilt : State := (tried 8).modKm p fun k => { k with poisoned := BitVec.ofNat 16 (min (k.poisoned.toNat + ws.length) 65535) }
    let lost (t : State) : Prop := t.km.ports[p].trained = false ∧ t.km.ports[p].down = true ∧
      t.km.ports[p].downs = satInc k.downs ∧ t.km.ports[p].retryBuf = [] ∧ t.imt.kmDelay[p].valid = false ∧
      t.km.links.contains (s.km.id, p, false) = true
    let routed := match pkt.body with
      | .trigger _ _ _ (some _) => False
      | _ => True
    let told := floodNew s.km.floods s.km.id s.now pkt.origin flood
    let held := (dev, q, up) :: s.km.links.filter fun e => !(e.1 == dev && e.2.1 == q)
    let young := s.km.votes.filter fun e => decide ((s.now - e.2.2).toNat < 1000000)
    let fresh := origin ≠ s.km.id ∧ ∀ e ∈ young, ¬ (e.1 = origin ∧ e.2.1 = seq)
    let kept : State := { s with km := { s.km with votes := (origin, seq, s.now) :: young, abOrigin := origin, abSeq := seq
                                                   abStamp := s.now } }
    let spread : State := (List.finRange 8).foldl (fun (s : State) q =>
      if s.km.ports[q].trained && q != p then (s.emit (.vote q origin seq)).emit (.vote q origin seq) else s) kept
    let obeyed : State := { spread with safe := { s.safe with mute := true, abortOut := s.safe.abortOut || s.km.aout }
                                        km := { spread.km with aborts := satInc s.km.aborts } }
    let table : State := { s with km := { s.km with ashape := s.km.shape, aovr := s.km.ovr, routed := s.km.routed || s.km.tableIn
                                                    routeAt := none, tableIn := false, retrain := 0 } }
    (trains → f.id = s.km.id → exec (.kamionTrain p f) s = .next (s.modKm p fun k => { k with downs := satInc k.downs })) ∧
    (trains → f.id ≠ s.km.id → ∃ t : State, exec (.kamionTrain p f) s = .next t ∧ t.km.ports[p].trained = true ∧
      t.km.ports[p].nbrId = f.id ∧ t.km.ports[p].nbrPort = f.port ∧ t.km.ports[p].runGen2 = k.gen2 ∧
      t.km.ports[p].runProto2 = (k.proto2 && f.proto2) ∧ t.imt = (undelayed s).imt ∧ t.mem = s.mem ∧
      (q ≠ p → t.km.ports[q] = s.km.ports[q] ∧ (s.km.ports[q].trained = true → .notice q s.km.id p true ∈ t.out))) ∧
    (k.trained = true → ∃ t : State, exec (.kamionLinkDown p) s = .next t ∧ lost t) ∧
    (i.routeDue = false → i.kmSettle = i) ∧
    (s = i.kmSettle → k.trained = true →
      (s.km.carries = true → routed → exec (.kamionPacketRoute p pkt (.good n)) i = .next ((tried n).kmForward (some p) pkt)) ∧
      (s.km.carries = true → pkt.body = .trigger w action target (some flood) →
        exec (.kamionPacketRoute p pkt (.good n)) i = .next (if told.1
          then State.kmFlood (State.trigArrive { tried n with km := { (tried n).km with floods := told.2 } } w action target) (some p) pkt
          else { tried n with km := { (tried n).km with floods := told.2 } })) ∧
      (s.km.carries = false → pkt.dest = s.km.id → exec (.kamionPacketRoute p pkt (.good n)) i =
        .next { tried n with km := { (tried n).km with unconf := satInc s.km.unconf } }) ∧
      (s.km.carries = false → pkt.dest ≠ s.km.id → routed → exec (.kamionPacketRoute p pkt (.good n)) i = .next (tried n)) ∧
      (pkt.body = .bulk w ring ws → k.runProto2 = true → s.km.carries = true → exec (.kamionPacketRoute p pkt .payloadBad) i =
        .next (spoilt.kmForward (some p) { pkt with body := .bulk w ring (ws.map fun _ => ⟨0xFE#8, 0x05#64⟩) })) ∧
      (pkt.body = .bulk w ring ws → k.runProto2 = false → ∃ t : State,
        exec (.kamionPacketRoute p pkt .payloadBad) i = .next t ∧ lost t) ∧
      ∃ t : State, exec (.kamionPacketRoute p pkt .bad) i = .next t ∧ lost t) ∧
    (s.km.route (some p) pkt.origin pkt.dest = .deliver → s.kmForward (some p) pkt = s.kmDeliver pkt.body) ∧
    (s.km.route (some p) pkt.origin pkt.dest = .none_ → s.kmForward (some p) pkt =
      { s with km := { s.km with noroute := satInc s.km.noroute } }) ∧
    ((∀ o ∈ s.km.aovr.toList, o.valid = true → o.dest ≠ s.km.id) → (∀ i, i < 3 → coordOf s.km.id i < s.km.dimSize i) →
      s.km.route (some p) origin s.km.id = .deliver) ∧
    (k.trained = true →
      ((dev = s.km.id ∨ (dev, q, up) ∈ s.km.links) → exec (.linkStateNotice p dev q up) s = .next s) ∧
      (dev ≠ s.km.id → (dev, q, up) ∉ s.km.links → ∃ t : State, exec (.linkStateNotice p dev q up) s = .next t ∧
        t = { s with km := { s.km with links := held }, out := t.out } ∧
        ∀ o : Fin 8, o ≠ p → s.km.ports[o].trained = true → .notice o dev q up ∈ t.out)) ∧
    (k.trained = true →
      (¬ fresh → exec (.abortVoteReceive p origin seq) s = .next s) ∧
      (fresh → s.km.accept = false → exec (.abortVoteReceive p origin seq) s = .next spread) ∧
      (fresh → s.km.accept = true → exec (.abortVoteReceive p origin seq) s = .next (obeyed.muteLanes.guardAbort 4))) ∧
    (Grants s a 7 none u → bit v 2 = true →
      (u.gs = true → exec (.kmAbortSend a v) s = .next (State.settleAll (State.sendVote { s with km := { s.km with
        accept := bit v 0, aout := bit v 1 } }))) ∧
      (u.gs = false → exec (.kmAbortSend a v) s = .next (if u.isFavar then s.settleAll else s))) ∧
    (s.routeDue = false → exec .routingTableApply s = .next s) ∧
    (s.km.routeAt = some at_ → (boundaryAfter at_).toNat ≤ s.now.toNat → exec .routingTableApply s = .next
      ((List.finRange 8).foldl (fun (s' : State) p => if bit s.km.retrain p.val then s'.kmDown p false else s') table))

/-- Kamion traffic (R400 to R402): a message enters an enabled queue of 64, stamped, or counts as dropped, and wakes the context that
receives; GO queues a job of at most 16; the engine sends the block of a job, lands it here, or ends the job with its error; the end of a
job counts DONE and sets LASTERR; a block lands in an enabled ring that has room, after a FILL run where it would wrap, its HDR last, or
is refused whole; enabling a ring checks that it is mapped writable. Before routing is confirmed what arrives counts in UNCONF. Routing
that is due takes effect first (the model's reading, log 79). -/
def Obligations.KamionTraffic : Prop :=
  ∀ (i s s' : State) (ecc : Ecc) (o : BitVec 12) (w : Fin 2) (q : Fin 16) (ring : Fin 8) (word : Word) (ws : List Word) (a : Agent) (u : Who)
    (v : BitVec 64) (j : DmaJob) (rest : List DmaJob) (refused ok up : Bool) (e : BitVec 4) (p : Fin 8)
    (d : Option (BitVec 64)),
    let r := s.worlds[w].rq[q]
    let x := s.worlds[w]
    let l := x.lr[ring]
    let unconf : State := { s with km := { s.km with unconf := satInc s.km.unconf } }
    let enters := r.en = true ∧ r.entries.length < 64
    let y := s.slot r.core r.slot
    let asked : State := s.modWorld w fun y => { y with dmaDev := fld v 0 12, dmaRing := fld v 12 3, dmaLine := fld v 22 8
                                                        dmaRefused := y.dmaRefused && !(bit v 21), dmaLev := bit v 30 }
    let n := s.noteSource w j
    let fails (s : State) (e : BitVec 4) : State := s.modWorld w fun x => { x with
      dmaJobs := { j with ended := true, error := e } :: x.dmaJobs.tail }
    let unrouted : State := { n with km := { n.km with noroute := satInc n.km.noroute } }
    let counted (e : BitVec 4) : State := s.modWorld w fun x =>
      { x with dmaJobs := rest, dmaDone := x.dmaDone + 1, dmaLastErr := e }
    let ends (e : BitVec 4) : State := if x.dmaLev then (counted e).raise x.dmaLine.toFin else counted e
    let base := l.base.toNat
    let fits := l.en = true ∧ ws ≠ [] ∧ l.wr.toNat + ws.length ≤ l.size.toNat ∧ ws.length ≤ l.free
    let landed : State := ((s.landWords w (base + l.wr.toNat + 1) ws.tail).landWords w (base + l.wr.toNat) (ws.take 1)).modWorld w
      fun x => { x with lr := vmod x.lr ring fun r => { r with
        wr := BitVec.ofNat 24 ((l.wr.toNat + ws.length) % l.size.toNat), seq := r.seq + 1 } }
    let wraps := l.en = true ∧ ws ≠ [] ∧ l.size.toNat < l.wr.toNat + ws.length ∧ ws.length ≤ l.size.toNat ∧
      l.size.toNat - l.wr.toNat + ws.length ≤ l.free
    let filled : State := if l.wr.toNat < l.size.toNat then
      s.landWords w (base + l.wr.toNat) [Word.fill (BitVec.ofNat 64 (l.size.toNat - l.wr.toNat))] else s
    let wrapped : State := ((filled.landWords w (base + 1) ws.tail).landWords w base (ws.take 1)).modWorld w
      fun x => { x with lr := vmod x.lr ring fun r => { r with
        wr := BitVec.ofNat 24 (ws.length % l.size.toNat), seq := r.seq + 1 } }
    let mapped := s.landMapped w (base + l.size.toNat) (l.size.toNat / 512 + 2) base
    (s = i.kmSettle → s.alive = true → s.km.carries = true →
      (enters → ∃ t : State, exec (.messageArrival o w q word) i = .next t ∧
        t.worlds[w].rq[q].entries = r.entries ++ [(s.now, word)] ∧
        (y.state = .receiving → y.block = some (.recv d) → (d = none ∨ ∃ z, d = some z ∧ s.now.toNat ≤ z.toNat) →
          (t.slot r.core r.slot).state = .ready)) ∧
      (¬ enters → exec (.messageArrival o w q word) i = .next (s.modWorld w fun x =>
        { x with rq := vmod x.rq q fun r => { r with dropped := satInc r.dropped } }))) ∧
    (s = i.kmSettle → s.alive = true → s.km.carries = false →
      exec (.messageArrival o w q word) i = .next unconf ∧ exec (.bulkLanding w ring ws) i = .next unconf) ∧
    (Grants s a 7 (some (16 + w.val)) u → bit v 15 = true → exec (.kmDmaGo a w v) s = .next (asked.modWorld w fun y =>
      if 16 ≤ y.dmaJobs.length then { y with dmaRefused := true }
      else { y with dmaJobs := y.dmaJobs ++ [{ src := y.dmaSrc, dev := y.dmaDev, ring := y.dmaRing.toFin }] }).settleAll) ∧
    (s = (i.memErrs ecc).kmSettle → s.alive = true → x.dmaJobs = j :: rest → j.sent = false → j.ended = false →
      (s.dmaSource w j = .error e → exec (.kmDmaJob w ecc) i = .next (fails n e)) ∧
      (s.dmaSource w j = .ok ws →
        (n.km.carries = false → exec (.kmDmaJob w ecc) i = .next (fails unrouted 3)) ∧
        (n.km.carries = true → n.km.route none n.km.id j.dev = .none_ → exec (.kmDmaJob w ecc) i = .next (fails unrouted 3)) ∧
        (n.km.carries = true → n.km.route none n.km.id j.dev = .deliver → n.bulkLand w j.ring ws = (ok, s') →
          exec (.kmDmaJob w ecc) i = .next (s'.modWorld w fun x => { x with
            dmaJobs := { j with sent := true, ended := true, error := if ok then 0 else 4 } :: x.dmaJobs.tail })) ∧
        (n.km.carries = true → n.km.route none n.km.id j.dev = .out p up → n.km.ports[p].trained = true →
          exec (.kmDmaJob w ecc) i = .next ((n.kmSend p up ⟨n.km.id, j.dev, .bulk w j.ring ws⟩).modWorld w fun x => { x with
            dmaJobs := { j with sent := true, sentAt := n.now } :: x.dmaJobs.tail })) ∧
        (n.km.carries = true → n.km.route none n.km.id j.dev = .out p up → n.km.ports[p].trained = false →
          exec (.kmDmaJob w ecc) i = .next (fails unrouted 3)))) ∧
    ((j.src.tag ≠ 0x46 ∨ malformed j.src = true) → s.dmaSource w j = .error 1) ∧
    (x.dmaJobs = j :: rest →
      (j.ended = true → exec (.kmDmaJobEnd w refused) s = .next (ends j.error)) ∧
      (j.ended = false → j.sent = true → exec (.kmDmaJobEnd w refused) s = .next (ends (if refused then 4 else 0))) ∧
      (j.ended = false → j.sent = true → 1000000 ≤ (s.now - j.sentAt).toNat → exec (.kmDmaLostTimeout w) s = .next (ends 5))) ∧
    (s = i.kmSettle → s.alive = true → s.km.carries = true →
      (wraps → exec (.bulkLanding w ring ws) i = .next
        ((if l.lev then wrapped.raise l.line.toFin else wrapped).emit (.landed w ring true))) ∧
      (fits → exec (.bulkLanding w ring ws) i = .next
        ((if l.lev then landed.raise l.line.toFin else landed).emit (.landed w ring true))) ∧
      ((l.en = false ∨ ws = [] ∨ l.size.toNat < ws.length ∨ l.free < ws.length ∨
          (l.size.toNat < l.wr.toNat + ws.length ∧ l.free < l.size.toNat - l.wr.toNat + ws.length)) → exec (.bulkLanding w ring ws) i = .next
        (State.emit (s.modWorld w fun x => { x with lr := vmod x.lr ring fun r => { r with refused := satInc r.refused } })
          (.landed w ring false)))) ∧
    (Grants s a 7 (some (16 + w.val)) u → bit v 25 = true → exec (.kmLandingEnable a w ring v) s = .next
      (s.modWorld w fun x => { x with lr := vmod x.lr ring fun r =>
        { r with rd := fld v 0 24, rdEn := bit v 24, en := l.en || mapped
                 refused := if l.en || mapped then r.refused else satInc r.refused } }).settleAll)

/-- Power domains, resets, boot, debug and the host and Ethernet links (R285, R384, R385, R407 to R425, R427, R451, R452): a domain sleeps
only where Table 18-2 allows, wakes through RAMP four at a time, and a core through LOADING; POR_N and the loss of VAON or VIO leave cold
reset; release boots, with the restricted mailbox where memory fails or no microcode image is good (log 116); WARM_N begins a restart,
whose end restores the worlds; a PTP message of the device's version, domain and transport is answered, followed or discarded;
PERST_N clears the mailbox interface; brownout and 120 °C mute drive; a core outside Guard may be halted for debug. -/
def Obligations.PowerAndResets : Prop :=
  ∀ (s : State) (a : Agent) (u : Who) (d : Fin 141) (v : BitVec 64) (e : BootEnv) (temp : BitVec 16) (c : Fin 32) (up : Bool)
    (port : Fin 2) (q : BitVec 16) (p1 cls p2 : BitVec 8) (identity : BitVec 64) (b : Bool)
    (y : PtpHdr) (m : PtpMsg) (g : MicroImage),
    let x := s.pwr.dom[d]
    let z : Dom := { x with err := x.err && !(bit v 3) }
    let set (y : Dom) (s : State) : State := { s with pwr := { s.pwr with dom := vset s.pwr.dom d y } }
    let asleep : State := set { z with onReq := false, state := .off } (s.sleepUnit d)
    let wakes : State := set { z with onReq := true } s
    let state (s : State) (st : DomState) : State :=
      { s with pwr := { s.pwr with dom := vmod s.pwr.dom d fun x => { x with state := st } } }
    let off (s : State) : State := { s with pwr := { s.pwr with rampQ := s.pwr.rampQ.filter fun e => e != d } }
    let held (t : State) : Prop := t.pwr.porLow = true ∧ t.mem = [] ∧ t.imt = ({} : Imtur) ∧ t.safe = ({} : Safe) ∧
      (∀ c : Fin 32, t.cores[c] = ({} : Core)) ∧ (∀ w : Fin 2, t.worlds[w].state = .empty) ∧ t.fv.ready = false ∧
      t.fv.crashFlash = s.fv.crashFlash ∧ t.fv.svnFloor = s.fv.svnFloor ∧ t.ven.committed = s.ven.committed ∧ t.pending = s.pending
    let image := if e.readBack then s.fv.bootImage else none
    let boots := s.pwr.supplied = true ∧ s.pwr.porLow = true ∧ s.fv.bootSlot e.straps = some b
    let hot : State := s.noteTemp temp
    let warned : State := State.guardEvent { hot with pwr := { hot.pwr with warned := true } } 9 0
    let muted (s : State) : State := { s with safe := { s.safe with mute := true }, pwr := { s.pwr with brown := true } }
    let warns := s.pwr.warn.toInt ≤ temp.toInt ∧ s.pwr.warned = false
    let open_ := s.domOn (137 + port.val) = true ∧ s.fv.ethUp[port] = true
    let heard := y.version = 2 ∧ y.domain = (fld s.imt.ptp 0 7 : BitVec 7).setWidth 8 ∧
      y.transport = (if bit s.imt.ptp 33 then .ethernet else .udp4)
    let slave := s.imt.sel = 2 ∧ (fld s.imt.src 7 1 : BitVec 1) = BitVec.ofNat 1 port.val
    let master := bit s.imt.ptp (41 + port.val) = true
    let order := ((p1.toNat * 256 + cls.toNat) * 256 + p2.toNat) * 2 ^ 64 + identity.toNat
    (Grants s a 9 (some d.val) u → s.domFitted d = true →
      (bit v 0 = false → ¬ (x.state = .off ∧ x.onReq = false) → s.sleepOk d = true →
        exec (.pwrSleep a d v) s = .next ((off asleep).serveRamps.veneerOutcome).settleAll) ∧
      (bit v 0 = false → ¬ (x.state = .off ∧ x.onReq = false) → s.sleepOk d = false →
        exec (.pwrSleep a d v) s = .next (set { z with err := true } s).settleAll) ∧
      (bit v 0 = true → x.state = .off → x.onReq = false → exec (.pwrWake a d v) s = .next (State.settleAll (State.serveRamps
        { wakes with pwr := { wakes.pwr with rampQ := s.pwr.rampQ ++ [d] } }))) ∧
      (bit v 0 = true → (x.state ≠ .off ∨ x.onReq = true) → exec (.pwrWake a d v) s = .next (set z s).settleAll)) ∧
    (120 ≤ d.val → d.val < 128 → s.sleepOk d = false) ∧ (d.val = 136 → s.sleepOk d = false) ∧
    (s.alive = true →
      (x.state = .ramp → d.val < 32 → exec (.domainRampDone d) s = .next (state (off s) .loading).serveRamps) ∧
      (x.state = .ramp → 32 ≤ d.val → exec (.domainRampDone d) s = .next (state ((off s).wakeUnit d) .on).serveRamps) ∧
      (x.state = .loading → exec (.domainRampDone d) s = .next (state (s.wakeUnit d) .on))) ∧
    ((∃ t : State, exec .porNAssert s = .next t ∧ held t ∧ t.pwr.supplied = s.pwr.supplied) ∧
      ∃ t : State, exec .vaonVioLoss s = .next t ∧ held t ∧ t.pwr.supplied = false) ∧
    (exec .vaonVioValid s = .next { s with pwr := { s.pwr with supplied := true, porLow := true } }) ∧
    (boots → ∃ t : State, exec (.porNRelease e) s = .next t ∧ t.pwr.porLow = false ∧ t.straps = e.straps ∧
      t.km.id = fld e.straps 0 12 ∧ t.fv.activeB = b ∧ t.fv.fwver = (if b then s.fv.fwB else s.fv.fwA).version ∧ t.fv.pcieUp = true ∧
      (memoryUp e = false → t.fv.restricted = true ∧ t.imt.started = s.imt.started ∧ t.fv.ready = s.fv.ready) ∧
      (memoryUp e = true → image = none → t.fv.restricted = true ∧ t.imt.started = s.imt.started ∧ t.fv.crash ≠ []) ∧
      (memoryUp e = true → image = some g → t.imt.started = true ∧ t.fv.ready = bit e.fwReady (if b then 1 else 0) ∧
        t.ven.image = g ∧ ∀ c : Fin 32, t.cores[c].ven.mcver = g.release ++ s.ven.committed)) ∧
    (s.pwr.supplied = true → s.pwr.porLow = true → s.fv.bootSlot e.straps = none → ∃ t : State,
      exec (.porNRelease e) s = .next t ∧ t.fv.pcieUp = true ∧ t.fv.ready = s.fv.ready ∧ ∀ d : Fin 141, t.pwr.dom[d].state = .off) ∧
    (s.alive = true → s.fv.restart = false → s.fv.restartDue = false → s.fv.restricted = false → s.imt.started = true →
      ∃ t : State, exec .warmNAssert s = .next t ∧ t.pwr.last = 2 ∧ t.fv.restart = true ∧ t.fv.restartAt = s.now ∧
        (∀ c : Fin 32, t.cores[c].stopped = true) ∧ (∀ w : Fin 2, t.worlds[w].state = .restarting ∧ t.fv.prior[w] = s.worlds[w].state) ∧
        (s.variantL = false → ∀ n : Fin 16, t.dl[n].armed = false ∧ (s.dl[n].state = .run → t.dl[n].state = .ramp)) ∧ t.mem = s.mem) ∧
    (s.alive = true → s.fv.ready = true → s.fv.restart = true → (∀ w : Fin 2, s.fv.prior[w] ≠ .running) →
      ∃ t : State, exec .warmRestart s = .next t ∧ t.fv.restart = false ∧ t.fv.restartDue = false ∧ t.fv.restartEnd = some s.now ∧
        (∀ c : Fin 32, t.cores[c].running = false ∧ t.cores[c].stopped = false ∧ ∀ k : Fin 64, t.cores[c].slots[k].state = .empty) ∧
        (∀ w : Fin 2, t.worlds[w].state = (if s.fv.prior[w] = .stopping then .verified else s.fv.prior[w]) ∧
          t.worlds[w].mbx.busy = false ∧ t.worlds[w].mbx.inbox = [] ∧ t.worlds[w].dmaJobs = []) ∧
        (s.fv.restartDue = false → t.pwr.last = s.pwr.last)) ∧
    (s.alive = true → ∃ t : State, exec .perstNAssert s = .next t ∧ t.fv.pcieUp = false ∧ t.fv.major = 0 ∧ t.fv.minor = 0 ∧
      t.fv.head = 0 ∧ t.fv.tail = 0 ∧ t.fv.ring = [] ∧ (∀ k : Fin 16, t.fv.slots[k].own = false) ∧ t = { s with fv := t.fv }) ∧
    (s.alive = true → exec .brownout s = .next (muted s) ∧ (temp.toInt < 1200 → ¬ warns → exec (.thermalWarn temp) s = .next hot) ∧
      (temp.toInt < 1200 → warns → exec (.thermalWarn temp) s = .next warned) ∧
      (1200 ≤ temp.toInt → exec (.thermalWarn temp) s = .next (muted (if s.pwr.warn.toInt ≤ temp.toInt ∧ s.pwr.warned = false
        then warned else hot)))) ∧
    (s.debugOn = true → s.domOn c.val = true → s.cores[c].halted = false → s.fv.use[c] ≠ .guard → s.fv.use[c] ≠ .shared →
      exec (.debugHalt c) s = .next (s.modCore c fun x => { x with halted := true, haltAt := s.now })) ∧
    ((s.fv.use[c] = .guard ∨ s.fv.use[c] = .shared ∨ s.debugOn = false) → exec (.debugHalt c) s = .next s) ∧
    (s.domOn c.val = true → s.cores[c].halted = true → exec (.debugResume c) s = .next (s.modCore c fun x =>
      { x with halted := false, wdStart := x.wdStart + (s.now - x.haltAt) })) ∧
    (s.domOn 136 = true → exec (.pcieLinkChange up) s = .next { s with fv := { s.fv with pcieUp := up } }) ∧
    (s.domOn (137 + port.val) = true →
      exec (.ethLinkChange port up) s = .next { s with fv := { s.fv with ethUp := vset s.fv.ethUp port up } }) ∧
    (open_ →
      (s.fv.ready = true → exec (.ethFrameReceive port .arpRequest) s = .next (s.emit (.arpReply port)) ∧
        exec (.ethFrameReceive port .icmpEcho) s = .next (s.emit (.echoReply port))) ∧
      (exec (.ethFrameReceive port (.pause q)) s = .next { s with fv := { s.fv with
        ethPaused := vset s.fv.ethPaused port (s.now + BitVec.ofNat 64 ((q.toNat * 512 + 9) / 10)) } }) ∧
      exec (.ethFrameReceive port .fragment) s = .next s ∧ exec (.ethFrameReceive port .other) s = .next s) ∧
    (open_ → s.fv.ready = true → s.fv.swap = false → heard →
      (master → bit s.imt.ptp 32 = false → exec (.ptpMessageReceive port .delayReq y) s = .next (s.emit (.ptpReply port .delayReq))) ∧
      (bit s.imt.ptp 32 = true → (master ∨ slave) → exec (.ptpMessageReceive port .pdelayReq y) s =
        .next (s.emit (.ptpReply port .pdelayReq))) ∧
      (slave → (s.imt.ptpKey = none ∨ (∃ x, s.imt.ptpKey = some x ∧ order < x) ∨ s.imt.ptpMaster = identity) →
        order < s.ptpOwn port → exec (.ptpMessageReceive port (.announce identity p1 cls p2) y) s =
        .next { s with imt := { s.imt with ptpKey := some order, ptpMaster := identity, annAt := s.now } }) ∧
      (s.ptpOwn port ≤ order → exec (.ptpMessageReceive port (.announce identity p1 cls p2) y) s = .next s) ∧
      exec (.ptpMessageReceive port .followUp y) s = .next s ∧ exec (.ptpMessageReceive port .unsupported y) s = .next s) ∧
    (¬ heard → exec (.ptpMessageReceive port m y) s = .next s)

end
end

