-- ==== Sys2Proof/Laws/State.lean ====
section
/-! SUPPORT. What the updates of one element of the state leave alone and what they change, so that no later proof unfolds
a record update. -/

namespace Sys2Proof.Machine

open Sys2Proof

/-! ### Vectors -/

/-- The element changed. Its second form is the one in which `simp` writes an element. -/
theorem vmod_self {α : Type} {n : Nat} (v : Vector α n) (i : Fin n) (f : α → α) : (vmod v i f)[i] = f v[i] := by
  simp [vmod, vset]

@[simp] theorem vmod_val {α : Type} {n : Nat} (v : Vector α n) (i : Fin n) (f : α → α) (h : i.val < n) :
    (vmod v i f)[i.val]'h = f v[i.val] := by
  simp [vmod, vset]

theorem vmod_other {α : Type} {n : Nat} (v : Vector α n) (i j : Fin n) (f : α → α) (h : j ≠ i) : (vmod v i f)[j] = v[j] := by
  have h1 : i.val ≠ j.val := fun e => h (Fin.ext e.symm)
  simp [vmod, vset, Vector.getElem_set_ne, h1]

theorem vset_self {α : Type} {n : Nat} (v : Vector α n) (i : Fin n) (x : α) : (vset v i x)[i] = x := by
  simp [vset]

@[simp] theorem vset_val {α : Type} {n : Nat} (v : Vector α n) (i : Fin n) (x : α) (h : i.val < n) :
    (vset v i x)[i.val]'h = x := by
  simp [vset]

theorem vset_other {α : Type} {n : Nat} (v : Vector α n) (i j : Fin n) (x : α) (h : j ≠ i) : (vset v i x)[j] = v[j] := by
  have h1 : i.val ≠ j.val := fun e => h (Fin.ext e.symm)
  simp [vset, Vector.getElem_set_ne, h1]

/-! ### Updates of one element of the state -/

section modCore
variable (s : State) (c : Fin 32) (f : Core → Core)

@[simp] theorem modCore_pending : (s.modCore c f).pending = s.pending := rfl
@[simp] theorem modCore_variantL : (s.modCore c f).variantL = s.variantL := rfl
@[simp] theorem modCore_absentWrites : (s.modCore c f).absentWrites = s.absentWrites := rfl
@[simp] theorem modCore_mem : (s.modCore c f).mem = s.mem := rfl
@[simp] theorem modCore_stale : (s.modCore c f).stale = s.stale := rfl
@[simp] theorem modCore_unmapped : (s.modCore c f).unmapped = s.unmapped := rfl
@[simp] theorem modCore_twPerr : (s.modCore c f).twPerr = s.twPerr := rfl
@[simp] theorem modCore_jig : (s.modCore c f).jig = s.jig := rfl
@[simp] theorem modCore_clusters : (s.modCore c f).clusters = s.clusters := rfl
@[simp] theorem modCore_ports : (s.modCore c f).ports = s.ports := rfl
@[simp] theorem modCore_worlds : (s.modCore c f).worlds = s.worlds := rfl
@[simp] theorem modCore_safe : (s.modCore c f).safe = s.safe := rfl
@[simp] theorem modCore_ven : (s.modCore c f).ven = s.ven := rfl
@[simp] theorem modCore_imt : (s.modCore c f).imt = s.imt := rfl
@[simp] theorem modCore_cuts : (s.modCore c f).cuts = s.cuts := rfl
@[simp] theorem modCore_cutActive : (s.modCore c f).cutActive = s.cutActive := rfl
@[simp] theorem modCore_cutFixed : (s.modCore c f).cutFixed = s.cutFixed := rfl
@[simp] theorem modCore_trigq : (s.modCore c f).trigq = s.trigq := rfl
@[simp] theorem modCore_sl : (s.modCore c f).sl = s.sl := rfl
@[simp] theorem modCore_dl : (s.modCore c f).dl = s.dl := rfl
@[simp] theorem modCore_lathes : (s.modCore c f).lathes = s.lathes := rfl
@[simp] theorem modCore_mq : (s.modCore c f).mq = s.mq := rfl
@[simp] theorem modCore_gauges : (s.modCore c f).gauges = s.gauges := rfl
@[simp] theorem modCore_gtSnapT : (s.modCore c f).gtSnapT = s.gtSnapT := rfl
@[simp] theorem modCore_fv : (s.modCore c f).fv = s.fv := rfl
@[simp] theorem modCore_km : (s.modCore c f).km = s.km := rfl
@[simp] theorem modCore_pwr : (s.modCore c f).pwr = s.pwr := rfl
@[simp] theorem modCore_hng : (s.modCore c f).hng = s.hng := rfl
@[simp] theorem modCore_banks : (s.modCore c f).banks = s.banks := rfl
@[simp] theorem modCore_straps : (s.modCore c f).straps = s.straps := rfl
@[simp] theorem modCore_allocLog : (s.modCore c f).allocLog = s.allocLog := rfl
@[simp] theorem modCore_out : (s.modCore c f).out = s.out := rfl
@[simp] theorem modCore_drawn : (s.modCore c f).drawn = s.drawn := rfl
theorem modCore_cores_self : (s.modCore c f).cores[c] = f s.cores[c] := vmod_self _ _ _
@[simp] theorem modCore_cores_val : (s.modCore c f).cores[c.val] = f s.cores[c.val] := vmod_val _ _ _ c.isLt
theorem modCore_cores_other (j : Fin 32) (h : j ≠ c) : (s.modCore c f).cores[j] = s.cores[j] :=
  vmod_other _ _ _ _ h

/-- A core left as it is. -/
theorem modCore_id : (s.modCore c fun _ => s.cores[c]) = s := by
  have h : vmod s.cores c (fun _ => s.cores[c]) = s.cores := by
    simp [vmod, vset]
  simp only [State.modCore, h]

end modCore

section modCluster
variable (s : State) (k : Fin 8) (f : Cluster → Cluster)

@[simp] theorem modCluster_pending : (s.modCluster k f).pending = s.pending := rfl
@[simp] theorem modCluster_variantL : (s.modCluster k f).variantL = s.variantL := rfl
@[simp] theorem modCluster_absentWrites : (s.modCluster k f).absentWrites = s.absentWrites := rfl
@[simp] theorem modCluster_mem : (s.modCluster k f).mem = s.mem := rfl
@[simp] theorem modCluster_stale : (s.modCluster k f).stale = s.stale := rfl
@[simp] theorem modCluster_unmapped : (s.modCluster k f).unmapped = s.unmapped := rfl
@[simp] theorem modCluster_twPerr : (s.modCluster k f).twPerr = s.twPerr := rfl
@[simp] theorem modCluster_cores : (s.modCluster k f).cores = s.cores := rfl
@[simp] theorem modCluster_jig : (s.modCluster k f).jig = s.jig := rfl
@[simp] theorem modCluster_ports : (s.modCluster k f).ports = s.ports := rfl
@[simp] theorem modCluster_worlds : (s.modCluster k f).worlds = s.worlds := rfl
@[simp] theorem modCluster_safe : (s.modCluster k f).safe = s.safe := rfl
@[simp] theorem modCluster_ven : (s.modCluster k f).ven = s.ven := rfl
@[simp] theorem modCluster_imt : (s.modCluster k f).imt = s.imt := rfl
@[simp] theorem modCluster_cuts : (s.modCluster k f).cuts = s.cuts := rfl
@[simp] theorem modCluster_cutActive : (s.modCluster k f).cutActive = s.cutActive := rfl
@[simp] theorem modCluster_cutFixed : (s.modCluster k f).cutFixed = s.cutFixed := rfl
@[simp] theorem modCluster_trigq : (s.modCluster k f).trigq = s.trigq := rfl
@[simp] theorem modCluster_sl : (s.modCluster k f).sl = s.sl := rfl
@[simp] theorem modCluster_dl : (s.modCluster k f).dl = s.dl := rfl
@[simp] theorem modCluster_lathes : (s.modCluster k f).lathes = s.lathes := rfl
@[simp] theorem modCluster_mq : (s.modCluster k f).mq = s.mq := rfl
@[simp] theorem modCluster_gauges : (s.modCluster k f).gauges = s.gauges := rfl
@[simp] theorem modCluster_gtSnapT : (s.modCluster k f).gtSnapT = s.gtSnapT := rfl
@[simp] theorem modCluster_fv : (s.modCluster k f).fv = s.fv := rfl
@[simp] theorem modCluster_km : (s.modCluster k f).km = s.km := rfl
@[simp] theorem modCluster_pwr : (s.modCluster k f).pwr = s.pwr := rfl
@[simp] theorem modCluster_hng : (s.modCluster k f).hng = s.hng := rfl
@[simp] theorem modCluster_banks : (s.modCluster k f).banks = s.banks := rfl
@[simp] theorem modCluster_straps : (s.modCluster k f).straps = s.straps := rfl
@[simp] theorem modCluster_allocLog : (s.modCluster k f).allocLog = s.allocLog := rfl
@[simp] theorem modCluster_out : (s.modCluster k f).out = s.out := rfl
@[simp] theorem modCluster_drawn : (s.modCluster k f).drawn = s.drawn := rfl
theorem modCluster_clusters_self : (s.modCluster k f).clusters[k] = f s.clusters[k] := vmod_self _ _ _
@[simp] theorem modCluster_clusters_val : (s.modCluster k f).clusters[k.val] = f s.clusters[k.val] := vmod_val _ _ _ k.isLt
theorem modCluster_clusters_other (j : Fin 8) (h : j ≠ k) : (s.modCluster k f).clusters[j] = s.clusters[j] :=
  vmod_other _ _ _ _ h

end modCluster

section modPort
variable (s : State) (p : Fin 4) (f : Port → Port)

@[simp] theorem modPort_pending : (s.modPort p f).pending = s.pending := rfl
@[simp] theorem modPort_variantL : (s.modPort p f).variantL = s.variantL := rfl
@[simp] theorem modPort_absentWrites : (s.modPort p f).absentWrites = s.absentWrites := rfl
@[simp] theorem modPort_mem : (s.modPort p f).mem = s.mem := rfl
@[simp] theorem modPort_stale : (s.modPort p f).stale = s.stale := rfl
@[simp] theorem modPort_unmapped : (s.modPort p f).unmapped = s.unmapped := rfl
@[simp] theorem modPort_twPerr : (s.modPort p f).twPerr = s.twPerr := rfl
@[simp] theorem modPort_cores : (s.modPort p f).cores = s.cores := rfl
@[simp] theorem modPort_jig : (s.modPort p f).jig = s.jig := rfl
@[simp] theorem modPort_clusters : (s.modPort p f).clusters = s.clusters := rfl
@[simp] theorem modPort_worlds : (s.modPort p f).worlds = s.worlds := rfl
@[simp] theorem modPort_safe : (s.modPort p f).safe = s.safe := rfl
@[simp] theorem modPort_ven : (s.modPort p f).ven = s.ven := rfl
@[simp] theorem modPort_imt : (s.modPort p f).imt = s.imt := rfl
@[simp] theorem modPort_cuts : (s.modPort p f).cuts = s.cuts := rfl
@[simp] theorem modPort_cutActive : (s.modPort p f).cutActive = s.cutActive := rfl
@[simp] theorem modPort_cutFixed : (s.modPort p f).cutFixed = s.cutFixed := rfl
@[simp] theorem modPort_trigq : (s.modPort p f).trigq = s.trigq := rfl
@[simp] theorem modPort_sl : (s.modPort p f).sl = s.sl := rfl
@[simp] theorem modPort_dl : (s.modPort p f).dl = s.dl := rfl
@[simp] theorem modPort_lathes : (s.modPort p f).lathes = s.lathes := rfl
@[simp] theorem modPort_mq : (s.modPort p f).mq = s.mq := rfl
@[simp] theorem modPort_gauges : (s.modPort p f).gauges = s.gauges := rfl
@[simp] theorem modPort_gtSnapT : (s.modPort p f).gtSnapT = s.gtSnapT := rfl
@[simp] theorem modPort_fv : (s.modPort p f).fv = s.fv := rfl
@[simp] theorem modPort_km : (s.modPort p f).km = s.km := rfl
@[simp] theorem modPort_pwr : (s.modPort p f).pwr = s.pwr := rfl
@[simp] theorem modPort_hng : (s.modPort p f).hng = s.hng := rfl
@[simp] theorem modPort_banks : (s.modPort p f).banks = s.banks := rfl
@[simp] theorem modPort_straps : (s.modPort p f).straps = s.straps := rfl
@[simp] theorem modPort_allocLog : (s.modPort p f).allocLog = s.allocLog := rfl
@[simp] theorem modPort_out : (s.modPort p f).out = s.out := rfl
@[simp] theorem modPort_drawn : (s.modPort p f).drawn = s.drawn := rfl
theorem modPort_ports_self : (s.modPort p f).ports[p] = f s.ports[p] := vmod_self _ _ _
@[simp] theorem modPort_ports_val : (s.modPort p f).ports[p.val] = f s.ports[p.val] := vmod_val _ _ _ p.isLt
theorem modPort_ports_other (j : Fin 4) (h : j ≠ p) : (s.modPort p f).ports[j] = s.ports[j] :=
  vmod_other _ _ _ _ h

end modPort

section modWorld
variable (s : State) (w : Fin 2) (f : World → World)

@[simp] theorem modWorld_pending : (s.modWorld w f).pending = s.pending := rfl
@[simp] theorem modWorld_variantL : (s.modWorld w f).variantL = s.variantL := rfl
@[simp] theorem modWorld_absentWrites : (s.modWorld w f).absentWrites = s.absentWrites := rfl
@[simp] theorem modWorld_mem : (s.modWorld w f).mem = s.mem := rfl
@[simp] theorem modWorld_stale : (s.modWorld w f).stale = s.stale := rfl
@[simp] theorem modWorld_unmapped : (s.modWorld w f).unmapped = s.unmapped := rfl
@[simp] theorem modWorld_twPerr : (s.modWorld w f).twPerr = s.twPerr := rfl
@[simp] theorem modWorld_cores : (s.modWorld w f).cores = s.cores := rfl
@[simp] theorem modWorld_jig : (s.modWorld w f).jig = s.jig := rfl
@[simp] theorem modWorld_clusters : (s.modWorld w f).clusters = s.clusters := rfl
@[simp] theorem modWorld_ports : (s.modWorld w f).ports = s.ports := rfl
@[simp] theorem modWorld_safe : (s.modWorld w f).safe = s.safe := rfl
@[simp] theorem modWorld_ven : (s.modWorld w f).ven = s.ven := rfl
@[simp] theorem modWorld_imt : (s.modWorld w f).imt = s.imt := rfl
@[simp] theorem modWorld_cuts : (s.modWorld w f).cuts = s.cuts := rfl
@[simp] theorem modWorld_cutActive : (s.modWorld w f).cutActive = s.cutActive := rfl
@[simp] theorem modWorld_cutFixed : (s.modWorld w f).cutFixed = s.cutFixed := rfl
@[simp] theorem modWorld_trigq : (s.modWorld w f).trigq = s.trigq := rfl
@[simp] theorem modWorld_sl : (s.modWorld w f).sl = s.sl := rfl
@[simp] theorem modWorld_dl : (s.modWorld w f).dl = s.dl := rfl
@[simp] theorem modWorld_lathes : (s.modWorld w f).lathes = s.lathes := rfl
@[simp] theorem modWorld_mq : (s.modWorld w f).mq = s.mq := rfl
@[simp] theorem modWorld_gauges : (s.modWorld w f).gauges = s.gauges := rfl
@[simp] theorem modWorld_gtSnapT : (s.modWorld w f).gtSnapT = s.gtSnapT := rfl
@[simp] theorem modWorld_fv : (s.modWorld w f).fv = s.fv := rfl
@[simp] theorem modWorld_km : (s.modWorld w f).km = s.km := rfl
@[simp] theorem modWorld_pwr : (s.modWorld w f).pwr = s.pwr := rfl
@[simp] theorem modWorld_hng : (s.modWorld w f).hng = s.hng := rfl
@[simp] theorem modWorld_banks : (s.modWorld w f).banks = s.banks := rfl
@[simp] theorem modWorld_straps : (s.modWorld w f).straps = s.straps := rfl
@[simp] theorem modWorld_allocLog : (s.modWorld w f).allocLog = s.allocLog := rfl
@[simp] theorem modWorld_out : (s.modWorld w f).out = s.out := rfl
@[simp] theorem modWorld_drawn : (s.modWorld w f).drawn = s.drawn := rfl
theorem modWorld_worlds_self : (s.modWorld w f).worlds[w] = f s.worlds[w] := vmod_self _ _ _
@[simp] theorem modWorld_worlds_val : (s.modWorld w f).worlds[w.val] = f s.worlds[w.val] := vmod_val _ _ _ w.isLt
theorem modWorld_worlds_other (j : Fin 2) (h : j ≠ w) : (s.modWorld w f).worlds[j] = s.worlds[j] :=
  vmod_other _ _ _ _ h

end modWorld

section modSl
variable (s : State) (n : Fin 32) (f : SensorLane → SensorLane)

@[simp] theorem modSl_pending : (s.modSl n f).pending = s.pending := rfl
@[simp] theorem modSl_variantL : (s.modSl n f).variantL = s.variantL := rfl
@[simp] theorem modSl_absentWrites : (s.modSl n f).absentWrites = s.absentWrites := rfl
@[simp] theorem modSl_mem : (s.modSl n f).mem = s.mem := rfl
@[simp] theorem modSl_stale : (s.modSl n f).stale = s.stale := rfl
@[simp] theorem modSl_unmapped : (s.modSl n f).unmapped = s.unmapped := rfl
@[simp] theorem modSl_twPerr : (s.modSl n f).twPerr = s.twPerr := rfl
@[simp] theorem modSl_cores : (s.modSl n f).cores = s.cores := rfl
@[simp] theorem modSl_jig : (s.modSl n f).jig = s.jig := rfl
@[simp] theorem modSl_clusters : (s.modSl n f).clusters = s.clusters := rfl
@[simp] theorem modSl_ports : (s.modSl n f).ports = s.ports := rfl
@[simp] theorem modSl_worlds : (s.modSl n f).worlds = s.worlds := rfl
@[simp] theorem modSl_safe : (s.modSl n f).safe = s.safe := rfl
@[simp] theorem modSl_ven : (s.modSl n f).ven = s.ven := rfl
@[simp] theorem modSl_imt : (s.modSl n f).imt = s.imt := rfl
@[simp] theorem modSl_cuts : (s.modSl n f).cuts = s.cuts := rfl
@[simp] theorem modSl_cutActive : (s.modSl n f).cutActive = s.cutActive := rfl
@[simp] theorem modSl_cutFixed : (s.modSl n f).cutFixed = s.cutFixed := rfl
@[simp] theorem modSl_trigq : (s.modSl n f).trigq = s.trigq := rfl
@[simp] theorem modSl_dl : (s.modSl n f).dl = s.dl := rfl
@[simp] theorem modSl_lathes : (s.modSl n f).lathes = s.lathes := rfl
@[simp] theorem modSl_mq : (s.modSl n f).mq = s.mq := rfl
@[simp] theorem modSl_gauges : (s.modSl n f).gauges = s.gauges := rfl
@[simp] theorem modSl_gtSnapT : (s.modSl n f).gtSnapT = s.gtSnapT := rfl
@[simp] theorem modSl_fv : (s.modSl n f).fv = s.fv := rfl
@[simp] theorem modSl_km : (s.modSl n f).km = s.km := rfl
@[simp] theorem modSl_pwr : (s.modSl n f).pwr = s.pwr := rfl
@[simp] theorem modSl_hng : (s.modSl n f).hng = s.hng := rfl
@[simp] theorem modSl_banks : (s.modSl n f).banks = s.banks := rfl
@[simp] theorem modSl_straps : (s.modSl n f).straps = s.straps := rfl
@[simp] theorem modSl_allocLog : (s.modSl n f).allocLog = s.allocLog := rfl
@[simp] theorem modSl_out : (s.modSl n f).out = s.out := rfl
@[simp] theorem modSl_drawn : (s.modSl n f).drawn = s.drawn := rfl
theorem modSl_sl_self : (s.modSl n f).sl[n] = f s.sl[n] := vmod_self _ _ _
@[simp] theorem modSl_sl_val : (s.modSl n f).sl[n.val] = f s.sl[n.val] := vmod_val _ _ _ n.isLt
theorem modSl_sl_other (j : Fin 32) (h : j ≠ n) : (s.modSl n f).sl[j] = s.sl[j] :=
  vmod_other _ _ _ _ h

end modSl

section modDl
variable (s : State) (n : Fin 16) (f : DriveLane → DriveLane)

@[simp] theorem modDl_pending : (s.modDl n f).pending = s.pending := rfl
@[simp] theorem modDl_variantL : (s.modDl n f).variantL = s.variantL := rfl
@[simp] theorem modDl_absentWrites : (s.modDl n f).absentWrites = s.absentWrites := rfl
@[simp] theorem modDl_mem : (s.modDl n f).mem = s.mem := rfl
@[simp] theorem modDl_stale : (s.modDl n f).stale = s.stale := rfl
@[simp] theorem modDl_unmapped : (s.modDl n f).unmapped = s.unmapped := rfl
@[simp] theorem modDl_twPerr : (s.modDl n f).twPerr = s.twPerr := rfl
@[simp] theorem modDl_cores : (s.modDl n f).cores = s.cores := rfl
@[simp] theorem modDl_jig : (s.modDl n f).jig = s.jig := rfl
@[simp] theorem modDl_clusters : (s.modDl n f).clusters = s.clusters := rfl
@[simp] theorem modDl_ports : (s.modDl n f).ports = s.ports := rfl
@[simp] theorem modDl_worlds : (s.modDl n f).worlds = s.worlds := rfl
@[simp] theorem modDl_safe : (s.modDl n f).safe = s.safe := rfl
@[simp] theorem modDl_ven : (s.modDl n f).ven = s.ven := rfl
@[simp] theorem modDl_imt : (s.modDl n f).imt = s.imt := rfl
@[simp] theorem modDl_cuts : (s.modDl n f).cuts = s.cuts := rfl
@[simp] theorem modDl_cutActive : (s.modDl n f).cutActive = s.cutActive := rfl
@[simp] theorem modDl_cutFixed : (s.modDl n f).cutFixed = s.cutFixed := rfl
@[simp] theorem modDl_trigq : (s.modDl n f).trigq = s.trigq := rfl
@[simp] theorem modDl_sl : (s.modDl n f).sl = s.sl := rfl
@[simp] theorem modDl_lathes : (s.modDl n f).lathes = s.lathes := rfl
@[simp] theorem modDl_mq : (s.modDl n f).mq = s.mq := rfl
@[simp] theorem modDl_gauges : (s.modDl n f).gauges = s.gauges := rfl
@[simp] theorem modDl_gtSnapT : (s.modDl n f).gtSnapT = s.gtSnapT := rfl
@[simp] theorem modDl_fv : (s.modDl n f).fv = s.fv := rfl
@[simp] theorem modDl_km : (s.modDl n f).km = s.km := rfl
@[simp] theorem modDl_pwr : (s.modDl n f).pwr = s.pwr := rfl
@[simp] theorem modDl_hng : (s.modDl n f).hng = s.hng := rfl
@[simp] theorem modDl_banks : (s.modDl n f).banks = s.banks := rfl
@[simp] theorem modDl_straps : (s.modDl n f).straps = s.straps := rfl
@[simp] theorem modDl_allocLog : (s.modDl n f).allocLog = s.allocLog := rfl
@[simp] theorem modDl_out : (s.modDl n f).out = s.out := rfl
@[simp] theorem modDl_drawn : (s.modDl n f).drawn = s.drawn := rfl
theorem modDl_dl_self : (s.modDl n f).dl[n] = f s.dl[n] := vmod_self _ _ _
@[simp] theorem modDl_dl_val : (s.modDl n f).dl[n.val] = f s.dl[n.val] := vmod_val _ _ _ n.isLt
theorem modDl_dl_other (j : Fin 16) (h : j ≠ n) : (s.modDl n f).dl[j] = s.dl[j] :=
  vmod_other _ _ _ _ h

end modDl

section modCut
variable (s : State) (n : Fin 16) (f : CutList → CutList)

@[simp] theorem modCut_pending : (s.modCut n f).pending = s.pending := rfl
@[simp] theorem modCut_variantL : (s.modCut n f).variantL = s.variantL := rfl
@[simp] theorem modCut_absentWrites : (s.modCut n f).absentWrites = s.absentWrites := rfl
@[simp] theorem modCut_mem : (s.modCut n f).mem = s.mem := rfl
@[simp] theorem modCut_stale : (s.modCut n f).stale = s.stale := rfl
@[simp] theorem modCut_unmapped : (s.modCut n f).unmapped = s.unmapped := rfl
@[simp] theorem modCut_twPerr : (s.modCut n f).twPerr = s.twPerr := rfl
@[simp] theorem modCut_cores : (s.modCut n f).cores = s.cores := rfl
@[simp] theorem modCut_jig : (s.modCut n f).jig = s.jig := rfl
@[simp] theorem modCut_clusters : (s.modCut n f).clusters = s.clusters := rfl
@[simp] theorem modCut_ports : (s.modCut n f).ports = s.ports := rfl
@[simp] theorem modCut_worlds : (s.modCut n f).worlds = s.worlds := rfl
@[simp] theorem modCut_safe : (s.modCut n f).safe = s.safe := rfl
@[simp] theorem modCut_ven : (s.modCut n f).ven = s.ven := rfl
@[simp] theorem modCut_imt : (s.modCut n f).imt = s.imt := rfl
@[simp] theorem modCut_cutActive : (s.modCut n f).cutActive = s.cutActive := rfl
@[simp] theorem modCut_cutFixed : (s.modCut n f).cutFixed = s.cutFixed := rfl
@[simp] theorem modCut_trigq : (s.modCut n f).trigq = s.trigq := rfl
@[simp] theorem modCut_sl : (s.modCut n f).sl = s.sl := rfl
@[simp] theorem modCut_dl : (s.modCut n f).dl = s.dl := rfl
@[simp] theorem modCut_lathes : (s.modCut n f).lathes = s.lathes := rfl
@[simp] theorem modCut_mq : (s.modCut n f).mq = s.mq := rfl
@[simp] theorem modCut_gauges : (s.modCut n f).gauges = s.gauges := rfl
@[simp] theorem modCut_gtSnapT : (s.modCut n f).gtSnapT = s.gtSnapT := rfl
@[simp] theorem modCut_fv : (s.modCut n f).fv = s.fv := rfl
@[simp] theorem modCut_km : (s.modCut n f).km = s.km := rfl
@[simp] theorem modCut_pwr : (s.modCut n f).pwr = s.pwr := rfl
@[simp] theorem modCut_hng : (s.modCut n f).hng = s.hng := rfl
@[simp] theorem modCut_banks : (s.modCut n f).banks = s.banks := rfl
@[simp] theorem modCut_straps : (s.modCut n f).straps = s.straps := rfl
@[simp] theorem modCut_allocLog : (s.modCut n f).allocLog = s.allocLog := rfl
@[simp] theorem modCut_out : (s.modCut n f).out = s.out := rfl
@[simp] theorem modCut_drawn : (s.modCut n f).drawn = s.drawn := rfl
theorem modCut_cuts_self : (s.modCut n f).cuts[n] = f s.cuts[n] := vmod_self _ _ _
@[simp] theorem modCut_cuts_val : (s.modCut n f).cuts[n.val] = f s.cuts[n.val] := vmod_val _ _ _ n.isLt
theorem modCut_cuts_other (j : Fin 16) (h : j ≠ n) : (s.modCut n f).cuts[j] = s.cuts[j] :=
  vmod_other _ _ _ _ h

end modCut

section modLathe
variable (s : State) (n : Fin 8) (f : Lathe → Lathe)

@[simp] theorem modLathe_pending : (s.modLathe n f).pending = s.pending := rfl
@[simp] theorem modLathe_variantL : (s.modLathe n f).variantL = s.variantL := rfl
@[simp] theorem modLathe_absentWrites : (s.modLathe n f).absentWrites = s.absentWrites := rfl
@[simp] theorem modLathe_mem : (s.modLathe n f).mem = s.mem := rfl
@[simp] theorem modLathe_stale : (s.modLathe n f).stale = s.stale := rfl
@[simp] theorem modLathe_unmapped : (s.modLathe n f).unmapped = s.unmapped := rfl
@[simp] theorem modLathe_twPerr : (s.modLathe n f).twPerr = s.twPerr := rfl
@[simp] theorem modLathe_cores : (s.modLathe n f).cores = s.cores := rfl
@[simp] theorem modLathe_jig : (s.modLathe n f).jig = s.jig := rfl
@[simp] theorem modLathe_clusters : (s.modLathe n f).clusters = s.clusters := rfl
@[simp] theorem modLathe_ports : (s.modLathe n f).ports = s.ports := rfl
@[simp] theorem modLathe_worlds : (s.modLathe n f).worlds = s.worlds := rfl
@[simp] theorem modLathe_safe : (s.modLathe n f).safe = s.safe := rfl
@[simp] theorem modLathe_ven : (s.modLathe n f).ven = s.ven := rfl
@[simp] theorem modLathe_imt : (s.modLathe n f).imt = s.imt := rfl
@[simp] theorem modLathe_cuts : (s.modLathe n f).cuts = s.cuts := rfl
@[simp] theorem modLathe_cutActive : (s.modLathe n f).cutActive = s.cutActive := rfl
@[simp] theorem modLathe_cutFixed : (s.modLathe n f).cutFixed = s.cutFixed := rfl
@[simp] theorem modLathe_trigq : (s.modLathe n f).trigq = s.trigq := rfl
@[simp] theorem modLathe_sl : (s.modLathe n f).sl = s.sl := rfl
@[simp] theorem modLathe_dl : (s.modLathe n f).dl = s.dl := rfl
@[simp] theorem modLathe_mq : (s.modLathe n f).mq = s.mq := rfl
@[simp] theorem modLathe_gauges : (s.modLathe n f).gauges = s.gauges := rfl
@[simp] theorem modLathe_gtSnapT : (s.modLathe n f).gtSnapT = s.gtSnapT := rfl
@[simp] theorem modLathe_fv : (s.modLathe n f).fv = s.fv := rfl
@[simp] theorem modLathe_km : (s.modLathe n f).km = s.km := rfl
@[simp] theorem modLathe_pwr : (s.modLathe n f).pwr = s.pwr := rfl
@[simp] theorem modLathe_hng : (s.modLathe n f).hng = s.hng := rfl
@[simp] theorem modLathe_banks : (s.modLathe n f).banks = s.banks := rfl
@[simp] theorem modLathe_straps : (s.modLathe n f).straps = s.straps := rfl
@[simp] theorem modLathe_allocLog : (s.modLathe n f).allocLog = s.allocLog := rfl
@[simp] theorem modLathe_out : (s.modLathe n f).out = s.out := rfl
@[simp] theorem modLathe_drawn : (s.modLathe n f).drawn = s.drawn := rfl
theorem modLathe_lathes_self : (s.modLathe n f).lathes[n] = f s.lathes[n] := vmod_self _ _ _
@[simp] theorem modLathe_lathes_val : (s.modLathe n f).lathes[n.val] = f s.lathes[n.val] := vmod_val _ _ _ n.isLt
theorem modLathe_lathes_other (j : Fin 8) (h : j ≠ n) : (s.modLathe n f).lathes[j] = s.lathes[j] :=
  vmod_other _ _ _ _ h

end modLathe

section modGauge
variable (s : State) (n : Fin 32) (f : Gauge → Gauge)

@[simp] theorem modGauge_pending : (s.modGauge n f).pending = s.pending := rfl
@[simp] theorem modGauge_variantL : (s.modGauge n f).variantL = s.variantL := rfl
@[simp] theorem modGauge_absentWrites : (s.modGauge n f).absentWrites = s.absentWrites := rfl
@[simp] theorem modGauge_mem : (s.modGauge n f).mem = s.mem := rfl
@[simp] theorem modGauge_stale : (s.modGauge n f).stale = s.stale := rfl
@[simp] theorem modGauge_unmapped : (s.modGauge n f).unmapped = s.unmapped := rfl
@[simp] theorem modGauge_twPerr : (s.modGauge n f).twPerr = s.twPerr := rfl
@[simp] theorem modGauge_cores : (s.modGauge n f).cores = s.cores := rfl
@[simp] theorem modGauge_jig : (s.modGauge n f).jig = s.jig := rfl
@[simp] theorem modGauge_clusters : (s.modGauge n f).clusters = s.clusters := rfl
@[simp] theorem modGauge_ports : (s.modGauge n f).ports = s.ports := rfl
@[simp] theorem modGauge_worlds : (s.modGauge n f).worlds = s.worlds := rfl
@[simp] theorem modGauge_safe : (s.modGauge n f).safe = s.safe := rfl
@[simp] theorem modGauge_ven : (s.modGauge n f).ven = s.ven := rfl
@[simp] theorem modGauge_imt : (s.modGauge n f).imt = s.imt := rfl
@[simp] theorem modGauge_cuts : (s.modGauge n f).cuts = s.cuts := rfl
@[simp] theorem modGauge_cutActive : (s.modGauge n f).cutActive = s.cutActive := rfl
@[simp] theorem modGauge_cutFixed : (s.modGauge n f).cutFixed = s.cutFixed := rfl
@[simp] theorem modGauge_trigq : (s.modGauge n f).trigq = s.trigq := rfl
@[simp] theorem modGauge_sl : (s.modGauge n f).sl = s.sl := rfl
@[simp] theorem modGauge_dl : (s.modGauge n f).dl = s.dl := rfl
@[simp] theorem modGauge_lathes : (s.modGauge n f).lathes = s.lathes := rfl
@[simp] theorem modGauge_mq : (s.modGauge n f).mq = s.mq := rfl
@[simp] theorem modGauge_gtSnapT : (s.modGauge n f).gtSnapT = s.gtSnapT := rfl
@[simp] theorem modGauge_fv : (s.modGauge n f).fv = s.fv := rfl
@[simp] theorem modGauge_km : (s.modGauge n f).km = s.km := rfl
@[simp] theorem modGauge_pwr : (s.modGauge n f).pwr = s.pwr := rfl
@[simp] theorem modGauge_hng : (s.modGauge n f).hng = s.hng := rfl
@[simp] theorem modGauge_banks : (s.modGauge n f).banks = s.banks := rfl
@[simp] theorem modGauge_straps : (s.modGauge n f).straps = s.straps := rfl
@[simp] theorem modGauge_allocLog : (s.modGauge n f).allocLog = s.allocLog := rfl
@[simp] theorem modGauge_out : (s.modGauge n f).out = s.out := rfl
@[simp] theorem modGauge_drawn : (s.modGauge n f).drawn = s.drawn := rfl
theorem modGauge_gauges_self : (s.modGauge n f).gauges[n] = f s.gauges[n] := vmod_self _ _ _
@[simp] theorem modGauge_gauges_val : (s.modGauge n f).gauges[n.val] = f s.gauges[n.val] := vmod_val _ _ _ n.isLt
theorem modGauge_gauges_other (j : Fin 32) (h : j ≠ n) : (s.modGauge n f).gauges[j] = s.gauges[j] :=
  vmod_other _ _ _ _ h

end modGauge

section modHinge
variable (s : State) (p : Fin 64) (f : Hinge → Hinge)

@[simp] theorem modHinge_pending : (s.modHinge p f).pending = s.pending := rfl
@[simp] theorem modHinge_variantL : (s.modHinge p f).variantL = s.variantL := rfl
@[simp] theorem modHinge_absentWrites : (s.modHinge p f).absentWrites = s.absentWrites := rfl
@[simp] theorem modHinge_mem : (s.modHinge p f).mem = s.mem := rfl
@[simp] theorem modHinge_stale : (s.modHinge p f).stale = s.stale := rfl
@[simp] theorem modHinge_unmapped : (s.modHinge p f).unmapped = s.unmapped := rfl
@[simp] theorem modHinge_twPerr : (s.modHinge p f).twPerr = s.twPerr := rfl
@[simp] theorem modHinge_cores : (s.modHinge p f).cores = s.cores := rfl
@[simp] theorem modHinge_jig : (s.modHinge p f).jig = s.jig := rfl
@[simp] theorem modHinge_clusters : (s.modHinge p f).clusters = s.clusters := rfl
@[simp] theorem modHinge_ports : (s.modHinge p f).ports = s.ports := rfl
@[simp] theorem modHinge_worlds : (s.modHinge p f).worlds = s.worlds := rfl
@[simp] theorem modHinge_safe : (s.modHinge p f).safe = s.safe := rfl
@[simp] theorem modHinge_ven : (s.modHinge p f).ven = s.ven := rfl
@[simp] theorem modHinge_imt : (s.modHinge p f).imt = s.imt := rfl
@[simp] theorem modHinge_cuts : (s.modHinge p f).cuts = s.cuts := rfl
@[simp] theorem modHinge_cutActive : (s.modHinge p f).cutActive = s.cutActive := rfl
@[simp] theorem modHinge_cutFixed : (s.modHinge p f).cutFixed = s.cutFixed := rfl
@[simp] theorem modHinge_trigq : (s.modHinge p f).trigq = s.trigq := rfl
@[simp] theorem modHinge_sl : (s.modHinge p f).sl = s.sl := rfl
@[simp] theorem modHinge_dl : (s.modHinge p f).dl = s.dl := rfl
@[simp] theorem modHinge_lathes : (s.modHinge p f).lathes = s.lathes := rfl
@[simp] theorem modHinge_mq : (s.modHinge p f).mq = s.mq := rfl
@[simp] theorem modHinge_gauges : (s.modHinge p f).gauges = s.gauges := rfl
@[simp] theorem modHinge_gtSnapT : (s.modHinge p f).gtSnapT = s.gtSnapT := rfl
@[simp] theorem modHinge_fv : (s.modHinge p f).fv = s.fv := rfl
@[simp] theorem modHinge_km : (s.modHinge p f).km = s.km := rfl
@[simp] theorem modHinge_pwr : (s.modHinge p f).pwr = s.pwr := rfl
@[simp] theorem modHinge_banks : (s.modHinge p f).banks = s.banks := rfl
@[simp] theorem modHinge_straps : (s.modHinge p f).straps = s.straps := rfl
@[simp] theorem modHinge_allocLog : (s.modHinge p f).allocLog = s.allocLog := rfl
@[simp] theorem modHinge_out : (s.modHinge p f).out = s.out := rfl
@[simp] theorem modHinge_drawn : (s.modHinge p f).drawn = s.drawn := rfl
theorem modHinge_hng_self : (s.modHinge p f).hng[p] = f s.hng[p] := vmod_self _ _ _
@[simp] theorem modHinge_hng_val : (s.modHinge p f).hng[p.val] = f s.hng[p.val] := vmod_val _ _ _ p.isLt
theorem modHinge_hng_other (j : Fin 64) (h : j ≠ p) : (s.modHinge p f).hng[j] = s.hng[j] :=
  vmod_other _ _ _ _ h

end modHinge

section modBank
variable (s : State) (b : Fin 4) (f : HBank → HBank)

@[simp] theorem modBank_pending : (s.modBank b f).pending = s.pending := rfl
@[simp] theorem modBank_variantL : (s.modBank b f).variantL = s.variantL := rfl
@[simp] theorem modBank_absentWrites : (s.modBank b f).absentWrites = s.absentWrites := rfl
@[simp] theorem modBank_mem : (s.modBank b f).mem = s.mem := rfl
@[simp] theorem modBank_stale : (s.modBank b f).stale = s.stale := rfl
@[simp] theorem modBank_unmapped : (s.modBank b f).unmapped = s.unmapped := rfl
@[simp] theorem modBank_twPerr : (s.modBank b f).twPerr = s.twPerr := rfl
@[simp] theorem modBank_cores : (s.modBank b f).cores = s.cores := rfl
@[simp] theorem modBank_jig : (s.modBank b f).jig = s.jig := rfl
@[simp] theorem modBank_clusters : (s.modBank b f).clusters = s.clusters := rfl
@[simp] theorem modBank_ports : (s.modBank b f).ports = s.ports := rfl
@[simp] theorem modBank_worlds : (s.modBank b f).worlds = s.worlds := rfl
@[simp] theorem modBank_safe : (s.modBank b f).safe = s.safe := rfl
@[simp] theorem modBank_ven : (s.modBank b f).ven = s.ven := rfl
@[simp] theorem modBank_imt : (s.modBank b f).imt = s.imt := rfl
@[simp] theorem modBank_cuts : (s.modBank b f).cuts = s.cuts := rfl
@[simp] theorem modBank_cutActive : (s.modBank b f).cutActive = s.cutActive := rfl
@[simp] theorem modBank_cutFixed : (s.modBank b f).cutFixed = s.cutFixed := rfl
@[simp] theorem modBank_trigq : (s.modBank b f).trigq = s.trigq := rfl
@[simp] theorem modBank_sl : (s.modBank b f).sl = s.sl := rfl
@[simp] theorem modBank_dl : (s.modBank b f).dl = s.dl := rfl
@[simp] theorem modBank_lathes : (s.modBank b f).lathes = s.lathes := rfl
@[simp] theorem modBank_mq : (s.modBank b f).mq = s.mq := rfl
@[simp] theorem modBank_gauges : (s.modBank b f).gauges = s.gauges := rfl
@[simp] theorem modBank_gtSnapT : (s.modBank b f).gtSnapT = s.gtSnapT := rfl
@[simp] theorem modBank_fv : (s.modBank b f).fv = s.fv := rfl
@[simp] theorem modBank_km : (s.modBank b f).km = s.km := rfl
@[simp] theorem modBank_pwr : (s.modBank b f).pwr = s.pwr := rfl
@[simp] theorem modBank_hng : (s.modBank b f).hng = s.hng := rfl
@[simp] theorem modBank_straps : (s.modBank b f).straps = s.straps := rfl
@[simp] theorem modBank_allocLog : (s.modBank b f).allocLog = s.allocLog := rfl
@[simp] theorem modBank_out : (s.modBank b f).out = s.out := rfl
@[simp] theorem modBank_drawn : (s.modBank b f).drawn = s.drawn := rfl
theorem modBank_banks_self : (s.modBank b f).banks[b] = f s.banks[b] := vmod_self _ _ _
@[simp] theorem modBank_banks_val : (s.modBank b f).banks[b.val] = f s.banks[b.val] := vmod_val _ _ _ b.isLt
theorem modBank_banks_other (j : Fin 4) (h : j ≠ b) : (s.modBank b f).banks[j] = s.banks[j] :=
  vmod_other _ _ _ _ h

end modBank

section emit
variable (s : State) (e : Emission)

@[simp] theorem emit_pending : (s.emit e).pending = s.pending := rfl
@[simp] theorem emit_variantL : (s.emit e).variantL = s.variantL := rfl
@[simp] theorem emit_absentWrites : (s.emit e).absentWrites = s.absentWrites := rfl
@[simp] theorem emit_mem : (s.emit e).mem = s.mem := rfl
@[simp] theorem emit_stale : (s.emit e).stale = s.stale := rfl
@[simp] theorem emit_unmapped : (s.emit e).unmapped = s.unmapped := rfl
@[simp] theorem emit_twPerr : (s.emit e).twPerr = s.twPerr := rfl
@[simp] theorem emit_cores : (s.emit e).cores = s.cores := rfl
@[simp] theorem emit_jig : (s.emit e).jig = s.jig := rfl
@[simp] theorem emit_clusters : (s.emit e).clusters = s.clusters := rfl
@[simp] theorem emit_ports : (s.emit e).ports = s.ports := rfl
@[simp] theorem emit_worlds : (s.emit e).worlds = s.worlds := rfl
@[simp] theorem emit_safe : (s.emit e).safe = s.safe := rfl
@[simp] theorem emit_ven : (s.emit e).ven = s.ven := rfl
@[simp] theorem emit_imt : (s.emit e).imt = s.imt := rfl
@[simp] theorem emit_cuts : (s.emit e).cuts = s.cuts := rfl
@[simp] theorem emit_cutActive : (s.emit e).cutActive = s.cutActive := rfl
@[simp] theorem emit_cutFixed : (s.emit e).cutFixed = s.cutFixed := rfl
@[simp] theorem emit_trigq : (s.emit e).trigq = s.trigq := rfl
@[simp] theorem emit_sl : (s.emit e).sl = s.sl := rfl
@[simp] theorem emit_dl : (s.emit e).dl = s.dl := rfl
@[simp] theorem emit_lathes : (s.emit e).lathes = s.lathes := rfl
@[simp] theorem emit_mq : (s.emit e).mq = s.mq := rfl
@[simp] theorem emit_gauges : (s.emit e).gauges = s.gauges := rfl
@[simp] theorem emit_gtSnapT : (s.emit e).gtSnapT = s.gtSnapT := rfl
@[simp] theorem emit_fv : (s.emit e).fv = s.fv := rfl
@[simp] theorem emit_km : (s.emit e).km = s.km := rfl
@[simp] theorem emit_pwr : (s.emit e).pwr = s.pwr := rfl
@[simp] theorem emit_hng : (s.emit e).hng = s.hng := rfl
@[simp] theorem emit_banks : (s.emit e).banks = s.banks := rfl
@[simp] theorem emit_straps : (s.emit e).straps = s.straps := rfl
@[simp] theorem emit_allocLog : (s.emit e).allocLog = s.allocLog := rfl
@[simp] theorem emit_drawn : (s.emit e).drawn = s.drawn := rfl

end emit

section modKm
variable (s : State) (p : Fin 8) (f : KmPort → KmPort)

@[simp] theorem modKm_pending : (s.modKm p f).pending = s.pending := rfl
@[simp] theorem modKm_variantL : (s.modKm p f).variantL = s.variantL := rfl
@[simp] theorem modKm_absentWrites : (s.modKm p f).absentWrites = s.absentWrites := rfl
@[simp] theorem modKm_mem : (s.modKm p f).mem = s.mem := rfl
@[simp] theorem modKm_stale : (s.modKm p f).stale = s.stale := rfl
@[simp] theorem modKm_unmapped : (s.modKm p f).unmapped = s.unmapped := rfl
@[simp] theorem modKm_twPerr : (s.modKm p f).twPerr = s.twPerr := rfl
@[simp] theorem modKm_cores : (s.modKm p f).cores = s.cores := rfl
@[simp] theorem modKm_jig : (s.modKm p f).jig = s.jig := rfl
@[simp] theorem modKm_clusters : (s.modKm p f).clusters = s.clusters := rfl
@[simp] theorem modKm_ports : (s.modKm p f).ports = s.ports := rfl
@[simp] theorem modKm_worlds : (s.modKm p f).worlds = s.worlds := rfl
@[simp] theorem modKm_safe : (s.modKm p f).safe = s.safe := rfl
@[simp] theorem modKm_ven : (s.modKm p f).ven = s.ven := rfl
@[simp] theorem modKm_imt : (s.modKm p f).imt = s.imt := rfl
@[simp] theorem modKm_cuts : (s.modKm p f).cuts = s.cuts := rfl
@[simp] theorem modKm_cutActive : (s.modKm p f).cutActive = s.cutActive := rfl
@[simp] theorem modKm_cutFixed : (s.modKm p f).cutFixed = s.cutFixed := rfl
@[simp] theorem modKm_trigq : (s.modKm p f).trigq = s.trigq := rfl
@[simp] theorem modKm_sl : (s.modKm p f).sl = s.sl := rfl
@[simp] theorem modKm_dl : (s.modKm p f).dl = s.dl := rfl
@[simp] theorem modKm_lathes : (s.modKm p f).lathes = s.lathes := rfl
@[simp] theorem modKm_mq : (s.modKm p f).mq = s.mq := rfl
@[simp] theorem modKm_gauges : (s.modKm p f).gauges = s.gauges := rfl
@[simp] theorem modKm_gtSnapT : (s.modKm p f).gtSnapT = s.gtSnapT := rfl
@[simp] theorem modKm_fv : (s.modKm p f).fv = s.fv := rfl
@[simp] theorem modKm_pwr : (s.modKm p f).pwr = s.pwr := rfl
@[simp] theorem modKm_hng : (s.modKm p f).hng = s.hng := rfl
@[simp] theorem modKm_banks : (s.modKm p f).banks = s.banks := rfl
@[simp] theorem modKm_straps : (s.modKm p f).straps = s.straps := rfl
@[simp] theorem modKm_allocLog : (s.modKm p f).allocLog = s.allocLog := rfl
@[simp] theorem modKm_out : (s.modKm p f).out = s.out := rfl
@[simp] theorem modKm_drawn : (s.modKm p f).drawn = s.drawn := rfl

end modKm

section modHeap
variable (s : State) (w : Fin 2) (f : Heap → Heap)

@[simp] theorem modHeap_pending : (s.modHeap w f).pending = s.pending := rfl
@[simp] theorem modHeap_variantL : (s.modHeap w f).variantL = s.variantL := rfl
@[simp] theorem modHeap_absentWrites : (s.modHeap w f).absentWrites = s.absentWrites := rfl
@[simp] theorem modHeap_mem : (s.modHeap w f).mem = s.mem := rfl
@[simp] theorem modHeap_stale : (s.modHeap w f).stale = s.stale := rfl
@[simp] theorem modHeap_unmapped : (s.modHeap w f).unmapped = s.unmapped := rfl
@[simp] theorem modHeap_twPerr : (s.modHeap w f).twPerr = s.twPerr := rfl
@[simp] theorem modHeap_cores : (s.modHeap w f).cores = s.cores := rfl
@[simp] theorem modHeap_jig : (s.modHeap w f).jig = s.jig := rfl
@[simp] theorem modHeap_clusters : (s.modHeap w f).clusters = s.clusters := rfl
@[simp] theorem modHeap_ports : (s.modHeap w f).ports = s.ports := rfl
@[simp] theorem modHeap_safe : (s.modHeap w f).safe = s.safe := rfl
@[simp] theorem modHeap_ven : (s.modHeap w f).ven = s.ven := rfl
@[simp] theorem modHeap_imt : (s.modHeap w f).imt = s.imt := rfl
@[simp] theorem modHeap_cuts : (s.modHeap w f).cuts = s.cuts := rfl
@[simp] theorem modHeap_cutActive : (s.modHeap w f).cutActive = s.cutActive := rfl
@[simp] theorem modHeap_cutFixed : (s.modHeap w f).cutFixed = s.cutFixed := rfl
@[simp] theorem modHeap_trigq : (s.modHeap w f).trigq = s.trigq := rfl
@[simp] theorem modHeap_sl : (s.modHeap w f).sl = s.sl := rfl
@[simp] theorem modHeap_dl : (s.modHeap w f).dl = s.dl := rfl
@[simp] theorem modHeap_lathes : (s.modHeap w f).lathes = s.lathes := rfl
@[simp] theorem modHeap_mq : (s.modHeap w f).mq = s.mq := rfl
@[simp] theorem modHeap_gauges : (s.modHeap w f).gauges = s.gauges := rfl
@[simp] theorem modHeap_gtSnapT : (s.modHeap w f).gtSnapT = s.gtSnapT := rfl
@[simp] theorem modHeap_fv : (s.modHeap w f).fv = s.fv := rfl
@[simp] theorem modHeap_km : (s.modHeap w f).km = s.km := rfl
@[simp] theorem modHeap_pwr : (s.modHeap w f).pwr = s.pwr := rfl
@[simp] theorem modHeap_hng : (s.modHeap w f).hng = s.hng := rfl
@[simp] theorem modHeap_banks : (s.modHeap w f).banks = s.banks := rfl
@[simp] theorem modHeap_straps : (s.modHeap w f).straps = s.straps := rfl
@[simp] theorem modHeap_allocLog : (s.modHeap w f).allocLog = s.allocLog := rfl
@[simp] theorem modHeap_out : (s.modHeap w f).out = s.out := rfl
@[simp] theorem modHeap_drawn : (s.modHeap w f).drawn = s.drawn := rfl

end modHeap

section modSlot
variable (s : State) (c : Fin 32) (k : Fin 64) (f : Slot → Slot)

@[simp] theorem modSlot_pending : (s.modSlot c k f).pending = s.pending := rfl
@[simp] theorem modSlot_variantL : (s.modSlot c k f).variantL = s.variantL := rfl
@[simp] theorem modSlot_absentWrites : (s.modSlot c k f).absentWrites = s.absentWrites := rfl
@[simp] theorem modSlot_mem : (s.modSlot c k f).mem = s.mem := rfl
@[simp] theorem modSlot_stale : (s.modSlot c k f).stale = s.stale := rfl
@[simp] theorem modSlot_unmapped : (s.modSlot c k f).unmapped = s.unmapped := rfl
@[simp] theorem modSlot_twPerr : (s.modSlot c k f).twPerr = s.twPerr := rfl
@[simp] theorem modSlot_jig : (s.modSlot c k f).jig = s.jig := rfl
@[simp] theorem modSlot_clusters : (s.modSlot c k f).clusters = s.clusters := rfl
@[simp] theorem modSlot_ports : (s.modSlot c k f).ports = s.ports := rfl
@[simp] theorem modSlot_worlds : (s.modSlot c k f).worlds = s.worlds := rfl
@[simp] theorem modSlot_safe : (s.modSlot c k f).safe = s.safe := rfl
@[simp] theorem modSlot_ven : (s.modSlot c k f).ven = s.ven := rfl
@[simp] theorem modSlot_imt : (s.modSlot c k f).imt = s.imt := rfl
@[simp] theorem modSlot_cuts : (s.modSlot c k f).cuts = s.cuts := rfl
@[simp] theorem modSlot_cutActive : (s.modSlot c k f).cutActive = s.cutActive := rfl
@[simp] theorem modSlot_cutFixed : (s.modSlot c k f).cutFixed = s.cutFixed := rfl
@[simp] theorem modSlot_trigq : (s.modSlot c k f).trigq = s.trigq := rfl
@[simp] theorem modSlot_sl : (s.modSlot c k f).sl = s.sl := rfl
@[simp] theorem modSlot_dl : (s.modSlot c k f).dl = s.dl := rfl
@[simp] theorem modSlot_lathes : (s.modSlot c k f).lathes = s.lathes := rfl
@[simp] theorem modSlot_mq : (s.modSlot c k f).mq = s.mq := rfl
@[simp] theorem modSlot_gauges : (s.modSlot c k f).gauges = s.gauges := rfl
@[simp] theorem modSlot_gtSnapT : (s.modSlot c k f).gtSnapT = s.gtSnapT := rfl
@[simp] theorem modSlot_fv : (s.modSlot c k f).fv = s.fv := rfl
@[simp] theorem modSlot_km : (s.modSlot c k f).km = s.km := rfl
@[simp] theorem modSlot_pwr : (s.modSlot c k f).pwr = s.pwr := rfl
@[simp] theorem modSlot_hng : (s.modSlot c k f).hng = s.hng := rfl
@[simp] theorem modSlot_banks : (s.modSlot c k f).banks = s.banks := rfl
@[simp] theorem modSlot_straps : (s.modSlot c k f).straps = s.straps := rfl
@[simp] theorem modSlot_allocLog : (s.modSlot c k f).allocLog = s.allocLog := rfl
@[simp] theorem modSlot_out : (s.modSlot c k f).out = s.out := rfl
@[simp] theorem modSlot_drawn : (s.modSlot c k f).drawn = s.drawn := rfl

end modSlot

section setPc
variable (s : State) (c : Fin 32) (v : BitVec 49)

@[simp] theorem setPc_pending : (s.setPc c v).pending = s.pending := rfl
@[simp] theorem setPc_variantL : (s.setPc c v).variantL = s.variantL := rfl
@[simp] theorem setPc_absentWrites : (s.setPc c v).absentWrites = s.absentWrites := rfl
@[simp] theorem setPc_mem : (s.setPc c v).mem = s.mem := rfl
@[simp] theorem setPc_stale : (s.setPc c v).stale = s.stale := rfl
@[simp] theorem setPc_unmapped : (s.setPc c v).unmapped = s.unmapped := rfl
@[simp] theorem setPc_twPerr : (s.setPc c v).twPerr = s.twPerr := rfl
@[simp] theorem setPc_jig : (s.setPc c v).jig = s.jig := rfl
@[simp] theorem setPc_clusters : (s.setPc c v).clusters = s.clusters := rfl
@[simp] theorem setPc_ports : (s.setPc c v).ports = s.ports := rfl
@[simp] theorem setPc_worlds : (s.setPc c v).worlds = s.worlds := rfl
@[simp] theorem setPc_safe : (s.setPc c v).safe = s.safe := rfl
@[simp] theorem setPc_ven : (s.setPc c v).ven = s.ven := rfl
@[simp] theorem setPc_imt : (s.setPc c v).imt = s.imt := rfl
@[simp] theorem setPc_cuts : (s.setPc c v).cuts = s.cuts := rfl
@[simp] theorem setPc_cutActive : (s.setPc c v).cutActive = s.cutActive := rfl
@[simp] theorem setPc_cutFixed : (s.setPc c v).cutFixed = s.cutFixed := rfl
@[simp] theorem setPc_trigq : (s.setPc c v).trigq = s.trigq := rfl
@[simp] theorem setPc_sl : (s.setPc c v).sl = s.sl := rfl
@[simp] theorem setPc_dl : (s.setPc c v).dl = s.dl := rfl
@[simp] theorem setPc_lathes : (s.setPc c v).lathes = s.lathes := rfl
@[simp] theorem setPc_mq : (s.setPc c v).mq = s.mq := rfl
@[simp] theorem setPc_gauges : (s.setPc c v).gauges = s.gauges := rfl
@[simp] theorem setPc_gtSnapT : (s.setPc c v).gtSnapT = s.gtSnapT := rfl
@[simp] theorem setPc_fv : (s.setPc c v).fv = s.fv := rfl
@[simp] theorem setPc_km : (s.setPc c v).km = s.km := rfl
@[simp] theorem setPc_pwr : (s.setPc c v).pwr = s.pwr := rfl
@[simp] theorem setPc_hng : (s.setPc c v).hng = s.hng := rfl
@[simp] theorem setPc_banks : (s.setPc c v).banks = s.banks := rfl
@[simp] theorem setPc_straps : (s.setPc c v).straps = s.straps := rfl
@[simp] theorem setPc_allocLog : (s.setPc c v).allocLog = s.allocLog := rfl
@[simp] theorem setPc_out : (s.setPc c v).out = s.out := rfl
@[simp] theorem setPc_drawn : (s.setPc c v).drawn = s.drawn := rfl

end setPc

end Sys2Proof.Machine
end

