-- ==== Sys2Proof/Laws/Run.lean ====
section
/-! SUPPORT. The course of one instruction, said once: what fetch and guard do when a core issues it, how a body that answers
or traps ends it, and that nothing else happens at a settled boundary. -/

namespace Sys2Proof.Machine

open Sys2Proof

/-! ### Sequences of microcode -/

section seq
variable {α β : Type} (s s' : State) (a : α) (t : Trap)

@[simp] theorem m_pure : (pure a : M α) s = .ok a s := rfl
@[simp] theorem m_get : (get : M State) s = .ok s s := rfl
@[simp] theorem m_set : (set s' : M PUnit) s = .ok ⟨⟩ s' := rfl
@[simp] theorem m_modify (f : State → State) : (modify f : M PUnit) s = .ok ⟨⟩ (f s) := rfl
@[simp] theorem m_throw : (throw t : M α) s = .error t s := rfl
theorem m_bind (m : M α) (f : α → M β) : (m >>= f) s = match m s with
    | .ok b s1 => f b s1
    | .error e s1 => .error e s1 := by
  show EStateM.bind m f s = _
  unfold EStateM.bind
  cases m s <;> rfl

theorem m_map (m : M α) (f : α → β) : (f <$> m) s = match m s with
    | .ok b s1 => .ok (f b) s1
    | .error e s1 => .error e s1 := by
  show EStateM.map f m s = _
  unfold EStateM.map
  cases m s <;> rfl

theorem m_ite (p : Prop) [Decidable p] (m n : M α) : (if p then m else n) s = if p then m s else n s := by
  split <;> rfl

theorem m_bind_ok {m : M α} {f : α → M β} (h : m s = .ok a s') : (m >>= f) s = f a s' := by rw [m_bind, h]
theorem m_bind_error {m : M α} {f : α → M β} (h : m s = .error t s') : (m >>= f) s = .error t s' := by rw [m_bind, h]

@[simp] theorem m_raiseC (x : Cause) : (raiseC x : M α) s = .error (.exc x none none) s := rfl
@[simp] theorem m_raiseIf_none : raiseIf none s = .ok () s := rfl
@[simp] theorem m_need_true (x : Cause) : need true x s = .ok () s := rfl
@[simp] theorem m_liftE_ok : (liftE (.ok a) : M α) s = .ok a s := rfl
@[simp] theorem m_core (c : Fin 32) : core c s = .ok s.cores[c] s := rfl

end seq

/-! ### Fetch and guard -/

/-- A fetch that hits the fetch buffer changes nothing. -/
theorem fetchWord_hit {c : Fin 32} {va va' : BitVec 48} {w : Word} {s : State}
    (h : s.cores[c].fetchBuf.find? (fun e => e.1 == va) = some (va', w)) : fetchWord c va s = .ok w s := by
  unfold fetchWord
  rw [m_bind_ok s s s (m_get s)]
  simp only [h, m_pure]

/-- An INSTR word passes the tag check of a fetch. -/
theorem fetchCheck_instr {w : Word} (h : w.tag = 0x0A) : fetchCheck w = none := by
  simp [fetchCheck, clsOf, h]

/-- The front end of an instruction that its core issues: nothing changes and the guard selects it. -/
theorem frontEnd_issues {i : Instr} {h : Hdr} {s : State} (hi : Issues i h s) : frontEnd i h s = .ok true s := by
  obtain ⟨va, w, hf, ht, he, hl, hg⟩ := hi.slot
  unfold frontEnd
  rw [m_bind_ok s s s (m_get s), m_bind_ok s s w (fetchWord_hit hf), fetchCheck_instr ht, m_bind_ok s s () (m_raiseIf_none s)]
  simp only [hg, hl, he, Bool.not_false, ne_eq, not_true_eq_false, if_false]
  rw [m_bind_ok s s () (m_need_true s _), m_bind_ok s s () (m_need_true s _)]
  rw [m_bind_ok s s s (m_get s)]
  simp only [m_pure]
  rw [hi.taken]

/-- A core that can issue has not stopped. -/
theorem canIssue_not_stopped {s : State} {c : Fin 32} (h : s.canIssue c = true) : s.cores[c].stopped = false := by
  simp only [State.canIssue, State.coreLive, Bool.and_eq_true, Bool.not_eq_true'] at h
  exact h.1.1.1.1.1.1.1.1.1.2

/-- Without a debug overlay and with the sequencer at the start, the course of the microwords leaves the core as it is (R262). -/
theorem course_unbroken {x : Core} (hb : x.breaks = []) (hq : x.seq = none) (fused : Bool) (g n : Nat) (held : Bool)
    (q : Sequencer) (d : Nat) : x.course fused g n held q d = x := by
  have hx : { x with seq := none } = x := by rw [← hq]
  induction n generalizing held q d with
  | zero => exact hx
  | succ n ih =>
    have h0 (a : BitVec 14) : x.dbgAt fused a = 0 := by simp only [Core.dbgAt, hb, List.find?_nil]
    unfold Core.course
    dsimp only
    simp only [h0]
    split
    · rename_i hc
      simp at hc
    · simp only [show ((0 : BitVec 2) == 2) = false from rfl, Bool.false_eq_true, if_false]
      split
      · exact ih _ _ _
      · exact hx

/-- No microbreak holds an instruction that is issued. -/
theorem microCourse_issues {i : Instr} {h : Hdr} {s : State} (hi : Issues i h s) : s.microCourse i h = (false, s) := by
  have hu := course_unbroken hi.unbroken.1 hi.unbroken.2
  unfold State.microCourse
  simp only [hu, hi.unbroken.2, Option.isSome_none, Bool.false_eq_true, if_false]
  rw [modCore_id]

/-- What an issued instruction does is what its body does. -/
theorem runInstr_issues {i : Instr} {h : Hdr} {s : State} (priv : Bool) (body : M Next) (hi : Issues i h s)
    (hw : bit s.cores[h.core].lo.stat 15 = false) (hp : priv = true → s.user h.core = false) :
    runInstr i h priv body s = match body s with
      | .ok n s3 => (s3.dropBlock h.core s.cores[h.core].lo.depth).complete h.core s.cores[h.core].lo.pc n
      | .error t s3 => s.trapped s3 h.core s.cores[h.core].lo.pc t := by
  have hc : s.countHold h.core h.mc = s := by
    simp only [State.countHold, State.holdOpen, hw, Bool.and_false, Bool.false_eq_true, if_false]
  have hu : (priv && s.user h.core) = false := by
    cases priv
    · rfl
    · simpa using hp rfl
  have hf : (frontEnd i h).run s = .ok true s := frontEnd_issues hi
  unfold runInstr runNow
  simp only [hi.prompt, hi.runs, hi.sound, canIssue_not_stopped hi.runs, hf, microCourse_issues hi, hc, hu, Bool.not_true, Bool.false_eq_true, if_false]
  rfl

/-- A privileged instruction at user level raises PRIVILEGE and does nothing else (R91). -/
theorem runInstr_privilege {i : Instr} {h : Hdr} {s : State} (body : M Next) (hi : Issues i h s)
    (hw : bit s.cores[h.core].lo.stat 15 = false) (hu : s.user h.core = true) :
    runInstr i h true body s = s.enter h.core { cause := .privilege, resume := s.cores[h.core].lo.pc } := by
  have hc : s.countHold h.core h.mc = s := by
    simp only [State.countHold, State.holdOpen, hw, Bool.and_false, Bool.false_eq_true, if_false]
  have hf : (frontEnd i h).run s = .ok true s := frontEnd_issues hi
  unfold runInstr runNow
  simp only [hi.prompt, hi.runs, hi.sound, canIssue_not_stopped hi.runs, hf, microCourse_issues hi, hc, hu, Bool.not_true, Bool.false_eq_true, if_false,
    Bool.and_self, if_true]

/-- The front end of an instruction whose word is in the fetch buffer, step by step (R66, R70). -/
theorem frontEnd_hit {i : Instr} {h : Hdr} {s : State} {va : BitVec 48} {w : Word}
  (hf : s.cores[h.core].fetchBuf.find? (fun e => e.1 == pcWord s.cores[h.core].lo.pc) = some (va, w)) :
   frontEnd i h s = (do
    raiseIf (fetchCheck w)
    let b := slotBits s.cores[h.core].lo.pc w
    need (!(slotGp b == 0 && slotGs b)) .illegalGuard
    need (legal32 b) .illegalInstr
    if encode32 i ≠ some b then throw .inapplicable
    pure ((← get).cores[h.core].pred h.gp != h.gs) : M Bool) s := by
  unfold frontEnd
  rw [m_bind_ok s s s (m_get s), m_bind_ok s s w (fetchWord_hit hf)]

/-- An instruction that raises a cause before its guard. -/
theorem runInstr_front {i : Instr} {h : Hdr} {s : State} {priv : Bool} {body : M Next} {t : Trap}
  (hc : s.canIssue h.core = true) (he : h.err = none) (hw : h.wait = false) (hf : frontEnd i h s = .error t s) :
  runInstr i h priv body s = s.trapped s h.core s.cores[h.core].lo.pc t := by
  have hf : (frontEnd i h).run s = .error t s := hf
  unfold runInstr runNow
  simp only [hw, hc, he, canIssue_not_stopped hc, hf, Bool.not_true, Bool.false_eq_true, if_false]

/-! ### The boundary -/

/-- Nothing is due at the boundary of a core. -/
structure Quiet (c : Fin 32) (s : State) : Prop where
  noPark : (s.running c).parkDue = false
  roomU : s.cores[c].stackBufU.length ≤ 32
  roomS : s.cores[c].stackBufS.length ≤ 32
  noDrain : s.worlds[s.world c].heap.phase ≠ .drain

theorem Settled.quiet {c : Fin 32} {s : State} (h : Settled c s) : Quiet c s :=
  ⟨h.noPark, by have := h.roomU; omega, by have := h.roomS; omega, h.noDrain⟩

theorem spillDown_short {c : Fin 32} {user : Bool} {keep n : Nat} {s : State}
    (h : (s.cores[c].stackBuf user).length ≤ keep) : spillDown c user keep n s = .ok () s := by
  cases n with
  | zero => rfl
  | succ n =>
    unfold spillDown
    rw [m_bind_ok s s s (m_get s)]
    simp only [h, if_true, m_pure]

/-- A quiet boundary changes nothing. -/
theorem boundary_quiet {c : Fin 32} {s : State} (h : Quiet c s) : s.boundary c = s := by
  have h1 : ∀ n, spillDown c true 32 n s = .ok () s := fun n =>
    spillDown_short (by simpa [Core.stackBuf] using h.roomU)
  have h2 : ∀ n, spillDown c false 32 n s = .ok () s := fun n =>
    spillDown_short (by simpa [Core.stackBuf] using h.roomS)
  have hp : s.settlePark c = s := by
    simp only [State.settlePark, h.noPark, Bool.and_false, Bool.false_and, Bool.false_eq_true, if_false]
  unfold State.boundary
  simp only [EStateM.run]
  rw [m_bind_ok s s s (m_get s), m_bind_ok s s () (h1 _), m_bind_ok s s s (m_get s)]
  simp only [h2, h.noDrain, if_false, hp]

/-- A change of a core that leaves its stack buffers and slots alone leaves a boundary quiet. -/
theorem Quiet.modCore {c : Fin 32} {s : State} (h : Quiet c s) {f : Core → Core}
    (h1 : (f s.cores[c]).slots = s.cores[c].slots) (h2 : (f s.cores[c]).slot = s.cores[c].slot)
    (h3 : (f s.cores[c]).stackBufU.length ≤ 32) (h4 : (f s.cores[c]).stackBufS.length ≤ 32) : Quiet c (s.modCore c f) := by
  have hr : (s.modCore c f).running c = s.running c := by
    simp only [State.running, modCore_cores_self, h1, h2]
  have hw : (s.modCore c f).world c = s.world c := by simp only [State.world, hr]
  refine ⟨?_, ?_, ?_, ?_⟩
  · rw [hr]; exact h.noPark
  · rw [modCore_cores_self]; exact h3
  · rw [modCore_cores_self]; exact h4
  · simp only [modCore_worlds, hw]; exact h.noDrain

/-! ### Completion -/

section loop
variable (x : Core) (pc natural : BitVec 49)

@[simp] theorem loopEnd_slots : (x.loopEnd natural).2.slots = x.slots := by
  unfold Core.loopEnd; dsimp only; split <;> rfl
@[simp] theorem loopEnd_slot : (x.loopEnd natural).2.slot = x.slot := by
  unfold Core.loopEnd; dsimp only; split <;> rfl
@[simp] theorem loopEnd_stackBufU : (x.loopEnd natural).2.stackBufU = x.stackBufU := by
  unfold Core.loopEnd; dsimp only; split <;> rfl
@[simp] theorem loopEnd_stackBufS : (x.loopEnd natural).2.stackBufS = x.stackBufS := by
  unfold Core.loopEnd; dsimp only; split <;> rfl
@[simp] theorem loopNext_slots : (x.loopNext pc natural).2.slots = x.slots := by unfold Core.loopNext; split <;> simp
@[simp] theorem loopNext_slot : (x.loopNext pc natural).2.slot = x.slot := by unfold Core.loopNext; split <;> simp
@[simp] theorem loopNext_stackBufU : (x.loopNext pc natural).2.stackBufU = x.stackBufU := by
  unfold Core.loopNext; split <;> simp
@[simp] theorem loopNext_stackBufS : (x.loopNext pc natural).2.stackBufS = x.stackBufS := by
  unfold Core.loopNext; split <;> simp

end loop

/-- Moving on from a PC leaves a boundary quiet. -/
theorem Quiet.advance {c : Fin 32} {s : State} (h : Quiet c s) (pc : BitVec 49) (n : Next) : Quiet c (s.advance c pc n) := by
  have hset : ∀ {s : State} (p : BitVec 49), Quiet c s → Quiet c (s.setPc c p) := fun p h =>
    h.modCore rfl rfl h.roomU h.roomS
  have hloop : ∀ n, Quiet c (s.modCore c fun _ => (s.cores[c].loopNext pc n).2) := fun n =>
    h.modCore (loopNext_slots _ _ _) (loopNext_slot _ _ _) (by rw [loopNext_stackBufU]; exact h.roomU)
      (by rw [loopNext_stackBufS]; exact h.roomS)
  cases n with
  | go t => exact hset t h
  | trap x => exact hset _ h
  | seq => exact hset _ (hloop _)
  | lit => exact hset _ (hloop _)

/-- Without a record of a blocked instruction nothing is dropped. -/
theorem dropBlock_none {c : Fin 32} {s : State} {d : BitVec 5} (h : (s.running c).block = none) : s.dropBlock c d = s := by
  simp [State.dropBlock, h]

/-- An instruction that completes at a quiet boundary: the PC moves on and nothing else happens. -/
theorem complete_quiet {c : Fin 32} {s : State} (h : Quiet c s) (pc : BitVec 49) {n : Next}
    (hn : ∀ x, n ≠ .trap x) : s.complete c pc n = s.advance c pc n := by
  cases n with
  | trap x => exact absurd rfl (hn x)
  | seq => exact boundary_quiet (h.advance pc .seq)
  | lit => exact boundary_quiet (h.advance pc .lit)
  | go t => exact boundary_quiet (h.advance pc (.go t))

/-- An issued instruction whose body answers: the state after is that of its body with the PC moved on. -/
theorem runInstr_ok {i : Instr} {h : Hdr} {s s3 : State} {n : Next} {priv : Bool} {body : M Next} (hi : Issues i h s)
    (hw : bit s.cores[h.core].lo.stat 15 = false) (hp : priv = true → s.user h.core = false) (hb : body s = .ok n s3)
    (hd : (s3.running h.core).block = none) (hq : Quiet h.core s3) (hn : ∀ x, n ≠ .trap x) :
    runInstr i h priv body s = s3.advance h.core s.cores[h.core].lo.pc n := by
  rw [runInstr_issues priv body hi hw hp, hb]
  simp only []
  rw [dropBlock_none hd, complete_quiet hq _ hn]

/-- An issued instruction whose body raises a cause enters the supervisor with EPC naming it. -/
theorem runInstr_exc {i : Instr} {h : Hdr} {s s3 : State} {x : Cause} {f : Option (BitVec 48 × BitVec 64)} {priv : Bool}
    {body : M Next} (hi : Issues i h s) (hw : bit s.cores[h.core].lo.stat 15 = false)
    (hp : priv = true → s.user h.core = false) (hb : body s = .error (.exc x f none) s3) :
    runInstr i h priv body s =
      s3.enter h.core { cause := x, resume := s.cores[h.core].lo.pc, fault := f } := by
  rw [runInstr_issues priv body hi hw hp, hb]
  rfl

/-! ### Operands -/

/-- Registers at hand need no lazy transfer. -/
theorem touch_atHand {c : Fin 32} {rs : List (Fin 32)} {s : State} (h : s.cores[c].atHand rs) : touch c rs s = .ok () s := by
  unfold touch
  rw [m_bind_ok s s s (m_get s)]
  by_cases hr : rs.any s.cores[c].isUpper = true
  · have ho := h hr
    simp only [hr, if_true]
    unfold touchUpper
    rw [m_bind_ok s s s (m_get s)]
    simp only [ho, if_true, m_pure]
  · simp only [hr]
    rfl

/-- A register without a flip mark, as an operand. -/
theorem rd_noMark {c r : Fin 32} {s : State} (h : s.cores[c].regMark r = false) : rd c r s = .ok (s.cores[c].reg r) s := by
  unfold rd
  rw [m_bind_ok s s s (m_get s)]
  simp only [h, Bool.false_eq_true, if_false, m_pure]

/-- A register as an operand that is checked before it is resolved. -/
@[simp] theorem rdTag_eq (c r : Fin 32) (s : State) : rdTag c r s = .ok (s.cores[c].reg r) s := rfl

/-- A base register without a flip mark. -/
theorem rdBase_noMark {c r : Fin 32} {s : State} (h : s.cores[c].regMark r = false) (acc : Acc) (d : BitVec 48) :
    rdBase c acc r d s = .ok (s.cores[c].reg r) s := by
  unfold rdBase
  rw [m_bind_ok s s s (m_get s)]
  simp only [h, Bool.false_eq_true, if_false]
  exact rd_noMark h

/-- A register written. -/
theorem wr_eq (c r : Fin 32) (w : Word) (s : State) : wr c r w s = .ok () (s.modCore c fun x => x.setReg r w) := rfl

theorem chk_none {w : Word} (h : chkWord w = none) (s : State) : chk w s = .ok () s := by
  unfold chk
  rw [h]
  rfl

theorem chk_some {w : Word} {x : Cause} (h : chkWord w = some x) (s : State) : chk w s = .error (.exc x none none) s := by
  unfold chk
  rw [h]
  rfl

/-! ### Registers -/

@[simp] theorem setReg_slots (x : Core) (r : Fin 32) (w : Word) : (x.setReg r w).slots = x.slots := by
  unfold Core.setReg; split <;> (try split) <;> rfl
@[simp] theorem setReg_slot (x : Core) (r : Fin 32) (w : Word) : (x.setReg r w).slot = x.slot := by
  unfold Core.setReg; split <;> (try split) <;> rfl
@[simp] theorem setReg_stackBufU (x : Core) (r : Fin 32) (w : Word) : (x.setReg r w).stackBufU = x.stackBufU := by
  unfold Core.setReg; split <;> (try split) <;> rfl
@[simp] theorem setReg_stackBufS (x : Core) (r : Fin 32) (w : Word) : (x.setReg r w).stackBufS = x.stackBufS := by
  unfold Core.setReg; split <;> (try split) <;> rfl
@[simp] theorem setReg_bank (x : Core) (r : Fin 32) (w : Word) : (x.setReg r w).bank = x.bank := by
  unfold Core.setReg; split <;> (try split) <;> rfl

/-- A register reads as it was written. -/
theorem reg_setReg_self (x : Core) (r : Fin 32) (w : Word) : (x.setReg r w).reg r = w := by
  unfold Core.setReg Core.reg
  by_cases h : r.val < 16
  · simp [h]
  · by_cases h2 : 24 ≤ r.val ∧ x.bank = true
    · simp [h, h2]
    · simp [h, h2]

/-- Writing a register leaves every other register alone. -/
theorem reg_setReg_other (x : Core) (r q : Fin 32) (w : Word) (hq : q ≠ r) : (x.setReg r w).reg q = x.reg q := by
  have hv : r.val ≠ q.val := fun e => hq (Fin.ext e.symm)
  unfold Core.setReg Core.reg
  by_cases h : r.val < 16
  · by_cases h' : q.val < 16
    · simp [h, h', Vector.getElem_set_ne, hv]
    · simp [h, h']
  · by_cases h2 : 24 ≤ r.val ∧ x.bank = true
    · by_cases h' : q.val < 16
      · simp [h, h2, h']
      · by_cases h2' : 24 ≤ q.val ∧ x.bank = true
        · have : r.val - 24 ≠ q.val - 24 := by omega
          simp [h, h2, h', h2', Vector.getElem_set_ne, this]
        · have hq24 : ¬ 24 ≤ q.val := fun e => h2' ⟨e, h2.2⟩
          simp [h, h2, h', hq24]
    · by_cases h' : q.val < 16
      · simp [h, h2, h']
      · by_cases h2' : 24 ≤ q.val ∧ x.bank = true
        · have hr24 : ¬ 24 ≤ r.val := fun e => h2 ⟨e, h2'.2⟩
          simp [h, hr24, h', h2']
        · have : r.val - 16 ≠ q.val - 16 := by omega
          simp [h, h2, h', h2', Vector.getElem_set_ne, this]

/-- A core's registers changed without its stack buffers and slots: the block record stays away. -/
theorem running_modCore {c : Fin 32} {s : State} {f : Core → Core} (h1 : (f s.cores[c]).slots = s.cores[c].slots)
    (h2 : (f s.cores[c]).slot = s.cores[c].slot) : (s.modCore c f).running c = s.running c := by
  simp only [State.running, modCore_cores_self, h1, h2]

/-- An instruction whose body changes only registers of its core. -/
theorem runInstr_regs {i : Instr} {h : Hdr} {s : State} {rs : List (Fin 32)} {priv : Bool} {body : M Next} {f : Core → Core}
    (hr : Ready i h rs s) (hp : priv = true → s.user h.core = false) (hb : body s = .ok .seq (s.modCore h.core f))
    (h1 : (f s.cores[h.core]).slots = s.cores[h.core].slots) (h2 : (f s.cores[h.core]).slot = s.cores[h.core].slot)
    (h3 : (f s.cores[h.core]).stackBufU = s.cores[h.core].stackBufU)
    (h4 : (f s.cores[h.core]).stackBufS = s.cores[h.core].stackBufS) :
    runInstr i h priv body s = s.after h.core f := by
  have hs := hr.settled
  refine runInstr_ok hr.issues hs.noWindow hp hb ?_ ?_ (by intro x hx; cases hx)
  · rw [running_modCore h1 h2]; exact hs.noBlock
  · refine hs.quiet.modCore h1 h2 ?_ ?_
    · rw [h3]; have := hs.roomU; omega
    · rw [h4]; have := hs.roomS; omega

/-- An instruction whose body writes one general register. -/
theorem runInstr_reg {i : Instr} {h : Hdr} {s : State} {rs : List (Fin 32)} {priv : Bool} {body : M Next} {r : Fin 32}
    {w : Word} (hr : Ready i h rs s) (hp : priv = true → s.user h.core = false)
    (hb : body s = .ok .seq (s.modCore h.core fun x => x.setReg r w)) :
    runInstr i h priv body s = s.afterReg h.core r w :=
  runInstr_regs hr hp hb (setReg_slots _ _ _) (setReg_slot _ _ _) (setReg_stackBufU _ _ _) (setReg_stackBufS _ _ _)

end Sys2Proof.Machine
end

