-- ==== Sys2Proof/Laws/Memory.lean ====
section
/-! SUPPORT. Memory as a sorted list of words: a read after a write, and the canonical form kept by every operation that
writes memory. -/

namespace Sys2Proof.Machine

open Sys2Proof

/-- Reading below the first address of a sorted list gives UNINIT. -/
theorem memGet_of_above {m : List (Nat × Word)} {lo : Nat} (h : memAbove (some lo) m = true) {a : Nat} (ha : a ≤ lo) :
    memGet m a = Word.uninit := by
  cases m with
  | nil => rfl
  | cons e r =>
    obtain ⟨b, v⟩ := e
    simp only [memAbove, Bool.and_eq_true, decide_eq_true_eq] at h
    have h1 : a ≠ b := by omega
    have h2 : a < b := by omega
    simp [memGet, h1, h2]

theorem memAbove_mono {m : List (Nat × Word)} {lo : Option Nat} {hi : Nat} (h : memAbove (some hi) m = true)
    (hl : ∀ l, lo = some l → l ≤ hi) : memAbove lo m = true := by
  cases m with
  | nil => cases lo <;> rfl
  | cons e r =>
    obtain ⟨b, v⟩ := e
    simp only [memAbove, Bool.and_eq_true, decide_eq_true_eq] at h ⊢
    refine ⟨⟨?_, h.1.2⟩, h.2⟩
    cases lo with
    | none => rfl
    | some l =>
      have := hl l rfl
      simp only [decide_eq_true_eq]
      omega

theorem memAbove_memPut {m : List (Nat × Word)} {lo : Option Nat} (h : memAbove lo m = true) (a : Nat) (w : Word)
    (ha : ∀ l, lo = some l → l < a) : memAbove lo (memPut m a w) = true := by
  induction m generalizing lo with
  | nil =>
    by_cases hw : w = Word.uninit
    · simp only [memPut, if_pos hw]
      exact h
    · cases lo with
      | none => simp [memPut, hw, memAbove]
      | some l => simp [memPut, hw, memAbove, ha l rfl]
  | cons e r ih =>
    obtain ⟨b, v⟩ := e
    have h0 := h
    simp only [memAbove, Bool.and_eq_true, decide_eq_true_eq] at h
    obtain ⟨⟨h1, h2⟩, h3⟩ := h
    by_cases hab : a < b
    · by_cases hw : w = Word.uninit
      · simp only [memPut, if_pos hab, if_pos hw]
        exact h0
      · simp only [memPut, if_pos hab, if_neg hw, memAbove, Bool.and_eq_true, decide_eq_true_eq]
        refine ⟨⟨?_, hw⟩, ⟨hab, h2⟩, h3⟩
        cases lo with
        | none => rfl
        | some l => simpa using ha l rfl
    · by_cases he : a = b
      · subst he
        by_cases hw : w = Word.uninit
        · simp only [memPut, if_neg hab, ↓reduceIte, if_pos hw]
          exact memAbove_mono h3 fun l hl => Nat.le_of_lt (ha l hl)
        · simp only [memPut, if_neg hab, ↓reduceIte, if_neg hw, memAbove, Bool.and_eq_true, decide_eq_true_eq]
          exact ⟨⟨h1, hw⟩, h3⟩
      · simp only [memPut, if_neg hab, if_neg he, memAbove, Bool.and_eq_true, decide_eq_true_eq]
        refine ⟨⟨h1, h2⟩, ih h3 fun l hl => ?_⟩
        cases hl
        omega

/-- A write keeps the canonical form. -/
theorem memWf_memPut {m : List (Nat × Word)} (h : memWf m = true) (a : Nat) (w : Word) : memWf (memPut m a w) = true :=
  memAbove_memPut h a w (by simp)

theorem memAbove_filter {m : List (Nat × Word)} {lo : Option Nat} (h : memAbove lo m = true) (p : Nat × Word → Bool) :
    memAbove lo (m.filter p) = true := by
  induction m generalizing lo with
  | nil => exact h
  | cons e r ih =>
    obtain ⟨b, v⟩ := e
    simp only [memAbove, Bool.and_eq_true, decide_eq_true_eq] at h
    by_cases hp : p (b, v) = true
    · rw [List.filter_cons_of_pos hp]
      simp only [memAbove, Bool.and_eq_true, decide_eq_true_eq]
      exact ⟨h.1, ih h.2⟩
    · rw [List.filter_cons_of_neg hp]
      refine memAbove_mono (ih h.2) fun l hl => ?_
      subst hl
      have h1 := h.1.1
      simp only [decide_eq_true_eq] at h1
      omega

/-- Forgetting words keeps the canonical form. -/
theorem memWf_filter {m : List (Nat × Word)} (h : memWf m = true) (p : Nat × Word → Bool) : memWf (m.filter p) = true :=
  memAbove_filter h p

/-- A read after a write to the same address gives the word written. -/
theorem memGet_memPut_self {m : List (Nat × Word)} {lo : Option Nat} (h : memAbove lo m = true) (a : Nat) (w : Word) :
    memGet (memPut m a w) a = w := by
  induction m generalizing lo with
  | nil =>
    by_cases hw : w = Word.uninit
    · simp [memPut, hw, memGet]
    · simp [memPut, hw, memGet]
  | cons e r ih =>
    obtain ⟨b, v⟩ := e
    simp only [memAbove, Bool.and_eq_true, decide_eq_true_eq] at h
    by_cases hab : a < b
    · by_cases hw : w = Word.uninit
      · have : a ≠ b := by omega
        simp [memPut, hab, hw, memGet, this]
      · simp [memPut, hab, hw, memGet]
    · by_cases he : a = b
      · subst he
        by_cases hw : w = Word.uninit
        · simp only [memPut, if_neg hab, hw, ↓reduceIte]
          exact memGet_of_above h.2 (Nat.le_refl a)
        · simp [memPut, hw, memGet]
      · simp only [memPut, if_neg hab, if_neg he, memGet]
        exact ih h.2

/-- A write leaves every other address alone. -/
theorem memGet_memPut_other {m : List (Nat × Word)} {lo : Option Nat} (h : memAbove lo m = true) {a b : Nat} (w : Word)
    (hb : b ≠ a) : memGet (memPut m a w) b = memGet m b := by
  induction m generalizing lo with
  | nil =>
    by_cases hw : w = Word.uninit
    · simp [memPut, hw]
    · by_cases hba : b < a <;> simp [memPut, hw, memGet, hb, hba]
  | cons e r ih =>
    obtain ⟨d, v⟩ := e
    simp only [memAbove, Bool.and_eq_true, decide_eq_true_eq] at h
    by_cases had : a < d
    · by_cases hw : w = Word.uninit
      · simp only [memPut, if_pos had, if_pos hw]
      · simp only [memPut, if_pos had, if_neg hw, memGet, if_neg hb]
        by_cases hba : b < a
        · have h1 : b ≠ d := by omega
          have h2 : b < d := by omega
          simp [hba, h1, h2]
        · simp [hba]
    · by_cases he : a = d
      · subst he
        by_cases hw : w = Word.uninit
        · simp only [memPut, if_neg had, ↓reduceIte, if_pos hw, memGet, if_neg hb]
          by_cases hba : b < a
          · simp only [if_pos hba]
            exact memGet_of_above h.2 (by omega)
          · simp [hba]
        · simp [memPut, hw, memGet, hb]
      · simp only [memPut, if_neg had, if_neg he, memGet]
        rw [ih h.2]

/-- A store by any agent keeps the canonical form. -/
theorem writePhys_wf {s : State} (h : memWf s.mem = true) (pa : Nat) (w : Word) : memWf (s.writePhys pa w).mem = true := by
  simp only [State.writePhys]
  split
  · exact memWf_memPut h pa w
  · split <;> exact h

/-- A read changes no memory. -/
@[simp] theorem readPhys_mem (s : State) (pa : Nat) : (s.readPhys pa).2.mem = s.mem := by
  simp only [State.readPhys]
  split
  · rfl
  · split <;> rfl

/-- A read answers what `peek` shows. -/
theorem readPhys_peek (s : State) (pa : Nat) : (s.readPhys pa).1 = s.peek pa := by
  simp only [State.readPhys, State.peek]
  split
  · rfl
  · split <;> rfl

end Sys2Proof.Machine
end

