-- ==== Sys2Proof/Laws/Tidy.lean ====
section
/-! SUPPORT. What the bookkeeping of caches, ports and translation can do, said once: it changes caches, TLBs and port queues, and
neither memory nor the stores and cards on their way to it. -/

namespace Sys2Proof.Machine

open Sys2Proof

theorem Core.calm_refl (x : Core) : x.calm x := rfl

theorem Core.calm_trans {x y z : Core} (h1 : x.calm y) (h2 : y.calm z) : x.calm z := by
  unfold Core.calm at *
  refine h2.trans ?_
  rw [h1]

/-- The second state is the first but for caches, TLBs and port queues; the stores and cards on their way to memory are the same. -/
structure State.Tidy (s t : State) : Prop where
  rest : t = { s with cores := t.cores, clusters := t.clusters, ports := t.ports, stale := t.stale, unmapped := t.unmapped
                      drawn := t.drawn }
  cores : ∀ c : Fin 32, s.cores[c].calm t.cores[c]
  bufs : ∀ c : Fin 32, t.cores[c].storeBuf = s.cores[c].storeBuf
  cards : ∀ k : Fin 8, t.clusters[k].cardQueue = s.clusters[k].cardQueue
  cap : t.ports[0].cap = s.ports[0].cap

namespace State.Tidy

theorem refl (s : State) : s.Tidy s := ⟨rfl, fun _ => rfl, fun _ => rfl, fun _ => rfl, rfl⟩

theorem trans {s t u : State} (h1 : s.Tidy t) (h2 : t.Tidy u) : s.Tidy u := by
  refine ⟨?_, fun c => Core.calm_trans (h1.cores c) (h2.cores c), fun c => (h2.bufs c).trans (h1.bufs c),
    fun k => (h2.cards k).trans (h1.cards k), h2.cap.trans h1.cap⟩
  refine h2.rest.trans ?_
  rw [h1.rest]

theorem foldl {α : Type} {f : State → α → State} (hf : ∀ (s : State) (a : α), s.Tidy (f s a)) (l : List α) (s : State) :
    s.Tidy (l.foldl f s) := by
  induction l generalizing s with
  | nil => exact refl s
  | cons a l ih => exact (hf s a).trans (ih _)

theorem mem {s t : State} (h : s.Tidy t) : t.mem = s.mem := by rw [h.rest]

theorem inDram {s t : State} (h : s.Tidy t) (pa : Nat) : t.inDram pa = s.inDram pa := by
  simp only [State.inDram, h.cap]

theorem mapped {s t : State} (h : s.Tidy t) (pa : Nat) : t.mapped pa = s.mapped pa := by
  simp only [State.mapped, h.inDram]

/-- The same word at every address. -/
theorem peek {s t : State} (h : s.Tidy t) (pa : Nat) : t.peek pa = s.peek pa := by
  simp only [State.peek, h.mapped, h.mem]

end State.Tidy

/-! ### Updates -/

section step
variable {s t : State} (h : s.Tidy t)
include h

theorem State.Tidy.modCore (c : Fin 32) {f : Core → Core} (hf : t.cores[c].calm (f t.cores[c]))
    (hb : (f t.cores[c]).storeBuf = t.cores[c].storeBuf) : s.Tidy (t.modCore c f) := by
  refine h.trans ⟨rfl, fun d => ?_, fun d => ?_, fun _ => rfl, rfl⟩ <;> by_cases hd : d = c
  · subst hd
    rw [modCore_cores_self]
    exact hf
  · rw [modCore_cores_other t c f d hd]
    exact Core.calm_refl _
  · subst hd
    rw [modCore_cores_self]
    exact hb
  · rw [modCore_cores_other t c f d hd]

theorem State.Tidy.modCluster (k : Fin 8) {f : Cluster → Cluster}
    (hf : (f t.clusters[k]).cardQueue = t.clusters[k].cardQueue) : s.Tidy (t.modCluster k f) := by
  refine h.trans ⟨rfl, fun _ => rfl, fun _ => rfl, fun d => ?_, rfl⟩
  by_cases hd : d = k
  · subst hd
    rw [modCluster_clusters_self]
    exact hf
  · rw [modCluster_clusters_other t k f d hd]

theorem State.Tidy.modPort (p : Fin 4) {f : Port → Port} (hf : (f t.ports[p]).cap = t.ports[p].cap) :
    s.Tidy (t.modPort p f) := by
  refine h.trans ⟨rfl, fun _ => rfl, fun _ => rfl, fun _ => rfl, ?_⟩
  by_cases hd : (0 : Fin 4) = p
  · subst hd
    show (t.modPort 0 f).ports[(0 : Fin 4)].cap = _
    rw [modPort_ports_self]
    exact hf
  · show (t.modPort p f).ports[(0 : Fin 4)].cap = _
    rw [modPort_ports_other t p f 0 hd]
    rfl

theorem State.Tidy.setStale (l : List (Nat × Word)) : s.Tidy { t with stale := l } :=
  h.trans ⟨rfl, fun _ => rfl, fun _ => rfl, fun _ => rfl, rfl⟩

theorem State.Tidy.drawFree : s.Tidy (Machine.drawFree t).2 := h.trans ⟨rfl, fun _ => rfl, fun _ => rfl, fun _ => rfl, rfl⟩

theorem State.Tidy.readPhys (pa : Nat) : s.Tidy (t.readPhys pa).2 := by
  unfold State.readPhys
  split
  · exact h
  · split
    · exact h
    · exact h.trans ⟨rfl, fun _ => rfl, fun _ => rfl, fun _ => rfl, rfl⟩

/-! ### Leaving the L2 -/

theorem State.Tidy.invalL1 (k : Fin 8) (x : BitVec 36) : s.Tidy (t.invalL1 k x) := by
  refine h.trans (.foldl (fun s j => ?_) _ t)
  exact State.Tidy.modCore (.refl s) _ rfl rfl

theorem State.Tidy.ackWrite (k : Fin 8) (r : PortReq) : s.Tidy (t.ackWrite k r) := by
  unfold State.ackWrite
  refine State.Tidy.setStale (State.Tidy.modCluster (h.modPort _ rfl) k ?_) _
  repeat' split
  all_goals rfl

theorem State.Tidy.awaitWrite (k : Fin 8) (x : BitVec 36) : s.Tidy (t.awaitWrite k x) := by
  unfold State.awaitWrite
  split
  · exact h.ackWrite _ _
  · exact h

theorem State.Tidy.dropSector (k : Fin 8) (x : BitVec 36) : s.Tidy (t.dropSector k x) := by
  unfold State.dropSector
  dsimp only
  split
  · exact h
  · refine State.Tidy.invalL1 (State.Tidy.modPort (State.Tidy.modCluster ?_ _ rfl) _ rfl) _ _
    split
    · exact (h.modPort _ rfl).modCluster _ rfl
    · exact h.awaitWrite _ _
    · exact h

theorem State.Tidy.dropOthers (k : Option (Fin 8)) (x : BitVec 36) : s.Tidy (t.dropOthers k x) := by
  refine h.trans (.foldl (fun s j => ?_) _ t)
  split
  · exact .refl s
  · exact (State.Tidy.refl s).dropSector j x

theorem State.Tidy.offcutRoom (k : Fin 8) : s.Tidy (t.offcutRoom k) := by
  unfold State.offcutRoom
  dsimp only
  split
  · exact h
  · split
    · exact h.modCluster _ rfl
    · split
      · exact (h.awaitWrite _ _).modCluster _ rfl
      · exact h

theorem State.Tidy.evictSector (k : Fin 8) (x : BitVec 36) (st : SectorState) : s.Tidy (t.evictSector k x st) := by
  have hp (o : OffcutState) : s.Tidy
      (((t.offcutRoom k).modCluster k fun c => { c with offcut := c.offcut ++ [(x, o)] }).invalL1 k x) :=
    ((h.offcutRoom k).modCluster _ rfl).invalL1 _ _
  unfold State.evictSector
  cases st
  · exact h
  · exact h
  · exact hp _
  · exact (hp _).modPort _ rfl
  · exact hp _

/-! ### The directory -/

theorem State.Tidy.writeBack (k : Fin 8) (x : BitVec 36) : s.Tidy (t.writeBack k x) := by
  unfold State.writeBack
  dsimp only
  split
  · refine State.Tidy.setStale (State.Tidy.modCluster (h.modPort _ rfl) k ?_) _
    split <;> rfl
  · exact h

theorem State.Tidy.recallBlock (b : BitVec 34) : s.Tidy (t.recallBlock b) :=
  h.trans (.foldl (fun s _ => .foldl (fun s _ => ((State.Tidy.refl s).writeBack _ _).dropSector _ _) _ s) _ t)

theorem State.Tidy.dirEnter (b : BitVec 34) : s.Tidy (t.dirEnter b) := by
  unfold State.dirEnter
  dsimp only
  split
  · exact h
  · split
    · exact (h.modPort _ rfl).modPort _ rfl
    · refine State.Tidy.modPort (State.Tidy.trans (h.modPort _ rfl).drawFree (.foldl (fun s _ => ?_) _ _)) _ rfl
      exact (State.Tidy.refl s).recallBlock _

/-! ### Entering the L2 -/

theorem State.Tidy.endFill (k : Fin 8) (x : BitVec 36) : s.Tidy (t.endFill k x) := by
  unfold State.endFill
  refine State.Tidy.trans ((h.modPort _ rfl).modCluster _ rfl) (.foldl (fun s _ => ?_) _ _)
  refine State.Tidy.modCore (.refl s) _ ?_ ?_ <;> split <;> rfl

theorem State.Tidy.waitWay (k : Fin 8) (b : BitVec 34) : s.Tidy (t.waitWay k b) := by
  unfold State.waitWay
  dsimp only
  split
  · exact h
  · split
    · exact h
    · refine h.trans (.foldl (fun s _ => ?_) _ _)
      split
      · exact (State.Tidy.refl s).endFill _ _
      · exact .refl s

theorem State.Tidy.placeSector (k : Fin 8) (x : BitVec 36) (st : SectorState) (want : Want) :
    s.Tidy (t.placeSector k x st want) := by
  unfold State.placeSector
  dsimp only
  split
  · exact h.modCluster _ rfl
  · have h2 := (h.dirEnter (sectorBlk x)).waitWay k (sectorBlk x)
    split
    · exact h2
    · refine State.Tidy.modCluster ?_ _ rfl
      split
      · exact h2
      · exact State.Tidy.modCluster (h2.trans (.foldl (fun s _ => (State.Tidy.refl s).evictSector _ _ _) _ _)) _ rfl

theorem State.Tidy.issueClean (k : Fin 8) (x : BitVec 36) : s.Tidy (t.issueClean k x) := by
  unfold State.issueClean
  split
  · exact (h.modCluster _ rfl).modPort _ rfl
  · exact h

theorem State.Tidy.keepCap (k : Fin 8) : s.Tidy (t.keepCap k) := by
  unfold State.keepCap
  split
  · split
    · exact h.issueClean _ _
    · exact h
  · exact h

theorem State.Tidy.roomDirty (k : Fin 8) (n : Nat) : s.Tidy (State.roomDirty k n t) := by
  induction n generalizing t with
  | zero => exact h
  | succ n ih =>
    unfold State.roomDirty
    dsimp only
    split
    · exact h
    · split
      · exact ih (h.awaitWrite _ _)
      · split
        · exact ih ((h.issueClean _ _).awaitWrite _ _)
        · exact h

theorem State.Tidy.markDirty (k : Fin 8) (x : BitVec 36) : s.Tidy (t.markDirty k x) := by
  unfold State.markDirty
  dsimp only
  refine State.Tidy.modCluster ?_ _ rfl
  split
  · exact h.roomDirty _ _
  · exact h

theorem State.Tidy.recall (k : Fin 8) (x : BitVec 36) (o : OffcutState) (want : Want) : s.Tidy (t.recall k x o want) := by
  unfold State.recall
  dsimp only
  refine State.Tidy.keepCap (State.Tidy.modCluster (State.Tidy.placeSector ?_ _ _ _ _) _ rfl) _
  split
  · exact State.Tidy.roomDirty ((h.modCluster _ rfl).modPort _ rfl) _ _
  · exact h.modCluster _ rfl

theorem State.Tidy.ite {p : Prop} [Decidable p] {u : State} (h2 : s.Tidy u) : s.Tidy (if p then u else t) := by
  split <;> assumption

theorem State.Tidy.l2Request (k : Fin 8) (x : BitVec 36) (want : Want) : s.Tidy (t.l2Request k x want) := by
  unfold State.l2Request
  split
  · split
    · exact (h.modCluster _ rfl).modPort _ rfl
    · exact h
  · split
    · exact h.recall _ _ _ _
    · refine State.Tidy.ite (State.Tidy.placeSector ?_ _ _ _ _) (State.Tidy.modPort (State.Tidy.placeSector ?_ _ _ _ _) _ rfl) <;>
        (cases t.owner x with
          | none => exact h
          | some j => exact h.writeBack _ _)

/-! ### The grain prefetcher -/

theorem State.Tidy.prefetch (k : Fin 8) (x : BitVec 36) : s.Tidy (t.prefetch k x) := by
  unfold State.prefetch
  split
  · exact h
  · exact h.l2Request _ _ _

theorem State.Tidy.nextSector (k : Fin 8) (pa : BitVec 40) (p : Nat × Nat) : s.Tidy (t.nextSector k pa p) := by
  unfold State.nextSector
  dsimp only
  split
  · exact h.prefetch _ _
  · exact h

theorem State.Tidy.grain (c : Fin 32) (slot : Fin 64) (r : BitVec 39) (pa : BitVec 40) (p : Nat × Nat) :
    s.Tidy (t.grain c slot r pa p) := by
  unfold State.grain
  dsimp only
  split
  · split
    · exact h.nextSector _ _ _
    · exact h
  · generalize hu : t.modCluster _ _ = u
    have h2 : s.Tidy u := hu ▸ h.modCluster _ rfl
    repeat' split
    all_goals first
      | (refine h2.trans (State.Tidy.foldl (fun s x => ?_) _ u)
         exact (State.Tidy.refl s).prefetch _ _)
      | exact h2.nextSector _ _ _
      | exact h2

theorem State.Tidy.l2Read (c : Fin 32) (pa : BitVec 40) (b : Bool) (p : Nat × Nat) : s.Tidy (t.l2Read c pa b p) := by
  unfold State.l2Read
  dsimp only
  split
  · exact (h.l2Request _ _ _).grain _ _ _ _ _
  · exact h.l2Request _ _ _

theorem State.Tidy.cacheRead (c : Fin 32) (pa : BitVec 40) (b : Bool) (p : Nat × Nat) : s.Tidy (t.cacheRead c pa b p) := by
  unfold State.cacheRead
  dsimp only
  split
  · split
    · exact h.l2Read _ _ _ _
    · exact (h.l2Read _ _ _ _).modCore _ rfl rfl
  · exact h

/-! ### Stores and translation -/

theorem State.Tidy.noteStale (a : Nat) (w : Word) : s.Tidy (t.noteStale a w) := by
  unfold State.noteStale
  split
  · exact h
  · split
    · exact h
    · exact h.setStale _

theorem State.Tidy.coreRead (c : Fin 32) (pa : BitVec 40) : s.Tidy (t.coreRead c pa).2 := by
  unfold State.coreRead
  split
  · exact h
  · exact h.readPhys _

theorem State.Tidy.readTables (c : Fin 32) (l : List Nat) : s.Tidy (t.readTables c l) := by
  refine h.trans (.foldl (fun s a => ?_) _ t)
  dsimp only
  split
  · exact ((State.Tidy.refl s).readPhys a).l2Request _ _ _
  · exact (State.Tidy.refl s).readPhys a

theorem State.Tidy.fillTlb (c : Fin 32) (acc : Acc) (e : TlbEntry) (met : WalkMet) : s.Tidy (t.fillTlb c acc e met) := by
  unfold State.fillTlb
  refine State.Tidy.modCluster (h.modCore c ?_ ?_) _ rfl <;> split <;> rfl

/-- A translation changes TLBs, walk caches, and what its table reads bring into the L2. -/
theorem State.Tidy.translate (c : Fin 32) (w : Fin 2) (user : Bool) (acc : Acc) (va : BitVec 48) :
    s.Tidy (translate t c w user acc va).2 := by
  have hf (cache : WalkMet) : s.Tidy (match translateWalk t w user cache acc va with
      | .error f => ((.error f, t.readTables c (walkPath t w cache va.toNat)) : Except TrFault Tr × State)
      | .ok (x, met) => (.ok x, (t.readTables c (walkPath t w cache va.toNat)).fillTlb c acc x.entry met)).2 := by
    split
    · exact h.readTables _ _
    · exact (h.readTables _ _).fillTlb _ _ _ _
  unfold Machine.translate
  dsimp only
  split
  · split
    · exact h
    · exact hf {}
  · split
    · rename_i heq
      exact (congrArg Prod.snd heq) ▸ hf _
    · exact hf {}

end step

end Sys2Proof.Machine
end

