-- ==== Sys2Proof/Laws/Calm.lean ====
section
/-! SUPPORT. What the operations on memory can do, said once: they change memory, caches, store buffers, TLBs and port queues, and
nothing else; and they keep the canonical form of memory. -/

namespace Sys2Proof.Machine

open Sys2Proof

namespace State.Calm

theorem refl (s : State) : s.Calm s := ⟨rfl, fun _ => rfl, id⟩

theorem trans {s t u : State} (h1 : s.Calm t) (h2 : t.Calm u) : s.Calm u := by
  refine ⟨?_, fun c => Core.calm_trans (h1.cores c) (h2.cores c), fun h => h2.wf (h1.wf h)⟩
  refine h2.rest.trans ?_
  rw [h1.rest]

theorem ite {s t u : State} {p : Prop} [Decidable p] (h1 : s.Calm t) (h2 : s.Calm u) : s.Calm (if p then t else u) := by
  split <;> assumption

theorem foldl {α : Type} {f : State → α → State} (hf : ∀ (s : State) (a : α), s.Calm (f s a)) (l : List α) (s : State) :
    s.Calm (l.foldl f s) := by
  induction l generalizing s with
  | nil => exact refl s
  | cons a l ih => exact (hf s a).trans (ih _)

end State.Calm

/-- Bookkeeping changes no memory, so it keeps its form. -/
theorem State.Tidy.calm {s t : State} (h : s.Tidy t) : s.Calm t := by
  refine ⟨?_, h.cores, fun hw => by rw [h.mem]; exact hw⟩
  conv => lhs; rw [h.rest]
  rw [← h.mem]

section step
variable {s t : State} (h : s.Calm t)
include h

theorem State.Calm.modCore (c : Fin 32) {f : Core → Core} (hf : t.cores[c].calm (f t.cores[c])) : s.Calm (t.modCore c f) := by
  refine h.trans ⟨rfl, fun d => ?_, id⟩
  by_cases hd : d = c
  · subst hd
    rw [modCore_cores_self]
    exact hf
  · rw [modCore_cores_other t c f d hd]
    exact Core.calm_refl _

theorem State.Calm.modCluster (k : Fin 8) (f : Cluster → Cluster) : s.Calm (t.modCluster k f) :=
  h.trans ⟨rfl, fun _ => rfl, id⟩

theorem State.Calm.writePhys (pa : Nat) (w : Word) : s.Calm (t.writePhys pa w) := by
  unfold State.writePhys
  split
  · exact h.trans ⟨rfl, fun _ => rfl, fun h => memWf_memPut h pa w⟩
  · split
    · exact h
    · exact h.trans ⟨rfl, fun _ => rfl, id⟩

theorem State.Calm.readPhys (pa : Nat) : s.Calm (t.readPhys pa).2 := h.trans ((State.Tidy.refl t).readPhys pa).calm

theorem State.Calm.storeVisible (k : Fin 8) (pa : BitVec 40) (w : Word) : s.Calm (t.storeVisible k pa w) := by
  unfold State.storeVisible
  dsimp only
  split
  · exact State.Calm.writePhys (h.trans ((((((State.Tidy.refl t).dropOthers _ _).l2Request _ _ _).noteStale _ _).markDirty
      _ _).keepCap _).calm) _ _
  · exact h.writePhys _ _

theorem State.Calm.storeWatched (c : Fin 32) (e : StoreEntry) : s.Calm (t.storeWatched c e) := by
  unfold State.storeWatched
  dsimp only
  split
  · exact (h.storeVisible _ _ _).trans ((State.Tidy.refl _).grain _ _ _ _ _).calm
  · exact h.storeVisible _ _ _

theorem State.Calm.dmaWrite (pa : Nat) (w : Word) : s.Calm (t.dmaWrite pa w) := by
  unfold State.dmaWrite
  dsimp only
  refine State.Calm.writePhys ?_ _ _
  split
  · exact h.trans (((State.Tidy.refl t).dropOthers _ _).setStale _).calm
  · exact h

theorem State.Calm.dmaWrites (ws : List Word) (pa : Nat) : s.Calm (t.dmaWrites pa ws) := by
  induction ws generalizing t pa with
  | nil => exact h
  | cons w ws ih => exact ih (h.dmaWrite pa w) _

theorem State.Calm.setCard (w : Fin 2) (card : Nat) : s.Calm (t.setCard w card) := (h.readPhys _).writePhys _ _

theorem State.Calm.drainCard (k : Fin 8) : s.Calm (t.drainCard k) := by
  unfold State.drainCard
  split
  · exact h
  · exact (h.setCard _ _).modCluster _ _

theorem State.Calm.queueCard (k : Fin 8) (e : Fin 2 × Nat) : s.Calm (t.queueCard k e) := by
  unfold State.queueCard
  dsimp only
  refine State.Calm.modCluster ?_ _ _
  split
  · exact h
  · exact h.drainCard _

theorem State.Calm.drainStore (c : Fin 32) : s.Calm (t.drainStore c) := by
  unfold State.drainStore
  split
  · exact h
  · dsimp only
    refine State.Calm.storeWatched ?_ _ _
    split
    · exact State.Calm.queueCard (h.modCore _ (by rfl)) _ _
    · exact h.modCore _ (by rfl)

/-- Making a core's stores visible changes no register of any core. -/
theorem State.Calm.drainStores (c : Fin 32) : s.Calm (t.drainStores c) :=
  h.trans (.foldl (fun s _ => (State.Calm.refl s).drainStore c) _ t)

theorem State.Calm.pushStore (c : Fin 32) (e : StoreEntry) : s.Calm (t.pushStore c e) := by
  unfold State.pushStore
  dsimp only
  refine State.Calm.modCore ?_ c (by rfl)
  split
  · exact h
  · exact h.drainStore _

theorem State.Calm.cacheRead (c : Fin 32) (pa : BitVec 40) (b : Bool) (p : Nat × Nat) : s.Calm (t.cacheRead c pa b p) :=
  h.trans ((State.Tidy.refl t).cacheRead c pa b p).calm

theorem State.Calm.coreRead (c : Fin 32) (pa : BitVec 40) : s.Calm (t.coreRead c pa).2 :=
  h.trans ((State.Tidy.refl t).coreRead c pa).calm

theorem State.Calm.translate (c : Fin 32) (w : Fin 2) (user : Bool) (acc : Acc) (va : BitVec 48) :
    s.Calm (translate t c w user acc va).2 := h.trans ((State.Tidy.refl t).translate c w user acc va).calm

end step

/-! ### What stays -/

section calm
variable {s t : State} (h : s.Calm t) (c : Fin 32)
include h

theorem State.Calm.lo : t.cores[c].lo = s.cores[c].lo := by rw [h.cores c]
theorem State.Calm.hi : t.cores[c].hi = s.cores[c].hi := by rw [h.cores c]
theorem State.Calm.bank : t.cores[c].bank = s.cores[c].bank := by rw [h.cores c]
theorem State.Calm.slots : t.cores[c].slots = s.cores[c].slots := by rw [h.cores c]
theorem State.Calm.slot : t.cores[c].slot = s.cores[c].slot := by rw [h.cores c]
theorem State.Calm.stackBufU : t.cores[c].stackBufU = s.cores[c].stackBufU := by rw [h.cores c]
theorem State.Calm.stackBufS : t.cores[c].stackBufS = s.cores[c].stackBufS := by rw [h.cores c]
theorem State.Calm.flipped : t.cores[c].flipped = s.cores[c].flipped := by rw [h.cores c]
theorem State.Calm.reg (r : Fin 32) : t.cores[c].reg r = s.cores[c].reg r := by
  rw [h.cores c]
  rfl
theorem State.Calm.ownsUpper : t.cores[c].ownsUpper = s.cores[c].ownsUpper := by
  rw [h.cores c]
  rfl
theorem State.Calm.worlds : t.worlds = s.worlds := by rw [h.rest]
theorem State.Calm.jig : t.jig = s.jig := by rw [h.rest]
theorem State.Calm.imt : t.imt = s.imt := by rw [h.rest]
theorem State.Calm.fv : t.fv = s.fv := by rw [h.rest]
theorem State.Calm.running : t.running c = s.running c := by
  simp only [State.running, h.slots c, h.slot c]
theorem State.Calm.world : t.world c = s.world c := by simp only [State.world, h.running c]
theorem State.Calm.user : t.user c = s.user c := by simp only [State.user, h.lo c]

end calm

end Sys2Proof.Machine
end

