-- ==== Sys2Proof/Laws/Still.lean ====
section
/-! SUPPORT. A store that becomes visible, said once: one word of memory changes, beside the bookkeeping of caches and ports. -/

namespace Sys2Proof.Machine

open Sys2Proof

/-- A store that becomes visible changes one word of memory, and otherwise only the bookkeeping of caches and ports (R84). -/
theorem storeVisible_tidy (s : State) (k : Fin 8) (pa : BitVec 40) (w : Word) :
    ∃ u : State, s.Tidy u ∧ s.storeVisible k pa w = u.writePhys pa.toNat w := by
  unfold State.storeVisible
  dsimp only
  split
  · have h1 := ((State.Tidy.refl s).dropOthers (some k) (sectorOf pa.toNat)).l2Request k (sectorOf pa.toNat) .demand
    exact ⟨_, ((h1.noteStale pa.toNat w).markDirty k (sectorOf pa.toNat)).keepCap k, rfl⟩
  · exact ⟨s, .refl s, rfl⟩

/-- The same of a store that the prefetcher watches: what it prefetches comes after. -/
theorem storeWatched_tidy (s : State) (c : Fin 32) (e : StoreEntry) :
    ∃ u : State, s.Tidy u ∧ (u.writePhys e.pa.toNat e.word).Tidy (s.storeWatched c e) := by
  obtain ⟨u, hu, hs⟩ := storeVisible_tidy s (clusterOf c) e.pa e.word
  refine ⟨u, hu, ?_⟩
  unfold State.storeWatched
  dsimp only
  rw [hs]
  split
  · exact (State.Tidy.refl _).grain _ _ _ _ _
  · exact .refl _

/-- A core's load of a mapped address reads the same word through two states with the same memory. -/
theorem State.Tidy.coreRead_same {s t : State} (h : s.Tidy t) {pa : BitVec 40} (hm : s.mapped pa.toNat = true) (c : Fin 32) :
    t.coreRead c pa = ((s.coreRead c pa).1, t) := by
  unfold State.coreRead
  rw [h.bufs c]
  cases s.cores[c].storeBuf.reverse.find? (fun e => e.pa == pa) with
  | some e => rfl
  | none => simp only [State.readPhys, h.mapped, hm, if_true, h.mem]

end Sys2Proof.Machine
end

