-- ==== Sys2Proof/Laws/Access.lean ====
section
/-! SUPPORT. Loads and stores in ordinary memory by a held translation, said once: what the accesses of Access.lean do where
the read barrier finds nothing to do. -/

namespace Sys2Proof.Machine

open Sys2Proof

/-- Ordinary memory lies below the register blocks. -/
theorem inDram_notRegs {s : State} {pa : Nat} (h : s.inDram pa = true) : inRegs pa = false ∧ inCutMem pa = false := by
  have h1 : portWords s.ports[0].cap ≤ 2 ^ 31 := by
    unfold portWords
    split <;> decide
  have h2 : pa < 4 * portWords s.ports[0].cap := by simpa [State.inDram] using h
  have h3 : pa < 4 * 2 ^ 31 := by omega
  constructor
  · simp only [inRegs, decide_eq_false_iff_not]
    omega
  · simp only [inCutMem, Bool.and_eq_false_iff, decide_eq_false_iff_not]
    omega

section
variable {s s' : State} {c : Fin 32} {va : BitVec 48} {t : Tr} {w : Word} {acc : Acc}

/-- A held translation answers and changes nothing. -/
theorem Reaches.xlSrc (h : Reaches acc s c va t) (src : Nat) : Machine.xlSrc c acc va src s = .ok t s := by
  unfold Machine.xlSrc
  rw [m_bind_ok s s s (m_get s), m_bind]
  have : xlTry c (s.world c) (s.user c) acc va s = .ok (.ok t) s := by simp only [xlTry, h.held]
  rw [this]
  rfl

theorem Reaches.xl (h : Reaches acc s c va t) : Machine.xl c acc va s = .ok t s := h.xlSrc 0

/-- A load of a reached word delivers what the core sees. -/
theorem Reaches.loadMem (h : Reaches acc s c va t) (hn : acc ≠ .write) (stream : Bool) :
    Machine.loadMem c t va stream s = .ok (s.sees c t va) (s.loaded c t va stream) := by
  unfold Machine.loadMem State.sees State.loaded
  cases hh : s.cores[c].stackHit va with
  | some w => simp
  | none =>
    have hd := inDram_notRegs h.dram
    have hm : s.mapped t.pa.toNat = true := by simp only [State.mapped, h.dram, Bool.true_or]
    have hs := (State.Tidy.refl s).cacheRead c t.pa stream t.page
    have hc := hs.cores c
    have h1 : (s.cacheRead c t.pa stream t.page).cores[c].waits = false := by rw [hc]; exact (h.come hn).1
    have h2 : sectorOf t.pa.toNat ∉ (s.cacheRead c t.pa stream t.page).cores[c].lostReads := by rw [hc]; exact (h.come hn).2
    simp only [State.cutHidden, hd.2, Bool.false_and, Bool.false_eq_true, if_false, h.plain, h.dram, Bool.not_true, Bool.or_self,
      h1, h2, Option.getD_none, Option.isSome_none, hs.coreRead_same hm]

/-- A store to a reached word. -/
theorem Reaches.storeMem (h : Reaches acc s c va t) (w : Word) (card : Option (Fin 2 × Nat)) :
    Machine.storeMem c t va w card s = .ok () (s.stored c t va w card) := by
  unfold Machine.storeMem State.stored
  cases hh : s.cores[c].stackHit va with
  | some w => simp
  | none =>
    have hd := inDram_notRegs h.dram
    simp only [State.cutHidden, hd.2, Bool.false_and, Bool.false_eq_true, if_false, h.plain, Option.isSome_none]

/-- A load changes what its caches do, and no memory. -/
theorem loaded_tidy (s : State) (c : Fin 32) (t : Tr) (va : BitVec 48) (b : Bool) : s.Tidy (s.loaded c t va b) := by
  unfold State.loaded
  split
  · exact .refl s
  · exact (State.Tidy.refl s).cacheRead _ _ _ _

theorem loaded_calm (s : State) (c : Fin 32) (t : Tr) (va : BitVec 48) (b : Bool) : s.Calm (s.loaded c t va b) :=
  (loaded_tidy s c t va b).calm

/-- Boards of the core's map read the same in calm states. -/
theorem State.Calm.condemned {s t : State} (h : s.Calm t) (c : Fin 32) (w : Fin 2) (va : BitVec 48) :
    t.condemned c w va = s.condemned c w va := by
  have hb : t.cores[c].bmap = s.cores[c].bmap := by rw [h.cores c]
  simp only [State.condemned, h.worlds, Core.boardCond, hb]

theorem State.Calm.quietWord {s t : State} (h : s.Calm t) {c : Fin 32} {w : Word} (hw : s.quietWord c w) : t.quietWord c w := by
  unfold State.quietWord at *
  rw [h.condemned, h.world]
  exact hw

/-- A pointer outside condemned boards is kept. -/
theorem resolveWord_quiet {v : Via} {w : Word} {s : State}
    (h : (isPtrTag w.tag && s.condemned v.core v.world (fld w.datum 0 48)) = false) : resolveWord v w s = .ok w s := by
  have hs : s.suspect v w = false := h
  unfold resolveWord
  rw [m_bind_ok s s s (m_get s)]
  simp only [hs, Bool.false_eq_true, if_false, m_pure]

/-- The barrier keeps a quiet word. -/
theorem barrierWord_quiet {v : Via} {n : Nat} {va : BitVec 48} {w : Word} {s : State} (h81 : w.tag ≠ 0x81)
    (h : (isPtrTag w.tag && s.condemned v.core v.world (fld w.datum 0 48)) = false) :
    barrierWord v n va w s = .ok (va, w) s := by
  cases n with
  | zero => rfl
  | succ n =>
    have h2 : resolveWord v.copier w s = .ok w s := by
      refine resolveWord_quiet ?_
      unfold Via.copier
      split <;> exact h
    unfold barrierWord
    rw [m_bind_ok s s s (m_get s)]
    simp only [h81, Bool.false_and, decide_false, Bool.false_eq_true, if_false]
    rw [m_bind_ok s s w h2]
    simp only [if_true, m_pure]

/-- A load through the barrier of a word with which it does nothing. -/
theorem Reaches.rb (h : Reaches acc s c va t) (hn : acc ≠ .write) (stream : Bool) (hq : s.quietWord c (s.sees c t va)) :
    Machine.rb c t va stream s = .ok (va, s.sees c t va) (s.loaded c t va stream) := by
  have hd := inDram_notRegs h.dram
  have hl := (loaded_calm s c t va stream).quietWord hq
  unfold Machine.rb rbLoad
  rw [m_ite, if_neg (by simp [hd.1]), m_bind_ok s _ _ (h.loadMem hn stream), m_bind_ok _ _ _ (m_get _)]
  simp only [h.plain, Bool.false_eq_true, if_false]
  exact barrierWord_quiet hl.1 hl.2

/-- A load at an address (R123). -/
theorem loadAt_ok (h : Loads s c va w s') (hw : lchkWord w = none) : loadAt c va false s = .ok w s' := by
  obtain ⟨⟨t, hr, rfl, rfl⟩, hq⟩ := h
  unfold loadAt
  rw [m_bind_ok s s t hr.xl, m_bind_ok s _ _ (hr.rb (by decide) false hq)]
  simp [hw, raiseIf, m_bind]

theorem loadAt_refused {x : Cause} (h : Loads s c va w s') (hw : lchkWord w = some x) :
    loadAt c va false s = .error (.exc x none none) s' := by
  obtain ⟨⟨t, hr, rfl, rfl⟩, hq⟩ := h
  unfold loadAt
  rw [m_bind_ok s s t hr.xl, m_bind_ok s _ _ (hr.rb (by decide) false hq)]
  simp [hw, raiseIf, m_bind]

/-- The header of an object that the barrier leaves where it is. -/
theorem objHead_ok {p : Word} (h : Loads s c (ptrAddr p) w s') : objHead c p s = .ok (ptrAddr p, w) s' := by
  obtain ⟨⟨t, hr, rfl, rfl⟩, hq⟩ := h
  unfold objHead
  rw [m_bind_ok s s t hr.xl]
  exact hr.rb (by decide) false hq

theorem objOf_ok {p : Word} {k : Nat} (h : Loads s c (ptrAddr p) w s') (hp : malformed p = false) (hc : hdrCheck w = none)
    (hk : hdrKind w = k) : objOf c p k s = .ok (ptrAddr p, hdrLen w) s' := by
  unfold objOf
  simp [need, hp, m_bind, objHead_ok h, hc, hk]

/-- A store at an address (R124). -/
theorem storeAt_ok (h : Reaches .write s c va t) (w : Word) :
    storeAt c va w s = .ok () (s.stored c t va w (s.cardMark c (s.world c) va w)) := by
  have hd := inDram_notRegs h.dram
  unfold storeAt Machine.wb wbStore
  rw [m_bind_ok s s t h.xl, m_ite, if_neg (by simp [hd.1]), m_bind_ok s s s (m_get s)]
  exact h.storeMem w _

/-- A fault of the translation raises its cause with FADDR and FINFO (R226). -/
theorem xl_fault {f : TrFault} (h : translate s c (s.world c) (s.user c) acc va = (.error f, s')) :
    Machine.xl c acc va s = .error (.exc (f.cause acc) (some (va, f.finfo acc 0)) none) (s'.countStage2 (s.world c) f) := by
  unfold Machine.xl Machine.xlSrc
  rw [m_bind_ok s s s (m_get s), m_bind]
  have : xlTry c (s.world c) (s.user c) acc va s = .ok (.error f) (s'.countStage2 (s.world c) f) := by simp only [xlTry, h]
  rw [this]
  rfl

end

end Sys2Proof.Machine
end

