-- ==== Sys2Proof/Laws/Entry.lean ====
section
/-! SUPPORT. Exception entry, said once: the pushes into the stack buffer, the registers, and the clearing of BOOK. -/

namespace Sys2Proof.Machine

open Sys2Proof

/-- A translation with its fault as a value. -/
theorem xlTry_eq (c : Fin 32) (w : Fin 2) (user : Bool) (acc : Acc) (va : BitVec 48) (s : State) :
    xlTry c w user acc va s = match translate s c w user acc va with
      | (.ok t, s') => .ok (.ok t) s'
      | (.error f, s') => .ok (.error f) (s'.countStage2 w f) := rfl

/-- A translation on someone's behalf that answers changes TLBs and walk caches only. -/
theorem xlVia_ok {v : Via} {acc : Acc} {va : BitVec 48} {s s' : State} {t : Tr} (h : xlVia v acc va s = .ok t s') :
    s.Calm s' := by
  unfold xlVia at h
  rw [m_bind, xlTry_eq] at h
  have hc := (State.Calm.refl s).translate v.core v.world v.user acc va
  revert h hc
  generalize translate s v.core v.world v.user acc va = r
  obtain ⟨e, s2⟩ := r
  cases e with
  | error f =>
    intro h
    simp at h
  | ok t =>
    intro h hc
    simp at h
    rw [← h.2]
    exact hc

/-- A translation that faults changes no register of a core either. -/
theorem xlVia_cores {v : Via} {acc : Acc} {va : BitVec 48} {s s' : State} {e : Trap} (h : xlVia v acc va s = .error e s')
    (d : Fin 32) : s.cores[d].calm s'.cores[d] := by
  unfold xlVia at h
  rw [m_bind, xlTry_eq] at h
  have hc := (State.Calm.refl s).translate v.core v.world v.user acc va
  revert h hc
  generalize translate s v.core v.world v.user acc va = r
  obtain ⟨x, s2⟩ := r
  cases x with
  | ok t =>
    intro h
    simp at h
  | error f =>
    intro h hc
    simp at h
    rw [← h.2]
    have hq : (s2.countStage2 v.world f).cores = s2.cores := by
      unfold State.countStage2
      split <;> rfl
    rw [hq]
    exact hc.cores d

/-- An atomic write without a card. -/
theorem atomicMem_calm (c : Fin 32) (world : Fin 2) (t : Tr) (w : Word) (s : State) :
    ∃ s', atomicMem c world t w none s = .ok () s' ∧ s.Calm s' := by
  have h := (State.Calm.refl s).drainStores c
  unfold atomicMem
  dsimp only
  split
  · exact ⟨_, rfl, h⟩
  · split
    · exact ⟨_, rfl, h.dmaWrite _ _⟩
    · exact ⟨_, rfl, h.storeWatched _ _⟩

/-- A write on someone's behalf: in memory, or in the stack buffer where that holds the address. -/
theorem viaWrite_ok {v : Via} {va : BitVec 48} {w : Word} {s s' : State} (h : viaWrite v va w none s = .ok () s') :
    s.Calm s' ∨ ∃ t : State, s.Calm t ∧ s' = t.modCore v.core fun x => x.stackPut va w := by
  unfold viaWrite at h
  rw [m_bind] at h
  generalize hx : xlVia v .write va s = r at h
  cases r with
  | error t s1 => simp at h
  | ok t s1 =>
    have h1 := xlVia_ok hx
    simp only at h
    rw [m_bind_ok s1 s1 s1 (m_get s1)] at h
    cases hh : s1.cores[v.core].stackHit va with
    | some e =>
      simp only [hh] at h
      right; refine ⟨s1, h1, ?_⟩
      simp at h; exact h.symm
    | none =>
      simp only [hh] at h
      left
      obtain ⟨s3, h3, h4⟩ := atomicMem_calm v.core v.world t w s1
      rw [h3] at h; simp at h; rw [← h]; exact h1.trans h4

/-- One that cannot be made changes no register of a core. -/
theorem viaWrite_cores {v : Via} {va : BitVec 48} {w : Word} {s s' : State} {e : Trap}
    (h : viaWrite v va w none s = .error e s') (d : Fin 32) : s.cores[d].calm s'.cores[d] := by
  unfold viaWrite at h
  rw [m_bind] at h
  generalize hx : xlVia v .write va s = r at h
  cases r with
  | error t s1 =>
    simp at h
    rw [← h.2]
    exact xlVia_cores hx d
  | ok t s1 =>
    simp only at h
    rw [m_bind_ok s1 s1 s1 (m_get s1)] at h
    cases hh : s1.cores[v.core].stackHit va with
    | some e =>
      simp only [hh] at h
      simp at h
    | none =>
      simp only [hh] at h
      obtain ⟨s3, h3, h4⟩ := atomicMem_calm v.core v.world t w s1
      rw [h3] at h
      simp at h

/-- A word replaced in the stack buffers leaves the words at other addresses. -/
theorem stackPut_hit (x : Core) (va a : BitVec 48) (w : Word) (h : a ≠ va) : (x.stackPut va w).stackHit a = x.stackHit a := by
  have key : ∀ l : List StackEntry, (l.map fun e => if e.va == va then { e with word := w } else e).find? (fun e => e.va == a) = l.find? (fun e => e.va == a) := by
    intro l
    induction l with
    | nil => rfl
    | cons e l ih =>
      simp only [List.map_cons, List.find?_cons]
      by_cases he : e.va = va
      · have : e.va ≠ a := fun q => h (q.symm.trans he)
        simp only [he, beq_self_eq_true, if_true]
        have h2 : (va == a) = false := by simpa using fun q => h q.symm
        simp only [h2]; exact ih
      · have : (e.va == va) = false := by simpa using he
        simp only [this, Bool.false_eq_true, if_false]
        rw [ih]
  unfold Core.stackPut Core.stackHit
  simp only [key]

/-- Clearing BOOK changes no register of a core, and of the stack buffers at most the word of the room. -/
theorem clearBook_core (s : State) (c d : Fin 32) : 
   let x := s.cores[d]; let y := (s.clearBook c).cores[d]
   y.lo = x.lo ∧ y.hi = x.hi ∧ y.bank = x.bank ∧ y.holdCount = x.holdCount ∧ 
   ∀ a, (∀ r, (s.running c).room s.cores[c].lo.depth.toNat = some r → a ≠ r) → y.stackHit a = x.stackHit a := by
  dsimp only
  unfold State.clearBook
  split
  · exact ⟨rfl, rfl, rfl, rfl, fun _ _ => rfl⟩
  · rename_i a ha
    split
    · rename_i u s' hs
      rcases viaWrite_ok hs with hc | ⟨t, hc, ht⟩
      · have := hc.cores d
        rw [this]; exact ⟨rfl, rfl, rfl, rfl, fun _ _ => rfl⟩
      · have hd := hc.cores d
        rw [ht]
        by_cases e : d = c
        · subst e
          rw [show (s.viaSlot d s.cores[d].slot 4).core = d from rfl, modCore_cores_self, hd]
          refine ⟨rfl, rfl, rfl, rfl, fun b hb => ?_⟩
          rw [stackPut_hit _ _ _ _ (hb a ha)]; rfl
        · rw [modCore_cores_other _ _ _ _ (by exact e), hd]
          exact ⟨rfl, rfl, rfl, rfl, fun _ _ => rfl⟩
    · rename_i e s' hs
      rw [viaWrite_cores hs d]
      exact ⟨rfl, rfl, rfl, rfl, fun _ _ => rfl⟩

theorem find_setWord (l : List StackEntry) (a : BitVec 48) (w : Word) (h : (l.any fun e => e.va == a) = true) :
    ((l.map fun e => if e.va == a then { e with word := w } else e).find? fun e => e.va == a).map (·.word) = some w := by
  induction l with
  | nil => simp at h
  | cons e l ih =>
    by_cases he : e.va = a
    · simp [he]
    · have h2 : (e.va == a) = false := by simpa using he
      simp only [List.any_cons, h2, Bool.false_or] at h
      simp only [List.map_cons, h2, Bool.false_eq_true, if_false, List.find?_cons]
      exact ih h

/-- A word pushed is what the stack buffer holds at its address. -/
theorem pushStack_hit_self (x : Core) (a : BitVec 48) (w : Word) (h : (x.stackBufU.any fun e => e.va == a) = false) :
    (x.pushStack false a w).stackHit a = some w := by
  have hu : x.stackBufU.find? (fun e => e.va == a) = none := by simpa using h
  unfold Core.pushStack Core.setStackBuf Core.stackBuf
  simp only [Bool.false_eq_true, if_false]
  split
  · rename_i hs
    simp only [Core.stackHit, hu]
    exact find_setWord _ _ _ hs
  · rename_i hs
    have hn : x.stackBufS.find? (fun e => e.va == a) = none := by simpa using hs
    simp only [Core.stackHit, hu, List.find?_append, hn]
    simp

theorem find_otherWord (l : List StackEntry) (a b : BitVec 48) (w : Word) (h : b ≠ a) :
    (l.map fun e => if e.va == a then { e with word := w } else e).find? (fun e => e.va == b) =
      l.find? (fun e => e.va == b) := by
  induction l with
  | nil => rfl
  | cons e l ih =>
    simp only [List.map_cons, List.find?_cons]
    by_cases he : e.va = a
    · have h2 : (a == b) = false := by simpa using fun q => h q.symm
      simp only [he, beq_self_eq_true, if_true, h2]
      exact ih
    · have h1 : (e.va == a) = false := by simpa using he
      simp only [h1, Bool.false_eq_true, if_false]
      rw [ih]

/-- A push leaves the words at other addresses. -/
theorem pushStack_hit_other (x : Core) (user : Bool) (a b : BitVec 48) (w : Word) (h : b ≠ a) :
    (x.pushStack user a w).stackHit b = x.stackHit b := by
  have h2 : (a == b) = false := by simpa using fun q => h q.symm
  have h3 : ∀ l : List StackEntry, (l ++ [(⟨a, w⟩ : StackEntry)]).find? (fun e => e.va == b) = l.find? (fun e => e.va == b) := by
    intro l
    have h4 : ¬ a = b := fun q => h q.symm
    simp [List.find?_append, h4]
  cases user <;> unfold Core.pushStack Core.setStackBuf Core.stackBuf <;>
    simp only [Bool.false_eq_true, if_false, if_true] <;> split <;>
      simp only [Core.stackHit, find_otherWord _ _ _ _ h, h3]

/-- A push changes the stack buffer of its level and nothing else of the core. -/
theorem pushStack_rest (x : Core) (user : Bool) (a : BitVec 48) (w : Word) :
    x.pushStack user a w = { x with stackBufU := (x.pushStack user a w).stackBufU
                                    stackBufS := (x.pushStack user a w).stackBufS } := by
  cases user <;> unfold Core.pushStack Core.setStackBuf <;> split <;> rfl

theorem pushStack_false_U (x : Core) (a : BitVec 48) (w : Word) : (x.pushStack false a w).stackBufU = x.stackBufU := by
  unfold Core.pushStack Core.setStackBuf
  split <;> rfl

/-- The pushes of an entry: EPC and ESTAT below SP of the supervisor. -/
def Core.pushEntry (x : Core) : Core :=
  ((x.pushStack false (fld x.lo.spS 0 48 - 1) (Word.reta x.lo.epc)).pushStack false (fld x.lo.spS 0 48 - 2)
    (Word.raw x.lo.estat)).setSp false (x.lo.spS - 2)

/-- The pushes change SP and the stack buffer of the supervisor and nothing else of the core. -/
theorem pushEntry_rest (x : Core) : x.pushEntry = { x with lo := { x.lo with spS := x.lo.spS - 2 }
                                                           stackBufU := x.pushEntry.stackBufU
                                                           stackBufS := x.pushEntry.stackBufS } := by
  unfold Core.pushEntry
  rw [pushStack_rest, pushStack_rest]
  rfl

/-- An entry whose pushes can be made (R194). -/
theorem enter_ok {s : State} {c : Fin 32} {e : Entry} {t1 t2 : Tr} (hd : s.cores[c].lo.depth ≠ 31)
    (hsp : fld s.cores[c].lo.spS 48 16 = (0 : BitVec 16)) (h2 : 2 ≤ s.cores[c].lo.spS.toNat)
    (hlim : s.cores[c].lo.slimS.toNat + 2 ≤ s.cores[c].lo.spS.toNat)
    (ht1 : translate s c (s.world c) false .write (fld s.cores[c].lo.spS 0 48 - 1) = (.ok t1, s))
    (ht2 : translate s c (s.world c) false .write (fld s.cores[c].lo.spS 0 48 - 2) = (.ok t2, s))
    (hS : s.cores[c].stackBufS.length ≤ 38) :
    s.enter c e = (s.modCore c Core.pushEntry).enterRegs c e e.cause.code false 0 := by
  have hx1 : ∀ a t, translate s c (s.world c) false .write a = (.ok t, s) →
      xlVia ⟨c, s.world c, false, 3⟩ .write a s = .ok t s := by
    intro a t h
    unfold xlVia
    rw [m_bind, xlTry_eq]
    simp only [h]
    rfl
  have hred : ¬ (s.cores[c].lo.spS.toNat < s.cores[c].lo.slimS.toNat + 2) := by omega
  have hsp2 : ¬ s.cores[c].lo.spS.toNat < 2 := by omega
  unfold State.enter
  have hcond : ¬ (s.cores[c].lo.depth = 31 ∨ fld s.cores[c].lo.spS 48 16 ≠ (0 : BitVec 16)) := by
    intro q
    rcases q with q | q
    · exact hd q
    · exact q hsp
  dsimp only
  rw [if_neg hcond]
  simp only [hred, decide_false, Bool.false_and, Bool.false_eq_true, if_false, hsp2]
  simp only [EStateM.run]
  rw [m_bind_ok s s _ (hx1 _ t1 ht1), m_bind_ok s s _ (hx1 _ t2 ht2),
    m_bind_ok s s () (spillDown_short (by simpa [Core.stackBuf] using hS))]
  simp only [m_modify]
  refine congrArg (fun u => State.enterRegs u c e e.cause.code false 0) ?_
  simp only [State.modCore, vmod]
  rfl

end Sys2Proof.Machine
end

