-- ==== Sys2Proof/Tests/Slice0.lean ====
section
/-! SUPPORT. Tests: terms that WellFormed refuses, words written out from the spec's encodings, results of single commands taken
from the spec's rules and examples, and a witness of the hypotheses of each statement on a small state. -/

namespace Sys2Proof.Tests

open Sys2Proof Sys2Proof.Machine

-- One theorem is checked after the other: each is a kernel evaluation, and many at once would exceed the memory of a check.
set_option Elab.async false

/-! ## Small states -/

/-- The header of an instruction of core 0 without guard. -/
def h0 : Hdr := { core := 0, gp := 0, gs := false }

/-- Core 0 runs the context of slot 0 in the supervisor of world 0, which owns the upper half and the lathe file; stage 2 maps
memory onto itself. -/
def cold : State :=
  let s := State.reset
  let s := { s with pwr := { s.pwr with porLow := false }, mem := [(0x0E00, Word.pte 0x6D9F)] }
  let s := s.modCore 0 fun x => { x with
    running := true, lzNone := false, llNone := false
    lo := { pc := 0x2000, stat := fbit 13 true, spS := 0x3000, slimS := 0x2F00, allocp := 0x2000, allocl := 0x2100 } }
  let s := s.modSlot 0 0 fun k => { k with handle := 0x4000, state := .running }
  s.modWorld 0 fun w => { w with s2root := 0x0E00, entry := 0x1600, holdmax := 100, dramSize := 0x10000 }

/-- The same, with the translation of all of memory held in the TLBs. -/
def base : State := (translate cold 0 0 false .write 0x5000).2

/-- The translation that core 0 has of an address. -/
def trOf (s : State) (acc : Acc) (va : BitVec 48) : Tr :=
  match translate s 0 (s.world 0) (s.user 0) acc va with
  | (.ok t, _) => t
  | _ => { pa := 0, se := true, entry := { world := 0, base := 0, size := 0, leaf1 := none, leaf2 := 0, level2 := 0, pa := 0 } }

/-- Registers of core 0. -/
def withRegs (s : State) (l : List (Fin 32 × Word)) : State :=
  l.foldl (fun s e => s.modCore 0 fun x => x.setReg e.1 e.2) s

/-- Words of memory. -/
def withMem (s : State) (l : List (Nat × Word)) : State := { s with mem := l.foldl (fun m e => memPut m e.1 e.2) s.mem }

/-- An instruction in the slot at PC of core 0, fetched, with NOP in the other. -/
def fetched (s : State) (i : Instr) : State :=
  let w := Word.instr (put 0 ((encode32 i).getD 0) ||| put 32 (0x00100000 : BitVec 32))
  s.modCore 0 fun x => { x with fetchBuf := [(pcWord x.lo.pc, w)] }

/-- A small state about to execute an instruction with register values. -/
def at_ (i : Instr) (l : List (Fin 32 × Word)) : State := fetched (withRegs base l) i

/-- The same at user level. -/
def atUser (i : Instr) (l : List (Fin 32 × Word)) : State :=
  (at_ i l).modCore 0 fun x => { x with lo := { x.lo with stat := 0, spU := 0x3000, slimU := 0x2F00 } }

/-- The conditions of Issues, as a Bool. -/
def issuesB (i : Instr) (h : Hdr) (s : State) : Bool :=
  let x := s.cores[h.core]
  s.canIssue h.core && h.err.isNone && !h.wait && x.breaks.isEmpty && x.seq.isNone && (x.pred h.gp != h.gs) &&
    match x.fetchBuf.find? (fun e => e.1 == pcWord x.lo.pc) with
    | some (_, w) => w.tag == 0x0A && encode32 i == some (slotBits x.lo.pc w) && legal32 (slotBits x.lo.pc w) &&
        !(slotGp (slotBits x.lo.pc w) == 0 && slotGs (slotBits x.lo.pc w))
    | none => false

/-- The conditions of Settled, as a Bool. -/
def settledB (c : Fin 32) (s : State) : Bool :=
  !(bit s.cores[c].lo.stat 15) && (s.running c).block.isNone && !(s.running c).parkDue &&
    decide (s.cores[c].stackBufU.length ≤ 30) && decide (s.cores[c].stackBufS.length ≤ 30) &&
    ((List.finRange 32).all fun r => !(s.cores[c].regMark r)) && s.worlds[s.world c].heap.phase != .drain

/-- The conditions of Ready, as a Bool. -/
def readyB (i : Instr) (h : Hdr) (rs : List (Fin 32)) (s : State) : Bool :=
  issuesB i h s && settledB h.core s && (!(rs.any s.cores[h.core].isUpper) || s.cores[h.core].ownsUpper)

theorem issues_of {i : Instr} {h : Hdr} {s : State} (b : issuesB i h s = true) : Issues i h s := by
  simp only [issuesB, Bool.and_eq_true] at b
  obtain ⟨⟨⟨⟨⟨⟨a, e⟩, p⟩, k⟩, q⟩, t⟩, m⟩ := b
  split at m
  · rename_i va w hf
    simp only [Bool.and_eq_true, beq_iff_eq, Bool.not_eq_true'] at m
    exact ⟨a, by simpa using e, by simpa using p, ⟨by simpa using k, by simpa using q⟩, ⟨va, w, hf, m.1.1.1, m.1.1.2, m.1.2, m.2⟩, t⟩
  · cases m

theorem settled_of {c : Fin 32} {s : State} (b : settledB c s = true) : Settled c s := by
  simp only [settledB, Bool.and_eq_true, Bool.not_eq_true', Option.isNone_iff_eq_none, decide_eq_true_eq, bne_iff_ne, ne_eq,
    List.all_eq_true] at b
  obtain ⟨⟨⟨⟨⟨⟨a, e⟩, t⟩, m⟩, n⟩, f⟩, d⟩ := b
  exact ⟨a, e, t, m, n, fun r => f r (List.mem_finRange r), d⟩

theorem ready_of {i : Instr} {h : Hdr} {rs : List (Fin 32)} {s : State} (b : readyB i h rs s = true) : Ready i h rs s := by
  simp only [readyB, Bool.and_eq_true, Bool.or_eq_true, Bool.not_eq_true'] at b
  obtain ⟨⟨a, e⟩, t⟩ := b
  refine ⟨issues_of a, settled_of e, fun u => ?_⟩
  rcases t with t | t
  · rw [t] at u; cases u
  · exact t


/-- All of a list of instructions of one shape are ready in the states that a function gives. -/
theorem ready_all {l : List Instr} {h : Hdr} {rs : List (Fin 32)} {f : Instr → State}
    (b : (l.all fun i => readyB i h rs (f i)) = true) : ∀ i ∈ l, Ready i h rs (f i) :=
  fun i m => ready_of (List.all_eq_true.mp b i m)

/-- The same for instructions that issue. -/
theorem issues_all {l : List Instr} {h : Hdr} {f : Instr → State} (b : (l.all fun i => issuesB i h (f i)) = true) :
    ∀ i ∈ l, Issues i h (f i) := fun i m => issues_of (List.all_eq_true.mp b i m)

/-- What holds of the state that a command answers; false where it answers none. -/
def after (i : Instr) (s : State) (p : State → Bool) : Bool :=
  match exec i s with
  | .next t => p t
  | _ => false

/-! ## Well-formed commands: each check refuses a term -/

theorem test_wf_guard : WellFormed (.nop { h0 with gs := true }) = false ∧ WellFormed (.nop { h0 with gp := 1, gs := true }) = true := by
  decide +kernel
theorem test_wf_loop : WellFormed (.loop h0 4 0) = false ∧ WellFormed (.loop h0 4 1) = true := by decide +kernel
theorem test_wf_mfs : WellFormed (.mfs h0 1 false 0x0E) = false ∧ WellFormed (.mfs h0 1 false 0x1C) = false ∧
    WellFormed (.mfs h0 1 true 0x07) = false ∧ WellFormed (.mfs h0 1 true 0x08) = true ∧ WellFormed (.mfs h0 1 false 0x1F) = true := by
  decide +kernel
theorem test_wf_mts : WellFormed (.mts h0 1 false 0x1E) = false ∧ WellFormed (.mts h0 1 true 0x0C) = false ∧
    WellFormed (.mts h0 1 true 0x0B) = true := by decide +kernel
theorem test_wf_frames : WellFormed (.tdmFrame 0 1 []) = false ∧ WellFormed (.spiConversion 0 []) = false ∧
    WellFormed (.lsl2Frame 0 false 0 [] 0 true) = false ∧ WellFormed (.bulkLanding 0 0 []) = false := by decide +kernel
theorem test_wf_beacon : WellFormed (.beaconReceive 0 ⟨1, 1, 1, 5, 0, 0⟩) = false ∧
    WellFormed (.beaconReceive 0 ⟨1, 1, 1, 4, 0, 0⟩) = true := by decide +kernel

/-! ## Words written out from Table 04-1, Table 04-2 and Table 05-1 -/

/-- Format R: GP 0, GS 0, OP, Wd, Wa, Wb, FN. -/
def wordR (op : BitVec 7) (d a b fn : BitVec 5) : BitVec 32 :=
  op.setWidth 32 <<< 20 ||| d.setWidth 32 <<< 15 ||| a.setWidth 32 <<< 10 ||| b.setWidth 32 <<< 5 ||| fn.setWidth 32

theorem test_decode_control : [0x00200005#32, 0x003FFFFF, 0x00400C00, 0x00500000, 0x00800007, 0x00900009, 0x00A00000, 0x00B00064,
      0x00C00000, 0x00C00001, 0x00D01400, 0x00D00001, 0x00D00002].map (decode32 0 1 none false 0) =
    [some (.b h0 5), some (.call h0 0xFFFFF), some (.calli h0 3), some (.ret h0), some (.trap h0 7), some (.brk h0 9), some (.eret h0),
      some (.hold h0 100), some (.fence h0), some (.fenceI h0), some (.tlbiVa h0 5), some (.tlbiWorld h0), some (.tlbiWorldg h0)] := by
  decide +kernel
theorem test_decode_moves : [0x01010800#32, 0x0120F800, 0x0130886A, 0x0140400B, 0x01408019, 0x01524001, 0x01608000].map (decode32 0 1 none false 0) =
    [some (.mov h0 2 2), some (.typeof h0 1 30), none, some (.mfs h0 0 true 0x0B), some (.mfs h0 1 false 0x19), none, some (.now h0 1)] := by
  decide +kernel
theorem test_decode_arith : [(0x20, 0), (0x21, 0), (0x25, 0), (0x27, 0), (0x27, 1), (0x27, 2), (0x27, 3), (0x27, 4), (0x27, 5), (0x27, 6),
      (0x13, 0), (0x17, 2), (0x17, 3)].map (fun (p : BitVec 7 × BitVec 5) => decode32 0 1 none false 0 (wordR p.1 9 21 14 p.2)) =
    [some (.add h0 9 21 14), some (.sub h0 9 21 14), some (.logadd h0 9 21 14), some (.and h0 9 21 14), some (.or h0 9 21 14),
      some (.xor h0 9 21 14), some (.andn h0 9 21 14), some (.shl h0 9 21 14), some (.shr h0 9 21 14), some (.sar h0 9 21 14),
      some (.tagset h0 9 21 14), some (.cvtToqty h0 9 21 14), some (.cvtStrip h0 9 21 14)] := by decide +kernel
theorem test_decode_arith2 : decode32 0 1 none false 0 (wordR 0x22 0 21 14 0) = some (.mul h0 21 14) ∧
    decode32 0 1 none false 0 (wordR 0x23 0 21 14 0) = some (.div h0 21 14) ∧ decode32 0 1 none false 0 (wordR 0x22 1 21 14 0) = none ∧
    decode32 0 1 none false 0 (wordR 0x24 9 21 0 0) = some (.neg h0 9 21) ∧ decode32 0 1 none false 0 (wordR 0x27 9 21 0 7) = some (.not h0 9 21) ∧
    decode32 0 1 none false 0 (wordR 0x27 9 21 1 7) = none ∧
    [0, 1, 4, 5, 6, 7].map (fun fn : BitVec 5 => decode32 0 1 none false 0 (wordR 0x17 9 21 0 fn)) =
      [some (.cvtToflt h0 9 21), some (.cvtToint h0 9 21), some (.cvtTospan h0 9 21), some (.cvtSpanq h0 9 21),
        some (.cvtToinst h0 9 21), none] := by decide +kernel
theorem test_decode_compares : [0x03098C80#32, 0x03118C80, 0x03218C80, 0x03318C80, 0x03498C80, 0x03598C80, 0x03698C80, 0x03618C81].map (decode32 0 1 none false 0) =
    [some (.cmpeq h0 true 3 3 4), some (.cmpne h0 false 3 3 4), some (.cmplt h0 false 3 3 4), some (.cmple h0 false 3 3 4),
      some (.cmpgt h0 true 3 3 4), some (.cmpge h0 true 3 3 4), some (.tageq h0 true 3 3 4), none] := by decide +kernel
theorem test_decode_preds : [0x03719440#32, 0x03711641, 0x03719442, 0x03715403, 0x03711643, 0x03799440].map (decode32 0 1 none false 0) =
    [some (.pand h0 3 false 5 false 2), some (.por h0 2 false 5 true 2), some (.pxor h0 3 false 5 false 2), some (.pmov h0 2 true 5), none, none] := by
  decide +kernel
theorem test_decode_memory : [0x040087FF#32, 0x04108801, 0x04208801, 0x04308801, 0x04408801, 0x0490FFFF, 0x04A0FFFF, 0x04B07FFF].map (decode32 0 1 none false 0) =
    [some (.ldw h0 1 1 0x3FF), some (.stw h0 1 2 1), some (.ldws h0 1 2 1), some (.ldx h0 1 2 1), some (.stx h0 1 2 1),
      some (.lds h0 1 0x7FFF), some (.sts h0 1 0x7FFF), some (.spadj h0 0x7FFF)] ∧
    [0x45, 0x46, 0x47, 0x48, 0x4C].map (fun op : BitVec 7 => decode32 0 1 none false 0 (wordR op 9 21 14 0)) =
    [some (.ldf h0 9 21 14), some (.stf h0 9 21 14), some (.ldb h0 9 21 14), some (.stb h0 9 21 14), some (.alloc h0 9 21 14)] := by decide +kernel
theorem test_decode_sched : [0x05008C00#32, 0x05100C00, 0x05208C02, 0x05300C02, 0x05400000, 0x05500000, 0x05600000, 0x05700000, 0x05800C40,
      0x05900C40, 0x06008C40, 0x06100C40, 0x06208C00, 0x06300000].map (decode32 0 1 none false 0) =
    [some (.wait h0 1 3), some (.signal h0 3), some (.clamp h0 1 3 2), some (.unclamp h0 3 2), some (.savel h0), some (.saveu h0),
      some (.restl h0), some (.restu h0), some (.stm h0 3 2 0), some (.ldm h0 3 2 0), some (.lathe h0 1 3 2), some (.send h0 3 2),
      some (.recv h0 1 3), none] := by decide +kernel

/-! ## Witnesses: the queue, decoding, the course of an instruction -/

/-- The word that holds an instruction in its even slot and NOP in the other. -/
def wordOf (i : Instr) : Word := Word.instr (put 0 ((encode32 i).getD 0) ||| put 32 (0x00100000 : BitVec 32))
/-- A guard by P1, which is false here. -/
def g1 : Hdr := { h0 with gp := 1 }
/-- A loop of the slots 0x1F00 to 0x2000, with LA set. -/
def inLoop (lc : BitVec 64) : State :=
  base.modCore 0 fun x => { x with lo := { x.lo with le := 0x2000, ls := 0x1F00, lc := lc, stat := x.lo.stat ||| fbit 5 true } }
/-- A word in the fetch buffer at PC. -/
def fetchWord (w : Word) : State := base.modCore 0 fun x => { x with fetchBuf := [(0x1000, w)] }

theorem witness_StepRunsFrontCommand : (base.withPending [.mulComplete 0, .nop h0]).pending = .mulComplete 0 :: [.nop h0] := rfl
theorem witness_IdleStepIsOneTick : base.pending = [] ∧ base.imt.started = false ∧
    (let s := { base with imt := { base.imt with started := true, ppsOut := true, ppsEnd := 2 } }
     s.pending = [] ∧ s.imt.started = true ∧ s.imt.ppsOut = true ∧ (s.now + 1).toNat < s.imt.ppsEnd.toNat) := by decide +kernel
theorem witness_StepKeepsMemorySound : memWf base.mem = true ∧ memWf base.cutActive = true ∧
    (match step (base.withPending [.mulComplete 0]) with
      | .next _ => true
      | _ => false) = true := by decide +kernel
theorem witness_DecodeOfEncode : (Instr.ldf h0 5 1 6).hdr = some h0 ∧ WellFormed (.ldf h0 5 1 6) = true ∧
    encode32 (.ldf h0 5 1 6) = some 0x045284C0 := by decide +kernel
theorem witness_EncodeOfDecode : (slotGp 0x045284C0 == 0 && slotGs 0x045284C0) = false ∧
    decode32 0 1 none false 0 0x045284C0 = some (.ldf h0 5 1 6) := by decide +kernel
theorem witness_LoopEndDecision :
    (¬ (bit (inLoop 2).cores[(0 : Fin 32)].lo.stat 5 = true ∧ (inLoop 2).cores[(0 : Fin 32)].lo.le = (0x2001 : BitVec 49).setWidth 64)) ∧
    bit (inLoop 2).cores[(0 : Fin 32)].lo.stat 5 = true ∧ (inLoop 2).cores[(0 : Fin 32)].lo.le = (0x2000 : BitVec 49).setWidth 64 ∧
    (inLoop 2).cores[(0 : Fin 32)].lo.lc ≠ 1 ∧ (inLoop 1).cores[(0 : Fin 32)].lo.lc = 1 := by decide +kernel
theorem witness_GuardedOffHasNoEffect :
    let s := at_ (.lit g1 3) []
    let w := wordOf (.lit g1 3)
    s.canIssue 0 = true ∧ Settled 0 s ∧ s.cores[(0 : Fin 32)].fetchBuf.find? (fun e => e.1 == pcWord s.cores[(0 : Fin 32)].lo.pc) = some (0x1000, w) ∧
      w.tag = 0x0A ∧ encode32 (.lit g1 3) = some (slotBits s.cores[(0 : Fin 32)].lo.pc w) ∧
      (s.cores[(0 : Fin 32)].pred g1.gp != g1.gs) = false := by
  refine ⟨?_, settled_of ?_, ?_, ?_, ?_, ?_⟩ <;> decide +kernel
theorem witness_PrivilegedAtUserLevel :
    ∀ i ∈ [Instr.savel h0, .ldx h0 1 2 5, .tagset h0 1 2 5, .eret h0, .hold h0 4, .tlbiVa h0 4],
      Issues i h0 (atUser i []) ∧ Settled 0 (atUser i []) ∧ (atUser i []).user 0 = true ∧ i.privileged = true := by
  have b : ([Instr.savel h0, .ldx h0 1 2 5, .tagset h0 1 2 5, .eret h0, .hold h0 4, .tlbiVa h0 4].all fun i =>
    issuesB i h0 (atUser i []) && settledB 0 (atUser i []) && (atUser i []).user 0 && i.privileged) = true := by decide +kernel
  intro i m
  have := List.all_eq_true.mp b i m
  simp only [Bool.and_eq_true] at this
  exact ⟨issues_of this.1.1.1, settled_of this.1.1.2, this.1.2, this.2⟩
theorem witness_IllegalSlotRaises : ∀ w ∈ [(⟨0xFE, 0⟩ : Word), ⟨0xFF, 0⟩, ⟨0, 0⟩, ⟨0x0A, 0⟩, ⟨0x0A, 0x08000000⟩],
    (fetchWord w).canIssue 0 = true ∧ (fetchWord w).cores[(0 : Fin 32)].fetchBuf.find?
      (fun e => e.1 == pcWord (fetchWord w).cores[(0 : Fin 32)].lo.pc) = some (0x1000, w) := by decide +kernel
theorem witness_IllegalSlotRaises_guard : (slotGp (slotBits 0x2000 ⟨0x0A, 0x08000000⟩) == 0 && slotGs (slotBits 0x2000 ⟨0x0A, 0x08000000⟩)) = true ∧
    legal32 (slotBits 0x2000 ⟨0x0A, 0⟩) = false := by decide +kernel
theorem witness_ExceptionEntry :
    let x := base.cores[(0 : Fin 32)]
    (x.lo.depth ≠ 31 ∧ fld x.lo.spS 48 16 = (0 : BitVec 16) ∧ 2 ≤ x.lo.spS.toNat ∧ x.lo.slimS.toNat + 2 ≤ x.lo.spS.toNat ∧
      (x.stackBufU.any fun e => e.va == 0x2FFF || e.va == 0x2FFE) = false ∧ x.stackBufS.length ≤ 38 ∧
      (base.running 0).room (x.lo.depth.toNat + 1) = none) ∧
    translate base 0 (base.world 0) false .write (fld x.lo.spS 0 48 - 1) = (.ok (trOf base .write 0x2FFF), base) ∧
    translate base 0 (base.world 0) false .write (fld x.lo.spS 0 48 - 2) = (.ok (trOf base .write 0x2FFE), base) :=
  ⟨by decide +kernel, rfl, rfl⟩

/-! ## Witnesses: moves, special registers, conversions, arithmetic -/

theorem witness_MovesAndTags :
    ∀ i ∈ [Instr.mov h0 3 1, .movi h0 3 5, .typeof h0 3 1, .tagset h0 3 1 2, .now h0 3], Ready i h0 [3, 1, 2] (at_ i [(1, Word.fix 7), (2, Word.fix 255)]) :=
  ready_all (by decide +kernel)
theorem witness_MovesAndTags_tag : tagsetCheck (Word.fix 7) = none ∧ Word.fix 255 = Word.fix ((255 : BitVec 8).setWidth 64) ∧
    chkWord (Word.fix 256) = none ∧ 256 ≤ (Word.fix 256).datum.toNat ∧ clsOf 0x0F = .reserved := by decide +kernel
theorem witness_SpecialRegisterReads : ∀ i ∈ [Instr.mfs h0 3 false 0x00, .mfs h0 3 true 0x08, .mfs h0 3 false 0x0B, .mfs h0 3 false 0x18, .mfs h0 3 false 0x1B],
    Ready i h0 [3] (at_ i []) := ready_all (by decide +kernel)
theorem witness_SpecialRegisterReads_user : ∀ i ∈ [Instr.mfs h0 3 false 0x10, .mfs h0 3 false 0x18], Ready i h0 [3] (atUser i []) :=
  ready_all (by decide +kernel)
theorem witness_SpecialRegisterReads_result : base.cores[(0 : Fin 32)].ownsUpper = true ∧ base.cores[(0 : Fin 32)].mulFly = none ∧
    base.cores[(0 : Fin 32)].divFly = none ∧ base.cores[(0 : Fin 32)].hi.prodhi.tag ≠ 0x00 := by decide +kernel
theorem witness_SpecialRegisterWrites :
    ∀ i ∈ [Instr.mts h0 3 false 0x05, .mts h0 3 false 0x03, .mts h0 3 false 0x16, .mts h0 3 false 0x12, .mts h0 3 false 0x19],
      Ready i h0 [3] (at_ i [(3, Word.raw 1)]) := ready_all (by decide +kernel)
theorem witness_SpecialRegisterWrites_tags : ∀ i ∈ [Instr.mts h0 3 false 0x04, .mts h0 3 false 0x08], Ready i h0 [3] (at_ i [(3, Word.fix 1)]) :=
  ready_all (by decide +kernel)
theorem witness_Conversions : ∀ i ∈ [Instr.cvtToflt h0 3 1, .cvtToint h0 3 1, .cvtTospan h0 3 1, .cvtToinst h0 3 1, .cvtToqty h0 3 1 2],
    Ready i h0 [3, 1, 2] (at_ i [(1, Word.fix 7), (2, Word.fix 1)]) := ready_all (by decide +kernel)
theorem witness_Conversions_value : chkFull (Word.fix 7) = none ∧ immVal (Word.fix 7) = some (.int 7 true) ∧ 0 ≤ (7 : BitVec 64).toInt ∧
    chkFull (Word.span 7) = none ∧ immVal (Word.span 7) = some (.span 7) := by decide +kernel
/-- Two FIX operands. -/
def twoFix (i : Instr) (m n : BitVec 64) : State := at_ i [(1, Word.fix m), (2, Word.fix n), (3, Word.fix m)]
theorem witness_AddSub : ∀ i ∈ [Instr.add h0 3 1 2, .sub h0 3 1 2, .addi h0 3 0x7FFF], Ready i h0 [3, 1, 2] (twoFix i (2 ^ 63 - 1) 0) :=
  ready_all (by decide +kernel)
theorem witness_AddSub_bound : (-(2 ^ 63) : Int) ≤ (2 ^ 63 - 1 : BitVec 64).toInt + (0 : BitVec 64).toInt ∧
    (2 ^ 63 - 1 : BitVec 64).toInt + (0 : BitVec 64).toInt < 2 ^ 63 := by decide +kernel
theorem witness_MulDiv : ∀ i ∈ [Instr.mul h0 1 2, .div h0 1 2], Ready i h0 [1, 2] (twoFix i 7 2) ∧ (twoFix i 7 2).cores[(0 : Fin 32)].ownsUpper = true := by
  intro i m
  exact ⟨ready_all (l := [Instr.mul h0 1 2, .div h0 1 2]) (f := fun i => twoFix i 7 2) (by decide +kernel) i m,
    List.all_eq_true.mp (by decide +kernel : ([Instr.mul h0 1 2, .div h0 1 2].all fun i => (twoFix i 7 2).cores[(0 : Fin 32)].ownsUpper) = true) i m⟩
theorem witness_MulDiv_zero : Ready (.div h0 1 2) h0 [1, 2] (twoFix (.div h0 1 2) 7 0) := ready_of (by decide +kernel)
theorem witness_MulDiv_complete : (base.modCore 0 fun x => { x with mulFly := some (Word.fix 14, Word.fix 0) }).cores[(0 : Fin 32)].mulFly =
    some (Word.fix 14, Word.fix 0) := by decide +kernel

/-! ## Results from the spec's rules -/

theorem test_movi_negative : after (.movi h0 3 0x7FFF) (at_ (.movi h0 3 0x7FFF) []) (fun t => t.cores[(0 : Fin 32)].reg 3 == Word.fix (-1) &&
    t.cores[(0 : Fin 32)].lo.pc == 0x2001) = true := by decide +kernel
theorem test_sub_order : after (.sub h0 3 1 2) (twoFix (.sub h0 3 1 2) 7 9) (fun t => t.cores[(0 : Fin 32)].reg 3 == Word.fix (-2)) = true := by
  decide +kernel
theorem test_div_truncates : after (.div h0 1 2) (twoFix (.div h0 1 2) (-7) 2)
    (fun t => t.cores[(0 : Fin 32)].divFly == some (Word.fix (-3), Word.fix (-1))) = true := by decide +kernel
theorem test_div_by_zero : after (.div h0 1 2) (twoFix (.div h0 1 2) 7 0)
    (fun t => fld t.cores[(0 : Fin 32)].lo.cause 0 8 == (0x06 : BitVec 8) && t.cores[(0 : Fin 32)].lo.pc == 0x1600) = true := by decide +kernel

/-! ## Witnesses: logic, control transfer, memory -/

/-- Two operand words. -/
def two (i : Instr) (a b : Word) : State := at_ i [(1, a), (2, b)]
/-- A small state with words of memory. -/
def mkS (i : Instr) (l : List (Fin 32 × Word)) (m : List (Nat × Word)) : State := withMem (at_ i l) m
/-- A plain QTY of value 2, and a level. -/
def plainQ : Word := Word.qty (qtyWord 0 (.ofRat 2) {}).datum
def level : Word := Word.qty (setFld (qtyWord 0 (.ofRat (3 / 2)) dimSecond).datum 1 (2 : BitVec 2))

theorem witness_NegAndLogadd : Ready (.neg h0 3 1) h0 [3, 1] (two (.neg h0 3 1) (Word.fix 7) (Word.fix 0)) ∧
    Ready (.logadd h0 3 1 2) h0 [3, 1, 2] (two (.logadd h0 3 1 2) level level) := ⟨ready_of (by decide +kernel), ready_of (by decide +kernel)⟩
theorem witness_NegAndLogadd_kinds : (2 ^ 63 - 1 : BitVec 64).toInt ≠ -(2 ^ 63) ∧ malformed plainQ = false ∧ fld plainQ.datum 1 2 = (0 : BitVec 2) ∧
    malformed level = false ∧ fld level.datum 1 2 = (2 : BitVec 2) := by decide +kernel
theorem witness_Bitwise : ∀ i ∈ [Instr.and h0 3 1 2, .or h0 3 1 2, .xor h0 3 1 2, .andn h0 3 1 2, .shl h0 3 1 2, .shr h0 3 1 2, .sar h0 3 1 2, .not h0 3 1],
    Ready i h0 [3, 1, 2] (two i (Word.fix 0xF0) (Word.fix 63)) := ready_all (by decide +kernel)
theorem witness_Bitwise_counts : bit (64 : BitVec 64) 63 = false ∧ bit (-1 : BitVec 64) 63 = true ∧ chkWord (Word.raw 3) = none ∧ (Word.raw 3).tag ≠ 0x00 := by
  decide +kernel
theorem witness_ComparesAndPredicates :
    ∀ i ∈ [Instr.cmpeq h0 false 3 1 2, .cmpne h0 true 3 1 2, .cmplt h0 false 0 1 2, .cmple h0 false 3 1 2, .cmpgt h0 false 3 1 2,
      .cmpge h0 false 3 1 2, .tageq h0 false 3 1 2, .pand h0 3 true 4 false 5, .por h0 3 true 4 false 5, .pxor h0 3 true 4 false 5, .pmov h0 3 true 4],
    Ready i h0 [1, 2] (two i (Word.fix (-1)) (Word.fix 65535)) := ready_all (by decide +kernel)
theorem test_sar_fills : after (.sar h0 3 1 2) (two (.sar h0 3 1 2) (Word.raw 0x8000000000000000) (Word.fix 64))
    (fun t => t.cores[(0 : Fin 32)].reg 3 == Word.raw 0xFFFFFFFFFFFFFFFF) = true := by decide +kernel
theorem test_cmplt_signed : after (.cmplt h0 false 3 1 2) (two (.cmplt h0 false 3 1 2) (Word.fix (-1)) (Word.fix 1))
    (fun t => t.cores[(0 : Fin 32)].pred 3 && !(t.cores[(0 : Fin 32)].pred 4)) = true := by decide +kernel

/-- A state whose next instruction would load an object at 0x5000: a VECTOR of four fields. -/
def vecM : List (Nat × Word) := [(0x5000, mkHdr 4 2 0), (0x5001, Word.fix 11), (0x5002, Word.fix 3), (0x5003, Word.nil), (0x5004, Word.raw 4)]
def vec : Word := ⟨0x41, 0x5000⟩
/-- A code object at 0x6000 with the entry offset 3, and a closure of it at 0x6100. -/
def codeM : List (Nat × Word) :=
  [(0x6000, mkHdr 16 9 0), (0x6001, Word.raw 3), (0x6004, Word.fix 7), (0x6100, mkHdr 2 8 0), (0x6101, ⟨0x48, 0x6000⟩)]
/-- What an operation answers, and the state it leaves. -/
def okOf {α : Type} (m : M α) (d : α) (s : State) : α × State :=
  match m s with
  | .ok a s' => (a, s')
  | .error _ s' => (d, s')
def okB {α : Type} (m : M α) (s : State) : Bool :=
  match m s with
  | .ok _ _ => true
  | .error _ _ => false

theorem ok_of {α : Type} {m : M α} {s : State} (d : α) (b : okB m s = true) : m s = .ok (okOf m d s).1 (okOf m d s).2 := by
  unfold okB at b
  unfold okOf
  split at b
  · rename_i h
    simp only [h]
  · cases b

/-- No burst is awaited for a translated address, and none was lost. -/
def hereB (s : State) (t : Tr) : Bool :=
  !(s.cores[(0 : Fin 32)].waits) && !(s.cores[(0 : Fin 32)].lostReads.contains (sectorOf t.pa.toNat))

theorem here_of {s : State} {t : Tr} (b : hereB s t = true) :
    s.cores[(0 : Fin 32)].waits = false ∧ sectorOf t.pa.toNat ∉ s.cores[(0 : Fin 32)].lostReads := by
  simpa [hereB] using b

/-- A word of ordinary memory that the core reaches with an access. -/
theorem reach_dtlb {acc : Acc} {s : State} {va : BitVec 48} (t : Tr) (h : translate s 0 (s.world 0) (s.user 0) acc va = (.ok t, s))
    (b : (!t.se && s.inDram t.pa.toNat && hereB s t) = true) : Reaches acc s 0 va t := by
  simp only [Bool.and_eq_true, Bool.not_eq_true'] at b
  exact ⟨h, b.1.1, b.1.2, fun _ => here_of b.2⟩

/-- A load that the core can make. -/
theorem load_of {s : State} {va : BitVec 48} (t : Tr) (h : translate s 0 (s.world 0) (s.user 0) .read va = (.ok t, s))
    (b : (!t.se && s.inDram t.pa.toNat && hereB s t && (s.sees 0 t va).tag != 0x81 &&
      !(isPtrTag (s.sees 0 t va).tag && s.condemned 0 (s.world 0) (fld (s.sees 0 t va).datum 0 48))) = true) :
    Loads s 0 va (s.sees 0 t va) (s.loaded 0 t va false) := by
  simp only [Bool.and_eq_true, Bool.not_eq_true', bne_iff_ne, ne_eq] at b
  exact ⟨⟨t, ⟨h, b.1.1.1.1, b.1.1.1.2, fun _ => here_of b.1.1.2⟩, rfl, rfl⟩, b.1.2, b.2⟩

theorem witness_Transfers : ∀ i ∈ [Instr.nop h0, .b h0 5, .call h0 0xFFFFF, .calli h0 1, .ret h0], Ready i h0 [1] (mkS i [(1, ⟨0x48, 0x6000⟩)] codeM) :=
  ready_all (by decide +kernel)
theorem witness_Transfers_room : (base.cores[(0 : Fin 32)].slim false).toNat < (base.cores[(0 : Fin 32)].sp false).toNat := by decide +kernel
def callS : State := mkS (.calli h0 1) [(1, ⟨0x48, 0x6000⟩)] codeM
theorem witness_Transfers_calli : goodPtr ⟨0x48, 0x6000⟩ = true ∧
    callTarget 0 ⟨0x48, 0x6000⟩ callS = .ok (okOf (callTarget 0 ⟨0x48, 0x6000⟩) (0, false) callS).1 (okOf (callTarget 0 ⟨0x48, 0x6000⟩) (0, false) callS).2 ∧
    (okOf (callTarget 0 ⟨0x48, 0x6000⟩) (0, false) callS).1 = (0xC00D, true) ∧
    settledB 0 (okOf (callTarget 0 ⟨0x48, 0x6000⟩) (0, false) callS).2 = true :=
  ⟨by decide +kernel, ok_of _ (by decide +kernel), by decide +kernel, by decide +kernel⟩
def retS : State := mkS (.ret h0) [] [(0x3000, mkReta 0x55 0 true)]
theorem witness_Transfers_ret : Ready (.ret h0) h0 [] retS ∧
    OnStack retS 0 (fld (retS.cores[(0 : Fin 32)].sp false) 0 48) (mkReta 0x55 0 true) (retS.loaded 0 (trOf retS .read 0x3000) 0x3000 false) :=
  ⟨ready_of (by decide +kernel), ⟨trOf retS .read 0x3000, by decide +kernel, .inr ⟨by decide +kernel, reach_dtlb _ rfl (by decide +kernel), rfl⟩⟩⟩
theorem test_call_pushes : after (.call h0 0xFFFFF) (at_ (.call h0 0xFFFFF) []) (fun t => t.cores[(0 : Fin 32)].lo.pc == 0x1FFF &&
    t.cores[(0 : Fin 32)].lo.spS == 0x2FFF && t.cores[(0 : Fin 32)].stackHit 0x2FFF == some (mkReta 0x2001 0 true)) = true := by decide +kernel

theorem witness_LoopAndLit : ∀ n ∈ [(1 : BitVec 64), 0], Ready (.loop h0 1 5) h0 [1] (two (.loop h0 1 5) (Word.fix n) (Word.fix n)) := by
  have b : ([(1 : BitVec 64), 0].all fun n => readyB (.loop h0 1 5) h0 [1] (two (.loop h0 1 5) (Word.fix n) (Word.fix n))) = true := by decide +kernel
  exact fun n m => ready_of (List.all_eq_true.mp b n m)
def litS (w : Word) : State := (at_ (.lit h0 3) []).modCore 0 fun x => { x with fetchBuf := x.fetchBuf ++ [(0x1001, w)] }
theorem witness_LoopAndLit_literal : Ready (.lit h0 3) h0 [3] (litS (Word.fix 9)) ∧ literalCheck (Word.fix 9) = none ∧
    literalCheck ⟨0xFF, 0⟩ = some .uninitUse ∧
    (litS (Word.fix 9)).cores[(0 : Fin 32)].fetchBuf.find? (fun e => e.1 == pcWord (litS (Word.fix 9)).cores[(0 : Fin 32)].lo.pc + 1) = some (0x1001, Word.fix 9) :=
  ⟨ready_of (by decide +kernel), by decide +kernel, by decide +kernel, by decide +kernel⟩

/-- A handler about to return to user level. -/
def eretS : State := (mkS (.eret h0) [] [(0x3000, Word.raw 0x20), (0x3001, mkReta 0x66 0 false)]).modCore 0 fun x =>
  { x with lo := { x.lo with epc := (mkReta 0x888 0 false).datum, estat := 0, depth := 2 } }
theorem witness_SupervisorControl : (∀ i ∈ [Instr.trap h0 7, .brk h0 9, .hold h0 100], Ready i h0 [] (at_ i [])) ∧ Ready (.eret h0) h0 [] eretS :=
  ⟨ready_all (by decide +kernel), ready_of (by decide +kernel)⟩
theorem witness_SupervisorControl_eret :
    fld eretS.cores[(0 : Fin 32)].lo.epc 62 2 = BitVec.ofNat 2 (eretS.world 0).val ∧
    bit eretS.cores[(0 : Fin 32)].lo.epc 61 = bit eretS.cores[(0 : Fin 32)].lo.estat 13 ∧
    OnStack eretS 0 0x3000 (Word.raw 0x20) (eretS.loaded 0 (trOf eretS .read 0x3000) 0x3000 false) ∧
    OnStack (eretS.loaded 0 (trOf eretS .read 0x3000) 0x3000 false) 0 0x3001 (mkReta 0x66 0 false)
      ((eretS.loaded 0 (trOf eretS .read 0x3000) 0x3000 false).loaded 0 (trOf eretS .read 0x3001) 0x3001 false) :=
  ⟨by decide +kernel, by decide +kernel,
    ⟨trOf eretS .read 0x3000, by decide +kernel, .inr ⟨by decide +kernel, reach_dtlb _ rfl (by decide +kernel), rfl⟩⟩,
    ⟨trOf eretS .read 0x3001, by decide +kernel, .inr ⟨by decide +kernel, reach_dtlb _ rfl (by decide +kernel), rfl⟩⟩⟩
theorem test_trap_enters : after (.trap h0 7) (at_ (.trap h0 7) []) (fun t => fld t.cores[(0 : Fin 32)].lo.cause 0 8 == (0x3C : BitVec 8) &&
    t.cores[(0 : Fin 32)].lo.epc == (mkReta 0x2001 0 true).datum && t.cores[(0 : Fin 32)].lo.depth == 1) = true := by decide +kernel

theorem witness_FencesAndInvalidation : ∀ i ∈ [Instr.fence h0, .fenceI h0, .tlbiVa h0 1, .tlbiWorld h0, .tlbiWorldg h0],
    Ready i h0 [1] (two i (Word.raw 0x5000) Word.nil) := ready_all (by decide +kernel)
theorem witness_FencesAndInvalidation_empty : base.cores[(0 : Fin 32)].stackBufU = [] ∧ base.cores[(0 : Fin 32)].stackBufS = [] ∧ base.user 0 = false := by
  decide +kernel

def ldwS : State := mkS (.ldw h0 3 1 2) [(1, vec)] vecM
theorem witness_LoadsDeliver :
    ∀ i ∈ [Instr.ldw h0 3 1 2, .ldws h0 3 1 2, .ldx h0 3 1 2, .ldf h0 3 1 2, .lds h0 3 0x2002], Ready i h0 [3, 1, 2] (mkS i [(1, vec), (2, Word.fix 4)] vecM) :=
  ready_all (by decide +kernel)
theorem witness_LoadsDeliver_word : goodPtr vec = true ∧ Loads ldwS 0 0x5002 (ldwS.sees 0 (trOf ldwS .read 0x5002) 0x5002)
      (ldwS.loaded 0 (trOf ldwS .read 0x5002) 0x5002 false) ∧ ldwS.sees 0 (trOf ldwS .read 0x5002) 0x5002 = Word.fix 3 ∧ lchkWord (Word.fix 3) = none :=
  ⟨by decide +kernel, load_of _ rfl (by decide +kernel), by decide +kernel, by decide +kernel⟩
/-- A core whose world is granted every block, with a DEVREF of block 15 that takes its own offset. -/
def grants (s : State) : State :=
  s.modWorld 0 fun w => { w with loadGrant := 0xFFFF, storeGrant := 0xFFFF, unitLast := Vector.replicate 16 255 }
def ldwFar : State := mkS (.ldw h0 3 1 0) [(1, ⟨0x41, 0x80000000000⟩)] []
theorem witness_LoadsDeliver_fault : Ready (.ldw h0 3 1 0) h0 [3, 1] ldwFar ∧ goodPtr ⟨0x41, 0x80000000000⟩ = true ∧
    (match (translate ldwFar 0 (ldwFar.world 0) (ldwFar.user 0) .read 0x80000000000).1 with
      | .error _ => true
      | .ok _ => false) = true := ⟨ready_of (by decide +kernel), by decide +kernel, by decide +kernel⟩
theorem witness_LoadsDeliver_other : goodPtr (Word.fix 5) = false ∧ goodRef (Word.fix 5) = false ∧ chkWord (Word.fix 5) = none ∧
    chkWord ⟨0xFE, 0⟩ = some .poisonUse := by decide +kernel
def stS (i : Instr) : State := mkS i [(1, vec), (2, Word.fix 4), (3, Word.true)] vecM
theorem witness_StoresPut : ∀ i ∈ [Instr.stw h0 3 1 2, .stx h0 3 1 2, .stf h0 3 1 2, .sts h0 3 31, .sts h0 3 32], Ready i h0 [3, 1, 2] (stS i) :=
  ready_all (by decide +kernel)
theorem witness_StoresPut_word : schkWord Word.true = none ∧ heapInternal Word.true = false ∧ heapInternal (mkHdr 4 2 0) = true ∧
    Reaches .write (stS (.stw h0 3 1 2)) 0 0x5002 (trOf (stS (.stw h0 3 1 2)) .write 0x5002) ∧
    Reaches .write (stS (.sts h0 3 31)) 0 0x301F (trOf (stS (.sts h0 3 31)) .write 0x301F) :=
  ⟨by decide +kernel, by decide +kernel, by decide +kernel, reach_dtlb _ rfl (by decide +kernel), reach_dtlb _ rfl (by decide +kernel)⟩
theorem test_ldx_address : after (.ldx h0 3 1 2) (mkS (.ldx h0 3 1 2) [(1, vec)] vecM) (fun t => t.cores[(0 : Fin 32)].reg 3 == Word.fix 3) = true := by
  decide +kernel
theorem test_ldf_bound : after (.ldf h0 3 1 2) (mkS (.ldf h0 3 1 2) [(1, vec), (2, Word.fix 5)] vecM)
    (fun t => fld t.cores[(0 : Fin 32)].lo.cause 0 8 == (0x01 : BitVec 8)) = true := by decide +kernel

/-- A store waiting that marks a card, and a card queue. -/
def drainS : State := (base.modCore 0 fun x => { x with storeBuf := [{ pa := 0x5000, word := Word.fix 3, card := some (0, 65) }] }).modCluster 0 fun k => { k with cardQueue := [(0, 65)] }
theorem witness_DrainsMakeVisible : memWf drainS.mem = true ∧ memWf drainS.cutActive = true ∧ drainS.cores[(0 : Fin 32)].stopped = false ∧
    drainS.cores[(0 : Fin 32)].storeBuf = { pa := 0x5000, word := Word.fix 3, card := some (0, 65) } :: [] ∧ drainS.inDram 0x5000 = true ∧
    drainS.clusters[(0 : Fin 8)].cardQueue = (0, 65) :: [] ∧ drainS.inDram (drainS.worlds[(0 : Fin 2)].heap.cards.toNat + 65 / 64) = true := by decide +kernel
def spillS (sb : List StackEntry) (sp : List SpillEntry) : State := base.modCore 0 fun x => { x with stackBufS := sb, spills := sp }
theorem witness_DrainsMakeVisible_spill :
    (spillS [⟨0x2FFF, Word.true⟩] []).cores[(0 : Fin 32)].stackBuf false = ⟨0x2FFF, Word.true⟩ :: [] ∧
    (spillS [⟨0x2FFF, Word.true⟩] []).cores[(0 : Fin 32)].running = true ∧ (spillS [] []).cores[(0 : Fin 32)].stackHit 0x2FFF = none ∧
    (spillS [] []).cores[(0 : Fin 32)].flipped[(0 : Fin 2)] = false ∧
    translate (spillS [] []) 0 0 false .write 0x2FFF = (.ok (trOf (spillS [] []) .write 0x2FFF), spillS [] []) ∧
    (trOf (spillS [] []) .write 0x2FFF).se = false ∧ (spillS [] []).inDram (trOf (spillS [] []) .write 0x2FFF).pa.toNat = true :=
  ⟨by decide +kernel, by decide +kernel, by decide +kernel, by decide +kernel, rfl, by decide +kernel, by decide +kernel⟩
theorem witness_DrainsMakeVisible_background : (spillS [] [⟨0, 3, true, 0x2FFF, Word.true⟩]).cores[(0 : Fin 32)].spills = ⟨0, 3, true, 0x2FFF, Word.true⟩ :: [] := by
  decide +kernel
theorem test_drain_visible : after (.storeBufferDrain 0) drainS (fun t => t.peek 0x5000 == Word.fix 3 && t.cores[(0 : Fin 32)].storeBuf.isEmpty) = true := by decide +kernel

/-- A string of nine bytes at 0x5000. -/
def strM : List (Nat × Word) := [(0x5000, mkHdr 3 3 0), (0x5001, Word.fix 9), (0x5002, Word.raw 0x8877665544332211), (0x5003, Word.raw 0x99)]
def byteS (i : Instr) (a : Word) (n : BitVec 64) : State := mkS i [(1, a), (2, Word.fix n), (3, Word.fix 255)] strM
theorem witness_BytesAndSpadj : ∀ i ∈ [Instr.ldb h0 3 1 2, .stb h0 3 1 2], Ready i h0 [3, 1, 2] (byteS i (Word.raw 5) 7) := ready_all (by decide +kernel)
theorem witness_BytesAndSpadj_string : Ready (.ldb h0 3 1 2) h0 [3, 1, 2] (byteS (.ldb h0 3 1 2) ⟨0x42, 0x5000⟩ 8) ∧ goodPtr ⟨0x42, 0x5000⟩ = true ∧
    byteWord (Word.raw 5) = true ∧
    Loads (byteS (.ldb h0 3 1 2) ⟨0x42, 0x5000⟩ 8) 0 0x5000 ((byteS (.ldb h0 3 1 2) ⟨0x42, 0x5000⟩ 8).sees 0 (trOf (byteS (.ldb h0 3 1 2) ⟨0x42, 0x5000⟩ 8) .read 0x5000) 0x5000)
      ((byteS (.ldb h0 3 1 2) ⟨0x42, 0x5000⟩ 8).loaded 0 (trOf (byteS (.ldb h0 3 1 2) ⟨0x42, 0x5000⟩ 8) .read 0x5000) 0x5000 false) ∧
    ((byteS (.ldb h0 3 1 2) ⟨0x42, 0x5000⟩ 8).sees 0 (trOf (byteS (.ldb h0 3 1 2) ⟨0x42, 0x5000⟩ 8) .read 0x5000) 0x5000) = mkHdr 3 3 0 :=
  ⟨ready_of (by decide +kernel), by decide +kernel, by decide +kernel, load_of _ rfl (by decide +kernel), by decide +kernel⟩
theorem witness_BytesAndSpadj_spadj : ∀ i ∈ [Instr.spadj h0 5, .spadj h0 0x7F00, .spadj h0 0x7EFF], Ready i h0 [] (at_ i []) := ready_all (by decide +kernel)
theorem witness_BytesAndSpadj_bounds : let x := base.cores[(0 : Fin 32)]
    ((x.slim false).toNat : Int) ≤ (x.sp false).toNat + (0x7F00 : BitVec 15).toInt ∧
    ((x.sp false).toNat : Int) + (0x7EFF : BitVec 15).toInt < (x.slim false).toNat := by decide +kernel
theorem test_ldb_string : after (.ldb h0 3 1 2) (byteS (.ldb h0 3 1 2) ⟨0x42, 0x5000⟩ 8) (fun t => t.cores[(0 : Fin 32)].reg 3 == Word.fix 0x99) = true := by
  decide +kernel

/-! ## Witnesses: allocation, waiting, messages, clamps, saves, lathe jobs -/

/-- Stores made one after another from an address upward. -/
def storeAll (s : State) : BitVec 48 → List Word → State
  | _, [] => s
  | va, w :: ws => storeAll (s.stored 0 (trOf s .write va) va w (s.cardMark 0 (s.world 0) va w)) (va + 1) ws
def allocS (a b : Word) : State := (at_ (.alloc h0 3 1 2) [(1, a), (2, b)]).modHeap 0 fun h => { h with count := 0 }
def allocS1 : State := (allocS (Word.fix 1) (Word.fix 0x4102)).modCore 0 fun x => { x with lo := { x.lo with allocp := x.lo.allocp + 1 + 1 } }
def allocS2 : State := allocS1.stored 0 (trOf allocS1 .write 0x2000) 0x2000 (mkHdr 1 2 0) (allocS1.cardMark 0 (allocS1.world 0) 0x2000 (mkHdr 1 2 0))

theorem witness_AllocDelivers : Ready (.alloc h0 3 1 2) h0 [3, 1, 2] (allocS (Word.fix 1) (Word.fix 0x4102)) ∧ allocOk (Word.fix 1) (Word.fix 0x4102) = true ∧
    kindPinned 2 = false ∧ (allocS (Word.fix 1) (Word.fix 0x4102)).cores[(0 : Fin 32)].lo.allocp.toNat + 1 + 1 ≤
      (allocS (Word.fix 1) (Word.fix 0x4102)).cores[(0 : Fin 32)].lo.allocl.toNat ∧
    (allocS (Word.fix 1) (Word.fix 0x4102)).condemned 0 0 0x2000 = false :=
  ⟨ready_of (by decide +kernel), by decide +kernel, by decide +kernel, by decide +kernel, by decide +kernel⟩
theorem witness_AllocDelivers_stores : ∃ s', Stores 0 allocS1 0x2000 [mkHdr 1 2 0, Word.nil] s' ∧ settledB 0 s' = true :=
  ⟨_, ⟨trOf allocS1 .write 0x2000, reach_dtlb _ rfl (by decide +kernel), trOf allocS2 .write 0x2001, reach_dtlb _ rfl (by decide +kernel), rfl⟩,
    by decide +kernel⟩
theorem witness_AllocDelivers_refused : allocOk (Word.fix (-1)) (Word.fix 0x4102) = false ∧ chkWord (Word.fix (-1)) = none ∧
    allocOk (Word.fix 40) (Word.fix 0x4B0C) = true ∧ (fld (0x4B0C : BitVec 64) 8 8 : BitVec 8) = 0x4B := by decide +kernel
theorem test_alloc_header : after (.alloc h0 3 1 2) (allocS (Word.fix 1) (Word.fix 0x4102)) (fun t => t.cores[(0 : Fin 32)].reg 3 == ⟨0x41, 0x2000⟩ &&
    t.cores[(0 : Fin 32)].lo.allocp == 0x2002 && (t.coreRead 0 0x2000).1 == mkHdr 1 2 0 && (t.coreRead 0 0x2001).1 == Word.nil) = true := by
  decide +kernel

/-- The Imtur count runs. -/
def tick (s : State) (n : BitVec 64) : State := { s with imt := { s.imt with started := true, count := n } }
def waitS (a : Word) : State := tick (at_ (.wait h0 3 1) [(1, a)]) 100
/-- Two lines latched at one tick. -/
def latched (s : State) : State := { s with jig := { s.jig with
  ev := vset (vset s.jig.ev 9 { core := 0, slot := 0, en := true, latched := true, stamp := 50 }) 4 { core := 0, slot := 0, en := true, latched := true, stamp := 50 } } }
theorem deadline_nil {s : State} : DeadlineOf s Word.nil none := .inl ⟨rfl, rfl⟩
theorem deadline_inst {s : State} (t : BitVec 64) : DeadlineOf s (Word.inst t) (some t) := .inr (.inl ⟨t, rfl, rfl⟩)
theorem witness_WaitsAndMessages : Ready (.wait h0 3 1) h0 [3, 1] (latched (waitS Word.nil)) ∧ DeadlineOf (latched (waitS Word.nil)) Word.nil none ∧
    (latched (waitS Word.nil)).oldestLine 0 none = some 4 := ⟨ready_of (by decide +kernel), deadline_nil, by decide +kernel⟩
theorem witness_WaitsAndMessages_blocks : Ready (.wait h0 3 1) h0 [3, 1] (waitS (Word.inst 100)) ∧ DeadlineOf (waitS (Word.inst 100)) (Word.inst 100) (some 100) ∧
    (waitS (Word.inst 100)).oldestLine 0 (some 100) = none ∧ (waitS (Word.inst 100)).deadlineOver (some 100) = false ∧
    (waitS (Word.inst 100)).deadlineOver (some 99) = true :=
  ⟨ready_of (by decide +kernel), deadline_inst _, by decide +kernel, by decide +kernel, by decide +kernel⟩
def signalS : State :=
  let s := at_ (.signal h0 1) [(1, Word.fix 7)]
  { s with jig := { s.jig with ev := vset s.jig.ev 7 { core := 0, slot := 0, en := true, swr := true } } }
theorem witness_WaitsAndMessages_signal : Ready (.signal h0 1) h0 [1] signalS ∧ Word.fix 7 = Word.fix (BitVec.ofNat 64 (7 : Fin 256).val) ∧
    signalS.jig.ev[(7 : Fin 256)].swr = true ∧ Settled 0 (signalS.raise 7) := ⟨ready_of (by decide +kernel), rfl, by decide +kernel, settled_of (by decide +kernel)⟩
def sendS : State := at_ (.send h0 3 1) [(3, Word.fix 0x4000), (1, Word.fix 5)]
theorem witness_WaitsAndMessages_send : Ready (.send h0 3 1) h0 [3, 1] sendS ∧ sendDest (sendS.world 0) (Word.fix 0x4000) = true ∧ sendable (Word.fix 5) = true ∧
    Settled 0 ((sendS.drainStores 0).kmOriginate 0 (.message 0 1 (Word.fix 5))) ∧ sendDest 0 (Word.fix 0x5000) = false ∧ sendable ⟨0x41, 0x5000⟩ = false :=
  ⟨ready_of (by decide +kernel), by decide +kernel, by decide +kernel, settled_of (by decide +kernel), by decide +kernel, by decide +kernel⟩
def recvS (a : Word) (e : List (BitVec 64 × Word)) : State := (tick (at_ (.recv h0 3 1) [(1, a)]) 100).modRq 0 5 fun r => { r with en := true, entries := e }
theorem witness_WaitsAndMessages_recv : Ready (.recv h0 3 1) h0 [3, 1] (recvS Word.nil [(4, Word.true), (5, Word.nil)]) ∧
    (recvS Word.nil [(4, Word.true), (5, Word.nil)]).oldestEntry 0 none = some (5, 0, 4, Word.true) ∧ (recvS Word.nil []).oldestEntry 0 none = none :=
  ⟨ready_of (by decide +kernel), by decide +kernel, by decide +kernel⟩
theorem test_wait_lowest : after (.wait h0 3 1) (latched (waitS Word.nil)) (fun t => t.cores[(0 : Fin 32)].reg 3 == Word.fix 4 &&
    !t.jig.ev[(4 : Fin 256)].latched && t.jig.ev[(9 : Fin 256)].latched) = true := by decide +kernel

def clampS (w a : Word) : State := tick (mkS (.clamp h0 3 1 1) [(1, vec), (3, a)] [(0x5001, w)]) 100
def unclampS (w : Word) : State := tick (mkS (.unclamp h0 1 1) [(1, vec)] [(0x5001, w)]) 100
theorem witness_Clamps : Ready (.clamp h0 3 1 1) h0 [3, 1] (clampS (freeClmp 5) Word.nil) ∧ goodPtr vec = true ∧ (clampS (freeClmp 5) Word.nil).quietWord 0 vec ∧
    (clampS (freeClmp 5) Word.nil).cores[(0 : Fin 32)].stackBufU = [] ∧ (clampS (freeClmp 5) Word.nil).cores[(0 : Fin 32)].stackBufS = [] ∧
    Reaches .rmw ((clampS (freeClmp 5) Word.nil).drainStores 0) 0 0x5001 (trOf ((clampS (freeClmp 5) Word.nil).drainStores 0) .rmw 0x5001) ∧
    ((clampS (freeClmp 5) Word.nil).drainStores 0).sees 0 (trOf ((clampS (freeClmp 5) Word.nil).drainStores 0) .rmw 0x5001) 0x5001 = freeClmp 5 ∧
    (freeClmp 5).tag = 0x0D ∧ malformed (freeClmp 5) = false ∧ clmpHeld (freeClmp 5) = false :=
  ⟨ready_of (by decide +kernel), by decide +kernel, ⟨by decide +kernel, by decide +kernel⟩, by decide +kernel, by decide +kernel,
    reach_dtlb _ rfl (by decide +kernel), by decide +kernel, by decide +kernel, by decide +kernel, by decide +kernel⟩
theorem witness_Clamps_held : malformed (mkClmp 1 0 0xFFFF) = false ∧ clmpHeld (mkClmp 1 0 0xFFFF) = true ∧
    (clampS (mkClmp 1 0 3) Word.nil).clampChain (0, 0) 8 (clmpOwner (mkClmp 1 0 3)) = false ∧
    (clampS (mkClmp 0 0 3) Word.nil).clampChain (0, 0) 8 (clmpOwner (mkClmp 0 0 3)) = true := by decide +kernel
def unclampW : State := (unclampS (mkClmp 0 0 2)).modSlot 0 3 fun k => { k with state := .clamped, prio := 4, block := some (.clamp 0x5001 none 5) }
theorem witness_Clamps_unclamp : Ready (.unclamp h0 1 1) h0 [1] unclampW ∧ clmpOwner (mkClmp 0 0 2) = ((0 : Fin 32), (0 : Fin 64)) ∧ clmpWaiters (mkClmp 0 0 2) ≠ 0 ∧
    minBy unclampW.waiterKey (unclampW.waitersOf 0x5001) = some (0, 3) ∧ (unclampS (mkClmp 0 0 0)).waitersOf 0x5001 = [] ∧
    clmpOwner (mkClmp 0 1 2) ≠ ((0 : Fin 32), (0 : Fin 64)) :=
  ⟨ready_of (by decide +kernel), by decide +kernel, by decide +kernel, by decide +kernel, by decide +kernel, by decide +kernel⟩
theorem test_clamp_takes : after (.clamp h0 3 1 1) (clampS (freeClmp 5) Word.nil) (fun t => t.peek 0x5001 == mkClmp 0 0 5 &&
    t.cores[(0 : Fin 32)].reg 3 == Word.true) = true := by decide +kernel
theorem test_unclamp_grants : after (.unclamp h0 1 1) unclampW (fun t => t.peek 0x5001 == mkClmp 0 3 1 && (t.slot 0 3).state == .ready) = true := by
  decide +kernel

/-- The context has a drawer that is free. -/
def drawM : List (Nat × Word) := [(0x4002, Word.nil), (0x4003, ⟨0x4B, 0x7000⟩), (0x7000, mkHdr 40 12 0), (0x7001, Word.nil)]
/-- The context has a drawer with a record in it. -/
def filledM (half : Nat) (ws : List Word) : List (Nat × Word) :=
  [(0x4002, ⟨0x4B, 0x7000⟩), (0x4003, Word.nil), (0x7000, mkHdr 40 12 0), (0x7001, Word.nil), (0x7002, Word.raw (BitVec.ofNat 64 half))] ++
    (List.range ws.length).map fun k => (0x7003 + k, ws.getD k Word.nil)
def restlS : State := mkS (.restl h0) [] (filledM 0 ((mkS (.savel h0) [] []).savelRecord 0))
def restuS : State := mkS (.restu h0) [] (filledM 1 ((List.range 20).map fun k => Word.fix (BitVec.ofNat 64 k)))
theorem witness_SavesAndMultiples : (∀ i ∈ [Instr.savel h0, .saveu h0, .stm h0 1 2 1, .ldm h0 1 2 1], Ready i h0 [1, 2] (mkS i [] drawM)) ∧
    Ready (.restl h0) h0 [] restlS ∧ Ready (.restu h0) h0 [] restuS := ⟨ready_all (by decide +kernel), ready_of (by decide +kernel), ready_of (by decide +kernel)⟩
theorem witness_SavesAndMultiples_restl :
    restRecord 0 0 36 restlS = .ok (okOf (restRecord 0 0 36) [] restlS).1 (okOf (restRecord 0 0 36) [] restlS).2 ∧
    Settled 0 ((okOf (restRecord 0 0 36) [] restlS).2.modCore 0 fun x => x.restLower (okOf (restRecord 0 0 36) [] restlS).1) :=
  ⟨ok_of _ (by decide +kernel), settled_of (by decide +kernel)⟩
theorem witness_SavesAndMultiples_restu :
    restRecord 0 1 20 restuS = .ok (okOf (restRecord 0 1 20) [] restuS).1 (okOf (restRecord 0 1 20) [] restuS).2 ∧
    Settled 0 (okOf (restRecord 0 1 20) [] restuS).2 := ⟨ok_of _ (by decide +kernel), settled_of (by decide +kernel)⟩
/-- STM and LDM of one register, with CTXCFG.SAVE = 1. -/
def multS (i : Instr) : State := (mkS i [(1, vec), (2, Word.fix (1 <<< 5)), (5, Word.true)] vecM).modWorld 0 fun w => { w with ctxcfg := 1 }
theorem witness_SavesAndMultiples_stm : ∀ i ∈ [Instr.stm h0 1 2 1, .ldm h0 1 2 1, .savel h0], Ready i h0 [1, 2, 5] (multS i) := ready_all (by decide +kernel)
theorem witness_SavesAndMultiples_words : Loads (multS (.ldm h0 1 2 1)) 0 0x5000 ((multS (.ldm h0 1 2 1)).sees 0 (trOf (multS (.ldm h0 1 2 1)) .read 0x5000) 0x5000)
      ((multS (.ldm h0 1 2 1)).loaded 0 (trOf (multS (.ldm h0 1 2 1)) .read 0x5000) 0x5000 false) ∧
    1 ≤ hdrLen (mkHdr 4 2 0) ∧ fld (multS (.ldm h0 1 2 1)).cores[(0 : Fin 32)].lo.stat 7 6 = (0 : BitVec 6) ∧
    bit (multS (.ldm h0 1 2 1)).worlds[(0 : Fin 2)].ctxcfg 0 = true := ⟨load_of _ rfl (by decide +kernel), by decide +kernel, by decide +kernel, by decide +kernel⟩
theorem test_ldm_moves : after (.ldm h0 1 2 1) (multS (.ldm h0 1 2 1)) (fun t => t.cores[(0 : Fin 32)].reg 5 == Word.fix 11) = true := by decide +kernel

/-- A lathe descriptor at 0x5000. -/
def descM (func p1 : Word) : List (Nat × Word) := [(0x5000, mkHdr 8 2 0), (0x5001, func), (0x5002, ⟨0x46, 0x6000⟩), (0x5003, ⟨0x46, 0x6100⟩),
  (0x5004, Word.nil), (0x5005, Word.nil), (0x5006, p1), (0x5007, Word.nil), (0x5008, Word.nil)]
def latheS (f p b : Word) : State := (mkS (.lathe h0 3 1 2) [(1, vec), (2, b)] (descM f p)).modCore 0 fun x =>
  { x with llNone := false, llSlot := x.slot, llDepth := x.lo.depth }
theorem witness_LatheIssues : Ready (.lathe h0 3 1 2) h0 [3, 1, 2] (latheS (Word.fix 0) (Word.raw 7) Word.nil) ∧
    (latheS (Word.fix 0) (Word.raw 7) Word.nil).cores[(0 : Fin 32)].ownsLathe = true ∧
    Loads (latheS (Word.fix 0) (Word.raw 7) Word.nil) 0 0x5001
      ((latheS (Word.fix 0) (Word.raw 7) Word.nil).sees 0 (trOf (latheS (Word.fix 0) (Word.raw 7) Word.nil) .read 0x5001) 0x5001)
      ((latheS (Word.fix 0) (Word.raw 7) Word.nil).loaded 0 (trOf (latheS (Word.fix 0) (Word.raw 7) Word.nil) .read 0x5001) 0x5001 false) :=
  ⟨ready_of (by decide +kernel), by decide +kernel, load_of _ rfl (by decide +kernel)⟩
/-- Lathe 4 asleep. -/
def latheOff : State :=
  let s := latheS (Word.fix 1) (Word.fix 7) (Word.fix 4)
  { s with pwr := { s.pwr with dom := vmod s.pwr.dom 68 fun x => { x with state := .off } } }
theorem witness_LatheIssues_absent : Ready (.lathe h0 3 1 2) h0 [3, 1, 2] latheOff ∧ latheOff.luOn 4 = false ∧ goodPtr vec = true := by
  refine ⟨ready_of (by decide +kernel), by decide +kernel, by decide +kernel⟩

/-! ## Witnesses: the Jig, the heap, caches, safety, time, cut lists -/

theorem grants_fv (s : State) (b : Fin 16) (u : Option Nat) : Grants s .favar b u Who.fv := ⟨rfl, rfl⟩
/-- The code of core 0 in the supervisor of world 0. -/
def who0 : Who := ⟨some 0, 0, false⟩
/-- The device out of reset with the count running; nothing else happened. -/
def dev (n : BitVec 64) : State := tick { State.reset with pwr := { State.reset.pwr with porLow := false } } n

def irqS (f : Bool) : State :=
  let q : Irq := { core := 0, slot := 0, en := true, fast := f, pend := true }
  { base with jig := { base.jig with irq := vset (vset base.jig.irq 7 q) 200 q } }
theorem witness_EntriesAtBoundary : (irqS false).entryOpen 0 = true ∧ (irqS false).abortDue 0 = false ∧ (irqS false).switchDue 0 = none ∧
    (irqS false).fastDue 0 = none ∧ (irqS false).intDue 0 = some 7 ∧ (irqS true).fastDue 0 = some 7 := by decide +kernel
theorem witness_EntriesAtBoundary_abort :
    ((base.modSlot 0 0 fun k => { k with abort := [5, 2] }).running 0).abort = [5, 2] ∧ base.entryOpen 0 = true ∧
    ((base.modSlot 0 0 fun k => { k with stackInvalid := [0x123456789] }).running 0).stackInvalid = [0x123456789] := by decide +kernel
theorem witness_EntriesAtBoundary_hold : let s := base.modCore 0 fun x => { x with lo := { x.lo with stat := 0xA000 } }
    s.coreLive 0 = true ∧ s.holdOpen 0 = true ∧ s.cores[(0 : Fin 32)].holdCount = 0 := by decide +kernel
theorem test_interrupt_lowest : after (.interruptEntry 0) (irqS false) (fun t => !t.jig.irq[(7 : Fin 256)].pend && t.jig.irq[(200 : Fin 256)].pend &&
    fld t.cores[(0 : Fin 32)].lo.cause 24 8 == (7 : BitVec 8)) = true := by decide +kernel

/-- A record of a lower half at 0x4109: PC 0x1500, depth 2. -/
def recM : List (Nat × Word) := (List.range 36).map fun k =>
  (0x4109 + k, if k = 17 then mkReta 0x1500 0 true else if k = 24 then Word.raw 0x2 else Word.fix (BitVec.ofNat 64 k))
/-- Two READY contexts of one rank, slot 3 READY longer, above the running one. -/
def switchS : State := ((withMem base recM).modSlot 0 3 fun k => { k with handle := 0x4100, state := .ready, prio := 5, readySince := 4, depth := 2 }).modSlot
  0 5 fun k => { k with handle := 0x4200, state := .ready, prio := 5, readySince := 6 }
theorem witness_JigSwitches : switchS.coreLive 0 = true ∧ switchS.switchDue 0 = some 3 ∧ switchS.cores[(0 : Fin 32)].running = true ∧
    switchS.entryOpen 0 = true ∧ switchS.abortDue 0 = false ∧ (∀ i, (switchS.slot 0 i).readySince < 2 ^ 64) ∧
    (switchS.slot 0 5).state = .ready := by decide +kernel
theorem witness_JigSwitches_idle : let s := (switchS.modCore 0 fun x => { x with running := false }).modSlot 0 0 fun k => { k with state := .empty }
    s.coreLive 0 = true ∧ s.switchDue 0 = some 3 ∧ s.cores[(0 : Fin 32)].running = false := by decide +kernel
theorem witness_JigSwitches_record : okB (getWords (switchS.viaSlot 0 3 6) 36 ((switchS.slot 0 3).handle + 9)) switchS = true := by decide +kernel
theorem test_switch_in : after (.jigSwitch 0) switchS (fun t => t.cores[(0 : Fin 32)].slot == 3 && t.cores[(0 : Fin 32)].lo.pc == 0x1500 &&
    t.cores[(0 : Fin 32)].reg 2 == Word.fix 2 && (t.slot 0 0).state == .ready) = true := by decide +kernel

def blockedS (st : SlotState) (b : Block) : State := tick (base.modSlot 0 4 fun k => { k with state := st, block := some b }) 100
theorem witness_DeadlinesAndWatchdog : ((blockedS .waiting (.wait (some 99))).slot 0 4).state = .waiting ∧
    ((blockedS .waiting (.wait (some 99))).slot 0 4).block = some (.wait (some 99)) ∧ (blockedS .waiting (.wait (some 99))).deadlineOver (some 99) = true ∧
    ((blockedS .clamped (.clamp 0x5001 (some 99) 5)).slot 0 4).block = some (.clamp 0x5001 (some 99) 5) ∧
    ((blockedS .receiving (.recv (some 99))).slot 0 4).block = some (.recv (some 99)) := by decide +kernel
theorem witness_DeadlinesAndWatchdog_watchdog : let s := tick (base.modCore 0 fun x => { x with wdLimit := 1, wdStart := 5 }) 1005
    s.domOn 0 = true ∧ s.cores[(0 : Fin 32)].running = true ∧ s.cores[(0 : Fin 32)].halted = false ∧ s.cores[(0 : Fin 32)].wdLimit ≠ 0 ∧
      s.cores[(0 : Fin 32)].wdDone = false ∧
      s.cores[(0 : Fin 32)].wdLimit.toNat * 1000 ≤ (s.now - s.cores[(0 : Fin 32)].wdStart).toNat := by decide +kernel
theorem witness_DeadlinesAndWatchdog_drawer : Grants base .favar 13 (some 0) Who.fv ∧ base.domOn 0 = true ∧ bit (1 : BitVec 64) 0 = true :=
  ⟨grants_fv _ _ _, by decide +kernel, by decide +kernel⟩

def slotS (st : SlotState) (k : Fin 64) : State := base.modSlot 0 k fun x => { x with state := st, handle := 0x4100, prio := 4 }
theorem witness_SlotCommands : ((slotS .ready 3).slot 0 3).state = .ready ∧ ((slotS .parked 3).slot 0 3).state = .parked ∧ (base.slot 0 3).state = .empty ∧
    (base.slot 0 0).state = .running ∧ SlotState.blocked .waiting = true ∧ (fld (0x0010000000004100 : BitVec 64) 52 3 : BitVec 3) = 1 ∧
    (fld (0x0060000000004100 : BitVec 64) 52 3 : BitVec 3) = 6 ∧ (fld (0x0000000000004100 : BitVec 64) 52 3 : BitVec 3) = 0 ∧ base.domOn 0 = true ∧
    base.assigned 0 0 = false := by decide +kernel
theorem witness_SlotCommands_world : Grants (grants base) (.core 0) 13 (some 0) who0 ∧ Grants (grants base) (.core 0) 13 none who0 :=
  ⟨⟨by decide +kernel, by decide +kernel⟩, ⟨by decide +kernel, by decide +kernel⟩⟩
/-- A CONTEXT object at 0x4100 and a core that the partition gives to world 0. -/
def loadS : State :=
  let s := (withMem base ((0x4100, mkHdr 156 13 0) :: (0x4101, Word.raw 0) :: (0x4106, Word.fix 1) :: recM)).modSlot 0 3 fun x => { x with handle := 0x4100, prio := 5 }
  { s with fv := { s.fv with use := Vector.replicate 32 .test } }
theorem witness_SlotCommands_load : loadS.assigned 0 0 = true ∧ (match (loadContext ⟨0, 0, false, 6⟩ 3 0x4100).run loadS with
    | .ok (some (_, d, _)) _ => d == 2
    | _ => false) = true := by decide +kernel
theorem test_slot_ready : after (.slotReady .favar 0 3 0x0014000000004100) (slotS .parked 3) (fun t => (t.slot 0 3).state == .ready && (t.slot 0 3).prio == 4) = true := by
  decide +kernel

theorem witness_HeapCommands : Grants base .favar 11 (some (16 + (0 : Fin 2).val)) Who.fv ∧ bit (1 : BitVec 64) 0 = true ∧ bit (1 : BitVec 64) 2 = false ∧
    bit (4 : BitVec 64) 2 = true ∧ base.worlds[(0 : Fin 2)].heap.phase = .idle ∧ (base.modHeap 0 fun h => { h with phase := .copy }).worlds[(0 : Fin 2)].heap.phase ≠ .idle :=
  ⟨grants_fv _ _ _, by decide +kernel, by decide +kernel, by decide +kernel, by decide +kernel, by decide +kernel⟩
def poolS : State := base.modHeap 0 fun h => { h with poolSize := 8, poolAddr := 0x6000, poolHead := 0xFFFFFFFE, poolTail := 3 }
theorem witness_HeapCommands_pool : poolS.worlds[(0 : Fin 2)].heap.poolSize ≠ 0 ∧
    (poolS.worlds[(0 : Fin 2)].heap.poolTail - poolS.worlds[(0 : Fin 2)].heap.poolHead).toNat < 8 ∧ base.worlds[(0 : Fin 2)].heap.poolSize = 0 := by decide +kernel
def reloadS : State := (base.modCore 0 fun x => { x with reload := Vector.replicate 2 true }).modHeap 0 fun h => { h with syncBusy := true, bmap := 0x6000, count := 2 }
theorem witness_HeapCommands_reload : reloadS.cores[(0 : Fin 32)].reload[(0 : Fin 2)] = true ∧ (base.cores.toList.all fun x => !x.reload[(0 : Fin 2)]) = true := by decide +kernel
theorem test_give_tail : after (.cchGive .favar 0 5) poolS (fun t => t.peek 0x6003 == Word.raw 5 && t.worlds[(0 : Fin 2)].heap.poolTail == 4) = true := by
  decide +kernel

/-- A heap of two boards from 0x10000 with a nursery board, one board in the pool; core 0 is the world's. -/
def heapS : State :=
  let s := base.modHeap 0 fun h => { h with bmap := 0x6000, count := 2, base := 1, cards := 0x6100, seen := 0x6200, poolAddr := 0x6300, poolSize := 8, poolTail := 1 }
  let s := { s with fv := { s.fv with use := vset (Vector.replicate 32 .unused) 0 .test } }
  withMem s [(0x6000, Word.raw 0), (0x6300, Word.raw 2)]
/-- The state that a command answers. -/
def nextOf (i : Instr) (s : State) : State :=
  match exec i s with
  | .next t => t
  | _ => s
def flipS : State := heapS.modHeap 0 fun h => { h with phase := .flip }
theorem witness_PlanerPhases : (flipS.planerVia 0).isSome = true ∧ flipS.planerFree 0 = true ∧ flipS.worlds[(0 : Fin 2)].heap.phase = .flip ∧
    flipS.worlds[(0 : Fin 2)].heap.workDone = false ∧ (nextOf (.planerFlip 0) flipS).worlds[(0 : Fin 2)].heap.workDone = true := by decide +kernel
theorem witness_PlanerPhases_core : let s := nextOf (.boardMapReload 0 0) (nextOf (.planerFlip 0) flipS)
    s.coreLive 0 = true ∧ s.cores[(0 : Fin 32)].flipDue[(0 : Fin 2)] = true ∧ s.cores[(0 : Fin 32)].reload[(0 : Fin 2)] = false ∧ s.world 0 = 0 := by decide +kernel
theorem witness_PlanerPhases_copy : let s := nextOf (.coreFlip 0 0) (nextOf (.boardMapReload 0 0) (nextOf (.planerFlip 0) flipS))
    s.worlds[(0 : Fin 2)].heap.mayDo .flip .copy = true ∧ s.flipsDone 0 = true := by decide +kernel
theorem witness_PlanerPhases_later : let s := base.modHeap 0 fun h => { h with phase := .copy, workDone := true }
    let t := base.modHeap 0 fun h => { h with phase := .drain, workDone := true, fullCycle := true }
    let r := base.modHeap 0 fun h => { h with phase := .drain, workDone := true }
    s.worlds[(0 : Fin 2)].heap.mayDo .copy .drain = true ∧ t.worlds[(0 : Fin 2)].heap.mayDo .drain .sweep = true ∧
      r.worlds[(0 : Fin 2)].heap.workDone = true ∧ r.worlds[(0 : Fin 2)].heap.phase = .drain ∧ r.planerFree 0 = true := by decide +kernel

def sectorS (st : SectorState) (g : List PortReq) (s : State) : State :=
  (s.modCluster 0 fun c => { c with blocks := [{ blk := sectorBlk 0x100, way := 0, age := 1, sectors := Vector.replicate 4 st, lastStore := Vector.replicate 4 7 }] }).modPort 0 fun y =>
    { y with granted := g, trained := true }
theorem witness_CachesAndPorts :
    let s := sectorS .filling [⟨0, 5, false, 0x100, false, []⟩] (dev 1000)
    let t := sectorS .cleaning [⟨0, 5, true, 0x100, false, []⟩] (dev 1000)
    s.clusters[(0 : Fin 8)].sector 0x100 = .filling ∧ s.ports[sectorPort 0x100].granted.any (fun r => r.requester == clusterReq 0 && !r.write && r.sector == 0x100) = true ∧
      t.ports[sectorPort 0x100].granted.any (fun r => r.requester == clusterReq 0 && r.write && r.sector == 0x100) = true := by decide +kernel
theorem witness_CachesAndPorts_clean : let s := sectorS .dirty [] (dev 200000000)
    s.clusters[(0 : Fin 8)].sector 0x100 = .dirty ∧ (s.clusters[(0 : Fin 8)].blocks.any fun b => b.blk == sectorBlk 0x100 &&
      decide ((fld s.clusters[(0 : Fin 8)].cfg 8 16 : BitVec 16).toNat * 1000 ≤ s.now.toNat - b.lastStore[sectorIx 0x100])) = true ∧
    (fld s.clusters[(0 : Fin 8)].cfg 0 8 : BitVec 8) ≠ 0 ∧ (fld s.clusters[(0 : Fin 8)].cfg 0 8 : BitVec 8).toNat * 1000 ≤ (s.now - s.clusters[(0 : Fin 8)].lastSweep).toNat := by
  decide +kernel
theorem witness_CachesAndPorts_scrub : let s := sectorS .clean [] (dev 1000)
    s.ports[(0 : Fin 4)].trained = true ∧ (s.ports[(0 : Fin 4)].scrubPos.toNat / 64) % 4 = (0 : Fin 4).val ∧
      (s.clusters.toList.any fun c => c.sector (sectorOf 0) != .invalid) = false ∧ (s.clusters.toList.any fun c => c.sector (sectorOf 0x1000) != .invalid) = true := by
  decide +kernel
def portS : State := (dev 900001).modPort 0 fun y => { y with queue := [⟨3, 900000, false, 0x10, false, []⟩, ⟨10, 899990, true, 0x20, false, []⟩], granted := [⟨10, 5, true, 0x100, false, []⟩], trained := true }
theorem witness_CachesAndPorts_grant : ⟨10, 899990, true, 0x20, false, []⟩ ∈ portS.ports[(0 : Fin 4)].queue ∧
    (∀ o ∈ portS.ports[(0 : Fin 4)].queue, o ≠ ⟨10, 899990, true, 0x20, false, []⟩ → o.age portS.now < PortReq.age ⟨10, 899990, true, 0x20, false, []⟩ portS.now) ∧
    portS.hung 0 = some ⟨10, 5, true, 0x100, false, []⟩ := by decide +kernel
theorem test_grant_oldest : after (.arbiterGrant 0) portS (fun t => t.ports[(0 : Fin 4)].queue == [⟨3, 900000, false, 0x10, false, []⟩]) = true := by decide +kernel

/-- Core 0 runs the Guard supervisor. -/
def guardS : State := ((grants base).modSlot 0 0 fun k => { k with world := 1 }).modWorld 1 fun w =>
  { w with s2root := 0x0E00, entry := 0x1600, dramSize := 0x10000, storeGrant := 0xFFFF, loadGrant := 0xFFFF, unitLast := Vector.replicate 16 255 }
theorem witness_SafetyControls : Grants guardS (.core 0) 14 none ⟨some 0, 1, false⟩ ∧ Who.gs ⟨some 0, 1, false⟩ = true ∧ bit (9 : BitVec 64) 3 = true ∧
    bit (9 : BitVec 64) 0 = true ∧ bit (0x100 : BitVec 64) 8 = true ∧ bit (0x100 : BitVec 64) 0 = false :=
  ⟨⟨by decide +kernel, by decide +kernel⟩, by decide +kernel, by decide +kernel, by decide +kernel, by decide +kernel, by decide +kernel⟩
theorem witness_SafetyControls_test : Grants (grants base) (.core 0) 14 none who0 ∧ who0.gs = false ∧ who0.isFavar = false :=
  ⟨⟨by decide +kernel, by decide +kernel⟩, by decide +kernel, by decide +kernel⟩
theorem witness_SafetyControls_pins : (dev 5).alive = true ∧ (dev 5).safe.ainA = false ∧ { (dev 5).safe with ainB := true }.ainB = true := by decide +kernel
theorem test_abort_merged : lastTo 1 3 [1, 5, 1, 2] = [1, 5, 3, 2] ∧ lastTo 4 3 [1, 2] = [1, 2] := by decide +kernel
theorem test_abort_in : after (.abortInAssert true) (dev 5) (fun t => t.safe.mute && t.safe.ainB && !t.safe.ainA && !t.safe.fs) = true := by decide +kernel

def imtS (st : ImtState) (src : BitVec 64) (n : BitVec 64) : State :=
  let s := dev n
  { s with imt := { s.imt with state := st, src := src, kmDelay := Vector.replicate 8 { delay := 33, at_ := 1, valid := true }, good := 15 },
           km := { s.km with ports := s.km.ports.map fun (p : KmPort) => { p with trained := true } } }
theorem witness_TimeKeeping : (imtS .acquire 1 1000).alive = true ∧ (imtS .acquire 1 1000).imt.started = true ∧ (imtS .acquire 1 1000).imt.sel = 1 ∧
    (imtS .acquire 1 1000).imt.lockedEver = false ∧ (fld (imtS .acquire 1 1000).imt.cfg 16 16 : BitVec 16).toNat * 1000 < (((imtS .acquire 1 1000).imt.refsec - 1000).toInt * 1000 + 2000001).natAbs ∧
    (((imtS .acquire 1 1000).imt.refsec - 1000).toInt * 1000 + 1049999).natAbs < (fld (imtS .acquire 1 1000).imt.cfg 0 16 : BitVec 16).toNat * 1000 := by decide +kernel
theorem witness_TimeKeeping_frames : (imtS .locked 1 20000).imt.count.toNat % 10000 = 0 ∧ (imtS .locked 1 20000).km.ports[(0 : Fin 8)].trained = true ∧
    (imtS .locked 1 1000000000).imt.count.toNat % 1000000000 = 0 ∧ bit (imtS .locked 1 1000000000).imt.pps 17 = true ∧
    (imtS .locked 3 20000).imt.sel = 3 ∧ (imtS .holdover 7 20000).imt.master = true ∧ (imtS .holdover 7 20000).imt.state = .holdover ∧
    (∀ q : Fin 8, (imtS .holdover 7 20000).imt.seenBc[q].valid = false) := by decide +kernel
theorem test_first_lock_steps : after (.imtMeasurement 2500000) (imtS .acquire 1 1000) (fun t => t.imt.count == 2500 && t.imt.stepped) = true := by decide +kernel
theorem test_vote_two_of_three : after (.imtVoteMismatch 4 5 5) (dev 5) (fun t => t.imt.count == 5 && t.imt.fixes == 1 && t.imt.last == 0) = true := by decide +kernel

/-- A word of a cut action. -/
def act (op arg : Nat) : Word := Word.raw (BitVec.ofNat 64 (op + arg * 65536))
/-- List 2 of the world 0 about to take an entry, whose instant is 25000, at 30000. -/
def cutL (a : Word) (more : List (Nat × Word)) : State :=
  let s := (dev 30000).modWorld 0 fun w => { w with loadGrant := 0xFFFF, storeGrant := 0xFFFF, unitLast := Vector.replicate 16 255 }
  let s := s.modCut 2 fun l => { l with base := 10, cap := 8, acfg := 2, started := true, actAt := 20000 }
  { s with cutActive := (20, Word.inst 25000) :: (21, a) :: more }
def headOf (s : State) : CutHead := (s.cutHead 2).getD ⟨0, Word.nil, 0, 0, none, false, false, false⟩
theorem witness_CutActions : ∀ op ∈ [1, 2, 3, 4, 5, 6, 7, 8],
    (cutL (act op 5) []).cutTurn (.list 2) = true ∧ ((cutL (act op 5) []).cutHead 2).map (fun h => (h.action, h.bad, h.due)) = some (act op 5, false, 25000) ∧
      (act op 5).tag = 0x07 ∧ (cutL (act op 5) []).cutCheck 0 (act op 5) = none ∧ cutOp (act op 5) = op := by decide +kernel
theorem witness_CutActions_plain : ∀ op ∈ [0, 9], (cutL (act op 0) []).cutTurn (.list 2) = true ∧ (cutL (act op 0) []).cutCheck 0 (act op 0) = none := by decide +kernel
theorem witness_CutActions_acts : ∃ s1 done, ActsNow (cutL (act 5 9) []) (.list 2) (headOf (cutL (act 5 9) [])).action 0 s1 done :=
  ⟨_, _, .list 2 (headOf (cutL (act 5 9) [])) (by decide +kernel) (by decide +kernel) (by decide +kernel) (by decide +kernel)⟩
def trigS : State := { dev 30000 with trigq := { (dev 30000).trigq with queue := [⟨0, act 5 9, 29000, 29500⟩] } }
theorem witness_CutActions_trigger : ∃ s1, ActsNow trigS .trigger (act 5 9) 0 s1 id ∧ trigS.cutCheck 0 (act 5 9) = none :=
  ⟨_, .trigger ⟨0, act 5 9, 29000, 29500⟩ (by decide +kernel) (by decide +kernel) (by decide +kernel), by decide +kernel⟩
theorem witness_CutActions_error : let s := (cutL (act 3 1) []).modWorld 0 fun w => { w with storeGrant := 0 }
    s.cutTurn (.list 2) = true ∧ (s.cutCheck 0 (act 3 1)).isSome = true ∧ (cutRow (.list 2) (cutOp (act 3 1))).isSome = true := by decide +kernel
theorem witness_CutActions_pulse : ((dev 30000).modHinge 5 fun h => { h with pulseEnd := some 10 }).hng[(5 : Fin 64)].pulseEnd = some 10 ∧ (10 : BitVec 64).toNat ≤ (dev 30000).now.toNat := by
  decide +kernel
theorem witness_CutLists : Grants (dev 1) .favar 1 (some (2 : Fin 16).val) Who.fv ∧ bit (1 : BitVec 64) 0 = true ∧ bit (1 : BitVec 64) 1 = false ∧ bit (2 : BitVec 64) 1 = true :=
  ⟨grants_fv _ _ _, by decide +kernel, by decide +kernel, by decide +kernel⟩
def pendS : State := { (dev 30000).modCut 2 fun l => { l with base := 10, cap := 2, scfg := 0x10003, acfg := 0x20001, pending := true, pendAt := 20001 } with
  cutActive := [(19, Word.nil), (20, Word.true), (24, Word.nil)], mem := [(0xE100000000 + 21, Word.fix 4), (0xE100000000 + 24, Word.fix 9)] }
theorem witness_CutLists_activation : memWf pendS.mem = true ∧ memWf pendS.cutActive = true ∧ pendS.alive = true ∧ pendS.cuts[(2 : Fin 16)].pending = true ∧
    (boundaryAfter pendS.cuts[(2 : Fin 16)].pendAt).toNat ≤ pendS.now.toNat ∧ (3 : Nat) < 2 * pendS.cuts[(2 : Fin 16)].cap.toNat := by decide +kernel
def ktrigS : State := cutL (act 10 5) [(22, Word.span 8000), (23, act 5 9)]
theorem witness_CutLists_ktrig : ktrigS.cutTurn (.list 2) = true ∧ ktrigS.cutHead 2 = some (headOf ktrigS) ∧ (headOf ktrigS).bad = false ∧
    isKtrig (headOf ktrigS).action = true ∧ cutFormat (headOf ktrigS).action = true ∧ payloadOk (headOf ktrigS).payload = true ∧
    (headOf ktrigS).payload = some (Word.span 8000, act 5 9) ∧ 2000 ≤ ((headOf ktrigS).inst : Int) + 8000 - ktrigS.now.toNat := by decide +kernel
theorem witness_CutLists_arrival : let s := { dev 30000 with km := { (dev 30000).km with routed := true, confirmed := true }, trigq := { (dev 30000).trigq with acceptT := true } }
    s.alive = true ∧ s.km.carries = true ∧ s.trigq.acceptT = true ∧ s.trigq.queue.length < 64 ∧ (dev 30000).km.carries = false := by decide +kernel
theorem test_activation_swaps : after (.cutListActivation 2) pendS (fun t => memGet t.mem (0xE100000000 + 20) == Word.true &&
    memGet t.cutActive 21 == Word.fix 4 && memGet t.cutActive 24 == Word.nil && memGet t.cutActive 19 == Word.nil && t.cuts[(2 : Fin 16)].actAt == 30000) = true := by decide +kernel

/-! ## Witnesses: sensor and drive lanes, lathes, Marquetry, gauges, hinge pins -/

/-- A sensor-lane configuration: mode, channels, format, width, block length. -/
def laneCfg (mode nch fmt w blk : Nat) : BitVec 64 := putN 0 mode ||| putN 2 (nch - 1) ||| putN 6 fmt ||| putN 7 w ||| putN 26 blk
def laneS (acfg : BitVec 64) (f : SensorLane → SensorLane) : State := (dev 30000).modSl 0 fun l =>
  f { l with acfg := acfg, aivl := 10000 * 65536, run := true, link := true, ringBase := 0x100, ringSize := 64, wr := 5, gridStart := 1000 }
def frame (t : BitVec 64) (m : Bool) (c : BitVec 32) : OpenFrame := { stamp := some t, marked := m, codes := [c] }
theorem witness_SensorLanes : ∀ m ∈ [0, 1, 2], let s := laneS (laneCfg m 1 0 1 4) id
    s.slOn 0 = true ∧ s.sl[(0 : Fin 32)].run = true ∧ [(7 : BitVec 32)].length = slChans s.sl[(0 : Fin 32)].acfg ∧ slMode s.sl[(0 : Fin 32)].acfg = m ∧
      s.sl[(0 : Fin 32)].link = true ∧ gridTick s.sl[(0 : Fin 32)].gridStart (fld s.sl[(0 : Fin 32)].aivl 0 48 : BitVec 48).toNat 0 ≤ s.now.toNat := by decide +kernel
/-- A lane whose period lacks one frame. -/
def fullS : State := laneS (laneCfg 0 1 0 1 4) fun l => { l with opened := [frame 2000 false 7, frame 12000 true 8, frame 22100 false 0xFFFFFF] }
def blockOf (s : State) (f : OpenFrame) : List Word :=
  let l := s.sl[(0 : Fin 32)]
  let fs := l.opened ++ [f]
  let r := recordedIvl l.acfg l.aivl fs
  laneBlock l s.km.id 0 0 fs [] r (ivlOff l.aivl r) false
theorem witness_SensorLanes_block : let l := fullS.sl[(0 : Fin 32)]
    memWf fullS.mem = true ∧ bit l.acfg 50 = false ∧ (l.opened ++ [frame 30000 false 1]).length = slBlklen l.acfg ∧ 2 ≤ slBlklen l.acfg ∧ slChans l.acfg = 1 ∧
      bit l.acfg 24 = false ∧ l.wr.toNat + (blockOf fullS (frame 30000 false 1)).length ≤ l.ringSize.toNat ∧ (blockOf fullS (frame 30000 false 1)).length ≤ fullS.ringFree 0 ∧
      fullS.mapped (0x100 + 5) = true := by decide +kernel
theorem witness_SensorLanes_commands : Grants (dev 1) .favar 3 none Who.fv ∧ (laneS (laneCfg 0 1 0 1 4) fun l => { l with run := false }).sl[(0 : Fin 32)].ringSize ≠ 0 ∧
    ((laneS (laneCfg 0 1 0 1 4) fun l => { l with cfg := laneCfg 0 1 0 1 8, ivl := 65536 * 10000, cpend := true, cpendAt := 20001 }).sl[(0 : Fin 32)].cpend = true ∧
    (boundaryAfter 20001).toNat ≤ (dev 30000).now.toNat) ∧ slCfgOk (laneCfg 0 1 0 1 8) (65536 * 20000000) = true ∧ slCfgOk (laneCfg 3 1 0 1 8) (65536 * 20000000) = false :=
  ⟨grants_fv _ _ _, by decide +kernel, by decide +kernel, by decide +kernel, by decide +kernel⟩
theorem test_lsl2_gap : after (.lsl2Frame 0 false 9 [5] 0 true) (laneS (laneCfg 2 1 0 1 8) fun l => { l with lastCnt := some 6 })
    (fun t => t.sl[(0 : Fin 32)].gap && t.sl[(0 : Fin 32)].opened.length == 3 && t.sl[(0 : Fin 32)].lastCnt == some 9) = true := by decide +kernel

/-- A sample block in memory: count, LSTAT, sample words. -/
def blockM (va cnt : Nat) (lst : BitVec 64) (d : List Word) : List (Nat × Word) :=
  ([mkHdr (8 + d.length) 7 0, Word.fix 0, Word.fix (BitVec.ofNat 64 cnt), Word.inst 1000, Word.span 10000, Word.raw 0, Word.flt 0x3FF0000000000000, Word.raw lst, Word.fix 0] ++
    d).zipIdx.map fun (w, i) => (va + i, w)
def driveS (f : DriveLane → DriveLane) : State := withMem ((dev 30000).modDl 0 fun l => f { l with
  acfg := putN 4 1 ||| putN 33 1000 ||| putN 8 2 ||| putN 32 1 ||| putN 24 5, aivl := 320000000, again := 0x3FF0000000000000, adim := 0,
  ringBase := 0x200, ringSize := 64, offset := 4, lastCommit := 1000 })
  (blockM 0x204 3 0 [⟨8, 0x42C80000BF800000⟩, ⟨8, 0x7F800000⟩] ++ [(0x300, ⟨0xFE, 0⟩), (0x301, ⟨8, 0x7FC00000⟩)])
def checkS : State := driveS fun l => { l with checking := true, pend := true }
def driveB : DriveBlock := (checkS.checkShadow 0).getD ⟨0, 1, false, 0, []⟩
theorem witness_DriveLanes : checkS.dlOn 0 = true ∧ checkS.dl[(0 : Fin 16)].checking = true ∧ checkS.checkShadow 0 = some driveB ∧ driveB.count = 3 ∧
    (driveS fun l => { l with checking := true, offset := 63 }).checkShadow 0 = none ∧ ¬ checkS.dl[(0 : Fin 16)].storedAt = some checkS.now := by decide +kernel
def playS (k : Nat) (b : DriveBlock) : State := driveS fun l => { l with state := .run, current := some b, nextK := k }
theorem witness_DriveLanes_plays : (playS 0 driveB).dl[(0 : Fin 16)].state = .run ∧ (playS 0 driveB).dl[(0 : Fin 16)].sampleTick 0 ≤ (playS 0 driveB).now.toNat ∧
    ((playS 0 driveB).sampleWord driveB 0).1.tag ≠ 0xFE ∧ (driveB.value ((playS 0 driveB).sampleWord driveB 0).1 0).isNan = false ∧
    ((playS 0 { driveB with samples := 0x300, ahead := [] }).sampleWord { driveB with samples := 0x300, ahead := [] } 0).1.tag = 0xFE := by decide +kernel
theorem witness_DriveLanes_ramp : let s := tick (driveS fun l => { l with state := .ramp, rampAt := 1000, rampFrom := 100 }) 2000000
    gridTick s.dl[(0 : Fin 16)].rampAt s.dl[(0 : Fin 16)].period 0 ≤ s.now.toNat ∧ s.dl[(0 : Fin 16)].rampAt.toNat + s.dl[(0 : Fin 16)].rampTicks ≤ s.now.toNat ∧
    s.dl[(0 : Fin 16)].rampTicks ≤ gridTick 0 s.dl[(0 : Fin 16)].period 100000 ∧ driveB.loop_ = false ∧ (playS 3 driveB).dl[(0 : Fin 16)].sampleTick 3 < (playS 3 driveB).now.toNat := by
  decide +kernel
theorem witness_DriveLanes_commands : Grants (dev 1) .favar 4 none Who.fv ∧ (dev 1).variantL = false ∧ bit (1 : BitVec 64) 0 = true ∧
    (driveS fun l => { l with cpend := true, cpendAt := 10000 }).dl[(0 : Fin 16)].cpend = true ∧ (boundaryAfter 10000).toNat ≤ (dev 30000).now.toNat :=
  ⟨grants_fv _ _ _, by decide +kernel, by decide +kernel, by decide +kernel, by decide +kernel⟩
theorem test_drive_sample : after (.driveSampleOutput 0 []) (playS 0 driveB) (fun t => t.dl[(0 : Fin 16)].lastCode == -1 && t.dl[(0 : Fin 16)].nextK == 1) = true := by
  decide +kernel
theorem test_shadow_check : after (.dlShadowCheckDone 0 []) checkS (fun t => t.dl[(0 : Fin 16)].pend && !t.dl[(0 : Fin 16)].checking &&
    t.dl[(0 : Fin 16)].shadow.map (·.count) == some 3) = true := by decide +kernel

def jobOf (f : Nat) (from_ outs : List (BitVec 48)) : LatheJob :=
  { serial := 7, world := 0, user := false, owner := ⟨0, 0, 0⟩, func := BitVec.ofNat 64 f, descOk := true, srcs := from_, outs := outs, accs := []
    state := none, p1 := Word.fix 0, p2 := Word.nil, p3 := Word.nil, doneLine := some 7, errLine := some 8 }
def samplesM : List Word := [⟨8, 0x400000003F800000⟩, ⟨8, 0x40800000⟩]
def jobS (j : LatheJob) : State := withMem (base.modLathe 0 fun l => { l with queue := [j, jobOf 2 [] []] })
  (blockM 0x5000 3 0 samplesM ++ blockM 0x5040 3 0 samplesM ++ blockM 0x5080 3 0 [Word.nil, Word.nil])
def vop : LatheJob := jobOf 1 [] [0x5080]
def failOf (s : State) (j : LatheJob) : Nat × Option (BitVec 48 × BitVec 64) :=
  match s.jobCompute j 0 s.drawn with
  | .ok _ => (0, none)
  | .error e => e
theorem witness_LatheJobs : (jobS vop).lathes[(0 : Fin 8)].queue = vop :: [jobOf 2 [] []] ∧ (jobS vop).luOn 0 = true ∧ vop.result = none ∧ (jobS vop).srcWaiting vop = false ∧
    vop.func.toNat = 1 := by decide +kernel
theorem witness_LatheJobs_fails : (jobS vop).jobCompute vop 0 (jobS vop).drawn = .error (failOf (jobS vop) vop) := rfl
def doneR : LatheResult := { code := 0, samples := [(0x5089, [Word.nil, Word.true])], lstats := [(0x5087, 5)] }
def doneS : State := jobS { vop with result := some doneR }
theorem witness_LatheJobs_end : memWf doneS.mem = true ∧ doneS.luOn 0 = true ∧ (∀ k ∈ [(7 : BitVec 8), 8], doneS.jig.irq[k.toFin].en = false) ∧
    (match doneS.latheTargets vop (doneR.heads ++ doneR.samples) with
      | .ok l => l == [(0x5089, Word.nil), (0x508A, Word.true)]
      | .error _ => false) = true := by decide +kernel
theorem test_job_end : after (.latheJobEnd 0 []) doneS (fun t => t.peek 0x508A == Word.true && t.lathes[(0 : Fin 8)].jobs == 1 && t.lathes[(0 : Fin 8)].queue.length == 1) = true := by
  decide +kernel

def mqS (f : Marquetry → Marquetry) (sel ret : BitVec 64) : State :=
  let s := withMem ((dev 30000).modSl 0 fun l => { l with ringBase := 0x5000, ringSize := 64, wr := 11 }) (blockM 0x5000 4 0 [⟨8, 0x400000003F800000⟩, ⟨8, 0x40800000C0000000⟩])
  { s with mq := f { s.mq with en := true, logBase := 0x6000, logSize := 100, retBase := 0x7000, retSize := 80, chsel := vset s.mq.chsel 0 sel, chret := vset s.mq.chret 0 ret, seq := 5 } }
theorem witness_MarquetryLogs : let s := mqS id 1 0
    let p := s.mqPeriod 0x5000 64 11 34 0 none
    s.alive = true ∧ s.logged 0 = true ∧ s.mq.pos[(0 : Fin 32)].toNat ≠ s.sl[(0 : Fin 32)].wr.toNat ∧ p.1.length = 1 ∧ (p.1.all fun b => !b.bad) = true ∧
      (p.1.filter fun b => mqSelected s.mq.chsel 0 b.chan).length = 1 ∧ (p.1.filter fun b => mqSelected s.mq.chret 0 b.chan).length = 0 ∧
      s.mq.room (6 + (mqBody [] p.1).1.length) = true ∧ (mqS (fun m => { m with logSize := 10 }) 1 0).mq.room (6 + (mqBody [] p.1).1.length) = false := by decide +kernel
theorem witness_MarquetryLogs_window : let s := mqS (fun m => { m with ret := vset m.ret 1 { m.ret[(1 : Fin 4)] with en := true, lanes := 1, isOpen := true, until_ := 600 } }) 1 1
    s.mq.ret[(1 : Fin 4)].en = true ∧ s.mq.ret[(1 : Fin 4)].isOpen = true ∧ s.mq.ret[(1 : Fin 4)].until_.toNat ≤ s.now.toNat ∧ memWf s.mem = true ∧
      (mkSegment 0 5 1 2 3 [4]).length ≤ s.mq.logSize.toNat ∧ s.mapped 0x6000 = true := by decide +kernel
theorem test_crc32c : crc32c ((List.range 9).map fun k => BitVec.ofNat 8 (0x31 + k)) = 0xE3069283 := by decide +kernel

def gaugeCfg : BitVec 64 := putN 17 1 ||| putN 18 1 ||| putN 27 1 ||| putN 29 9 ||| putN 37 1 ||| putN 38 10 ||| putN 46 1
def gaugeS (f : Gauge → Gauge) : State := (dev 30000).modGauge 0 fun g => f { g with en := true, reload := 50, cnt := 1, cmp := 50, ivl := 7, cfg := gaugeCfg }
def capOf (n : Nat) : Capture := { count := BitVec.ofNat 64 n, stamp := 5 }
theorem witness_GaugeTimers : (gaugeS id).alive = true ∧ (gaugeS id).gauges[(0 : Fin 32)].en = true ∧ (gaugeS id).linked 0 = false ∧ pairLo 0 = 0 ∧
    (gaugeS fun g => { g with cfg := gaugeCfg ||| putN 16 1 }).linked 0 = true ∧ (gaugeS id).gtCfgBad 0 gaugeCfg = false ∧ gtSrc (7 : BitVec 64) ≥ 5 := by decide +kernel
theorem witness_GaugeTimers_pop : Grants (dev 1) .favar 2 (some 0) Who.fv ∧ (dev 1).who .favar = some Who.fv ∧ (dev 1).granted Who.fv 2 (some 0) false = true ∧
    ((gaugeS fun g => { g with queue := [capOf 4, capOf 5] }).gauges[(0 : Fin 32)].upTo 30000).queue = capOf 4 :: [capOf 5] ∧
    ((gaugeS id).gauges[(0 : Fin 32)].upTo 30000).queue = [] ∧ (gaugeS fun g => { g with queue := List.replicate 4 (capOf 4) }).gauges[(0 : Fin 32)].queue.length = 4 :=
  ⟨grants_fv _ _ _, rfl, rfl, by decide +kernel, by decide +kernel, by decide +kernel⟩
theorem test_gauge_reload : after (.gaugeTick 0) (gaugeS id) (fun t => let g := t.gauges[(0 : Fin 32)]
    g.cnt == 50 && g.zf && g.cf && g.cmp == 57 && g.out) = true := by decide +kernel

def hingeS (f : Hinge → Hinge) : State := (dev 20700).modHinge 5 f
def bankS (f : HBank → HBank) : State := (dev 20700).modBank 0 f
theorem witness_HingePins : (hingeS id).alive = true ∧ (hingeS id).imt.started = true ∧ (hingeS id).hng[(5 : Fin 64)].slotNow ≠ Machine.slotOf (hingeS id).now ∧
    leafIn? (hingeS fun h => { h with acfg := 1, slotNow := Machine.slotOf 20700 }).hng[(5 : Fin 64)].owner = true ∧ leafIn? (hingeS id).hng[(5 : Fin 64)].owner = false := by decide +kernel
theorem witness_HingePins_bank : Grants (dev 1) .favar 10 (some (16 * (0 : Fin 4).val)) Who.fv ∧ (bankS fun k => { k with cpend := true, cpendAt := 10000 }).banks[(0 : Fin 4)].cpend = true ∧
    (boundaryAfter 10000).toNat ≤ (dev 20700).now.toNat ∧ (bankS id).bankOk 0 = true ∧ (bankS fun k => { k with tx := [5, 6] }).banks[(0 : Fin 4)].tx = 5 :: [6] ∧
    ((bankS fun k => { k with rx := [(5, false, true)] }).banks[(0 : Fin 4)].upTo 20700).rx = (5, false, true) :: [] ∧
    (bankS fun k => { k with rx := List.replicate 64 (5, false, true) }).banks[(0 : Fin 4)].rx.length = 64 :=
  ⟨grants_fv _ _ _, by decide +kernel, by decide +kernel, by decide +kernel, by decide +kernel, by decide +kernel, by decide +kernel⟩
theorem witness_HingePins_oneWire : let s := tick (bankS fun k => { k with owOp := .reset, owAt := 1 }) 4000000
    s.banks[(0 : Fin 4)].owOp ≠ .none_ ∧ s.banks[(0 : Fin 4)].owAt.toNat + s.banks[(0 : Fin 4)].owOp.ticks ≤ s.now.toNat := by decide +kernel
theorem test_uart_overrun : after (.uartTxWrite .favar 0 5) (bankS fun k => { k with tx := List.replicate 64 0 }) (fun t => t.banks[(0 : Fin 4)].ovr && t.banks[(0 : Fin 4)].tx.length == 64) = true := by
  decide +kernel

/-! ## Witnesses: Favar, worlds, log streams, veneers, Kamion, power -/

/-- The device with Favar serving requests, r at the front of its order. -/
def favS (r : FvReq) (f : Favar → Favar := id) : State :=
  let s := dev 30000
  { s with fv := f { s.fv with ready := true, pcieUp := true, major := 3, minor := 2, fwver := 5, subs := 0xFFFF, msixMask := 0, queue := [r] } }
def rq (c : Nat) (who : ReqFrom) (pl : List (BitVec 64)) : FvReq := { from_ := who, cmd := BitVec.ofNat 16 c, seq := 9, payload := pl, irq := true }
def hostRq (c : Nat) (pl : List (BitVec 64)) : FvReq := rq c (.slot 2) pl

/-- The conditions of Serves, as a Bool. -/
def servesB (code : Nat) (r : FvReq) (s : State) : Bool :=
  s.fv.served && s.alive && (r.cmd.toNat == code) && !r.bad && (s.precheck r).isNone

theorem serves_of {s : State} {r : FvReq} {rest : List FvReq} {code : Nat} (q : s.fv.queue = r :: rest) (b : servesB code r s = true) :
    Serves s code r { s with fv := { s.fv with queue := rest } } := by
  simp only [servesB, Bool.and_eq_true, beq_iff_eq, Bool.not_eq_true', Option.isNone_iff_eq_none] at b
  obtain ⟨⟨⟨⟨a, e⟩, t⟩, m⟩, n⟩ := b
  exact ⟨a, e, ⟨rest, q, rfl⟩, t, m, n⟩

/-- One request of each command that Favar serves. -/
def oneOfEach : List (Nat × FvReq) :=
  [0x01, 0x02, 0x03, 0x10, 0x11, 0x12, 0x13, 0x14, 0x20, 0x21, 0x30, 0x31, 0x40, 0x41, 0x50, 0x51, 0x60, 0x70, 0x71, 0x80, 0x81,
    0x90, 0xA0, 0xB0, 0xF0].map fun c => (c, hostRq c [0])
theorem witness_Serves : ∀ e ∈ oneOfEach, servesB e.1 e.2 (favS e.2) = true := by decide +kernel
theorem witness_Serves_state : ∀ e ∈ oneOfEach,
    Serves (favS e.2) e.1 e.2 { favS e.2 with fv := { (favS e.2).fv with queue := [] } } := fun e h =>
  serves_of rfl (witness_Serves e h)

def boxS (f : MbSlot → MbSlot) (g : Favar → Favar := id) : State := favS (hostRq 0x90 []) fun x => g { x with
  slots := vset x.slots 3 (f { x.slots[(3 : Fin 16)] with cmd := 0x90, own := true, irq := true, seq := 44, len := 16, payload := [3, 4, 5] }) }
theorem witness_FavarRequests : (boxS id).alive = true ∧ (boxS id).fv.pcieUp = true ∧ (boxS id).fv.served = true ∧
    (boxS id).fv.slots[(fld (3 : BitVec 64) 0 4 : BitVec 4).toFin].own = true ∧ (boxS id).fv.slots[(3 : Fin 16)].taken = false ∧
    (boxS fun m => { m with own := false }).fv.slots[(3 : Fin 16)].own = false ∧ (boxS fun m => { m with taken := true }).fv.slots[(3 : Fin 16)].taken = true ∧
    (boxS id fun x => { x with ready := false }).fv.served = false := by decide +kernel
theorem witness_FavarRequests_refused : let r := hostRq 0x03 [0]
    let s := favS r fun f => { f with major := 0 }
    s.precheck r = some stState ∧ s.fv.served = true ∧ (0x03, Instr.health 0 0) ∈ [(0x01, Instr.hello), (0x03, Instr.health 0 0)] ∧ r.bad = false ∧
      s.fv.restricted = false ∧ (rq 0x20 (.world 1) []).worldMay = false ∧ (∀ q ∈ s.fv.queue, q.bad = false ∧ knownCmd q.cmd.toNat = true) := by decide +kernel
def busyOf (w : BusyWork) (who : ReqFrom) : BusyOp := { from_ := who, cmd := 0x11, seq := 5, cls := .log, work := w }
def busyS (w : BusyWork) : State := favS (hostRq 0x90 []) fun f => { f with busy := [busyOf w (.slot 2)] }
theorem witness_FavarRequests_busy : (busyS (.veneerStage [])).fv.busy[0]? = some (busyOf (.veneerStage []) (.slot 2)) ∧ (busyS (.veneerStage [])).fv.swap = false ∧
    (busyS (.veneerStage [])).fv.ringFree ≠ 0 ∧ ((busyS (.imageVerify 0)).endWork (.veneerStage [])).1 = .done stOk [] ∧
    ({ busyS .veneerApply with ven := { (busyS .veneerApply).ven with rollout := true } }.endWork .veneerApply).1 = .going := by decide +kernel
def mbxS (f : Mailbox → Mailbox) (q : FvReq) : State := (favS q).modWorld 0 fun y => { y with mbx := f y.mbx }
theorem witness_FavarRequests_mailbox : Grants (dev 1) .favar 12 (some (0 : Fin 2).val) Who.fv ∧ bit (0x200200 : BitVec 64) 21 = true ∧ bit (0x200200 : BitVec 64) 9 = true ∧
    (mbxS id (hostRq 0x90 [])).worlds[(0 : Fin 2)].mbx.busy = false ∧ (mbxS (fun m => { m with busy := true }) (hostRq 0x90 [])).worlds[(0 : Fin 2)].mbx.busy = true ∧
    (mbxS (fun m => { m with deadline := Word.inst 5 }) (hostRq 0x90 [])).worlds[(0 : Fin 2)].mbx.deadline.tag = 0x04 ∧
    (mbxS id (hostRq 0x90 [])).worlds[(0 : Fin 2)].mbx.deadline = Word.nil ∧
    (mbxS (fun m => { m with deadline := Word.true }) (hostRq 0x90 [])).worlds[(0 : Fin 2)].mbx.deadline ≠ Word.nil ∧ Word.true.tag ≠ 0x04 ∧
    (mbxS (fun m => { m with result := some (stOk, [Word.true]) }) (hostRq 0x90 [])).worlds[(0 : Fin 2)].mbx.result = some (stOk, [Word.true]) :=
  ⟨grants_fv _ _ _, by decide +kernel⟩
theorem witness_FavarRequests_deadline : let s := mbxS (fun m => { m with busy := true, goDeadline := Word.inst 29999 }) (rq 0xB0 (.world 0) [])
    s.worlds[(0 : Fin 2)].mbx.busy = true ∧ s.worlds[(0 : Fin 2)].mbx.goDeadline.tag = 0x04 ∧ s.worlds[(0 : Fin 2)].mbx.goDeadline.datum.toNat < s.now.toNat ∧
      ∃ q ∈ s.fv.queue, q.from_ = .world 0 := by decide +kernel
theorem witness_FavarRequests_registers : (0xF000030000 : BitVec 40).toNat = 0xF000000000 + 0x10000 * (3 : Fin 16).val + 0 ∧ (devReg 3 0).isSome = true ∧
    (dev 1).who .favar = some Who.fv ∧ (dev 1).granted Who.fv 3 none true = true ∧ (dev 1).granted ⟨some 0, 0, true⟩ 3 none true = false := by decide +kernel
theorem test_event_sub : after .eventSub (favS (hostRq 0x90 [0xFFFF])) (fun t => t.fv.subs == 0x7FFE && t.fv.queue.isEmpty &&
    t.fv.slots[(2 : Fin 16)].done && t.fv.slots[(2 : Fin 16)].status == 0) = true := by decide +kernel

/-- HELLO of a host that has the versions lo to hi. -/
def hello (lo1 lo0 hi1 hi0 : Nat) : BitVec 64 := putN 24 lo1 ||| putN 16 lo0 ||| putN 8 hi1 ||| putN 0 hi0
/-- The highest version of the firmware from lo to hi. -/
def helloTop (p : BitVec 64) : Option Nat := ((fvVersions.map fun v => v.1 * 256 + v.2).filter fun k =>
  decide ((fld p 24 8 : BitVec 8).toNat * 256 + (fld p 16 8 : BitVec 8).toNat ≤ k ∧ k ≤ (fld p 8 8 : BitVec 8).toNat * 256 + (fld p 0 8 : BitVec 8).toNat)).max?
theorem witness_FavarIdentity_hello : helloTop (hello 2 0 3 9) = some 0x302 ∧ helloTop (hello 2 0 2 255) = some 0x204 ∧ helloTop (hello 3 3 4 0) = none ∧
    (busyS (.imageVerify 0)).fv.busy ≠ [] := by decide +kernel
theorem test_hello : after .hello (favS (hostRq 0x01 [hello 2 0 3 9]) fun f => { f with major := 0 }) (fun t => t.fv.major == 3 && t.fv.minor == 2) = true := by decide +kernel
theorem test_hello_none : after .hello (favS (hostRq 0x01 [hello 3 3 4 0])) (fun t => t.fv.slots[(2 : Fin 16)].status == stVersion.setWidth 32) = true := by decide +kernel
/-- TIME_SOURCE, with its P0, P1, P2, P12. -/
def timeRq (p0 p1 p2 p12 : BitVec 64) : FvReq := hostRq 0x50 [p0, p1, p2, 8, 0, 0, 0, 0, 0, 0, 0, 0, p12]
theorem witness_FavarIdentity_time : let r := timeRq 2 5 100000 (putN 41 6)
    (fld (r.p 0) 8 56 : BitVec 56) = 0 ∧ (fld (r.p 2) 0 17 : BitVec 17).toNat ≤ 100000 ∧ 1 ≤ (fld (r.p 2) 0 17 : BitVec 17).toNat ∧ (fld (r.p 0) 0 2 : BitVec 2) = 2 ∧
      bit (r.p 12) 43 = true ∧ (fld (r.p 12) 41 3 : BitVec 3) ≠ 0 ∧ (fld ((timeRq 2 5 0 0).p 2) 0 17 : BitVec 17).toNat = 0 ∧
      (fld ((timeRq 1 5 7 0).p 12) 41 2 : BitVec 2) = 0 ∧ (favS r).kmPresence 0 = .there := by decide +kernel
theorem test_time_source : after .timeSource (favS (timeRq 1 5 7 0)) (fun t => t.imt.cfg == 5 && t.imt.pps == 7 && t.imt.refsec == 8 && t.imt.count == 30000) = true := by decide +kernel
theorem test_time_source_bad : after .timeSource (favS (timeRq 1 5 100001 0)) (fun t => t.fv.slots[(2 : Fin 16)].status == stBadArg.setWidth 32 && t.imt.pps == State.reset.imt.pps) = true := by decide +kernel
theorem witness_FavarIdentity_crash : (favS (hostRq 0xF0 [0]) fun f => { f with crash := [⟨1, [5]⟩] }).fv.crash[0]? = some ⟨1, [5]⟩ ∧
    (favS (hostRq 0xF0 [1])).fv.crash[1]? = none := by decide +kernel
/-- WORLDMSG of n tagged words. -/
def msgRq (who : ReqFrom) (n : Nat) (l : List (BitVec 64)) : FvReq := rq 0xB0 who (putN 8 n :: l)
def runsS (n : Nat) (r : FvReq) : State := (favS r).modWorld 0 fun x => { x with state := .running, mbx := { x.mbx with inbox := List.replicate n [Word.nil] } }
theorem witness_FavarIdentity_messages : servesB 0xB0 (msgRq (.world 0) 4 [5, 14]) (favS (msgRq (.world 0) 4 [5, 14])) = true ∧
    (msgRq (.slot 2) 8 [5, 14]).taggedOk 1 8 = true ∧ (msgRq (.slot 2) 1 [5, 15]).taggedOk 1 1 = false ∧ (msgRq (.slot 2) 8 [5, 14]).world = 0 ∧
    (runsS 15 (msgRq (.slot 2) 8 [5, 14])).worlds[(0 : Fin 2)].mbx.inbox.length < 16 ∧ 16 ≤ (runsS 16 (msgRq (.slot 2) 8 [5, 14])).worlds[(0 : Fin 2)].mbx.inbox.length ∧
    bit (favS (msgRq (.world 0) 4 [5, 14])).fv.subs 11 = true := by decide +kernel
theorem test_world_message : after .worldMsg (runsS 15 (msgRq (.slot 2) 1 [5, 14])) (fun t => t.worlds[(0 : Fin 2)].mbx.inbox.length == 16) = true := by decide +kernel

def bytesOf (n : Nat) (x : BitVec 64) : List (BitVec 8) := (List.range n).map fun i => fld x (8 * i) 8
def wordBytes (l : List (BitVec 64)) : List (BitVec 8) := l.flatMap (bytesOf 8)
def bufOf (l : List (BitVec 64)) : HostBuf := .bytes (wordBytes l)
def wordsOf (x : Except (BitVec 8) (List (BitVec 64))) : Option (List (BitVec 64)) :=
  match x with
  | .ok l => some l
  | .error _ => none
def statusOf {α : Type} (x : Except (BitVec 8) α) : Option (BitVec 8) :=
  match x with
  | .ok _ => none
  | .error e => some e
def bytesGiven (x : Except (BitVec 8) (List (BitVec 8))) : Option (List (BitVec 8)) :=
  match x with
  | .ok l => some l
  | .error _ => none
/-- A partition record: both worlds with 2 MWords each, cores 0 and 1, two cut lists. -/
def partRec (base1 : BitVec 64) : List (BitVec 64) := (List.range 66).map fun i => match i with
  | 0 => 0x5
  | 1 => putN 0 100 ||| putN 16 20
  | 2 => 0
  | 3 => 0x200000
  | 4 => base1
  | 5 => 0x200000
  | 6 => putN 0 0xC0C0F ||| putN 32 0xF
  | 7 => 0x1F00
  | 41 => putN 0 5 ||| putN 14 6
  | 42 => putN 0 11 ||| putN 14 6 ||| putN 29 1
  | _ => 0
def partRq (n : Nat) : FvReq := hostRq 0x14 [0, BitVec.ofNat 64 n]
def worldsS (x y : WorldState) (r : FvReq) (f : Favar → Favar := id) : State :=
  ((favS r f).modWorld 0 fun w => { w with state := x }).modWorld 1 fun w => { w with state := y }
theorem witness_WorldCommands_partition : let s := worldsS .empty .verified (partRq 528)
    (s.worldStopped 0 && s.worldStopped 1) = true ∧ wordsOf (hostWords (partRq 528) 0 66 (bufOf (partRec 0x200000))) = some (partRec 0x200000) ∧
      statusOf (hostWords (partRq 527) 0 66 (bufOf (partRec 0x200000))) = some stBadArg ∧ statusOf (hostWords (partRq 528) 0 66 .timeout) = some stTimeout ∧
      s.partOk (partRec 0x200000) = true ∧ s.partOk (partRec 0x1FFFFF) = false ∧ s.partOk (partRec 0) = false ∧
      (worldsS .empty .running (partRq 528)).worldStopped 1 = false ∧ partDram (partRec 0x200000) 1 = (0x200000, 0x200000) := by decide +kernel

/-- An image of one segment of two words at an address, without contexts. -/
def imageOf (world fmt ia : Nat) : List (BitVec 8) :=
  bytesOf 4 0x4D49424C ++ bytesOf 2 (BitVec.ofNat 64 fmt) ++ bytesOf 2 (BitVec.ofNat 64 (world + 256)) ++ bytesOf 4 7 ++ bytesOf 4 1 ++ bytesOf 8 0x123 ++
    bytesOf 8 0 ++ List.replicate 97 9 ++ List.replicate 31 0 ++ bytesOf 8 0x2000 ++ bytesOf 8 0 ++ bytesOf 8 (BitVec.ofNat 64 ia) ++ bytesOf 8 2 ++
    (bytesOf 1 0 ++ bytesOf 8 5 ++ bytesOf 1 7 ++ bytesOf 8 6) ++ List.replicate 6 0 ++ List.replicate 96 3
def partsOf (world ia : Nat) : ImageParts := (parseImage (imageOf world 1 ia) (idx 2 world)).getD ⟨{}, []⟩
def imageRq : FvReq := hostRq 0x10 [0, 0, 312]
def dramS (x y : WorldState) (r : FvReq) : State := (worldsS x y r fun f => { f with partitioned := true }).modWorld 0 fun w => { w with dramSize := 0x10000 }
theorem witness_WorldCommands_image : let s := dramS .empty .loaded imageRq
    s.worldStopped 0 = true ∧ s.fv.partitioned = true ∧ (bytesGiven (hostBytes imageRq 1 (.bytes (imageOf 0 1 0x6000))) == some (imageOf 0 1 0x6000)) = true ∧
      (parseImage (imageOf 1 1 0x6000) 0).isNone = true ∧ (parseImage (imageOf 0 1 0x6000) 0).isSome = true ∧ s.segsFit 0 (partsOf 0 0xFFFE) = true ∧
      s.segsFit 0 (partsOf 0 0xFFFF) = false ∧ statusOf (hostBytes imageRq 1 (.poisoned [])) = some stBadArg ∧ (favS imageRq).fv.partitioned = false ∧ memWf s.mem = true := by
  decide +kernel
def loadedS (x y : WorldState) (fmt : Nat) : State := (worldsS x y (hostRq 0x11 [0])).modWorld 0 fun w => { w with image := { (partsOf 0 0x6000).image with format := BitVec.ofNat 16 fmt } }
theorem witness_WorldCommands_verify : (loadedS .loaded .empty 1).worlds[(0 : Fin 2)].state = .loaded ∧ (loadedS .loaded .empty 1).worlds[(0 : Fin 2)].image.format = 1 ∧
    (loadedS .loaded .empty 3).worlds[(0 : Fin 2)].image.format ≠ 1 ∧ (loadedS .verified .empty 1).worlds[(0 : Fin 2)].state ≠ .loaded := by decide +kernel
theorem witness_WorldCommands_auth : (loadedS .loaded .empty 1).imageAuth (loadedS .loaded .empty 1).worlds[(0 : Fin 2)].image = true ∨
    (loadedS .loaded .empty 1).imageAuth (loadedS .loaded .empty 1).worlds[(0 : Fin 2)].image = false := by
  cases (loadedS .loaded .empty 1).imageAuth (loadedS .loaded .empty 1).worlds[(0 : Fin 2)].image <;> simp
theorem witness_WorldCommands_start : let s := worldsS .verified .empty (hostRq 0x12 [0])
    s.worlds[(hostRq 0x12 [0]).world].state = .verified ∧ (s.fv.use.toList.any fun u => u == .guard || u == .shared) = false ∧
      ((List.finRange 2).any fun x => decide (s.mcverMin.toNat < s.worlds[x].image.mcverMin.toNat)) = false ∧
      ((List.finRange 2).any fun x => decide (s.mcverMin.toNat < (loadedS .verified .empty 1).worlds[x].image.mcverMin.toNat)) = true ∧
      ((worldsS .verified .empty (hostRq 0x12 [0]) fun f => { f with use := vset f.use 3 .guard }).fv.use.toList.any fun u => u == .guard || u == .shared) = true := by
  decide +kernel
theorem witness_WorldCommands_stop : let s := worldsS .verified .running (hostRq 0x13 [1])
    s.worlds[(hostRq 0x13 [1]).world].state = .running ∧ s.worlds[(0 : Fin 2)].state = .verified ∧
      ((List.finRange 16).all fun n => s.laneMuted n || s.dl[n].state == .idle || s.dl[n].state == .stopped) = true ∧
      ((favS (hostRq 0x13 [0])).modDl 2 fun l => { l with state := .run }).dl[(2 : Fin 16)].state = .run ∧ (favS (hostRq 0x13 [0])).variantL = false := by decide +kernel
theorem witness_WorldCommands_stopping : let s := worldsS .stopping .running (hostRq 0x13 [0])
    s.worlds[(0 : Fin 2)].state = .stopping ∧ (∀ c : Fin 32, ∀ k : Fin 64, s.slotOf 0 c k = true → (s.slot c k).state = .parked) ∧
      ∀ c : Fin 32, (s.running c).parkDue = false := by decide +kernel
/-- CHECKPOINT of ranges, its record at an address. -/
def ckptRq (at_ : Nat) (l : List (Nat × Nat)) : FvReq := hostRq 0xA0 ([putN 4 l.length, BitVec.ofNat 64 at_] ++ l.map fun x => putN 0 x.1 ||| putN 40 x.2)
def ckptS (r : FvReq) : State := withMem (dramS .running .running r) [(0x5000, Word.fix 2), (0x5001, Word.fix 2)]
theorem witness_WorldCommands_checkpoint : let s := ckptS (ckptRq 0x5000 [(0x4000, 2), (0x5000, 5)])
    s.worlds[(0 : Fin 2)].state = .running ∧ (s.worldMem 0 0x5000 5).isSome = true ∧ (s.worldMem 0 0x4000 2).isSome = true ∧
      3 + ((s.worldMem 0 0x5000 1).bind fun pa => recordCount (s.peek pa)).getD 0 = 5 ∧ (s.worldMem 0 0xFFFF 2).isSome = false := by decide +kernel
theorem test_checkpoint : after .checkpoint (ckptS (ckptRq 0x5000 [(0x4000, 2), (0x5000, 5)])) (fun t => t.fv.busy.length == 1) = true := by decide +kernel
theorem test_checkpoint_outside : after .checkpoint (ckptS (ckptRq 0x5000 [(0x4000, 2), (0x5000, 4)])) (fun t => t.fv.busy.isEmpty &&
    t.fv.slots[(2 : Fin 16)].status == stBadArg.setWidth 32) = true := by decide +kernel

/-- LANE_SET of lanes, actions and buffer length in words. -/
def laneRq (mask act : BitVec 64) (n : Nat) : FvReq := hostRq 0x20 [mask, act, 0, BitVec.ofNat 64 (8 * n)]
def rec52 (place : BitVec 64) : List (BitVec 64) := (List.range 52).map fun i => if i = 2 then place else BitVec.ofNat 64 (i + 5)
def linkedS (r : FvReq) (f : Favar → Favar := id) : State := (favS r f).modSl 0 fun l => { l with link := true, ringSize := 5 }
theorem witness_SetupCommands_lanes : (favS (laneRq 1 1 52)).fv.stage = none ∧ (favS (laneRq 1 1 52)).slOn 0 = true ∧
    wordsOf (hostWords (laneRq 1 1 52) 2 52 (bufOf (rec52 (putN 40 5 ||| putN 0 0x100)))) = some (rec52 (putN 40 5 ||| putN 0 0x100)) ∧
    statusOf (hostWords (laneRq 1 1 52) 2 52 .timeout) = some stTimeout ∧ (favS (laneRq 1 1 52)).ringPlace 3 0 0x60000000 5 = true ∧
    (favS (laneRq 1 1 52)).ringPlace 3 0 0x5FFFFFFF 5 = false := by decide +kernel
theorem witness_SetupCommands_staged : (linkedS (laneRq 1 6 0) fun f => { f with stage := some 20000 }).fv.stage = some 20000 ∧
    (20000 : BitVec 64).toNat ≤ (linkedS (laneRq 1 6 0)).now.toNat ∧ (linkedS (laneRq 1 6 0)).sl[(0 : Fin 32)].cpend = false ∧
    ¬ (40000 : BitVec 64).toNat ≤ (linkedS (laneRq 1 6 0)).now.toNat := by decide +kernel
theorem test_lane_start : after (.laneSet .timeout) (linkedS (laneRq 1 4 0)) (fun t => t.sl[(0 : Fin 32)].run && t.fv.slots[(2 : Fin 16)].status == 0) = true := by decide +kernel
theorem test_lane_set_both : after (.laneSet .timeout) (favS (laneRq 1 12 0)) (fun t => t.fv.slots[(2 : Fin 16)].status == stBadArg.setWidth 32) = true := by decide +kernel
def driveRq (mask act p2 : BitVec 64) (n : Nat) : FvReq := hostRq 0x21 [mask, act, p2, 0, BitVec.ofNat 64 (8 * n)]
theorem witness_SetupCommands_drives : (favS (driveRq 3 1 0 10)).fv.stage = none ∧ (∀ k ∈ [(0 : Fin 16), 1], (favS (driveRq 3 1 0 10)).dlOn k = true) ∧
    wordsOf (hostWords (driveRq 3 1 0 10) 3 10 (bufOf [1, 2, 3, 4, 5, 6, 7, 8, 9, 10])) = some [1, 2, 3, 4, 5, 6, 7, 8, 9, 10] ∧
    statusOf (hostWords (driveRq 3 1 0 0) 3 10 (bufOf [])) = some stBadArg ∧ { favS (driveRq 3 1 0 10) with variantL := true }.variantL = true := by decide +kernel
/-- CUT_LOAD of entries from an index, in the payload. -/
def cutRq (first cnt : Nat) (l : List (BitVec 64)) : FvReq := hostRq 0x30 ([0, BitVec.ofNat 64 (first + 2 ^ 14 * cnt), 0xABC] ++ l)
def cutLoadS (r : FvReq) : State := (favS r).modCut 0 fun l => { l with base := 4, cap := 3 }
/-- An event at 1000 and one at 1005. -/
def twoEntries (op : BitVec 64) : List (BitVec 64) := [1000, 4, 0, 7, 1000, 5, op, 7]
theorem witness_SetupCommands_cuts : (cutLoadS (cutRq 1 2 (twoEntries 5))).cuts[(0 : Fin 16)].cap.toNat = 1 + 2 ∧ (entriesOf (twoEntries 5)).isSome = true ∧
    ((entriesOf (twoEntries 5)).getD []).all entryOk = true ∧ ((entriesOf (twoEntries 77)).getD []).findIdx? (fun e => !(entryOk e)) = some 1 ∧
    (entriesOf [1000, 4, 0, 256]).isNone = true ∧ 3 + 4 * 2 ≤ (cutRq 1 2 (twoEntries 5)).payload.length ∧ (cutLoadS (cutRq 2 2 [])).cuts[(0 : Fin 16)].cap.toNat < 2 + 2 := by decide +kernel
theorem test_cut_load : after (.cutLoad .timeout) (cutLoadS (cutRq 1 2 (twoEntries 5))) (fun t => t.peek (0xE100000000 + 2 * 5) != Word.uninit &&
    t.fv.slots[(2 : Fin 16)].status == 0) = true := by decide +kernel
theorem test_cut_load_bad : after (.cutLoad .timeout) (cutLoadS (cutRq 1 2 (twoEntries 77))) (fun t => t.mem == [] && t.fv.slots[(2 : Fin 16)].payload.take 2 == [0, 2]) = true := by
  decide +kernel
/-- KAMION_MAP with P0 and a buffer of n words. -/
def mapRq (p0 : BitVec 64) (n : Nat) : FvReq := hostRq 0x60 [p0, BitVec.ofNat 64 n, BitVec.ofNat 64 (8 * n)]
theorem witness_SetupCommands_map : (fld ((mapRq 0x1000 0).p 0) 0 12 : BitVec 12) = (favS (mapRq 0x1000 0)).km.id ∧ bit ((mapRq 0x1000 0).p 0) 12 = true ∧
    (fld ((mapRq 0x1001 0).p 0) 0 12 : BitVec 12) ≠ (favS (mapRq 0x1001 0)).km.id ∧ (mapRq 0 0).p 1 = 0 ∧ (mapRq 0 4).p 1 ≠ 0 ∧
    wordsOf (hostWords (mapRq 0 4) 1 3 (bufOf [0x3210, 0x01000203, 1, 0x1234])) = some [0x3210, 0x01000203, 1, 0x1234] ∧
    (∀ p : Fin 8, (favS (mapRq 0 4)).kmPresence p = .there) := by decide +kernel
theorem test_kamion_map : after (.kamionMap (bufOf [0x3210, 0x01000203, 1, 0x1234])) (favS (mapRq 0x1000 4)) (fun t => t.km.confirmed && t.km.tableIn && t.km.shape == 0x3210) = true := by
  decide +kernel

/-- A log stream by PCIe, and one by Ethernet with acknowledgement. -/
def stream0 : LogStream := { transport := 0, hostRing := 0x10000, hostSize := 65536, next := 5 }
def seg5 : BitVec 64 × Nat × Nat := (5, 0, 4)
def streamS (q : LogStream) (segs : List (BitVec 64 × Nat × Nat)) (f : Favar → Favar := id) : State :=
  let s := favS (hostRq 0x90 []) fun x => f { x with stream := some q, ethUp := Vector.replicate 2 true }
  { s with mq := { s.mq with en := true, logBase := 0x6000, logSize := 100, segs := segs, seq := 9 } }
/-- LOG_OPEN: P0, log size, retention size, window word, host ring length, sources. -/
def openRq (p0 p1 p2 win p32 p33 : BitVec 64) : FvReq := hostRq 0x40 ((List.range 34).map fun i => match i with
  | 0 => p0
  | 1 => p1
  | 2 => p2
  | 3 => 1
  | 19 => win
  | 31 => 0x9000
  | 32 => p32
  | 33 => p33
  | _ => 0)
def gramOf (d : BitVec 64) (g : BitVec 64) (l : Bool) : Datagram := { dseq := d, segseq := g, woff := 0, first := true, last := l, words := [] }
def stream2 : LogStream := { stream0 with transport := 2, acked := true, dseq := 7, held := [gramOf 4 5 false, gramOf 5 5 true, gramOf 6 6 false] }
theorem witness_LogStreams_open : (favS (openRq 0xC 5 6 0 65536 0)).fv.stream = none ∧ ((List.range 12).any fun i => (openRq 0xC 5 6 7 65536 0).p (19 + i) != 0) = true ∧
    ((openRq 0xC 5 6 0 65536 0).p 32).toNat % 4096 = 0 ∧ 65536 ≤ ((openRq 0xC 5 6 0 65536 0).p 32).toNat ∧ srcOk 0 = true ∧ srcOk 3 = false ∧
    5 + 6 + shareTables ≤ 2 ^ 29 ∧ ¬ ((openRq 0xC 5 6 0 61440 0).p 32).toNat ≥ 65536 := by decide +kernel
theorem test_log_open : after .logOpen (favS (openRq 0xC 5 6 0 65536 0)) (fun t => t.mq.en && t.mq.full && t.mq.logSize == 5 && t.mq.retSize == 6 &&
    t.fv.stream.map (·.acked) == some true) = true := by decide +kernel
theorem test_log_open_bad : after .logOpen (favS (openRq 0xC 5 6 0 61440 0)) (fun t => !t.mq.en && t.fv.slots[(2 : Fin 16)].status == stBadArg.setWidth 32) = true := by decide +kernel
theorem witness_LogStreams_close : (streamS stream0 [seg5]).fv.stream.isSome = true ∧ (streamS stream0 [seg5]).mq.segs ≠ [] ∧ (streamS stream0 []).mq.segs = [] ∧
    (0 : BitVec 32).toNat * 1000000 ≤ ((streamS stream0 [seg5]).now - 5).toNat ∧ ((streamS stream0 [seg5]).now - 5).toNat < (1 : BitVec 32).toNat * 1000000 := by decide +kernel
theorem witness_LogStreams_push : (streamS stream0 [seg5]).alive = true ∧ (streamS stream0 [seg5]).streaming = some stream0 ∧ stream0.transport = 0 ∧
    (streamS stream0 [seg5]).nextSeg stream0 = some seg5 ∧ stream0.hostOff + 8 * seg5.2.2 ≤ stream0.hostSize.toNat ∧
    (streamS stream0 [seg5]).hostFree stream0 stream0.hostOff (8 * seg5.2.2) = true ∧ (streamS stream0 []).nextSeg stream0 = none := by decide +kernel
theorem test_log_push : after (.logPush []) (streamS stream0 [seg5]) (fun t => t.fv.stream.map (fun q => (q.next.toNat, q.hostOff)) == some (6, 32)) = true := by decide +kernel
theorem witness_LogStreams_logack : (4 : BitVec 64).toNat < (streamS stream0 [] fun f => { f with logack := 5 }).fv.logack.toNat ∧
    (streamS stream0 [] fun f => { f with swap := true }).fv.swap = true ∧ (streamS stream0 []).fv.logack.toNat ≤ (5 : BitVec 64).toNat := by decide +kernel
theorem test_logack : after (.fvLogackWrite 5) (streamS stream0 [(3, 50, 5), seg5, (6, 4, 3)]) (fun t => t.mq.segs == [(6, 4, 3)]) = true := by decide +kernel
theorem witness_LogStreams_ethernet : (streamS stream2 [(5, 0, 4), (6, 4, 3)]).etherStream = some stream2 ∧ (streamS stream2 [(5, 0, 4)]).nextSeg stream2 = some (5, 0, 4) ∧
    (streamS stream2 []).streaming = some stream2 ∧ stream2.port.isSome = true ∧ stream2.held ≠ [] ∧ (streamS stream2 []).nextSeg stream2 = none ∧
    (streamS { stream2 with acked := false } []).etherStream = some { stream2 with acked := false } ∧
    (stream2.held.filter fun d => decide (4 ≤ d.dseq.toNat) && decide (d.dseq.toNat < 4 + 2)).length = 2 := by decide +kernel
theorem witness_LogStreams_late : let s := tick (streamS stream2 []) 1000000001
    stream2.ackTimeout.toNat * 1000000 ≤ (s.now - stream2.ackFrom).toNat ∧ s.etherStream = some stream2 := by decide +kernel
theorem test_log_ack : after (.logAckReceive ⟨0x10000, 5⟩) (streamS stream2 [seg5, (6, 4, 3)]) (fun t => t.mq.segs == [(6, 4, 3)] &&
    t.fv.stream.map (fun q => q.held.map (·.dseq.toNat)) == some [6]) = true := by decide +kernel

def venS (f : Veneer → Veneer) (r : FvReq) : State := let s := favS r; { s with ven := f s.ven }
def stageRq (p : BitVec 64) (n : Nat) : FvReq := hostRq 0x70 [p, 0, BitVec.ofNat 64 n]
/-- A veneer package of one word for base release 0, with its level. -/
def package (level : Nat) : List (BitVec 8) := bytesOf 4 0x31524E56 ++ bytesOf 2 1 ++ bytesOf 2 0 ++ bytesOf 2 0 ++ bytesOf 2 (BitVec.ofNat 64 level) ++
  bytesOf 2 1 ++ bytesOf 2 0 ++ bytesOf 4 5 ++ List.replicate 12 0 ++ List.replicate 24 0 ++ List.replicate 96 0
theorem witness_VeneersAndFirmware_stage : (bytesGiven (hostBytes (stageRq 0 152) 1 (.bytes (package 3))) == some (package 3)) = true ∧
    packageOk (package 3) = true ∧ packageOk ((package 3).take 151) = false ∧ leAt (package 3) 8 2 = (favS (stageRq 0 152)).ven.base.toNat ∧
    (favS (stageRq 0 152)).ven.committed.toNat < leAt (package 3) 0xA 2 ∧ leAt (package 3) 0x10 4 ≤ (favS (stageRq 0 152)).fv.fwver.toNat ∧
    (favS (stageRq 0 152)).ven.staged = false ∧ (venS (fun v => { v with staged := true }) (stageRq 1 0)).ven.staged = true ∧
    statusOf (hostBytes (stageRq 0 152) 1 .timeout) = some stTimeout := by decide +kernel
theorem test_discard : after (.veneerStage .timeout) (venS (fun v => { v with staged := true, level := 9 }) (stageRq 1 0)) (fun t => !t.ven.staged && t.ven.level == 0) = true := by
  decide +kernel
def applyRq (p : BitVec 64) : FvReq := hostRq 0x71 [p]
theorem witness_VeneersAndFirmware_apply : let s := venS (fun v => { v with staged := true, level := 9 }) (applyRq 0)
    s.ven.staged = true ∧ s.ven.armed = false ∧ s.ven.rollout = false ∧ bit ((applyRq 1).p 0) 0 = true ∧ bit ((applyRq 0).p 0) 0 = false ∧
      (fld s.cores[(0 : Fin 32)].ven.mcver 0 16 : BitVec 16) ≠ s.ven.level := by decide +kernel
/-- A roll-out in which core 0 has a commit pending since 5. -/
def rolloutS (force : Bool) : State := tick ((venS (fun v => { v with rollout := true, staged := true, level := 9, seamLimit := 1, force := force }) (applyRq 0)).modCore 0
  fun x => { x with ven := { x.ven with pending := true, since := 5 } }) 1005
/-- The same inside a HOLD window. -/
def windowS (force : Bool) : State := (rolloutS force).modCore 0 fun x => { x with running := true, lo := { x.lo with stat := fbit 15 true } }
theorem witness_VeneersAndFirmware_commit : (rolloutS false).commitDue 0 = true ∧ (windowS false).commitDue 0 = false ∧
    (windowS false).cores[(0 : Fin 32)].ven.pending = true ∧ (windowS true).cores[(0 : Fin 32)].amid = false ∧ (rolloutS false).domOn 0 = true ∧ (rolloutS false).cores[(0 : Fin 32)].ven.pending = true ∧ (rolloutS false).holdOpen 0 = false ∧
    (rolloutS false).ven.seamLimit.toNat * 1000 ≤ ((rolloutS false).now - (rolloutS false).cores[(0 : Fin 32)].ven.since).toNat ∧ (rolloutS true).ven.force = true := by decide +kernel
theorem test_veneer_commit : after (.veneerCoreCommit 0) (rolloutS false) (fun t => (fld t.cores[(0 : Fin 32)].ven.mcver 0 16 : BitVec 16) == 9 && !t.cores[(0 : Fin 32)].ven.pending) = true := by
  decide +kernel
theorem test_seam_limit : after (.seamLimitExpiry 0) (windowS false) (fun t => t.cores[(0 : Fin 32)].ven.abandoned && !t.cores[(0 : Fin 32)].ven.pending) = true := by decide +kernel
def fwRq (n : Nat) : FvReq := hostRq 0x80 [0, BitVec.ofNat 64 n]
/-- A firmware image of eight code bytes with its version. -/
def firmware (v : Nat) : List (BitVec 8) := bytesOf 4 0x57465646 ++ bytesOf 2 1 ++ bytesOf 1 7 ++ bytesOf 1 1 ++ bytesOf 4 (BitVec.ofNat 64 v) ++ bytesOf 4 8 ++
  List.replicate 97 4 ++ List.replicate 143 0 ++ List.replicate 8 0 ++ List.replicate 96 0
theorem witness_VeneersAndFirmware_firmware : (bytesGiven (hostBytes (fwRq 360) 0 (.bytes (firmware 9))) == some (firmware 9)) = true ∧ firmwareOk (firmware 9) = true ∧
    firmwareOk ((firmware 9).take 359) = false ∧ (favS (fwRq 360)).fv.fwver.toNat < leAt (firmware 9) 8 4 ∧ (favS (fwRq 360)).fv.svnFloor ≤ leAt (firmware 9) 6 1 ∧
    leAt (firmware 5) 8 4 ≤ (favS (fwRq 360)).fv.fwver.toNat := by decide +kernel
def swapRq : FvReq := hostRq 0x81 []
theorem witness_VeneersAndFirmware_swap : (favS swapRq fun f => { f with stagedFw := true }).fv.stagedFw = true ∧ (favS swapRq).fv.stagedFw = false ∧
    ((favS swapRq).worlds.toList.any fun w => w.state == .restarting) = false ∧ (favS swapRq).fv.busy = [] := by decide +kernel
theorem test_fw_swap : after .fwSwap (favS swapRq fun f => { f with stagedFw := true }) (fun t => t.fv.swap && t.fv.swapNew && !t.fv.ready && t.fv.swapAt == 30000) = true := by decide +kernel
def swappingS (fresh other : Bool) (n : BitVec 64) : State := tick (favS swapRq fun f => { f with
  swap := true, swapAt := 0, swapNew := fresh, fwB := { f.fwB with valid := other, version := 8 }, fwA := { f.fwA with valid := true, version := 6 }, ready := false }) n
theorem witness_VeneersAndFirmware_swapping : (swappingS true true 250000000).fv.swap = true ∧ (swappingS true true 250000000).alive = true ∧
    ((swappingS true true 250000000).now - (swappingS true true 250000000).fv.swapAt).toNat = 250000000 ∧ (swappingS true true 5).fv.swapNew = true ∧
    (swappingS false true 5).fv.swapNew = false ∧ (swappingS false true 5).fv.fwB.valid = true ∧ (swappingS false true 5).fv.activeB = false := by decide +kernel
theorem test_swap_ends : after .fwSwap (swappingS true true 250000000) (fun t => t.fv.activeB && !t.fv.swap && t.fv.fwver == 8) = true := by decide +kernel
theorem test_swap_falls_back : after .fwSwapFallback (swappingS true true 250000001) (fun t => !t.fv.activeB && !t.fv.fwB.valid && t.fv.fwA.valid && t.fv.fwver == 6) = true := by decide +kernel
def deadS (good : BitVec 2) (b : Bool) : State := favS swapRq fun f => { f with
  ready := false, fwB := { f.fwB with valid := true, version := 8 }, fwA := { f.fwA with valid := true, version := 6, raise := true, svn := 5 }, fwGood := good, customerSet := b }
theorem witness_VeneersAndFirmware_dead : (deadS 2 false).alive = true ∧ (deadS 2 false).fv.ready = false ∧ (deadS 2 false).fv.restricted = false ∧ (deadS 2 false).fv.swap = false ∧
    (deadS 2 false).fv.fwB.valid = true ∧ bit (deadS 2 false).fv.fwGood 1 = true ∧ bit (deadS 1 false).fv.fwGood 1 = false ∧ (deadS 2 true).fv.customerSet = true ∧
    (deadS 2 false).fv.customerSet = false := by decide +kernel
theorem test_slot_fallback : after .fwSlotFallback (deadS 2 false) (fun t => t.fv.activeB && t.fv.ready && t.fv.fwver == 8) = true := by decide +kernel
theorem witness_VeneersAndFirmware_svn : let s := tick (favS swapRq fun f => { f with fwA := { f.fwA with raise := true, svn := 5 } }) 86400000000000
    s.fv.ready = true ∧ s.fv.activeB = false ∧ s.fv.fwA.raise = true ∧ 86400000000000 ≤ (s.now - s.fv.readySince).toNat := by decide +kernel

/-- Device 0x001 on a confirmed torus 4 × 2 × 2, some of its ports trained. -/
def kmS (l : List (Fin 8)) (f : Kamion → Kamion) : State :=
  let s := dev 30000
  { s with km := f { s.km with
      id := 0x001, routed := true, confirmed := true, shape := 0xFFFFFF3210, ashape := 0x0000FFFFFF101003
      ports := s.km.ports.mapFinIdx fun k p _ => { p with trained := l.any fun q => q.val == k, runProto2 := k == 1 } } }
def triple : List Word := [mkHdr 2 7 0, Word.fix 3, Word.fix 4]
def messageTo (d : BitVec 12) : Packet := { origin := 0, dest := d, body := .message 0 3 (Word.fix 7) }
def bulkTo (d : BitVec 12) : Packet := { origin := 0, dest := d, body := .bulk 1 2 triple }
theorem witness_KamionLinks_train : let s := kmS [] id
    s.kmFitted 0 = true ∧ s.domOn 128 = true ∧ s.km.ports[(0 : Fin 8)].en = true ∧ s.km.ports[(0 : Fin 8)].trained = false ∧
      s.km.ports[(0 : Fin 8)].gen2 = ({ id := 2, port := 3, gen2 := s.km.ports[(0 : Fin 8)].gen2, proto2 := true } : TrainFrame).gen2 ∧ (2 : BitVec 12) ≠ s.km.id := by decide +kernel
theorem test_train_self : after (.kamionTrain 0 { id := 1, port := 3, gen2 := (kmS [] id).km.ports[(0 : Fin 8)].gen2, proto2 := true }) (kmS [] id)
    (fun t => !t.km.ports[(0 : Fin 8)].trained && t.km.ports[(0 : Fin 8)].downs == 1) = true := by decide +kernel
theorem test_train : after (.kamionTrain 0 { id := 2, port := 3, gen2 := (kmS [] id).km.ports[(0 : Fin 8)].gen2, proto2 := true }) (kmS [] id)
    (fun t => t.km.ports[(0 : Fin 8)].trained && t.km.ports[(0 : Fin 8)].nbrId == 2) = true := by decide +kernel
theorem witness_KamionLinks_packets : let s := kmS [0, 1] id
    s.km.ports[(0 : Fin 8)].trained = true ∧ s.km.carries = true ∧ (kmS [0] fun k => { k with confirmed := false }).km.carries = false ∧
      s.km.ports[(1 : Fin 8)].runProto2 = true ∧ s.km.ports[(0 : Fin 8)].runProto2 = false ∧ s.km.route (some 0) 0 0x001 = .deliver ∧
      s.km.route (some 0) 0 0xFFF = .none_ ∧ (∀ o ∈ s.km.aovr.toList, o.valid = true → o.dest ≠ s.km.id) ∧ (∀ i ∈ [0, 1, 2], coordOf s.km.id i < s.km.dimSize i) := by
  decide +kernel
theorem test_packet_noroute : after (.kamionPacketRoute 0 (messageTo 0xFFF) (.good 0)) (kmS [0, 1] id) (fun t => t.km.noroute == 1 && t.km.unconf == 0) = true := by decide +kernel
theorem test_packet_unconfirmed : after (.kamionPacketRoute 0 (messageTo 0x001) (.good 0)) (kmS [0, 1] fun k => { k with confirmed := false }) (fun t => t.km.unconf == 1) = true := by
  decide +kernel
theorem test_bulk_poisoned : after (.kamionPacketRoute 1 (bulkTo 0x001) .payloadBad) (kmS [0, 1] id) (fun t => t.km.ports[(1 : Fin 8)].poisoned == 3 && t.worlds[(1 : Fin 2)].lr[(2 : Fin 8)].refused == 1) = true := by decide +kernel
theorem witness_KamionLinks_votes : let s := kmS [0, 1] fun k => { k with votes := [(5, 9, 20000)], accept := true }
    ((s.now - 20000).toNat < 1000000) ∧ (6 : BitVec 12) ≠ s.km.id ∧ s.km.accept = true ∧ (kmS [0] fun k => { k with accept := false }).km.accept = false ∧
      ((3 : BitVec 12), (2 : Fin 8), true) ∉ s.km.links ∧ bit (4 : BitVec 64) 2 = true := by decide +kernel
theorem witness_KamionLinks_send : Grants guardS (.core 0) 7 none ⟨some 0, 1, false⟩ ∧ Who.gs ⟨some 0, 1, false⟩ = true ∧ Grants (dev 1) .favar 7 none Who.fv ∧ Who.fv.gs = false :=
  ⟨⟨by decide +kernel, by decide +kernel⟩, rfl, grants_fv _ _ _, rfl⟩
theorem test_vote_seen : after (.abortVoteReceive 0 5 9) (kmS [0, 1] fun k => { k with votes := [(5, 9, 20000)], accept := true }) (fun t => t.km.aborts == 0 && t.out.isEmpty) = true := by
  decide +kernel
theorem test_vote_new : after (.abortVoteReceive 0 5 10) (kmS [0, 1] fun k => { k with votes := [(5, 9, 20000)], accept := true }) (fun t => t.safe.mute && t.km.aborts == 1 &&
    t.out.filter (fun o => o == .vote 1 5 10) == [.vote 1 5 10, .vote 1 5 10]) = true := by decide +kernel
theorem witness_KamionLinks_table : (boundaryAfter 15000).toNat ≤ (kmS [0] fun k => { k with routeAt := some 15000 }).now.toNat ∧
    (kmS [0] fun k => { k with routeAt := some 15000 }).km.routeAt = some 15000 := by decide +kernel

def queueS (n : Nat) (confirmed : Bool) : State := (kmS [0, 1] fun k => { k with confirmed := confirmed }).modRq 0 3 fun r => { r with
  en := true, core := 5, slot := 6, entries := List.replicate n (0, Word.nil) }
def waitingS (d : Option (BitVec 64)) : State := (queueS 0 true).modSlot 5 6 fun k => { k with state := .receiving, block := some (.recv d) }
theorem witness_KamionTraffic_messages : (queueS 63 true).alive = true ∧ (queueS 63 true).km.carries = true ∧ (queueS 63 true).worlds[(0 : Fin 2)].rq[(3 : Fin 16)].en = true ∧
    (queueS 63 true).worlds[(0 : Fin 2)].rq[(3 : Fin 16)].entries.length < 64 ∧ ¬ (queueS 64 true).worlds[(0 : Fin 2)].rq[(3 : Fin 16)].entries.length < 64 ∧
    (queueS 0 false).km.carries = false ∧ ((waitingS (some 30000)).slot 5 6).state = .receiving ∧ ((waitingS (some 30000)).slot 5 6).block = some (.recv (some 30000)) ∧
    (waitingS (some 30000)).now.toNat ≤ (30000 : BitVec 64).toNat := by decide +kernel
theorem test_message_dropped : after (.messageArrival 7 0 3 (Word.fix 9)) (queueS 64 true) (fun t => t.worlds[(0 : Fin 2)].rq[(3 : Fin 16)].dropped == 1) = true := by decide +kernel
def jobTo (d : BitVec 12) : DmaJob := { src := ⟨0x46, 0x5000⟩, dev := d, ring := 2 }
def jobsS (l : List DmaJob) (routed : Bool) : State :=
  let s := withMem base [(0x5000, mkHdr 2 7 0), (0x5001, Word.fix 3), (0x5002, Word.fix 4)]
  { s with km := (kmS [0, 1] fun k => { k with confirmed := routed }).km, imt := (dev 1000005).imt,
           worlds := vmod s.worlds 0 fun x => { x with dmaJobs := l } }
theorem witness_KamionTraffic_jobs : Grants (dev 1) .favar 7 (some (16 + (0 : Fin 2).val)) Who.fv ∧ bit (0x8000 : BitVec 64) 15 = true ∧
    (jobsS (List.replicate 16 (jobTo 2)) true).worlds[(0 : Fin 2)].dmaJobs.length = 16 ∧ (jobsS [jobTo 2] true).worlds[(0 : Fin 2)].dmaJobs = jobTo 2 :: [] ∧
    (jobTo 2).sent = false ∧ (jobTo 2).ended = false ∧ (jobsS [jobTo 2] true).alive = true :=
  ⟨grants_fv _ _ _, by decide +kernel, by decide +kernel, by decide +kernel, by decide +kernel, by decide +kernel, by decide +kernel⟩
theorem witness_KamionTraffic_source : (wordsOf (match (jobsS [jobTo 2] true).dmaSource 0 (jobTo 2) with
      | .ok l => .ok (l.map (·.datum))
      | .error _ => .error 0)).isSome = true ∧ (jobsS [jobTo 2] true).km.route none 1 1 = .deliver ∧
    (match (jobsS [jobTo 2] true).km.route none 1 2 with
      | .out p _ => (jobsS [jobTo 2] true).km.ports[p].trained
      | _ => false) = true ∧ (jobsS [jobTo 2] true).km.route none 1 0xFFF = .none_ ∧ (jobsS [] false).km.carries = false ∧
    malformed (⟨0x46, 0x5000⟩ : Word) = false ∧ Word.nil.tag ≠ 0x46 := by decide +kernel
def sentJob : DmaJob := { jobTo 2 with sent := true, sentAt := 5 }
theorem witness_KamionTraffic_ends : (jobsS [sentJob] true).worlds[(0 : Fin 2)].dmaJobs = sentJob :: [] ∧ sentJob.sent = true ∧ sentJob.ended = false ∧
    1000000 ≤ ((jobsS [sentJob] true).now - sentJob.sentAt).toNat ∧ ({ sentJob with ended := true } : DmaJob).ended = true := by decide +kernel
theorem test_job_lost : after (.kmDmaLostTimeout 0) (jobsS [sentJob] true) (fun t => t.worlds[(0 : Fin 2)].dmaDone == 1 && t.worlds[(0 : Fin 2)].dmaLastErr == 5) = true := by decide +kernel
def ringOf (f : LandRing → LandRing) : State := (jobsS [] true).modLr 0 2 fun r => f { r with base := 0x6000, size := 10, wr := 6, en := true }
theorem witness_KamionTraffic_landing : let l := (ringOf fun r => { r with rdEn := true, rd := 0 }).worlds[(0 : Fin 2)].lr[(2 : Fin 8)]
    let m := (ringOf fun r => { r with rdEn := true, rd := 8 }).worlds[(0 : Fin 2)].lr[(2 : Fin 8)]
    l.en = true ∧ l.wr.toNat + triple.length ≤ l.size.toNat ∧ triple.length ≤ l.free ∧ triple ≠ [] ∧ m.free < triple.length ∧
      (ringOf fun r => { r with size := 2 }).worlds[(0 : Fin 2)].lr[(2 : Fin 8)].size.toNat < triple.length ∧
      (ringOf fun r => { r with en := false }).worlds[(0 : Fin 2)].lr[(2 : Fin 8)].en = false ∧ bit (0x2000000 : BitVec 64) 25 = true := by decide +kernel
theorem test_landing : after (.bulkLanding 0 2 triple) (ringOf id) (fun t => t.peek 0x6006 == mkHdr 2 7 0 && t.peek 0x6008 == Word.fix 4 &&
    t.worlds[(0 : Fin 2)].lr[(2 : Fin 8)].wr == 9 && t.worlds[(0 : Fin 2)].lr[(2 : Fin 8)].seq == 1) = true := by decide +kernel

def domS (d : Fin 141) (f : Dom → Dom) (s : State := dev 30000) : State := { s with pwr := { s.pwr with dom := vmod s.pwr.dom d f } }
theorem witness_PowerAndResets_sleep : Grants (dev 1) .favar 9 (some (3 : Fin 141).val) Who.fv ∧ (dev 1).domFitted 3 = true ∧ bit (8 : BitVec 64) 0 = false ∧
    bit (9 : BitVec 64) 0 = true ∧ (dev 1).pwr.dom[(3 : Fin 141)].state ≠ .off ∧ (domS 3 fun x => { x with onReq := false, state := .off }).pwr.dom[(3 : Fin 141)].state = .off :=
  ⟨grants_fv _ _ _, by decide +kernel⟩
theorem witness_PowerAndResets_sleepOk : (domS 3 (fun x => x) ((dev 1).modDl 0 id)).sleepOk 3 = true ∧ (dev 1).sleepOk 136 = false ∧ (dev 1).sleepOk 120 = false := by decide +kernel
theorem witness_PowerAndResets_ramp : (domS 3 fun x => { x with state := .ramp }).alive = true ∧ (domS 3 fun x => { x with state := .ramp }).pwr.dom[(3 : Fin 141)].state = .ramp ∧
    (domS 110 fun x => { x with state := .ramp }).pwr.dom[(110 : Fin 141)].state = .ramp ∧ (domS 3 fun x => { x with state := .loading }).pwr.dom[(3 : Fin 141)].state = .loading := by
  decide +kernel
theorem test_ramp_done : after (.domainRampDone 3) (domS 3 fun x => { x with state := .ramp }) (fun t => t.pwr.dom[(3 : Fin 141)].state == .loading) = true := by decide +kernel
def bootEnv : BootEnv := { straps := 0x0123, rails := Vector.replicate 4 3300, memCfg := Vector.replicate 4 1, memOk := 15, boardOk := true, kmCfg := 0xFF00FF, wdLimit := 7, fwReady := 3, readBack := true }
def heldS (a b : Bool) : State := { State.reset with
  pwr := { State.reset.pwr with supplied := true }, fv := { State.reset.fv with fwA := { version := 5, valid := a }, fwB := { version := 6, valid := b } } }
theorem witness_PowerAndResets_boots : (heldS true true).pwr.supplied = true ∧ (heldS true true).pwr.porLow = true ∧ (heldS true true).fv.bootSlot bootEnv.straps = some false ∧
    memoryUp bootEnv = true ∧ memoryUp { bootEnv with memOk := 0 } = false ∧ (heldS false false).fv.bootSlot bootEnv.straps = none ∧ bootEnv.readBack = true ∧
    (heldS false true).fv.bootSlot bootEnv.straps = some true := by decide +kernel
theorem test_boot_restricted : after (.porNRelease { bootEnv with memOk := 0 }) (heldS true true) (fun t => t.fv.restricted && !t.pwr.porLow && t.km.id == 0x123 && t.fv.pcieUp) = true := by
  decide +kernel
theorem test_boot_no_image : after (.porNRelease { bootEnv with readBack := false }) (heldS true true) (fun t => t.fv.restricted && !t.imt.started &&
    !t.fv.crash.isEmpty && t.fv.fwver == 5) = true := by decide +kernel
def restartS (x y : WorldState) (due : Bool) : State :=
  let s := worldsS .restarting .restarting (hostRq 0x90 [])
  { s with fv := { s.fv with restart := true, restartDue := due, restartAt := 5, prior := vset (vset s.fv.prior 0 x) 1 y } }
theorem witness_PowerAndResets_restart : (dev 5).alive = true ∧ (dev 5).fv.restart = false ∧ (dev 5).fv.restartDue = false ∧ (dev 5).fv.restricted = false ∧
    (dev 5).imt.started = true ∧ (restartS .verified .stopping false).fv.ready = true ∧ (restartS .verified .stopping false).fv.restart = true ∧
    ∀ w : Fin 2, (restartS .verified .stopping false).fv.prior[w] ≠ .running := by decide +kernel
theorem test_warm_n : after .warmNAssert (dev 5) (fun t => t.fv.restart && t.pwr.last == 2 && t.fv.restartAt == 5 && t.worlds[(0 : Fin 2)].state == .restarting) = true := by decide +kernel
theorem test_perst_n : after .perstNAssert (favS (hostRq 0x90 [])) (fun t => !t.fv.pcieUp && t.fv.major == 0 && t.fv.minor == 0) = true := by decide +kernel
theorem witness_PowerAndResets_thermal : (1199 : BitVec 16).toInt < 1200 ∧ (1200 : BitVec 16).toInt ≥ 1200 ∧ (0xFFFF : BitVec 16).toInt < 0 ∧
    (dev 5).pwr.warned = false ∧ (dev 5).pwr.warn.toInt ≤ (1199 : BitVec 16).toInt ∧ ¬ (dev 5).pwr.warn.toInt ≤ (0xFFFF : BitVec 16).toInt := by decide +kernel
def debugS : State := { favS (hostRq 0x90 []) with straps := 0x4000, fv := { (favS (hostRq 0x90 [])).fv with debugOtp := 1, ethUp := Vector.replicate 2 true } }
theorem witness_PowerAndResets_debug : debugS.debugOn = true ∧ debugS.domOn 3 = true ∧ debugS.cores[(3 : Fin 32)].halted = false ∧ debugS.fv.use[(3 : Fin 32)] ≠ .guard ∧
    debugS.fv.use[(3 : Fin 32)] ≠ .shared ∧ (debugS.modCore 3 fun x => { x with halted := true }).cores[(3 : Fin 32)].halted = true ∧ (dev 5).debugOn = false := by decide +kernel
theorem test_debug_resume : after (.debugResume 3) (debugS.modCore 3 fun x => { x with halted := true, haltAt := 29000, wdStart := 7 }) (fun t =>
    !t.cores[(3 : Fin 32)].halted && t.cores[(3 : Fin 32)].wdStart == 1007) = true := by decide +kernel
def ptpS (x src : BitVec 64) : State := { debugS with imt := { debugS.imt with ptp := x, src := src } }
theorem witness_PowerAndResets_links : debugS.domOn 136 = true ∧ debugS.domOn 137 = true ∧ debugS.fv.ethUp[(0 : Fin 2)] = true ∧ debugS.fv.ready = true ∧
    bit (ptpS (putN 41 1) 2).imt.ptp 41 = true ∧ bit (ptpS (putN 41 1) 2).imt.ptp 32 = false ∧ bit (ptpS (putN 41 1 ||| putN 32 1) 2).imt.ptp 32 = true ∧
    (ptpS 0 0x82).imt.sel = 2 ∧ (fld (ptpS 0 0x82).imt.src 7 1 : BitVec 1) = 1 ∧ (ptpS 0 2).imt.ptpKey = none ∧
    (((0 * 256 + 5) * 256 + 6) * 2 ^ 64 + 8 < (ptpS (putN 8 9) 2).ptpOwn 0 ∨ (ptpS (putN 8 9) 2).ptpOwn 0 ≤ ((255 * 256 + 255) * 256 + 255) * 2 ^ 64) := by decide +kernel
theorem test_pause : after (.ethFrameReceive 0 (.pause 5)) debugS (fun t => t.fv.ethPaused[(0 : Fin 2)] == 30256) = true := by decide +kernel

/-! ## Witnesses of the other clauses: arithmetic, moves, memory -/

/-- Core 0 in the supervisor of the Guard world about to execute an instruction. -/
def atGuard (i : Instr) (l : List (Fin 32 × Word)) : State := fetched (withRegs guardS l) i
def flyS (i : Instr) : State := (at_ i []).modCore 0 fun x =>
  { x with mulFly := some (Word.fix 14, Word.fix 0), divFly := some (Word.fix 3, Word.fix 1) }
theorem witness_SpecialRegisterReads_flight : ∀ i ∈ [Instr.mfs h0 3 true 0x09, .mfs h0 3 true 0x0A, .mfs h0 3 true 0x0B, .mfs h0 3 false 0x08],
    Ready i h0 [3] (flyS i) := ready_all (by decide +kernel)
theorem witness_SpecialRegisterReads_marks : (flyS (.nop h0)).cores[(0 : Fin 32)].ownsUpper = true ∧
    (fld base.cores[(0 : Fin 32)].hi.marks 16 4 : BitVec 4) = 0 := by decide +kernel
theorem witness_SpecialRegisterWrites_guard : Ready (.mts h0 3 false 0x19) h0 [3] (atGuard (.mts h0 3 false 0x19) [(3, Word.raw 1)]) ∧
    (atGuard (.mts h0 3 false 0x19) []).world 0 = 1 ∧ (fld (1 : BitVec 64) 0 2 : BitVec 2) = 1 := ⟨ready_of (by decide +kernel), by decide +kernel⟩
theorem witness_SpecialRegisterWrites_user : ∀ i ∈ [Instr.mts h0 3 false 0x03, .mts h0 3 false 0x10],
    Ready i h0 [3] ((atUser i []).modCore 0 fun x => x.setReg 3 (Word.raw 5)) := ready_all (by decide +kernel)
theorem witness_SpecialRegisterWrites_checks : chkWord ⟨0xFE, 0⟩ = some .poisonUse ∧ srTag 0x04 = some 0x00 ∧ srTag 0x10 = some (Word.raw 5).tag ∧
    chkWord (Word.raw 5) = none ∧ (Word.raw 5).tag ≠ 0x00 := by decide +kernel

/-- What an operation on values answers, as a word. -/
def wordOfRes (r : Except Cause Res) : Option Word :=
  match r with
  | .ok r => immRes 0 r
  | .error _ => none
def failOfRes (r : Except Cause Res) : Bool :=
  match r with
  | .ok _ => false
  | .error _ => true
theorem witness_Conversions_others : wordOfRes (cvtSpanq (.span 7)) ≠ none ∧ failOfRes (cvtInst (.int (-1) true)) = true ∧
    chkFull plainQ = none ∧ (immVal plainQ).isSome = true ∧ immVal Word.nil = none ∧ isTm (cvtSpanq (classVal (Word.span 7))) = false := by decide +kernel
theorem witness_Conversions_ready : ∀ i ∈ [Instr.cvtSpanq h0 3 1, .cvtStrip h0 3 1 2], Ready i h0 [3, 1, 2] (two i (Word.span 7) plainQ) :=
  ready_all (by decide +kernel)
theorem witness_AddSub_other : wordOfRes (arith .add 0 (.inst 5) (.span 7)) = some (Word.inst 12) ∧ wordOfRes (arith .sub 0 (.inst 5) (.inst 7)) = some (Word.span (-2)) ∧
    pairOk .add (Word.inst 5) (Word.span 7) = true ∧ pairOk .sub (Word.inst 5) (Word.inst 7) = true ∧ chkFull (Word.inst 5) = none ∧
    immVal (Word.inst 5) = some (.inst 5) ∧ immVal (Word.span 7) = some (.span 7) := by decide +kernel
theorem witness_MulDiv_other : chkFull (Word.flt 0) = none ∧ pairOk .mul (Word.flt 0) (Word.fix 3) = true ∧ isBlk (Word.flt 0) = false ∧
    pairOk .div (Word.inst 0) (Word.fix 3) = false ∧ chkFull ⟨0xFE, 0⟩ = some .poisonUse := by decide +kernel
def mulS : State := two (.mul h0 1 2) (Word.fix (2 ^ 62)) (Word.fix 2)
theorem witness_MulDiv_result : mulRes 0 (Word.fix (2 ^ 62)) (Word.fix 2) mulS = .ok (okOf (mulRes 0 (Word.fix (2 ^ 62)) (Word.fix 2)) (Word.nil, Word.nil, false) mulS).1
      (okOf (mulRes 0 (Word.fix (2 ^ 62)) (Word.fix 2)) (Word.nil, Word.nil, false) mulS).2 ∧
    settledB 0 (okOf (mulRes 0 (Word.fix (2 ^ 62)) (Word.fix 2)) (Word.nil, Word.nil, false) mulS).2 = true := ⟨ok_of _ (by decide +kernel), by decide +kernel⟩
theorem witness_NegAndLogadd_sum : (fld level.datum 1 23 : BitVec 23) = fld level.datum 1 23 ∧ (ofQ40 (fld level.datum 24 40)).isFin = true := by decide +kernel

/-- A code object without code, and one that begins with a header of another kind. -/
def badCodeM : List (Nat × Word) := [(0x6000, mkHdr 16 9 0), (0x6001, Word.raw 14), (0x6004, Word.fix 7), (0x6100, mkHdr 2 8 0), (0x6101, ⟨0x48, 0x6000⟩)]
def badCallS : State := mkS (.calli h0 1) [(1, ⟨0x48, 0x6000⟩)] badCodeM
theorem witness_Transfers_outside : (okOf (callTarget 0 ⟨0x48, 0x6000⟩) (0, true) badCallS).1.2 = false ∧ (14 : BitVec 64).toNat = 2 * (7 : BitVec 64).toNat ∧
    okB (callTarget 0 ⟨0x48, 0x6000⟩) badCallS = true := by decide +kernel
theorem witness_Transfers_code : Loads callS 0 0x6000 (callS.sees 0 (trOf callS .read 0x6000) 0x6000) (callS.loaded 0 (trOf callS .read 0x6000) 0x6000 false) ∧
    hdrCheck (callS.sees 0 (trOf callS .read 0x6000) 0x6000) = none ∧ hdrKind (callS.sees 0 (trOf callS .read 0x6000) 0x6000) = 0x09 :=
  ⟨load_of _ rfl (by decide +kernel), by decide +kernel, by decide +kernel⟩
theorem witness_Transfers_rets : retS.unscanned 0 false = none ∧ Word.nil.tag ≠ 0x0B ∧ malformed ⟨0x0B, 1 <<< 60⟩ = true ∧
    malformed (mkReta 5 1 true) = false ∧ (fld (mkReta 5 1 true).datum 62 2 : BitVec 2) ≠ BitVec.ofNat 2 (retS.world 0).val := by decide +kernel
theorem witness_SupervisorControl_refused : (fld eretS.cores[(0 : Fin 32)].lo.epc 62 2 : BitVec 2) ≠ 1 ∧ bit eretS.cores[(0 : Fin 32)].lo.estat 6 = false ∧
    Word.nil.tag ≠ 0x07 ∧ malformed (mkReta 0x66 0 false) = false := by decide +kernel
/-- A word in the stack buffer. -/
def fenceS (i : Instr) (va : BitVec 48) : State := (at_ i []).modCore 0 fun x => { x with stackBufS := [⟨va, Word.true⟩] }
def unitOk (m : M Unit) (s : State) : State := (okOf m () s).2
theorem witness_FencesAndInvalidation_spill : fenceAll 0 (fenceS (.fence h0) 0x2FFF) = .ok () (unitOk (fenceAll 0) (fenceS (.fence h0) 0x2FFF)) ∧
    settledB 0 (unitOk (fenceAll 0) (fenceS (.fence h0) 0x2FFF)) = true ∧ (fenceS (.fence h0) 0x2FFF).cores[(0 : Fin 32)].stackMarks = [] ∧
    readyB (.fence h0) h0 [] (fenceS (.fence h0) 0x2FFF) = true := ⟨ok_of _ (by decide +kernel), by decide +kernel, by decide +kernel, by decide +kernel⟩
theorem witness_FencesAndInvalidation_fault : okB (fenceAll 0) (fenceS (.fence h0) 0x80000000000) = false := by decide +kernel
/-- A DEVREF of the gauge block for its units, to read and write. -/
def gtRef : Word := ⟨0x0E, putN 0 2 ||| putN 16 255 ||| putN 24 3⟩
def refS (i : Instr) : State := grants (mkS i [(1, gtRef), (2, Word.fix 5), (3, Word.raw 9)] [])
theorem witness_LoadsDeliver_register : ∀ i ∈ [Instr.ldw h0 3 1 5, .ldf h0 3 1 2, .stw h0 3 1 5, .stf h0 3 1 2], Ready i h0 [3, 1, 2] (refS i) :=
  ready_all (by decide +kernel)
/-- What a device access answers. -/
def answered {α : Type} (x : Except Unit α) : Bool :=
  match x with
  | .ok _ => true
  | .error _ => false
theorem witness_LoadsDeliver_registers : goodRef gtRef = true ∧ (refS (.ldw h0 3 1 5)).refOk gtRef.datum 5 false = true ∧
    (refS (.stw h0 3 1 5)).refOk gtRef.datum 5 true = true ∧ (refS (.ldw h0 3 1 5)).refOk (gtRef.datum ^^^ putN 24 3) 5 false = false ∧
    answered ((refS (.ldw h0 3 1 5)).blockLoad ((refS (.ldw h0 3 1 5)).whoCore 0) 2 5) = true ∧
    answered ((refS (.stw h0 3 1 5)).blockStore ((refS (.stw h0 3 1 5)).whoCore 0) 2 5 (Word.raw 9)) = true ∧ chkWord gtRef = none := by decide +kernel
theorem witness_LoadsDeliver_wait : let s := ldwS.modCore 0 fun x => { x with waits := true }
    (s.cacheRead 0 (trOf ldwS .read 0x5002).pa false (trOf ldwS .read 0x5002).page).clusters[clusterOf 0].sector (sectorOf 0x5002) = .filling ∧
      ldwS.cores[(0 : Fin 32)].stackHit 0x5002 = none := by decide +kernel
theorem witness_DrainsMakeVisible_marks : (spillS [⟨0x2FFF, Word.true⟩] []).cores[(0 : Fin 32)].stackMarks = [] ∧ (spillS [] []).user 0 = false := by decide +kernel
theorem witness_BytesAndSpadj_put : let s := byteS (.stb h0 3 1 2) ⟨0x42, 0x5000⟩ 8
    Ready (.stb h0 3 1 2) h0 [3, 1, 2] s ∧ Reaches .rmw s 0 0x5003 (trOf s .rmw 0x5003) ∧ s.cores[(0 : Fin 32)].stackHit 0x5003 = none ∧
      (s.drainStores 0).peek (trOf s .rmw 0x5003).pa.toNat = Word.raw 0x99 ∧ (255 : BitVec 64).toNat < 256 :=
  ⟨ready_of (by decide +kernel), reach_dtlb _ rfl (by decide +kernel), by decide +kernel, by decide +kernel, by decide +kernel⟩
theorem witness_AllocDelivers_other : okB (allocSafe 0 2 [Word.nil]) (allocS (Word.fix 1) (Word.fix 0x4102)) = true ∧ (atUser (.nop h0) []).user 0 = true ∧
    readyB (.alloc h0 3 1 2) h0 [3, 1, 2] ((atUser (.alloc h0 3 1 2) []).modCore 0 fun x => (x.setReg 1 (Word.fix 40)).setReg 2 (Word.fix 0x4B0C)) = true := by
  decide +kernel
theorem witness_WaitsAndMessages_room : sendS.cores[(0 : Fin 32)].waits = false ∧ sendS.cores[(0 : Fin 32)].stackBufU = [] ∧ chkWord (Word.fix 0x4000) = none := by
  decide +kernel
def grantS : State := (clampS (mkClmp 0 0 1) Word.nil).modSlot 0 0 fun k => { k with grants := [(0, 0x5001)] }
theorem witness_Clamps_granted : Ready (.clamp h0 3 1 1) h0 [3, 1] grantS ∧ (grantS.cores[(0 : Fin 32)].lo.depth, (0x5001 : BitVec 40)) ∈ (grantS.running 0).grants ∧
    clmpHeld (mkClmp 0 0 1) = true ∧ clmpOwner (mkClmp 0 0 1) = (0, 0) ∧ (trOf grantS .rmw 0x5001).pa = 0x5001 :=
  ⟨ready_of (by decide +kernel), by decide +kernel⟩
theorem test_clamp_granted : after (.clamp h0 3 1 1) grantS (fun t => t.cores[(0 : Fin 32)].reg 3 == Word.true && (t.running 0).grants.isEmpty) = true := by
  decide +kernel
theorem witness_SavesAndMultiples_saved : readyB (.saveu h0) h0 [] (multS (.saveu h0)) = true ∧ readyB (.restl h0) h0 [] (multS (.restl h0)) = true ∧
    readyB (.restu h0) h0 [] (multS (.restu h0)) = true ∧ (mkS (.saveu h0) [] drawM).cores[(0 : Fin 32)].mulFly = none := by decide +kernel

/-! ## Witnesses of the other clauses: boundaries, the Jig, the Planer, ports, time -/

theorem witness_EntriesAtBoundary_fresh : base.cores[(0 : Fin 32)].fresh = false := by decide +kernel
theorem witness_JigSwitches_seam : (switchS.modCore 0 fun x => { x with running := false }).commitDue 0 = false := by decide +kernel
/-- A context blocked inside a window, and a Guard context that is READY. -/
def heldCtx (w : BitVec 2) : State := ((switchS.modCore 0 fun x => { x with running := false, holdWait := true }).modSlot 0 0 fun k => { k with state := .waiting }).modSlot 0 3
  fun k => { k with world := w }
theorem witness_JigSwitches_left : (heldCtx 0).leftHeld 0 = true ∧ (heldCtx 1).switchDue 0 = some 3 ∧ (heldCtx 0).switchDue 0 = none ∧
    ((heldCtx 1).slot 0 3).world = 1 ∧ ((heldCtx 1).slot 0 0).world = 0 := by decide +kernel
theorem witness_DeadlinesAndWatchdog_set : let s := tick (base.modCore 0 fun x => { x with wdLimit := 1, wdStart := 5, wdSet := 4 }) 1005
    s.cores[(0 : Fin 32)].wdSet.toNat / 1000 < s.now.toNat / 1000 ∧ s.cores[(0 : Fin 32)].wdLimit.toNat ≤ (s.now - s.cores[(0 : Fin 32)].wdStart).toNat / 1000 := by
  decide +kernel
theorem witness_SlotCommands_lost : ((slotS .parked 3).modSlot 0 3 fun k => { k with lost := true }).slot 0 3 |>.lost := by decide +kernel
def collectS (p : Phase) (full : Bool) : State := heapS.modHeap 0 fun h => { h with phase := p, fullCycle := full, workDone := true }
theorem witness_PlanerPhases_collected : (collectS .drain false).collected 0 = true ∧ (collectS .sweep true).collected 0 = true ∧ (collectS .drain false).planerFree 0 = true ∧
    (collectS .sweep true).worlds[(0 : Fin 2)].heap.phase = .sweep ∧
    ((collectS .drain false).modCluster 0 fun k => { k with cardQueue := [(0, 65)] }).collected 0 = false ∧ ((collectS .sweep true).planerVia 0).isSome = true := by
  decide +kernel
theorem witness_CachesAndPorts_presents : portS.ports[(0 : Fin 4)].presents 10 = some ⟨10, 899990, true, 0x20, false, []⟩ ∧
    portS.ports[(0 : Fin 4)].presents 3 = some ⟨3, 900000, false, 0x10, false, []⟩ ∧ portS.ports[(0 : Fin 4)].presents 4 = none := by decide +kernel
theorem witness_CachesAndPorts_owed : let s := (sectorS .filling [⟨0, 5, false, 0x100, false, []⟩] (dev 1000)).modCluster 0 fun c =>
      { c with blocks := c.blocks.map fun b => { b with owed := Vector.replicate 4 true } }
    s.clusters[(0 : Fin 8)].isOwed 0x100 = true ∧ (sectorS .filling [] (dev 1000)).clusters[(0 : Fin 8)].isOwed 0x100 = false ∧
      s.clusters[(0 : Fin 8)].sector 0x100 = .filling := by decide +kernel
theorem witness_CachesAndPorts_queue : (sectorS .clean [] (dev 1000)).ports[(0 : Fin 4)].queue = [] ∧ portS.ports[(0 : Fin 4)].queue ≠ [] ∧
    portS.ports[(0 : Fin 4)].scrubAt = none ∧ (sectorS .clean [] (dev 1000)).clusters.toList.any (fun c => c.holdsValid (sectorOf 0x1000)) = true ∧
    (sectorS .clean [] (dev 1000)).clusters.toList.any (fun c => c.holdsValid (sectorOf 0)) = false := by decide +kernel
theorem witness_TimeKeeping_lost : (imtS .locked 1 4000000000).sourceLost 0 = true ∧ (imtS .locked 1 5).sourceLost 100 = false ∧ (imtS .locked 1 5).sourceLost 101 = true ∧
    (imtS .slewing 1 5).imt.lockedEver = false := by decide +kernel
theorem test_holdover : after (.imtSourceLoss 101) (imtS .locked 1 5) (fun t => t.imt.state == .holdover && t.imt.holdAt == 5 && t.imt.count == 5) = true := by decide +kernel
theorem witness_TimeKeeping_silent : 10000000 ≤ ((imtS .holdover 7 10000000).now - (imtS .holdover 7 10000000).imt.bcLast).toNat ∧
    (imtS .holdover 7 20000).imt.sel = 3 := by decide +kernel
theorem witness_TimeKeeping_beacon : let s := imtS .locked 3 20000
    let t := { s with imt := { s.imt with seenBc := vset s.imt.seenBc 2 { master := 9, mprio := 4, hops := 1, at_ := 19000, valid := true } } }
    t.bestPort = some 2 ∧ t.beaconValid 2 = true ∧ s.bestPort = none := by decide +kernel
theorem witness_IdleStepIsOneTick_silent : (dev 5).fv.ready = false ∧ ∀ p : Fin 2, (dev 5).ethOn p = false := by decide +kernel
theorem witness_CutActions_ready : (∀ x : Fin 16, (cutL (act 5 9) []).activationDue x = false) ∧ pendS.activationDue 2 = true := by decide +kernel
theorem test_cut_corrected : after (.cutNop (.list 2) .corrected) (cutL (act 0 0) []) (fun t => t.cutFixed == 1) = true := by decide +kernel

/-! ## Witnesses of the other clauses: lanes, lathes, pins, gauges -/

theorem witness_SensorLanes_calm : (laneS (laneCfg 0 1 0 1 4) id).sl[(0 : Fin 32)].cpend = false ∧ (laneS (laneCfg 0 1 0 1 4) id).slSettle 0 = laneS (laneCfg 0 1 0 1 4) id :=
  ⟨by decide +kernel, rfl⟩
theorem witness_DriveLanes_calm : checkS.dl[(0 : Fin 16)].cpend = false ∧ ¬ checkS.dl[(0 : Fin 16)].storedAt = some checkS.now ∧ Grants (dev 1) .favar 4 (some (0 : Fin 16).val) Who.fv :=
  ⟨by decide +kernel, by decide +kernel, grants_fv _ _ _⟩
theorem witness_DriveLanes_ahead : driveB.ahead.length = 2 ∧
    (playS 0 { driveB with ahead := [Word.nil] }).agentPeek 8 driveB.samples.toNat ≠ Word.nil := by decide +kernel
theorem witness_DriveLanes_commit : (checkS.modDl 0 fun l => { l with shadow := some driveB }).settleUnderrun 0 = checkS.modDl 0 fun l => { l with shadow := some driveB } := rfl
theorem witness_LatheJobs_undone : ({ vop with descOk := false } : LatheJob).undone = true ∧ (errResult vop [] 1 none).code = 1 ∧ vop.undone = false := by
  decide +kernel
/-- The job of vop with a source whose LSTAT word is EMPTY. -/
def emptyJ : LatheJob := jobOf 1 [0x5000] [0x5080]
def emptyS : State := tick (withMem (jobS emptyJ) [(0x5007, Word.empty)]) 200000000
theorem witness_LatheJobs_waits : emptyS.srcWaiting emptyJ = true ∧ emptyJ.startedAt.toNat + emptyS.lathes[(0 : Fin 8)].srcwaitLimit.toNat * 1000 ≤ emptyS.now.toNat := by
  decide +kernel
theorem witness_GaugeTimers_ticks : (gaugeS id).aonOn = true ∧ (gaugeS id).gtTicks (gaugeS id).gauges[(0 : Fin 32)] = true ∧
    (gaugeS id).gtRuns 0 = true ∧ (gaugeS fun g => { g with en := false }).gtRuns 0 = false := by decide +kernel
theorem witness_HingePins_calm : (hingeS id).hngDue (bankOf 5) = false ∧ (bankS fun k => { k with cpend := true, cpendAt := 10000 }).hngDue 0 = true := by decide +kernel

/-! ## Witnesses of the other clauses: Favar, Kamion, power -/

theorem witness_LogStreams_peer : stream2.fromPeer 0x10000 = true ∧ stream2.fromPeer 0x10001 = false ∧ (7 : BitVec 64).toNat < (7 : BitVec 64).toNat + (1 : BitVec 64).toNat := by
  decide +kernel
theorem witness_WorldCommands_poison : statusOf (hostBytes imageRq 1 (.poisoned ((imageOf 0 1 0x6000).take 300))) = some stBadArg := by decide +kernel
theorem witness_KamionLinks_due : (kmS [0] fun k => { k with routeAt := some 15000 }).routeDue = true ∧ (kmS [0] id).routeDue = false ∧
    (kmS [0] id).kmSettle = kmS [0] id := ⟨by decide +kernel, by decide +kernel, rfl⟩
def floodTo : Packet := { origin := 5, dest := 0, body := .trigger 0 (act 5 9) 40000 (some 3) }
theorem test_flood : after (.kamionPacketRoute 0 floodTo (.good 0)) (kmS [0, 1] id) (fun t => t.km.floods.length == 1 && t.trigq.dropped == 1 &&
    t.out == [.packet 1 0 floodTo]) = true := by decide +kernel
theorem test_flood_seen : after (.kamionPacketRoute 0 floodTo (.good 0)) (kmS [0, 1] fun k => { k with floods := [(5, 3, 29000)] }) (fun t => t.out.isEmpty) = true := by decide +kernel
theorem witness_KamionTraffic_settled : (jobsS [jobTo 2] true).kmSettle = jobsS [jobTo 2] true ∧ ((jobsS [jobTo 2] true).memErrs []).kmSettle = jobsS [jobTo 2] true :=
  ⟨rfl, rfl⟩
theorem witness_KamionTraffic_wraps : let l := (ringOf fun r => { r with wr := 8, rdEn := false }).worlds[(0 : Fin 2)].lr[(2 : Fin 8)]
    (ringOf fun r => { r with wr := 8 }).worlds[(0 : Fin 2)].lr[(2 : Fin 8)].en = true ∧ l.size.toNat < 8 + triple.length ∧ triple.length ≤ l.size.toNat ∧
      l.size.toNat - 8 + triple.length ≤ l.free := by decide +kernel
theorem test_landing_wraps : after (.bulkLanding 0 2 triple) ((ringOf id).modLr 0 2 fun r => { r with wr := 8 }) (fun t => t.peek 0x6008 == Word.fill 2 &&
    t.peek 0x6000 == mkHdr 2 7 0 && t.worlds[(0 : Fin 2)].lr[(2 : Fin 8)].wr == 3) = true := by decide +kernel
theorem witness_PowerAndResets_images : (heldS true true).fv.bootImage = none ∧ portsOk bootEnv = true ∧
    portsOk { bootEnv with memCfg := vset bootEnv.memCfg 2 2 } = false := by decide +kernel
def hdr1588 (d : BitVec 8) : PtpHdr := { version := 2, domain := d, transport := .udp4 }
theorem witness_PowerAndResets_heard : (ptpS (putN 41 1) 2).imt.ptpTakes (hdr1588 0) = true ∧ (ptpS (putN 41 1) 2).imt.ptpTakes (hdr1588 1) = false ∧
    (ptpS (putN 41 1) 2).fv.swap = false ∧ (hdr1588 0).version = 2 := by decide +kernel
theorem test_delay_req : after (.ptpMessageReceive 0 .delayReq (hdr1588 0)) (ptpS (putN 41 1) 2) (fun t => t.out == [.ptpReply 0 .delayReq]) = true := by decide +kernel

end Sys2Proof.Tests
end

section
/-! SUPPORT. A world's heap registers, the reload of board maps, and the settlement of O39. -/

namespace Sys2Proof.Machine

open Sys2Proof

/-! ### The heap of a world -/

theorem modHeap_heap (s : State) (w : Fin 2) (f : Heap → Heap) : (s.modHeap w f).worlds[w].heap = f s.worlds[w].heap :=
  congrArg World.heap (modWorld_worlds_self s w _)

/-- Only what an update gives on the heap as it stands counts. -/
theorem modHeap_congr {s : State} {w : Fin 2} {f g : Heap → Heap} (h : f s.worlds[w].heap = g s.worlds[w].heap) :
    s.modHeap w f = s.modHeap w g := by
  simp only [State.modHeap, State.modWorld, vmod, h]

/-! ### Register rows of a granted agent -/

/-- A store that its agent is granted is made, and the parks that it asks for follow (R458). -/
theorem rowStore_granted {s s' : State} {a : Agent} {block : Fin 16} {unit : Option Nat} {u : Who} {f : Who → State → RegSt}
    (hg : Grants s a block unit u) (hf : f u s = .ok s') : s.rowStore a block unit f = s'.settleAll := by
  obtain ⟨hwho, hgrant⟩ := hg
  simp only [State.rowStore, hwho, hgrant, hf, if_true]
  rfl

theorem heapRow_granted {s s' : State} {a : Agent} {w : Fin 2} {u : Who} {r : HeapReg} {v : BitVec 64}
    (hg : Grants s a 11 (some (16 + w.val)) u) (hf : s.heapStore u w r v = .ok s') : s.heapRow a w r v = s'.settleAll :=
  rowStore_granted hg hf

/-- The fields that every store to CCH_GCw_CTL takes (R153). -/
def State.takeCtl (s : State) (w : Fin 2) (v : BitVec 64) : State :=
  s.modHeap w fun h => { h with kind := bit v 1, promoteAge := fld v 4 4 }

theorem heapStore_ctl_start {v : BitVec 64} (hstart : bit v 0 = true) (hsync : bit v 2 = false) (s : State) (u : Who)
    (w : Fin 2) : s.heapStore u w .ctl v = .ok ((s.takeCtl w v).startCycle w) := by
  simp only [State.heapStore, hstart, hsync, Bool.false_eq_true, if_false, if_true, State.takeCtl]

theorem heapStore_ctl_sync {v : BitVec 64} (hsync : bit v 2 = true) (hstart : bit v 0 = false) (s : State) (u : Who)
    (w : Fin 2) : s.heapStore u w .ctl v = .ok ((s.takeCtl w v).askReload w) := by
  simp only [State.heapStore, hstart, hsync, Bool.false_eq_true, if_false, if_true, State.takeCtl]

theorem takeCtl_phase (s : State) (w : Fin 2) (v : BitVec 64) :
    (s.takeCtl w v).worlds[w].heap.phase = s.worlds[w].heap.phase := by
  rw [State.takeCtl, modHeap_heap]

/-- START takes the KIND of the same store (R153). -/
theorem startCycle_takeCtl_idle {s : State} {w : Fin 2} (v : BitVec 64) (h : s.worlds[w].heap.phase = .idle) :
    (s.takeCtl w v).startCycle w =
      State.setPhase { (s.takeCtl w v).modHeap w (fun h => { h with fullCycle := bit v 1, cycleOrd := s.jig.order, live := 0 }) with
        jig := { s.jig with order := s.jig.order + 1 } } w .flip := by
  have hkind : (s.takeCtl w v).worlds[w].heap.kind = bit v 1 := by rw [State.takeCtl, modHeap_heap]
  rw [State.startCycle, if_pos ((takeCtl_phase s w v).trans h)]
  rw [modHeap_congr (g := fun h => { h with fullCycle := bit v 1, cycleOrd := (s.takeCtl w v).jig.order, live := 0 })
    (by simp only [hkind])]
  rfl

theorem startCycle_takeCtl_busy {s : State} {w : Fin 2} (v : BitVec 64) (h : s.worlds[w].heap.phase ≠ .idle) :
    (s.takeCtl w v).startCycle w = s.takeCtl w v := by
  rw [State.startCycle, if_neg fun hidle => h ((takeCtl_phase s w v).symm.trans hidle)]

theorem exec_cchStart_granted {s s' : State} {a : Agent} {w : Fin 2} {v : BitVec 64} {u : Who}
    (hg : Grants s a 11 (some (16 + w.val)) u) (hstart : bit v 0 = true) (hsync : bit v 2 = false)
    (hs : (s.takeCtl w v).startCycle w = s') : exec (.cchStart a w v) s = .next s'.settleAll := by
  show execCchStart a w v s = _
  rw [execCchStart, if_pos hstart, heapRow_granted hg (heapStore_ctl_start hstart hsync s u w), hs]
  rfl

theorem exec_cchSync_granted {s : State} {a : Agent} {w : Fin 2} {v : BitVec 64} {u : Who}
    (hg : Grants s a 11 (some (16 + w.val)) u) (hsync : bit v 2 = true) (hstart : bit v 0 = false) :
    exec (.cchSync a w v) s = .next ((s.takeCtl w v).askReload w).settleAll := by
  show execCchSync a w v s = _
  rw [execCchSync, if_pos hsync, heapRow_granted hg (heapStore_ctl_sync hsync hstart s u w)]
  rfl

theorem exec_cchGive_granted {s : State} {a : Agent} {w : Fin 2} {u : Who} (v : BitVec 64)
    (hg : Grants s a 11 (some (16 + w.val)) u) :
    exec (.cchGive a w v) s = .next (s.givePool w (fld v 0 32)).settleAll := by
  show execCchGive a w v s = _
  rw [execCchGive, heapRow_granted hg (show s.heapStore u w .give v = _ from rfl)]
  rfl

theorem exec_twRetry_granted {s : State} {a : Agent} {w : Fin 2} {v : BitVec 64} {u : Who}
    (hg : Grants s a 11 (some (16 + w.val)) u) (hretry : bit v 0 = true) :
    exec (.twRetry a w v) s =
      .next (s.modHeap w fun h => { h with phHeld := false, afValid := h.afValid && !(bit v 2) }).settleAll := by
  have hstore : s.heapStore u w .actl v =
      .ok (s.modHeap w fun h => { h with phHeld := false, afValid := h.afValid && !(bit v 2) }) := by
    simp only [State.heapStore, hretry, Bool.not_true, Bool.and_false, w1c]
  show execTwRetry a w v s = _
  rw [execTwRetry, if_pos hretry, heapRow_granted hg hstore]
  rfl

/-! ### Board maps -/

/-- The cores of a list are asked for a reload; no other is. -/
theorem foldl_askReload_reload (w : Fin 2) (c : Fin 32) (cs : List (Fin 32)) (s : State) :
    (cs.foldl (fun (s : State) d => s.modCore d fun x => { x with reload := vset x.reload w true }) s).cores[c].reload[w] =
      (s.cores[c].reload[w] || decide (c ∈ cs)) := by
  induction cs generalizing s with
  | nil => simp
  | cons d cs ih =>
    rw [List.foldl_cons, ih]
    by_cases hd : c = d
    · subst hd
      rw [modCore_cores_self]
      simp
    · rw [modCore_cores_other _ _ _ _ hd]
      simp [hd]

/-- SYNC asks the powered cores of the world (R144). -/
theorem askReload_reload (s : State) (w : Fin 2) (c : Fin 32) :
    (s.askReload w).cores[c].reload[w] = (s.cores[c].reload[w] || (s.assigned c w && s.domOn c.val)) := by
  rw [State.askReload, modHeap_cores, foldl_askReload_reload]
  congr 1
  simp

theorem givePool_room {s : State} {w : Fin 2} (b : BitVec 32) (hsize : s.worlds[w].heap.poolSize ≠ 0)
    (hroom : (s.worlds[w].heap.poolTail - s.worlds[w].heap.poolHead).toNat < s.worlds[w].heap.poolSize.toNat) :
    s.givePool w b =
      (s.dmaWrite (s.worlds[w].heap.poolAddr.toNat + s.worlds[w].heap.poolTail.toNat % s.worlds[w].heap.poolSize.toNat)
        (Word.raw (b.setWidth 64))).modHeap w fun h => { h with poolTail := h.poolTail + 1 } :=
  if_neg (not_or.mpr ⟨hsize, Nat.not_le.mpr hroom⟩)

theorem givePool_full {s : State} {w : Fin 2} (b : BitVec 32) (h : s.worlds[w].heap.poolSize = 0 ∨
    s.worlds[w].heap.poolSize.toNat ≤ (s.worlds[w].heap.poolTail - s.worlds[w].heap.poolHead).toNat) :
    s.givePool w b = s.modHeap w fun h => { h with giveLost := true } := if_pos h

/-- A core that was asked takes the map as memory holds it (R144). -/
def State.takeMap (s : State) (c : Fin 32) (w : Fin 2) : State :=
  s.modCore c fun x => { x with bmap := vset x.bmap w (s.mapWords w), reload := vset x.reload w false }

/-- The board map, the reload owed and the registers of a core that took the map. -/
theorem takeMap_core (s : State) (c : Fin 32) (w : Fin 2) :
    (s.takeMap c w).cores[c].bmap[w] = s.mapWords w ∧ (s.takeMap c w).cores[c].reload[w] = false ∧
      ∀ r, (s.takeMap c w).cores[c].reg r = s.cores[c].reg r := by
  rw [State.takeMap, modCore_cores_self]
  exact ⟨vset_self _ _ _, vset_self _ _ _, fun _ => rfl⟩

theorem exec_boardMapReload_asked {s : State} {c : Fin 32} {w : Fin 2} (h : s.cores[c].reload[w] = true) :
    exec (.boardMapReload c w) s = .next (if (s.takeMap c w).cores.toList.any (fun x => x.reload[w]) then s.takeMap c w
      else (s.takeMap c w).modHeap w fun h => { h with syncBusy := false }) := by
  show execBoardMapReload c w s = _
  rw [execBoardMapReload, if_pos h]
  rfl

theorem exec_boardMapReload_unasked {s : State} {c : Fin 32} {w : Fin 2} (h : s.cores[c].reload[w] = false) :
    exec (.boardMapReload c w) s = .next s := by
  show execBoardMapReload c w s = _
  rw [execBoardMapReload, h]
  rfl

/-- BOARD_MAP_RELOAD of a core that was asked: its map and registers, memory, and SYNC_BUSY, which ends with the last reload (R144). -/
theorem exec_boardMapReload_effect {s : State} {c : Fin 32} {w : Fin 2} (h : s.cores[c].reload[w] = true) :
    ∃ t : State, exec (.boardMapReload c w) s = .next t ∧
      t.cores[c].bmap[w] = s.mapWords w ∧ t.cores[c].reload[w] = false ∧ t.mem = s.mem ∧
      (∀ r, t.cores[c].reg r = s.cores[c].reg r) ∧
      t.worlds[w].heap.syncBusy = (s.worlds[w].heap.syncBusy && t.cores.toList.any fun x => x.reload[w]) := by
  obtain ⟨hmap, hrel, hreg⟩ := takeMap_core s c w
  refine ⟨_, exec_boardMapReload_asked h, ?_⟩
  split
  case isTrue hany =>
    refine ⟨hmap, hrel, rfl, hreg, ?_⟩
    simp only [hany, Bool.and_true]
    rfl
  case isFalse hany =>
    refine ⟨hmap, hrel, rfl, hreg, ?_⟩
    simp only [modHeap_heap, modHeap_cores, hany, Bool.and_false]

/-- Settles O39, a lemma per command and register. -/
theorem heapCommands : Obligations.HeapCommands := by
  unfold Obligations.HeapCommands
  intro s a w v u c hp s1 all
  refine ⟨fun hg => ⟨fun hstart hsync => ⟨fun hidle => ?_, fun hbusy => ?_⟩, fun hsync hstart => ?_, ?_, fun hretry => ?_⟩,
    askReload_reload s w c, fun b => ⟨givePool_room b, givePool_full b⟩, exec_boardMapReload_effect, fun hall => ?_⟩
  · exact exec_cchStart_granted hg hstart hsync (startCycle_takeCtl_idle v hidle)
  · exact exec_cchStart_granted hg hstart hsync (startCycle_takeCtl_busy v hbusy)
  · exact exec_cchSync_granted hg hsync hstart
  · exact exec_cchGive_granted v hg
  · exact exec_twRetry_granted hg hretry
  · have hc : !s.cores[c].reload[w] := List.all_eq_true.mp hall _ (by simp)
    exact exec_boardMapReload_unasked (by simpa using hc)

end Sys2Proof.Machine
end

section
/-! SUPPORT. The flip marks of a core, CORE_FLIP, the phases of the Planer, and the settlement of O40. -/

namespace Sys2Proof.Machine

open Sys2Proof

/-! ### Flip marks -/

/-- A one-bit field at place k. -/
theorem getLsbD_one_shiftLeft {n : Nat} (k i : Nat) (h : i < n) : (((1#1).setWidth n) <<< k).getLsbD i = (k == i) := by
  rw [Bool.eq_iff_iff]
  simp only [h, BitVec.getLsbD_eq_getElem, BitVec.getElem_shiftLeft, BitVec.getElem_setWidth, BitVec.getLsbD_one,
    Nat.lt_add_one, decide_true, Bool.true_and, Bool.and_eq_true, Bool.not_eq_eq_eq_not, Bool.not_true,
    decide_eq_false_iff_not, Nat.not_lt, decide_eq_true_eq, beq_iff_eq]
  omega

theorem bit_setBit_true {n : Nat} (m : BitVec n) (k i : Nat) (h : i < n) :
    bit (setBit m k true) i = (bit m i || k == i) := by
  have hmask : (BitVec.allOnes 1) = 1#1 := by decide
  have hval : BitVec.ofBool true = 1#1 := by decide
  simp only [bit, setBit, setFld, hmask, hval, BitVec.getLsbD_or, BitVec.getLsbD_and, BitVec.getLsbD_not,
    getLsbD_one_shiftLeft k i h, h, decide_true, Bool.true_and]
  cases m.getLsbD i <;> cases k == i <;> rfl

theorem bit_foldl_setBit {α : Type} {n i : Nat} (h : i < n) (l : List (α × Nat)) (m : BitVec n) :
    bit (l.foldl (fun m e => setBit m e.2 true) m) i = (bit m i || l.any fun e => e.2 == i) := by
  induction l generalizing m with
  | nil => simp
  | cons e l ih => rw [List.foldl_cons, ih, bit_setBit_true _ _ _ h, List.any_cons, Bool.or_assoc]

/-- The flip mark of a word says whether it points into a condemned board (R154). -/
theorem bit_marksOf (s : State) (v : Via) {n i : Nat} {ws : List Word} (hn : i < n) (hi : i < ws.length) :
    bit (s.marksOf v n ws) i = s.suspect v ws[i] := by
  rw [State.marksOf, bit_foldl_setBit hn, List.any_filter]
  have hzero : bit (0 : BitVec n) i = false := by simp [bit]
  rw [hzero, Bool.false_or, Bool.eq_iff_iff, List.any_eq_true]
  constructor
  · rintro ⟨⟨x, k⟩, hmem, hx⟩
    obtain ⟨j, hj, he⟩ := List.mem_iff_getElem.mp hmem
    simp only [List.getElem_zip, List.getElem_range, Prod.mk.injEq] at he
    obtain ⟨rfl, rfl⟩ := he
    simp only [Bool.and_eq_true, beq_iff_eq] at hx
    obtain ⟨hs, rfl⟩ := hx
    exact hs
  · intro hs
    have hlen : i < (ws.zip (List.range n)).length := by
      rw [List.length_zip, List.length_range]
      exact Nat.lt_min.mpr ⟨hi, hn⟩
    exact ⟨(ws[i], i), List.mem_iff_getElem.mpr ⟨i, hlen, by simp only [List.getElem_zip, List.getElem_range]⟩,
      by simp only [hs, beq_self_eq_true, Bool.and_self]⟩

/-! ### CORE_FLIP -/

theorem State.Calm.core_running {s t : State} (h : s.Calm t) (c : Fin 32) : t.cores[c].running = s.cores[c].running := by
  rw [h.cores c]

/-- What every update of a fold keeps, the fold keeps. -/
theorem foldl_keeps {α β : Type} (p : State → β) {f : State → α → State} (hf : ∀ s a, p (f s a) = p s) (l : List α)
    (s : State) : p (l.foldl f s) = p s := by
  induction l generalizing s with
  | nil => rfl
  | cons a l ih => exact (ih _).trans (hf s a)

/-- What of a core the flip changes beside its slots, as far as it is spoken of here. -/
def State.flipView (s : State) (c : Fin 32) : LowerHalf × Vector Bool 2 × Vector Bool 2 :=
  (s.cores[c].lo, s.cores[c].flipDue, s.cores[c].flipped)

theorem modSlot_flipView (s : State) (c : Fin 32) (k : Fin 64) (f : Slot → Slot) :
    (s.modSlot c k f).flipView c = s.flipView c := by
  simp only [State.flipView, State.modSlot, modCore_cores_self]

/-- The lower half and the flip bits of a core that is marked (R154). -/
theorem markCore_flipView (s : State) (c : Fin 32) (w : Fin 2) :
    (s.markCore c w).flipView c =
      (if s.cores[c].running && s.world c == w then
          { s.cores[c].lo with marks := s.marksOf ⟨c, w, false, 5⟩ 16 s.cores[c].lo.w.toList } else s.cores[c].lo,
        vset s.cores[c].flipDue w false, vset s.cores[c].flipped w true) := by
  unfold State.markCore
  dsimp only
  rw [foldl_keeps (State.flipView · c) fun s k => modSlot_flipView s c k _]
  simp only [State.flipView, modCore_cores_self]

/-- A core has made its stores visible and set its flip marks (R154). -/
def State.takeFlip (s : State) (c : Fin 32) (w : Fin 2) : State := (s.drainStores c).markCore c w

/-- A core that takes the flip owes it no more, and marks its registers that point into condemned boards (R154). -/
theorem takeFlip_core {s f : State} {c : Fin 32} {w : Fin 2} (hf : f = s.takeFlip c w) :
    f.cores[c].flipDue[w] = false ∧ f.cores[c].flipped[w] = true ∧
      (s.cores[c].running = true → s.world c = w → ∀ r : Fin 16, f.cores[c].lo.w[r] = s.cores[c].lo.w[r] ∧
        bit f.cores[c].lo.marks r.val =
          (isPtrTag s.cores[c].lo.w[r].tag && s.condemned c w (fld s.cores[c].lo.w[r].datum 0 48))) := by
  subst hf
  unfold State.takeFlip
  have hcalm := (State.Calm.refl s).drainStores c
  obtain ⟨hlo, hflip⟩ := Prod.mk.inj (markCore_flipView (s.drainStores c) c w)
  obtain ⟨hdue, hflipped⟩ := Prod.mk.inj hflip
  refine ⟨?_, ?_, fun hrun hw r => ?_⟩
  · rw [hdue]
    exact vset_self _ _ _
  · rw [hflipped]
    exact vset_self _ _ _
  · have hmine : ((s.drainStores c).cores[c].running && (s.drainStores c).world c == w) = true := by
      rw [hcalm.core_running, hcalm.world, hrun, hw]
      simp
    rw [if_pos hmine, hcalm.lo] at hlo
    rw [hlo]
    refine ⟨rfl, ?_⟩
    rw [bit_marksOf _ _ r.isLt (by simp), State.suspect, hcalm.condemned]
    simp

/-- What a core x retires once it has taken the flip, in the state f that this left: the saved regions of its contexts of the world,
and that of the running context where it lies on a condemned board (R154). -/
def State.flipRetire (f : State) (c : Fin 32) (w : Fin 2) (x : Core) : M Unit :=
  let others := ((f.slotsOf c w).filter fun k => !(x.running && k == x.slot)).map fun k => (f.slot c k).handle
  let atRisk := x.running && decide (x.lo.allocp.toNat < x.lo.allocl.toNat) && f.condemned c w (fld x.lo.allocp 0 48)
  do
    retireAll ⟨c, w, false, 6⟩ others
    if atRisk then retireRegion c

/-- Without a region on a condemned board nothing is retired. -/
theorem flipRetire_nothing {f : State} {c : Fin 32} {w : Fin 2} {x : Core}
    (hothers : (((f.slotsOf c w).filter fun k => !(x.running && k == x.slot)).map fun k => (f.slot c k).handle) = [])
    (hrisk : (x.running && decide (x.lo.allocp.toNat < x.lo.allocl.toNat) && f.condemned c w (fld x.lo.allocp 0 48)) = false) :
    (f.flipRetire c w x).run f = .ok () f := by
  unfold State.flipRetire
  dsimp only
  rw [hothers, hrisk]
  rfl

/-- A core takes the flip of a world now: it is due, the map is reloaded, and the core runs nothing or that world (R154). -/
def State.flipsNow (s : State) (c : Fin 32) (w : Fin 2) : Bool :=
  s.coreLive c && s.cores[c].flipDue[w] && !s.cores[c].reload[w] && (!s.cores[c].running || s.world c == w)

theorem flipsNow_of {s : State} {c : Fin 32} {w : Fin 2} (hlive : s.coreLive c = true) (hdue : s.cores[c].flipDue[w] = true)
    (hmap : s.cores[c].reload[w] = false) (hhere : s.cores[c].running = false ∨ s.world c = w) : s.flipsNow c w = true := by
  rw [State.flipsNow, hlive, hdue, hmap]
  rcases hhere with hidle | hworld
  · rw [hidle]
    rfl
  · simp [hworld]

/-- The state after a core has taken the flip, by what the retiring of its regions answers: a fault met by running code is its own
STORE_FAULT, any other is recorded as the Jig's (R154, R228). -/
def State.flipOutcome (s : State) (c : Fin 32) (w : Fin 2) : EStateM.Result Trap State Unit → State
  | .ok _ s' => s'
  | .error t s' =>
    match s.cores[c].running, t.fault with
    | true, f => s'.enter c { cause := .storeFault, resume := s.cores[c].lo.pc, fault := f }
    | false, some (a, i) => s'.jigFault w a i
    | false, none => s'

section flips
variable {s s' : State} {c : Fin 32} {w : Fin 2} {t : Trap} (hnow : s.flipsNow c w = true)
include hnow

theorem exec_coreFlip_now : exec (.coreFlip c w) s =
    .next (s.flipOutcome c w (((s.takeFlip c w).flipRetire c w s.cores[c]).run (s.takeFlip c w))) := by
  rw [State.flipsNow] at hnow
  show execCoreFlip c w s = _
  unfold execCoreFlip State.flipRetire State.takeFlip
  simp only [hnow, if_true]
  generalize EStateM.run _ ((s.drainStores c).markCore c w) = r
  cases r <;> rfl

theorem exec_coreFlip_ok (hr : ((s.takeFlip c w).flipRetire c w s.cores[c]).run (s.takeFlip c w) = .ok () s') :
    exec (.coreFlip c w) s = .next s' := by
  rw [exec_coreFlip_now hnow, hr, State.flipOutcome]

theorem exec_coreFlip_enters (hr : ((s.takeFlip c w).flipRetire c w s.cores[c]).run (s.takeFlip c w) = .error t s')
    (hrun : s.cores[c].running = true) : exec (.coreFlip c w) s =
      .next (s'.enter c { cause := .storeFault, resume := s.cores[c].lo.pc, fault := t.fault }) := by
  rw [exec_coreFlip_now hnow, hr, State.flipOutcome, hrun]

theorem exec_coreFlip_fault {va : BitVec 48} {info : BitVec 64}
    (hr : ((s.takeFlip c w).flipRetire c w s.cores[c]).run (s.takeFlip c w) = .error t s')
    (hidle : s.cores[c].running = false) (hf : t.fault = some (va, info)) :
    exec (.coreFlip c w) s = .next (s'.jigFault w va info) := by
  rw [exec_coreFlip_now hnow, hr, State.flipOutcome, hidle, hf]

end flips

/-! ### Phases -/

section planer
variable {s0 s s' : State} {w : Fin 2} {act : M Unit} {t : Trap}

theorem planer_ok (h : act.run s = .ok () s') : s.planer w act = s'.modHeap w fun h => { h with workDone := true } := by
  rw [State.planer, h]

theorem planer_fault {va : BitVec 48} {info : BitVec 64} (h : act.run s = .error t s') (hf : t.fault = some (va, info)) :
    s.planer w act = (s'.jigFault w va info).modHeap w fun h => { h with phHeld := true } := by
  simp only [State.planer, h, hf]

theorem planer_waits (h : act.run s = .error t s') (hf : t.fault = none) : s.planer w act = s' := by
  simp only [State.planer, h, hf]

/-- What a command that is a Planer action ends in (R153, R228). -/
theorem exec_planer_ends {i : Instr} (hi : exec i s0 = .next (s.planer w act)) (va : BitVec 48) (info : BitVec 64) :
    (act.run s = .ok () s' → exec i s0 = .next (s'.modHeap w fun h => { h with workDone := true })) ∧
    (act.run s = .error t s' → t.fault = some (va, info) →
      exec i s0 = .next ((s'.jigFault w va info).modHeap w fun h => { h with phHeld := true })) ∧
    (act.run s = .error t s' → t.fault = none → exec i s0 = .next s') :=
  ⟨fun h => hi.trans (congrArg _ (planer_ok h)), fun h hf => hi.trans (congrArg _ (planer_fault h hf)),
    fun h hf => hi.trans (congrArg _ (planer_waits h hf))⟩

end planer

section phases
variable {s : State} {w : Fin 2} {v : Via} (hv : s.planerVia w = some v) (hfree : s.planerFree w = true)
include hv hfree

theorem exec_planerCopy_now (hmay : s.worlds[w].heap.mayDo .flip .copy = true) (hflips : s.flipsDone w = true) :
    exec (.planerCopy w) s = .next ((s.intoPhase w .copy).planer w (scanRoots v)) := by
  show execPlanerCopy w s = _
  simp only [execPlanerCopy, hv, hmay, hfree, hflips, Bool.and_self, if_true]
  rfl

/-- The work of DRAIN: the marks of the cores, the card queues, and what they bring to scan (R153, R157). -/
def drainWork (v : Via) (w : Fin 2) (cs : List (Fin 32)) : M Unit := do
  drainCores v cs
  modify State.emptyCardQueues
  let h := (← get).worlds[w].heap
  modify fun s => s.modHeap w fun h => { h with ctxDone := [], ctxQ := s.ctxRoots w }
  if !h.fullCycle then scanCardTable v (16 * h.count.toNat) 0
  scanQueues v h.queueFuel
  modify State.emptyCardQueues

/-- The powered cores of a world. -/
def State.powered (s : State) (w : Fin 2) : List (Fin 32) :=
  (List.finRange 32).filter fun c => s.assigned c w && s.domOn c.val

theorem exec_planerDrain_now (hmay : s.worlds[w].heap.mayDo .copy .drain = true ∨
    s.worlds[w].heap.phase = .drain ∧ s.collected w = false) :
    exec (.planerDrain w) s =
      .next (State.planer (((s.powered w).foldl (fun (s : State) c => s.drainStores c) (s.intoPhase w .drain)).emptyCardQueues) w
        (drainWork v w (s.powered w))) := by
  have hgo : (s.worlds[w].heap.mayDo .copy .drain || (s.worlds[w].heap.phase == .drain && !(s.collected w))) = true := by
    rcases hmay with hmay | ⟨hphase, hleft⟩
    · rw [hmay, Bool.true_or]
    · rw [hphase, hleft]
      exact Bool.or_true _
  show execPlanerDrain w s = _
  simp only [execPlanerDrain, hv, hgo, hfree, Bool.and_self, if_true]
  rfl

/-- The work of SWEEP: unseen large objects are freed and the seen map is cleared (R153). -/
def sweepWork (v : Via) (h : Heap) : M Unit := do
  sweepBoards v h.largeCond 0
  modify fun s => s.dmaWrites h.seen.toNat (List.replicate (16 * h.count.toNat) Word.zero)

theorem exec_planerSweep_now (hfull : s.worlds[w].heap.fullCycle = true) (hmay : s.worlds[w].heap.mayDo .drain .sweep = true)
    (hdone : s.collected w = true) :
    exec (.planerSweep w) s = .next ((s.intoPhase w .sweep).planer w (sweepWork v s.worlds[w].heap)) := by
  show execPlanerSweep w s = _
  simp only [execPlanerSweep, hv, hfull, hmay, hfree, hdone, Bool.and_self, if_true]
  rfl

end phases

/-! ### FLIP -/

/-- The registers and queues of a heap as FLIP begins its work (R153). -/
def Heap.flipReset (h : Heap) : Heap := { h with largeCond := [], seenQ := [], ctxQ := [], ctxDone := [], toSpace := [] }

theorem poolBoards_flipReset (s : State) (w : Fin 2) : (s.modHeap w Heap.flipReset).poolBoards w = s.poolBoards w := by
  rw [State.poolBoards, modHeap_heap]
  rfl

/-- What FLIP does once its boards are condemned: places to copy to on condemned boards are given up, every core of the world
owes the flip, and the map is reloaded (R153, R154). -/
def State.oweFlips (s : State) (w : Fin 2) : State :=
  let s1 := s.modHeap w fun h =>
    { h with nursery := s.keepArea w h.nursery, survivor := s.keepArea w h.survivor, oldTo := s.keepArea w h.oldTo }
  (((List.finRange 32).filter fun c => s1.assigned c w).foldl (fun (s : State) c =>
    s.modCore c fun x => { x with flipDue := vset x.flipDue w true }) s1).askReload w

theorem exec_planerFlip_ok {s s' : State} {w : Fin 2} {v : Via} (hv : s.planerVia w = some v) (hfree : s.planerFree w = true)
    (hphase : s.worlds[w].heap.phase = .flip) (hwork : s.worlds[w].heap.workDone = false)
    (hr : (condemnBoards v (s.poolBoards w) s.worlds[w].heap.fullCycle s.worlds[w].heap.count.toNat 0).run
      (s.modHeap w Heap.flipReset) = .ok () s') :
    exec (.planerFlip w) s = .next ((s'.modHeap w fun h => { h with workDone := true }).oweFlips w) := by
  have hact := planer_ok (w := w) hr
  rw [← poolBoards_flipReset] at hact
  have hdone : (s'.modHeap w fun h => { h with workDone := true }).worlds[w].heap.workDone = true := by rw [modHeap_heap]
  have hrow : execPlanerFlip w s = ok ((s'.modHeap w fun h => { h with workDone := true }).oweFlips w) := by
    unfold execPlanerFlip
    rw [hv]
    dsimp only
    rw [if_pos ⟨hphase, hwork, hfree⟩]
    unfold Heap.flipReset at hact
    rw [hact, if_pos hdone]
    rfl
  exact hrow

/-! ### RELEASE -/

/-- RELEASE may begin: the phase before it has done its work, and nothing of R157 is left. -/
theorem exec_planerRelease_now {s : State} {w : Fin 2} (hwork : s.worlds[w].heap.workDone = true)
    (hphase : s.worlds[w].heap.phase = if s.worlds[w].heap.fullCycle then .sweep else .drain)
    (hfree : s.planerFree w = true) (hdone : s.collected w = true) :
    let s1 := (List.range s.worlds[w].heap.count.toNat).foldl (fun (s : State) k => s.releaseBoard w k) (s.setPhase w .release)
    let s2 : State := { s1 with cores := s1.cores.map fun (x : Core) =>
      { x with flipped := vset x.flipped w false, flipDue := vset x.flipDue w false
               slots := x.slots.map fun (k : Slot) =>
                 if worldIx k.world = w then { k with unscanU := none, unscanS := none } else k } }
    exec (.planerRelease w) s = .next (((s2.askReload w).modHeap w fun h =>
      { h with cycles := h.cycles + 1, largeCond := [], ctxDone := [] }).setPhase w .idle) := by
  have hgo : (s.worlds[w].heap.workDone && (s.worlds[w].heap.phase == (if s.worlds[w].heap.fullCycle then .sweep else .drain)) &&
      s.planerFree w && s.collected w) = true := by
    rw [hwork, hfree, hdone, hphase]
    simp
  exact congrArg Host.Outcome.next (if_pos hgo)

/-- Settles O40, a lemma per command. -/
theorem planerPhases : Obligations.PlanerPhases := by
  unfold Obligations.PlanerPhases
  intro s c w v s' t va info x hp f1 others atRisk retire ends flip0 cs
  refine ⟨fun hlive hdue hmap hhere => ?_, ?_, fun hv hfree => ⟨fun hphase hwork hr => ?_, fun hmay hflips => ?_,
    fun hmay => ?_, fun hfull hmay hdone => ?_⟩, fun hwork hphase hfree hdone => ?_⟩
  · have hnow := flipsNow_of hlive hdue hmap hhere
    exact ⟨fun hothers hrisk => exec_coreFlip_ok hnow (flipRetire_nothing hothers hrisk), exec_coreFlip_ok hnow,
      fun hr => ⟨exec_coreFlip_enters hnow hr, exec_coreFlip_fault hnow hr⟩⟩
  · have hf : f1 = s.takeFlip c w := rfl
    clear_value f1
    exact takeFlip_core hf
  · exact exec_planerFlip_ok hv hfree hphase hwork hr
  · exact exec_planer_ends (exec_planerCopy_now hv hfree hmay hflips) va info
  · exact exec_planer_ends (exec_planerDrain_now hv hfree hmay) va info
  · exact exec_planer_ends (exec_planerSweep_now hv hfree hfull hmay hdone) va info
  · exact exec_planerRelease_now hwork hphase hfree hdone

end Sys2Proof.Machine
end

section
/-! SUPPORT. The ranking of the READY contexts of a core, JIG_SWITCH, and the settlement of O36. -/

namespace Sys2Proof.Machine

open Sys2Proof

/-! ### Ranking -/

theorem minBy_isSome_cons {α : Type} (key : α → Nat) (a : α) (as : List α) : (minBy key (a :: as)).isSome = true := by
  rw [minBy]
  split
  case h_1 => rfl
  case h_2 => split <;> rfl

/-- What `minBy` finds stands in the list, and nothing there has a lesser key. -/
theorem minBy_least {α : Type} {key : α → Nat} {l : List α} {b : α} (h : minBy key l = some b) :
    b ∈ l ∧ ∀ a ∈ l, key b ≤ key a := by
  induction l generalizing b with
  | nil => cases h
  | cons a as ih =>
    rw [minBy] at h
    cases hrest : minBy key as with
    | none =>
      have hnil : as = [] := by
        cases as with
        | nil => rfl
        | cons d ds => simpa [hrest] using minBy_isSome_cons key d ds
      rw [hrest] at h
      cases h
      simp [hnil]
    | some d =>
      obtain ⟨hmem, hle⟩ := ih hrest
      rw [hrest] at h
      simp only [] at h
      split at h
      case isTrue had =>
        cases h
        exact ⟨List.mem_cons_self, List.forall_mem_cons.mpr ⟨Nat.le_refl _, fun e he => Nat.le_trans had (hle e he)⟩⟩
      case isFalse had =>
        cases h
        exact ⟨List.mem_cons_of_mem _ hmem, List.forall_mem_cons.mpr ⟨by omega, hle⟩⟩

theorem Slot.rank_lt (k : Slot) : k.rank < 32 := by
  unfold Slot.rank
  split <;> omega

section winner
variable {s : State} {c : Fin 32} {k j : Fin 64} (h : s.winner c = some k)
include h

theorem winner_ready : (s.slot c k).state = .ready := by
  simpa using (List.mem_filter.mp (minBy_least h).1).2

/-- The winner ranks highest, and among its equals it has been READY longest (R169). -/
theorem winner_highest (hsince : ∀ i, (s.slot c i).readySince < 2 ^ 64) (hj : (s.slot c j).state = .ready) :
    (s.slot c j).rank ≤ (s.slot c k).rank ∧
      ((s.slot c j).rank = (s.slot c k).rank → (s.slot c k).readySince ≤ (s.slot c j).readySince) := by
  have hmem : j ∈ (List.finRange 64).filter fun i => (s.slot c i).state == .ready := by simp [hj]
  have hkey := (minBy_least h).2 j hmem
  have hrj := (s.slot c j).rank_lt
  have hrk := (s.slot c k).rank_lt
  have htj := hsince j
  have htk := hsince k
  omega

end winner

/-! ### The switch that is due -/

section due
variable {s : State} {c : Fin 32} {k : Fin 64}

/-- A running context yields only to the winner, which outranks it, and not with the fast bank in or before its first instruction (R174). -/
theorem switchDue_running (hrun : s.cores[c].running = true) (h : s.switchDue c = some k) :
    s.winner c = some k ∧ (s.running c).rank < (s.slot c k).rank ∧ s.cores[c].bank = false ∧ s.cores[c].fresh = false := by
  unfold State.switchDue at h
  split at h
  case h_1 => cases h
  case h_2 m hwin =>
    simp only [hrun, Bool.not_true, Bool.false_eq_true, if_false] at h
    split at h
    case isTrue => cases h
    case isFalse hfree =>
      split at h
      case isFalse => cases h
      case isTrue hrank =>
        split at h
        case isTrue => cases h
        case isFalse =>
          cases h
          simp only [Bool.or_eq_true, not_or, Bool.not_eq_true] at hfree
          exact ⟨hwin, hrank, hfree⟩

/-- An idle core that its last context left free takes the winner. -/
theorem switchDue_free (hidle : s.cores[c].running = false) (hleft : s.leftHeld c = false) : s.switchDue c = s.winner c := by
  unfold State.switchDue
  split
  case h_1 hwin => exact hwin.symm
  case h_2 hwin => simp only [hidle, hleft, hwin, Bool.not_false, Bool.true_or, if_true]

/-- An idle core that its last context left inside a window or with the fast bank in takes that one back, or out of a Test window a
Guard context (R174). -/
theorem switchDue_held (hidle : s.cores[c].running = false) (hleft : s.leftHeld c = true) (h : s.switchDue c = some k) :
    (k = s.cores[c].slot ∧ (s.slot c k).state = .ready) ∨
      (s.winner c = some k ∧ s.cores[c].bank = false ∧ (s.slot c k).world = 1 ∧ (s.slot c s.cores[c].slot).world = 0) := by
  unfold State.switchDue at h
  split at h
  case h_1 => cases h
  case h_2 m hwin =>
    simp only [hidle, hleft, Bool.not_true, Bool.not_false, Bool.false_or, if_true] at h
    split at h
    case isTrue hguard =>
      cases h
      simp only [Bool.and_eq_true, Bool.not_eq_true', beq_iff_eq] at hguard
      obtain ⟨⟨hbank, hworld⟩, hlast⟩ := hguard
      exact .inr ⟨hwin, hbank, hworld, hlast⟩
    case isFalse =>
      split at h
      case isTrue hback =>
        cases h
        exact .inl ⟨rfl, by simpa using hback⟩
      case isFalse => cases h

/-- Whatever switch is due, the context that comes in is READY. -/
theorem switchDue_ready (h : s.switchDue c = some k) : (s.slot c k).state = .ready := by
  cases hrun : s.cores[c].running with
  | true => exact winner_ready (switchDue_running hrun h).1
  | false =>
    cases hleft : s.leftHeld c with
    | false => exact winner_ready ((switchDue_free hrun hleft).symm.trans h)
    | true =>
      obtain ⟨-, hready⟩ | ⟨hwin, -⟩ := switchDue_held hrun hleft h
      · exact hready
      · exact winner_ready hwin

/-- Unless the last context is to be taken back, the winner comes in. -/
theorem switchDue_winner (h : s.switchDue c = some k) (hfree : s.cores[c].running = true ∨ s.leftHeld c = false) :
    s.winner c = some k := by
  cases hrun : s.cores[c].running with
  | true => exact (switchDue_running hrun h).1
  | false =>
    have hleft : s.leftHeld c = false := hfree.resolve_left (by rw [hrun]; exact Bool.false_ne_true)
    exact (switchDue_free hrun hleft).symm.trans h

/-! ### The switch made -/

theorem exec_jigSwitch_idle (hlive : s.coreLive c = true) (hdue : s.switchDue c = some k)
    (hidle : s.cores[c].running = false) (hseam : s.commitDue c = false) :
    exec (.jigSwitch c) s = .next (s.switchIn c k) := by
  show execJigSwitch c s = _
  simp only [execJigSwitch, ok, hlive, hseam, hidle, State.jigSwitch, hdue, Bool.not_false, Bool.and_self, Bool.true_or,
    Bool.false_eq_true, if_true, if_false]

theorem exec_jigSwitch_running (hlive : s.coreLive c = true) (hdue : s.switchDue c = some k)
    (hrun : s.cores[c].running = true) (hopen : s.entryOpen c = true) (habort : s.abortDue c = false) :
    exec (.jigSwitch c) s = .next ((s.switchOut c .ready s.cores[c].lo.pc
      (if s.holdOpen c then BitVec.ofNat 64 s.cores[c].holdCount else 0)).switchIn c k) := by
  have hseam : s.commitDue c = false := by
    have h := hopen
    simp only [State.entryOpen, Bool.and_eq_true, Bool.not_eq_true'] at h
    exact h.1.1.2
  show execJigSwitch c s = _
  simp only [execJigSwitch, ok, hlive, hseam, hopen, habort, hrun, State.jigSwitch, hdue, Bool.not_false, Bool.and_self,
    Bool.or_true, if_true]

/-- A core with the context of a slot come in, by the words of its record (R173). -/
def Core.takeIn (x : Core) (k : Fin 64) (ws : List Word) (now : BitVec 64) : Core :=
  let hold := (ws.getD 34 Word.zero).datum
  { ({ x with lo := { lowerOf ws with stat := setBit (lowerOf ws).stat 15 (hold != 0) } } : Core).spillsBack k with
    running := true, slot := k, switches := x.switches + 1, wdStart := now, wdDone := false, holdCount := hold.toNat
    holdWait := false, fresh := false, amid := false, fetchBuf := [] }

section record
variable {ws : List Word} {s' : State} (h : (getWords (s.viaSlot c k 6) 36 ((s.slot c k).handle + 9)).run s = .ok ws s')
include h

theorem switchIn_read : s.switchIn c k =
    (s'.modCore c fun x => x.takeIn k ws s'.now).modSlot c k fun x => { x with state := .running, holdRem := 0 } := by
  rw [State.switchIn, h]
  rfl

/-- The core of a context that came in runs with the record read, its SWITCHES counted, its upper half left where it was (R173). -/
theorem switchIn_core :
    let y := (s.switchIn c k).cores[c]
    y.running = true ∧ y.slot = k ∧ y.slots[k].state = .running ∧ y.switches = s'.cores[c].switches + 1 ∧
      y.lo.pc = retaPc (ws.getD 17 Word.zero).datum ∧ y.lo.depth = fld (ws.getD 24 Word.zero).datum 0 5 ∧
      (∀ r : Fin 16, y.lo.w[r] = ws.getD r.val Word.nil) ∧ y.hi = s'.cores[c].hi := by
  intro y
  have hy : y = _ := (congrArg (·.cores[c]) (switchIn_read h)).trans (modCore_cores_self _ c _)
  rw [modCore_cores_self] at hy
  rw [hy]
  exact ⟨rfl, rfl, congrArg Slot.state (vmod_self _ _ _), rfl, rfl, rfl,
    fun r => Vector.getElem_ofFn r.isLt, rfl⟩

end record

end due

/-- Settles O36: which context is due by the ranking, the switch by whether the core runs, the core after it by the record. -/
theorem jigSwitches : Obligations.JigSwitches := by
  unfold Obligations.JigSwitches
  intro s c k j ws s' x rem
  refine ⟨fun hlive hdue => ⟨exec_jigSwitch_idle hlive hdue, exec_jigSwitch_running hlive hdue⟩,
    fun hdue hsince => ⟨switchDue_ready hdue, fun hidle hleft => ?_, fun hfree hj => ?_, fun hrun => ?_⟩, switchIn_core⟩
  · exact (switchDue_held hidle hleft hdue).imp And.left And.right
  · exact winner_highest (switchDue_winner hdue hfree) hsince hj
  · exact (switchDue_running hrun hdue).2

end Sys2Proof.Machine
end

section
/-! SUPPORT. Stores to the slot and event registers of the Jig, the load of a context, and the settlement of O38. -/

namespace Sys2Proof.Machine

open Sys2Proof

/-! ### A slot changed -/

theorem modSlot_slot_self (s : State) (c : Fin 32) (k : Fin 64) (f : Slot → Slot) : (s.modSlot c k f).slot c k = f (s.slot c k) := by
  simp only [State.slot, State.modSlot, modCore_cores_self, vmod_self]

/-! ### Stores to JIG_Cc_Ss -/

/-- An agent may store to the slot: Favar, or a supervisor where the slot is EMPTY or its context is of its world (R168). -/
def State.slotYields (s : State) (u : Who) (c : Fin 32) (k : Fin 64) : Prop :=
  u.isFavar = true ∨ u.user = false ∧ ((s.slot c k).state = .empty ∨ u.world = worldIx (s.slot c k).world)

/-- The fields that a store to JIG_Cc_Ss takes, whatever state it writes (Table 07-4). -/
def State.takeSlot (s : State) (u : Who) (c : Fin 32) (k : Fin 64) (v : BitVec 64) : State :=
  s.modSlot c k fun x => { x with
    handle := fld v 0 48, prio := fld v 48 4, err := x.err && !(bit v 57), world := if u.isFavar then fld v 55 2 else x.world }

/-- The world for which a store loads a context: Favar names it (R168). -/
def Who.loadWorld (u : Who) (v : BitVec 64) : Fin 2 := if u.isFavar then worldIx (fld v 55 2) else u.world

theorem takeSlot_state (s : State) (u : Who) (c : Fin 32) (k : Fin 64) (v : BitVec 64) :
    ((s.takeSlot u c k v).slot c k).state = (s.slot c k).state := by
  rw [State.takeSlot, modSlot_slot_self]

section store
variable {s : State} {u : Who} {c : Fin 32} {k : Fin 64} {v : BitVec 64}

theorem slotYields_unbarred (hmay : s.slotYields u c k) :
    (!u.isFavar && (u.user || ((s.slot c k).state != .empty && u.world != worldIx (s.slot c k).world))) = false := by
  obtain hf | ⟨hsup, hempty | hworld⟩ := hmay
  · rw [hf]; rfl
  · rw [hsup, hempty]; simp
  · rw [hsup, hworld]; simp

section yields
variable (hmay : s.slotYields u c k)
include hmay

theorem slotStore_load (hst : (s.slot c k).state = .empty) (hwant : fld v 52 3 = (1 : BitVec 3)) :
    s.slotStore u c k v = .ok ((s.takeSlot u c k v).loadSlot c k (u.loadWorld v)) := by
  unfold State.slotStore
  dsimp only
  rw [slotYields_unbarred hmay, hst, hwant]
  rfl

theorem slotStore_ready (hst : (s.slot c k).state = .parked) (hlost : (s.slot c k).lost = false)
    (hwant : fld v 52 3 = (1 : BitVec 3)) : s.slotStore u c k v = .ok ((s.takeSlot u c k v).makeReady c k) := by
  unfold State.slotStore
  dsimp only
  rw [slotYields_unbarred hmay, hst, hlost, hwant]
  rfl

/-- A context whose record was lost stays PARKED, with ERR (R228). -/
theorem slotStore_lost (hst : (s.slot c k).state = .parked) (hlost : (s.slot c k).lost = true)
    (hwant : fld v 52 3 = (1 : BitVec 3)) : s.slotStore u c k v = .ok (s.modSlot c k fun x => { x with err := true }) := by
  unfold State.slotStore
  dsimp only
  rw [slotYields_unbarred hmay, hst, hlost, hwant]
  rfl

theorem slotStore_unload (hst : (s.slot c k).state = .parked) (hwant : fld v 52 3 = (0 : BitVec 3)) :
    s.slotStore u c k v = .ok ((s.takeSlot u c k v).unloadSlot c k) := by
  unfold State.slotStore
  dsimp only
  rw [slotYields_unbarred hmay, hst, hwant]
  rfl

/-- PARKED may be written to every slot that holds a context not yet parked (Table 07-3). -/
theorem slotStore_park (hempty : (s.slot c k).state ≠ .empty) (hparked : (s.slot c k).state ≠ .parked)
    (hwant : fld v 52 3 = (6 : BitVec 3)) : s.slotStore u c k v = .ok ((s.takeSlot u c k v).parkSlot c k) := by
  unfold State.slotStore
  dsimp only
  rw [slotYields_unbarred hmay, hwant]
  cases hst : (s.slot c k).state with
  | empty => exact absurd hst hempty
  | parked => exact absurd hst hparked
  | ready | running | waiting | clamped | receiving => rfl

end yields

theorem parkSlot_ready (h : (s.slot c k).state = .ready) :
    s.parkSlot c k = s.modSlot c k fun x => { x with state := .parked } := by
  simp only [State.parkSlot, h]

theorem parkSlot_running (h : (s.slot c k).state = .running) :
    s.parkSlot c k = s.modSlot c k fun x => { x with parkDue := true } := by
  simp only [State.parkSlot, h]

theorem parkSlot_blocked (h : (s.slot c k).state.blocked = true) :
    s.parkSlot c k = (s.abandonBlock c k).modSlot c k fun x => { x with state := .parked } := by
  unfold State.parkSlot
  cases hst : (s.slot c k).state with
  | waiting | clamped | receiving => rfl
  | empty | ready | running | parked => rw [hst] at h; cases h

/-! ### The rows of the commands -/

/-- A store to the slot register of a core that is on, by an agent to which it is granted (R458). -/
theorem jigRow_slot_granted {s' : State} {a : Agent} (hg : Grants s a 13 (some c.val) u) (hon : s.domOn c.val = true)
    (hs : s.slotStore u c k v = .ok s') : s.jigRow a (.slot c k) v = s'.settleAll := by
  refine rowStore_granted hg ?_
  simp only [State.jigStore, State.presence, hon, Bool.not_true, Bool.false_eq_true, if_false, if_true]
  exact hs

section granted
variable {a : Agent} (hg : Grants s a 13 (some c.val) u) (hon : s.domOn c.val = true)
include hg hon

theorem exec_slotReady_granted {s' : State} (hst : (s.slot c k).state = .parked) (hwant : fld v 52 3 = (1 : BitVec 3))
    (hs : s.slotStore u c k v = .ok s') : exec (.slotReady a c k v) s = .next s'.settleAll := by
  show execSlotReady a c k v s = _
  simp only [execSlotReady, ok, hst, hwant, jigRow_slot_granted hg hon hs, beq_self_eq_true, Bool.and_self, if_true]

variable (hmay : s.slotYields u c k)
include hmay

theorem exec_slotLoad_granted (hst : (s.slot c k).state = .empty) (hwant : fld v 52 3 = (1 : BitVec 3)) :
    exec (.slotLoad a c k v) s = .next ((s.takeSlot u c k v).loadSlot c k (u.loadWorld v)).settleAll := by
  show execSlotLoad a c k v s = _
  simp only [execSlotLoad, ok, hst, hwant, jigRow_slot_granted hg hon (slotStore_load hmay hst hwant), beq_self_eq_true,
    Bool.and_self, if_true]

theorem exec_slotPark_granted (hempty : (s.slot c k).state ≠ .empty) (hparked : (s.slot c k).state ≠ .parked)
    (hwant : fld v 52 3 = (6 : BitVec 3)) :
    exec (.slotPark a c k v) s = .next ((s.takeSlot u c k v).parkSlot c k).settleAll := by
  show execSlotPark a c k v s = _
  simp only [execSlotPark, ok, bne_iff_ne.mpr hempty, hwant, jigRow_slot_granted hg hon (slotStore_park hmay hempty hparked hwant),
    beq_self_eq_true, Bool.and_self, if_true]

theorem exec_slotUnload_granted (hst : (s.slot c k).state = .parked) (hwant : fld v 52 3 = (0 : BitVec 3)) :
    exec (.slotUnload a c k v) s = .next ((s.takeSlot u c k v).unloadSlot c k).settleAll := by
  show execSlotUnload a c k v s = _
  simp only [execSlotUnload, ok, hst, hwant, jigRow_slot_granted hg hon (slotStore_unload hmay hst hwant), beq_self_eq_true,
    Bool.and_self, if_true]

end granted

end store

/-! ### The load of a context -/

section load
variable {s s' : State} {c : Fin 32} {k : Fin 64} {w : Fin 2}

/-- A load refused leaves the slot EMPTY with ERR and raises line 253 (R168). -/
def State.refuseLoad (s : State) (c : Fin 32) (k : Fin 64) : State :=
  (s.modSlot c k fun x => { x with state := .empty, err := true }).raise 253

theorem loadSlot_unassigned (h : s.assigned c w = false) : s.loadSlot c k w = s.refuseLoad c k := by
  simp only [State.loadSlot, h, Bool.not_false, if_true, State.refuseLoad]

theorem loadSlot_refused (h : s.assigned c w = true)
    (hr : (loadContext ⟨c, w, false, 6⟩ k (s.slot c k).handle).run s = .ok none s') : s.loadSlot c k w = s'.refuseLoad c k := by
  simp only [State.loadSlot, h, hr, Bool.not_true, Bool.false_eq_true, if_false, State.refuseLoad]

/-- A load that reads its CONTEXT object takes DEPTH and HOLDREM from it and makes the slot READY (R165, R168). -/
theorem loadSlot_read {m d : BitVec 5} {hold : BitVec 64} (h : s.assigned c w = true)
    (hr : (loadContext ⟨c, w, false, 6⟩ k (s.slot c k).handle).run s = .ok (some (m, d, hold)) s') :
    s.loadSlot c k w = (s'.modSlot c k fun x => { x with
      world := BitVec.ofNat 2 w.val, frames := m, depth := d, holdRem := hold, block := none, timedOut := false
      granted := false, grants := [], abort := [], stackInvalid := [], parkDue := false, lost := false
      unscanU := s'.freshStack w (s.slot c k).handle, unscanS := s'.freshStack w (s.slot c k).handle }).makeReady c k := by
  simp only [State.loadSlot, h, hr, Bool.not_true, Bool.false_eq_true, if_false]

end load

/-! ### Stores to JIG_EVn_BIND -/

/-- An event line with what a store to JIG_EVn_BIND writes: LATCHED stays where CORE, SLOT and EN do (R172). -/
def EvLine.bound (e : EvLine) (u : Who) (v : BitVec 64) : EvLine :=
  let same := decide ((fld v 0 5).toFin = e.core) && decide ((fld v 5 6).toFin = e.slot) && (bit v 11 == e.en)
  { e with core := (fld v 0 5).toFin, slot := (fld v 5 6).toFin, en := bit v 11, swr := bit v 12, latched := e.latched && same
           ovf := e.ovf && !(bit v 14), world := if u.isFavar then fld v 15 2 else e.world }

theorem bindStore_yields {s : State} {u : Who} {n : Fin 256} (v : BitVec 64)
    (hmay : u.isFavar = true ∨ u.user = false ∧ u.world = worldIx s.jig.ev[n].world) :
    s.bindStore u n v = .ok { s with jig := { s.jig with ev := vset s.jig.ev n (s.jig.ev[n].bound u v) } } := by
  have hgo : (!(u.isFavar || u.sup (worldIx s.jig.ev[n].world))) = false := by
    obtain hf | ⟨hsup, hworld⟩ := hmay
    · rw [hf]; rfl
    · simp only [Who.isFavar, Who.sup, hsup, hworld]
      cases u.core <;> simp
  unfold State.bindStore
  simp only [hgo]
  rfl

theorem exec_evBindWrite_granted {s : State} {a : Agent} {u : Who} {n : Fin 256} (v : BitVec 64) (hg : Grants s a 13 none u)
    (hmay : u.isFavar = true ∨ u.user = false ∧ u.world = worldIx s.jig.ev[n].world) :
    exec (.evBindWrite a n v) s =
      .next (State.settleAll { s with jig := { s.jig with ev := vset s.jig.ev n (s.jig.ev[n].bound u v) } }) :=
  congrArg Host.Outcome.next (rowStore_granted hg (bindStore_yields v hmay))

/-- Settles O38, a lemma per command and state of the slot. -/
theorem slotCommands : Obligations.SlotCommands := by
  unfold Obligations.SlotCommands
  intro s a c k v w n x target s1 mine
  have hstate : (s1.slot c k).state = x.state := takeSlot_state s w c k v
  have hpark (hg : Grants s a 13 (some c.val) w) (hon : s.domOn c.val = true) (hmay : mine) (hempty : x.state ≠ .empty)
      (hparked : x.state ≠ .parked) (hwant : fld v 52 3 = (6 : BitVec 3)) :
      exec (.slotPark a c k v) s = .next (s1.parkSlot c k).settleAll := exec_slotPark_granted hg hon hmay hempty hparked hwant
  refine ⟨fun hg hon hmay => ⟨exec_slotLoad_granted hg hon hmay, fun hst hwant => ?_, fun hst hwant => ?_, fun hst hwant => ?_,
      fun hst hlost hwant => exec_slotReady_granted hg hon hst hwant (slotStore_lost hmay hst hlost hwant),
      fun hst hlost hwant => exec_slotReady_granted hg hon hst hwant (slotStore_ready hmay hst hlost hwant),
      exec_slotUnload_granted hg hon hmay⟩,
    fun m d hold s' => loadSlot_read, fun s' => loadSlot_refused, loadSlot_unassigned, exec_evBindWrite_granted v⟩
  · rw [hpark hg hon hmay (by simp [hst]) (by simp [hst]) hwant, parkSlot_ready (hstate.trans hst)]
  · rw [hpark hg hon hmay (by simp [hst]) (by simp [hst]) hwant, parkSlot_running (hstate.trans hst)]
  · have hempty : x.state ≠ .empty := fun h => by rw [h] at hst; cases hst
    have hparked : x.state ≠ .parked := fun h => by rw [h] at hst; cases hst
    rw [hpark hg hon hmay hempty hparked hwant, parkSlot_blocked ((congrArg _ hstate).trans hst)]

end Sys2Proof.Machine
end

section
/-! SUPPORT. What the bookkeeping of caches leaves alone at the memory ports, said once: it grants nothing, and the record of the port
watchdog stays. -/

namespace Sys2Proof.Machine

open Sys2Proof

/-- The second port has in flight only what the first has, and the same record of its watchdog (R254, R256). -/
structure Port.NoGrant (x y : Port) : Prop where
  lastReq : y.lastReq = x.lastReq
  bites : y.bites = x.bites
  granted : y.granted ⊆ x.granted

/-- A port with other waiting requests, directory entries or dropped reads, and with fewer transfers in flight. -/
theorem Port.NoGrant.of_update {x y : Port} (hg : y.granted ⊆ x.granted)
    (hrest : y = { x with queue := y.queue, granted := y.granted, dir := y.dir, lost := y.lost }) : x.NoGrant y :=
  ⟨by rw [hrest], by rw [hrest], hg⟩

/-- No port has more in flight, and no watchdog has bitten. -/
def State.NoGrant (s t : State) : Prop := ∀ p : Fin 4, s.ports[p].NoGrant t.ports[p]

namespace State.NoGrant

theorem of_ports {s t : State} (h : t.ports = s.ports) : s.NoGrant t := fun p => by
  rw [h]
  exact ⟨rfl, rfl, List.Subset.refl _⟩

theorem refl (s : State) : s.NoGrant s := of_ports rfl

theorem trans {s t u : State} (h1 : s.NoGrant t) (h2 : t.NoGrant u) : s.NoGrant u := fun p =>
  ⟨(h2 p).lastReq.trans (h1 p).lastReq, (h2 p).bites.trans (h1 p).bites, List.Subset.trans (h2 p).granted (h1 p).granted⟩

theorem foldl {α : Type} {f : State → α → State} (hf : ∀ (s : State) (a : α), s.NoGrant (f s a)) (l : List α) (s : State) :
    s.NoGrant (l.foldl f s) := by
  induction l generalizing s with
  | nil => exact refl s
  | cons a l ih => exact (hf s a).trans (ih _)

section step
variable {s t : State} (h : s.NoGrant t)
include h

/-! ### Updates -/

theorem same {u : State} (hu : u.ports = t.ports) : s.NoGrant u := h.trans (of_ports hu)

theorem ite {p : Prop} [Decidable p] {u : State} (hu : s.NoGrant u) : s.NoGrant (if p then u else t) := by
  split <;> assumption

theorem modPort (p : Fin 4) {f : Port → Port} (hf : ∀ x : Port, x.NoGrant (f x)) : s.NoGrant (t.modPort p f) := by
  refine h.trans fun q => ?_
  by_cases hq : q = p
  · subst hq
    rw [modPort_ports_self]
    exact hf _
  · rw [modPort_ports_other t p f q hq]
    exact refl t q

theorem request (p : Fin 4) (r : PortReq) : s.NoGrant (t.modPort p fun x => x.request r) :=
  h.modPort p fun _ => .of_update (List.Subset.refl _) rfl

theorem cancel (p : Fin 4) (q : Fin 13) (x : BitVec 36) (b : Bool) : s.NoGrant (t.modPort p fun y => y.cancel q x b) :=
  h.modPort p fun _ => .of_update (List.Subset.refl _) rfl

theorem withdraw (p : Fin 4) (q : Fin 13) (x : BitVec 36) (b : Bool) : s.NoGrant (t.modPort p fun y => y.withdraw q x b) :=
  h.modPort p fun _ => .of_update List.filter_sublist.subset rfl

theorem drawFree : s.NoGrant (Machine.drawFree t).2 := h.same rfl

theorem writePhys (pa : Nat) (w : Word) : s.NoGrant (t.writePhys pa w) := by
  refine h.same ?_
  unfold State.writePhys
  split
  · rfl
  · split <;> rfl

theorem noteStale (a : Nat) (w : Word) : s.NoGrant (t.noteStale a w) := by
  refine h.same ?_
  unfold State.noteStale
  split
  · rfl
  · split <;> rfl

/-! ### Leaving the L2 -/

theorem invalL1 (k : Fin 8) (x : BitVec 36) : s.NoGrant (t.invalL1 k x) := by
  refine h.same (foldl_keeps State.ports (fun _ _ => ?_) _ t)
  rfl

theorem ackWrite (k : Fin 8) (r : PortReq) : s.NoGrant (t.ackWrite k r) :=
  (h.modPort (sectorPort r.sector) (f := fun p => { p with queue := p.queue.erase r, granted := p.granted.erase r })
    fun _ => .of_update (List.erase_subset) rfl).same rfl

theorem awaitWrite (k : Fin 8) (x : BitVec 36) : s.NoGrant (t.awaitWrite k x) := by
  unfold State.awaitWrite
  split
  · exact h.ackWrite _ _
  · exact h

theorem dropSector (k : Fin 8) (x : BitVec 36) : s.NoGrant (t.dropSector k x) := by
  unfold State.dropSector
  dsimp only
  split
  · exact h
  · refine invalL1 (withdraw (same ?_ (modCluster_ports _ _ _)) _ _ _ _) _ _
    split
    · exact (h.cancel _ _ _ _).same rfl
    · exact h.awaitWrite _ _
    · exact h

theorem dropOthers (k : Option (Fin 8)) (x : BitVec 36) : s.NoGrant (t.dropOthers k x) := by
  refine h.trans (.foldl (fun s j => ?_) _ t)
  split
  · exact refl s
  · exact (refl s).dropSector j x

theorem offcutRoom (k : Fin 8) : s.NoGrant (t.offcutRoom k) := by
  unfold State.offcutRoom
  dsimp only
  split
  · exact h
  · split
    · exact h.same rfl
    · split
      · exact (h.awaitWrite _ _).same rfl
      · exact h

theorem evictSector (k : Fin 8) (x : BitVec 36) (st : SectorState) : s.NoGrant (t.evictSector k x st) := by
  have hpush (o : OffcutState) : s.NoGrant
      (((t.offcutRoom k).modCluster k fun c => { c with offcut := c.offcut ++ [(x, o)] }).invalL1 k x) :=
    invalL1 ((h.offcutRoom k).same (modCluster_ports _ _ _)) _ _
  unfold State.evictSector
  cases st with
  | invalid => exact h
  | filling => exact h
  | clean => exact hpush _
  | dirty => exact (hpush _).request _ _
  | cleaning => exact hpush _

/-! ### The directory -/

theorem writeBack (k : Fin 8) (x : BitVec 36) : s.NoGrant (t.writeBack k x) := by
  unfold State.writeBack
  dsimp only
  split
  · exact (h.withdraw _ _ _ _).same rfl
  · exact h

theorem recallBlock (b : BitVec 34) : s.NoGrant (t.recallBlock b) :=
  h.trans (.foldl (fun s _ => .foldl (fun s _ => ((refl s).writeBack _ _).dropSector _ _) _ s) _ t)

theorem dirEnter (b : BitVec 34) : s.NoGrant (t.dirEnter b) := by
  have hdir {u : State} (hu : s.NoGrant u) (p : Fin 4) (f : Port → List (BitVec 34 × Fin 16)) :
      s.NoGrant (u.modPort p fun x => { x with dir := f x }) := hu.modPort p fun _ => .of_update (List.Subset.refl _) rfl
  unfold State.dirEnter
  dsimp only
  split
  · exact h
  · split
    · exact hdir (hdir h _ _) _ _
    · exact hdir ((hdir h _ _).drawFree.trans (.foldl (fun s _ => (refl s).recallBlock _) _ _)) _ _

/-! ### Entering the L2 -/

theorem endFill (k : Fin 8) (x : BitVec 36) : s.NoGrant (t.endFill k x) := by
  refine (h.withdraw (sectorPort x) (clusterReq k) x false).same ((foldl_keeps State.ports (fun _ _ => ?_) _ _).trans ?_) <;> rfl

theorem waitWay (k : Fin 8) (b : BitVec 34) : s.NoGrant (t.waitWay k b) := by
  unfold State.waitWay
  dsimp only
  split
  · exact h
  · split
    · exact h
    · refine h.trans (.foldl (fun s _ => ?_) _ _)
      split
      · exact (refl s).endFill _ _
      · exact refl s

theorem placeSector (k : Fin 8) (x : BitVec 36) (st : SectorState) (want : Want) : s.NoGrant (t.placeSector k x st want) := by
  unfold State.placeSector
  dsimp only
  split
  · exact h.same rfl
  · have hway := (h.dirEnter (sectorBlk x)).waitWay k (sectorBlk x)
    split
    · exact hway
    · refine same ?_ (modCluster_ports _ _ _)
      split
      · exact hway
      · exact (hway.trans (.foldl (fun s _ => (refl s).evictSector _ _ _) _ _)).same rfl

theorem issueClean (k : Fin 8) (x : BitVec 36) : s.NoGrant (t.issueClean k x) := by
  unfold State.issueClean
  split
  · exact (h.same rfl).request _ _
  · exact h

theorem keepCap (k : Fin 8) : s.NoGrant (t.keepCap k) := by
  unfold State.keepCap
  split
  · split
    · exact h.issueClean _ _
    · exact h
  · exact h

theorem roomDirty (k : Fin 8) (n : Nat) : s.NoGrant (State.roomDirty k n t) := by
  induction n generalizing t with
  | zero => exact h
  | succ n ih =>
    unfold State.roomDirty
    dsimp only
    split
    · exact h
    · split
      · exact ih (h.awaitWrite _ _)
      · split
        · exact ih ((h.issueClean _ _).awaitWrite _ _)
        · exact h

theorem markDirty (k : Fin 8) (x : BitVec 36) : s.NoGrant (t.markDirty k x) := by
  unfold State.markDirty
  refine same ?_ (modCluster_ports _ _ _)
  split
  · exact h.roomDirty _ _
  · exact h

theorem recallOffcut (k : Fin 8) (x : BitVec 36) (o : OffcutState) (want : Want) : s.NoGrant (t.recall k x o want) := by
  unfold State.recall
  dsimp only
  refine keepCap (same (placeSector ?_ _ _ _ _) (modCluster_ports _ _ _)) _
  split
  · exact roomDirty (cancel (h.same (modCluster_ports _ _ _)) _ _ _ _) _ _
  · exact h.same (modCluster_ports _ _ _)

theorem l2Request (k : Fin 8) (x : BitVec 36) (want : Want) : s.NoGrant (t.l2Request k x want) := by
  unfold State.l2Request
  split
  · split
    · exact modPort (h.same rfl) _ fun _ => .of_update (List.Subset.refl _) rfl
    · exact h
  · split
    · exact h.recallOffcut _ _ _ _
    · dsimp only
      have hplace : s.NoGrant ((match t.owner x with
          | some j => t.writeBack j x
          | none => t).placeSector k x .filling want) := by
        refine placeSector ?_ _ _ _ _
        split
        · exact h.writeBack _ _
        · exact h
      exact hplace.ite (hplace.request _ _)

/-! ### Stores, and transfers dropped -/

theorem storeVisible (k : Fin 8) (pa : BitVec 40) (w : Word) : s.NoGrant (t.storeVisible k pa w) := by
  unfold State.storeVisible
  dsimp only
  split
  · exact (((((h.dropOthers _ _).l2Request _ _ _).noteStale _ _).markDirty _ _).keepCap _).writePhys _ _
  · exact h.writePhys _ _

theorem dramPut (a : Nat) (w : Word) : s.NoGrant (t.dramPut a w) := by
  refine h.same ?_
  unfold State.dramPut
  split <;> rfl

theorem dropRead (k : Fin 8) (x : BitVec 36) : s.NoGrant (t.dropRead k x) := by
  unfold State.dropRead
  dsimp only
  split
  · have hinval : s.NoGrant ((t.modCluster k fun c => c.clearSector x).invalL1 k x) :=
      invalL1 (h.same (modCluster_ports _ _ _)) _ _
    have hwoken {f : State → Nat → State} (hf : ∀ u j, (f u j).ports = u.ports) :=
      hinval.same (foldl_keeps State.ports hf [0, 1, 2, 3] _)
    refine ite (hwoken ?_) (((hwoken ?_).l2Request _ _ _).markDirty _ _) <;> exact fun _ _ => rfl
  · exact h

theorem dropWrite (k : Fin 8) (r : PortReq) : s.NoGrant (t.dropWrite k r) := by
  unfold State.dropWrite
  dsimp only
  split
  · exact h
  · exact h.trans (.foldl (fun s _ => (refl s).dramPut _ _) _ t)
  · exact (h.same rfl).request _ _
  · exact h
  · exact h.same rfl

theorem dropTransfer (p : Fin 4) (r : PortReq) : s.NoGrant (t.dropTransfer p r) := by
  unfold State.dropTransfer
  split
  · split
    · exact h.dropWrite _ _
    · exact h.dropRead _ _
  · split
    · exact h.trans (.foldl (fun s _ => (refl s).dramPut _ _) _ t)
    · exact h.modPort p fun _ => .of_update (List.Subset.refl _) rfl

end step

end State.NoGrant

/-! ### Events -/

theorem postRing_only (s : State) (e : EvEntry) (b : Bool) :
    s.postRing e b = { s with fv := (s.postRing e b).fv, out := (s.postRing e b).out } := by
  unfold State.postRing
  dsimp only
  split
  · rfl
  · unfold State.msix
    split <;> rfl

theorem postEvent_only (s : State) (cls : Nat) (code : BitVec 16) (data : List (BitVec 64)) :
    s.postEvent cls code data = { s with fv := (s.postEvent cls code data).fv, out := (s.postEvent cls code data).out } := by
  unfold State.postEvent
  dsimp only
  split
  · rfl
  · rw [postRing_only]

theorem event_post_only (s : State) (cls code unit : Nat) (data : List (BitVec 64)) (rest : List (Nat × Nat × Nat × BitVec 64))
    (n : Nat) : ∃ fv out, State.event.post s cls code unit data rest n = { s with fv := fv, out := out } :=
  ⟨_, _, postEvent_only { s with fv := { s.fv with coalesce := (cls, unit, 0, s.now) :: rest } } _ _ _⟩

/-- An event changes Favar's side and what the device emits, no more (R371). -/
theorem event_only (s : State) (cls code unit : Nat) (data : List (BitVec 64)) :
    ∃ fv out, s.event cls code unit data = { s with fv := fv, out := out } := by
  unfold State.event
  dsimp only
  split
  · exact ⟨s.fv, s.out, rfl⟩
  · split
    · split
      · exact ⟨_, s.out, rfl⟩
      · exact event_post_only ..
    · exact event_post_only ..

namespace State.NoGrant
variable {s t : State} (h : s.NoGrant t)
include h

theorem event (cls code unit : Nat) (data : List (BitVec 64)) : s.NoGrant (t.event cls code unit data) := by
  obtain ⟨fv, out, he⟩ := event_only t cls code unit data
  rw [he]
  exact h.same rfl

theorem abandonBlock (c : Fin 32) (k : Fin 64) : s.NoGrant (t.abandonBlock c k) := by
  unfold State.abandonBlock
  refine same ?_ (modSlot_ports _ _ _ _)
  split
  · exact h.ite (h.storeVisible _ _ _)
  · exact h

theorem makeReady (c : Fin 32) (k : Fin 64) : s.NoGrant (t.makeReady c k) := h.same rfl

theorem pendInterrupt (n : Fin 256) : s.NoGrant (t.pendInterrupt n) := by
  have hpend : s.NoGrant (t.setPend n true) := h.same rfl
  have hready : s.NoGrant (((t.setPend n true).abandonBlock t.jig.irq[n].core t.jig.irq[n].slot).makeReady
      t.jig.irq[n].core t.jig.irq[n].slot) := (hpend.abandonBlock _ _).makeReady _ _
  unfold State.pendInterrupt
  dsimp only
  split
  · exact h.same rfl
  · split
    · exact h.same rfl
    · exact hready
    · exact hready
    · exact hready
    · exact hpend

theorem latchEvent (n : Fin 256) (stamp : BitVec 64) : s.NoGrant (t.latchEvent n stamp) := by
  refine h.same ?_
  unfold State.latchEvent
  dsimp only
  split
  · rfl
  · split
    · rfl
    · split
      · split <;> rfl
      · rfl

/-- The Guard event may take a context from a clamp, whose word is then written; no transfer is granted by it (R168, R199). -/
theorem guardEvent (kind unit : Nat) : s.NoGrant (t.guardEvent kind unit) := by
  refine event ?_ _ _ _ _
  unfold State.raise State.raiseAt
  exact (h.latchEvent _ _).ite (h.pendInterrupt _)

end State.NoGrant

end Sys2Proof.Machine
end

section
/-! SUPPORT. Fills and write-backs of the L2, the arbiter, scrub and the watchdog of a memory port, and the settlement of O41. -/

namespace Sys2Proof.Machine

open Sys2Proof

/-! ### Sectors -/

theorem blk_of_find? {bs : List L2Block} {x : BitVec 36} {b : L2Block}
    (hb : bs.find? (fun b => b.blk == sectorBlk x) = some b) : b.blk = sectorBlk x := by
  simpa using List.find?_some hb

/-- A change of the blocks of a sector shows in the sector, in the first such block. -/
theorem Cluster.sector_modBlk {c : Cluster} {x : BitVec 36} {f : L2Block → L2Block} {b : L2Block}
    (hf : ∀ b, (f b).blk = b.blk) (hb : c.blocks.find? (fun b => b.blk == sectorBlk x) = some b) :
    (c.modBlk x f).sector x = (f b).sectors[sectorIx x] := by
  have hkeep : ((fun b : L2Block => b.blk == sectorBlk x) ∘ fun b => if b.blk == sectorBlk x then f b else b) =
      fun b => b.blk == sectorBlk x := by
    funext b
    simp only [Function.comp_apply]
    split
    · rw [hf]
    · rfl
  simp only [Cluster.sector, Cluster.modBlk, List.find?_map, hkeep, hb, Option.map_some, blk_of_find? hb, beq_self_eq_true, if_true]

/-- A sector that is not Invalid stands in a block. -/
theorem Cluster.block_of_sector {c : Cluster} {x : BitVec 36} {st : SectorState} (h : c.sector x = st) (hst : st ≠ .invalid) :
    ∃ b, c.blocks.find? (fun b => b.blk == sectorBlk x) = some b := by
  unfold Cluster.sector at h
  split at h
  case h_1 b hb => exact ⟨b, hb⟩
  case h_2 => exact absurd h.symm hst

/-! ### Fills (R237, R238) -/

/-- The block of a sector whose burst has arrived: Dirty where a store waited for it. -/
def L2Block.filled (b : L2Block) (i : Fin 4) : L2Block :=
  { b with sectors := vset b.sectors i (if b.owed[i] then .dirty else .clean), owed := vset b.owed i false }

/-- A core no longer waits for a sector. -/
def Core.wake (x : BitVec 36) (c : Core) : Core := if c.awaits = some x then { c with awaits := none } else c

theorem Core.wake_awaits (x : BitVec 36) (c : Core) : (c.wake x).awaits ≠ some x := by
  unfold Core.wake
  split
  case isTrue => simp
  case isFalse h => exact h

theorem endFill_eq (s : State) (k : Fin 8) (x : BitVec 36) :
    s.endFill k x = [0, 1, 2, 3].foldl (fun (s : State) j => s.modCore (idx 32 (4 * k.val + j)) (Core.wake x))
      ((s.modPort (sectorPort x) fun p => p.withdraw (clusterReq k) x false).modCluster k fun c =>
        c.modBlk x fun b => b.filled (sectorIx x)) := rfl

theorem endFill_cluster (s : State) (k : Fin 8) (x : BitVec 36) :
    (s.endFill k x).clusters[k] = s.clusters[k].modBlk x fun b => b.filled (sectorIx x) := by
  rw [endFill_eq, foldl_keeps State.clusters fun s j => modCore_clusters s _ _, modCluster_clusters_self]
  rfl

theorem endFill_sector {s : State} {k : Fin 8} {x : BitVec 36} {b : L2Block}
    (hb : s.clusters[k].blocks.find? (fun b => b.blk == sectorBlk x) = some b) :
    (s.endFill k x).clusters[k].sector x = if b.owed[sectorIx x] then .dirty else .clean := by
  rw [endFill_cluster, Cluster.sector_modBlk (f := fun b => b.filled (sectorIx x)) (fun _ => rfl) hb]
  exact vset_self _ _ _

/-- Cores woken wait no longer, and none begins to wait. -/
theorem foldl_wake_awaits {x : BitVec 36} {c : Fin 32} (core : Nat → Fin 32) (js : List Nat) (s : State)
    (h : s.cores[c].awaits ≠ some x ∨ ∃ j ∈ js, core j = c) :
    (js.foldl (fun (s : State) j => s.modCore (core j) (Core.wake x)) s).cores[c].awaits ≠ some x := by
  induction js generalizing s with
  | nil => simpa using h
  | cons j js ih =>
    refine ih _ ?_
    by_cases hj : c = core j
    · left
      rw [hj, modCore_cores_self]
      exact Core.wake_awaits x _
    · rw [modCore_cores_other _ _ _ _ hj]
      refine h.imp_right fun ⟨i, hi, hc⟩ => ⟨i, ?_, hc⟩
      exact (List.mem_cons.mp hi).resolve_left fun hij => hj (hij ▸ hc.symm)

theorem endFill_awaits (s : State) (k : Fin 8) (x : BitVec 36) (c : Fin 32) (hc : clusterOf c = k) :
    (s.endFill k x).cores[c].awaits ≠ some x := by
  have hk : c.val / 4 % 8 = k.val := congrArg Fin.val hc
  have hlt := c.isLt
  rw [endFill_eq]
  refine foldl_wake_awaits _ _ _ (.inr ⟨c.val % 4, ?_, Fin.ext (show (4 * k.val + c.val % 4) % 32 = c.val by omega)⟩)
  have hmod : c.val % 4 < 4 := Nat.mod_lt _ (by omega)
  simp only [List.mem_cons, List.not_mem_nil, or_false]
  omega

theorem endFill_granted {s : State} {k : Fin 8} {x : BitVec 36} {o : PortReq}
    (ho : o ∈ (s.endFill k x).ports[sectorPort x].granted) : ¬ (o.requester = clusterReq k ∧ o.write = false ∧ o.sector = x) := by
  rw [endFill_eq, foldl_keeps State.ports fun s j => modCore_ports s _ _, modCluster_ports, modPort_ports_self] at ho
  rintro ⟨hreq, hwrite, hsector⟩
  simpa [hreq, hwrite, hsector] using (List.mem_filter.mp ho).2

theorem exec_l2FillComplete_granted {s : State} {k : Fin 8} {x : BitVec 36} (pos : Fin 16) (e : Secded)
    (hfill : s.clusters[k].sector x = .filling)
    (hgrant : s.ports[sectorPort x].granted.any (fun r => r.requester == clusterReq k && !r.write && r.sector == x) = true) :
    exec (.l2FillComplete k x pos e) s =
      .next (if s.clusters[k].isOwed x then ((s.endFill k x).secded (sectorPort x) (x.toNat * 16 + pos.val) e).keepCap k
        else (s.endFill k x).secded (sectorPort x) (x.toNat * 16 + pos.val) e) := by
  show execL2FillComplete k x pos e s = _
  simp only [execL2FillComplete, hfill, hgrant, beq_self_eq_true, Bool.and_self, if_true]
  rfl

/-! ### SECDED (R33, R252) -/

theorem secded_lost_poison {s : State} {p : Fin 4} {a : Nat} (h : (s.peek a).tag = 0xFE) : s.secded p a .lost = s := if_pos h

theorem secded_lost {s : State} {p : Fin 4} {a : Nat} (h : (s.peek a).tag ≠ 0xFE) :
    (s.secded p a .lost).mem = memPut s.mem a (poisonDram a) ∧ (s.secded p a .lost).clusters = s.clusters ∧
      (s.secded p a .lost).cores = s.cores ∧ (s.secded p a .lost).ports =
        vmod s.ports p fun y => { y with ueLast := BitVec.ofNat 40 a, ueCount := satInc y.ueCount } := by
  obtain ⟨fv, out, hevent⟩ := event_only
    { s.modPort p fun y => { y with ueLast := BitVec.ofNat 40 a, ueCount := satInc y.ueCount } with
      mem := memPut s.mem a (poisonDram a) } 5 1 p.val [BitVec.ofNat 64 a]
  have hlost : s.secded p a .lost = _ := (if_neg h).trans hevent
  rw [hlost]
  exact ⟨rfl, rfl, rfl, rfl⟩

/-! ### Write-backs (R242, R244) -/

theorem modCluster_id (s : State) (k : Fin 8) : (s.modCluster k fun c => c) = s := by
  simp only [State.modCluster, vmod, vset, Fin.getElem_fin, Vector.set_getElem_self]

theorem ackWrite_eq (s : State) (k : Fin 8) (r : PortReq) :
    let t := s.modPort (sectorPort r.sector) fun y => { y with queue := y.queue.erase r, granted := y.granted.erase r }
    s.ackWrite k r = State.renewStale (if (t.writeOf k r.sector).isSome then t else t.modCluster k fun c =>
      (if c.sector r.sector = .cleaning then c.setSector r.sector .clean else c).setOffcut r.sector .clean) r.data := by
  intro t
  show State.renewStale (t.modCluster k fun c => _) r.data = _
  cases hlater : t.writeOf k r.sector with
  | some o => simp only [Option.isNone_some, Bool.false_and, Bool.false_eq_true, if_false, modCluster_id, Option.isSome_some, if_true]
  | none => simp only [Option.isNone_none, Bool.true_and, beq_iff_eq, if_true, Option.isSome_none, Bool.false_eq_true, if_false]

theorem exec_writebackAck_granted {s : State} {k : Fin 8} {x : BitVec 36} {r : PortReq}
    (h : s.ports[sectorPort x].granted.find? (fun r => r.requester == clusterReq k && r.write && r.sector == x) = some r) :
    r.sector = x ∧ exec (.writebackAck k x) s = .next (s.ackWrite k r) := by
  refine ⟨?_, ?_⟩
  · have hmine := List.find?_some h
    simp only [Bool.and_eq_true, beq_iff_eq] at hmine
    exact hmine.2
  · show execWritebackAck k x s = _
    rw [execWritebackAck, h]
    rfl

theorem exec_cleanDelayExpiry_due {s : State} {k : Fin 8} {x : BitVec 36} (hdirty : s.clusters[k].sector x = .dirty)
    (hdue : (s.clusters[k].blocks.any fun b => b.blk == sectorBlk x &&
      decide ((fld s.clusters[k].cfg 8 16).toNat * 1000 ≤ s.now.toNat - b.lastStore[sectorIx x])) = true) :
    exec (.cleanDelayExpiry k x) s = .next ((s.modCluster k fun c => c.setSector x .cleaning).modPort (sectorPort x) fun y =>
      y.request { requester := clusterReq k, at_ := s.now, write := true, sector := x, data := s.carried x }) := by
  show execCleanDelayExpiry k x s = _
  simp only [execCleanDelayExpiry, hdue, if_true, State.issueClean, hdirty, beq_self_eq_true]
  rfl

theorem satInc_age (a : BitVec 2) : satInc a = if a = 3 then 3 else a + 1 := by
  revert a
  decide

theorem exec_ageSweep_due {s : State} {k : Fin 8} (hon : (fld s.clusters[k].cfg 0 8 : BitVec 8) ≠ 0)
    (hdue : (fld s.clusters[k].cfg 0 8 : BitVec 8).toNat * 1000 ≤ (s.now - s.clusters[k].lastSweep).toNat) :
    exec (.ageSweep k) s = .next (s.modCluster k fun c =>
      { c with lastSweep := s.now, blocks := c.blocks.map fun b => { b with age := if b.age = 3 then 3 else b.age + 1 } }) := by
  have hperiod : (fld s.clusters[k].cfg 0 8 : BitVec 8).toNat * 1000 ≠ 0 := by
    have : (fld s.clusters[k].cfg 0 8 : BitVec 8).toNat ≠ 0 := fun h => hon (BitVec.eq_of_toNat_eq h)
    omega
  show execAgeSweep k s = _
  simp only [execAgeSweep, if_pos (And.intro hperiod hdue), satInc_age]
  rfl

/-! ### Scrub (R253) -/

theorem scrubServed_idle {y : Port} (now : BitVec 64) (h : y.queue = []) : y.scrubServed now = true := by
  simp [Port.scrubServed, h]

theorem scrubServed_waiting {y : Port} (now : BitVec 64) (h : y.queue ≠ []) (hat : y.scrubAt = none) :
    y.scrubServed now = false := by
  simp [Port.scrubServed, h, hat]

/-- Scrub goes to a word; at the end of a pass it counts the pass, and the next begins. -/
def State.scrubTo (s : State) (p : Fin 4) (now : BitVec 64) (n : Nat × Bool) : State :=
  s.modPort p fun y => { y with
    scrubPos := BitVec.ofNat 40 n.1, passes := if n.2 then y.passes + 1 else y.passes, scrubAt := none
    scrubSince := if n.2 then now else y.scrubSince }

section scrub
variable {s : State} {p : Fin 4} (e : Secded) (htrain : s.ports[p].trained = true)
  (hpos : (s.ports[p].scrubPos.toNat / 64) % 4 = p.val)
include htrain hpos

theorem exec_patrolScrub_idle (hidle : s.ports[p].queue = []) :
    exec (.patrolScrub p e) s =
      .next ((if s.clusters.toList.any (fun c => c.holdsValid (sectorOf s.ports[p].scrubPos.toNat)) then s
        else s.secded p s.ports[p].scrubPos.toNat e).scrubTo p s.now
          (scrubNext s.ports[p].cap p s.ports[p].scrubPos.toNat)) := by
  show execPatrolScrub p e s = _
  simp only [execPatrolScrub, hpos, if_true, htrain, Bool.not_true, Bool.false_eq_true, if_false, scrubServed_idle s.now hidle]
  rfl

theorem exec_patrolScrub_waiting (hwait : s.ports[p].queue ≠ []) (hat : s.ports[p].scrubAt = none) :
    exec (.patrolScrub p e) s =
      .next (if s.ports[p].scrubBehind s.now then s.modPort p fun y => { y with scrubAt := some s.now } else s) := by
  show execPatrolScrub p e s = _
  simp only [execPatrolScrub, hpos, if_true, htrain, Bool.not_true, Bool.false_eq_true, if_false,
    scrubServed_waiting s.now hwait hat, hat, Option.isNone_none, Bool.and_true]
  rfl

end scrub

/-! ### The arbiter (R254) -/

/-- An element whose key is below every other's is the one that `minBy` finds. -/
theorem minBy_eq_of_lt {α : Type} {key : α → Nat} {l : List α} {b : α} (hb : b ∈ l) (h : ∀ a ∈ l, a ≠ b → key b < key a) :
    minBy key l = some b := by
  cases hmin : minBy key l with
  | none =>
    cases l with
    | nil => cases hb
    | cons a as => simpa [hmin] using minBy_isSome_cons key a as
  | some d =>
    obtain ⟨hd, hle⟩ := minBy_least hmin
    by_cases hdb : d = b
    · rw [hdb]
    · exact absurd (hle b hb) (Nat.not_le.mpr (h d hd hdb))

theorem presents_requester {y : Port} {n : Fin 13} {r : PortReq} (h : y.presents n = some r) : r.requester = n := by
  have hmine : r ∈ y.queue.filter fun r => r.requester == n := by
    unfold Port.presents at h
    dsimp only at h
    split at h
    · split at h
      case h_1 hdemand => exact Option.some.inj h ▸ List.mem_of_find?_eq_some hdemand
      case h_2 =>
        split at h
        case h_1 hprefetch => exact Option.some.inj h ▸ List.mem_of_find?_eq_some hprefetch
        case h_2 => exact List.mem_of_mem_head? h
    · exact List.mem_of_mem_head? h
  simpa using (List.mem_filter.mp hmine).2

/-- The request that is oldest, on ties of the lower requester, has the least key of the arbiter. -/
theorem grant_least {y : Port} {now : BitVec 64} {n : Fin 13} {r : PortReq} (hr : y.presents n = some r)
    (hold : ∀ m o, y.presents m = some o → m ≠ n → o.age now < r.age now ∨ o.age now = r.age now ∧ n.val < m.val) :
    minBy (fun r : PortReq => (4095 - r.age now) * 13 + r.requester.val) ((List.finRange 13).filterMap y.presents) = some r := by
  refine minBy_eq_of_lt (List.mem_filterMap.mpr ⟨n, List.mem_finRange n, hr⟩) fun o ho hne => ?_
  obtain ⟨m, -, hm⟩ := List.mem_filterMap.mp ho
  have hmn : m ≠ n := fun h => hne (Option.some.inj (hm.symm.trans (h ▸ hr)))
  have hcap : r.age now ≤ 4095 := Nat.min_le_left _ _
  have hn := n.isLt
  rw [presents_requester hr, presents_requester hm]
  obtain hlt | ⟨heq, hlow⟩ := hold m o hm hmn <;> omega

/-- The port takes a request off its queue; a transfer of an agent beside the clusters that was in flight is complete. -/
def State.grant (s : State) (p : Fin 4) (r : PortReq) : State :=
  s.modPort p fun y => { y with
    queue := y.queue.erase r
    granted := (y.granted.filter fun g => g.requester.val < 8) ++ [{ r with at_ := s.now }] }

theorem exec_arbiterGrant_least {s : State} {p : Fin 4} {r : PortReq}
    (h : minBy (fun r : PortReq => (4095 - r.age s.now) * 13 + r.requester.val)
      ((List.finRange 13).filterMap s.ports[p].presents) = some r) :
    exec (.arbiterGrant p) s = .next (if r.write ∧ r.requester.val < 8 then
      (s.grant p r).modCluster (idx 8 r.requester.val) fun c => { c with offcut := c.offcut.map fun o =>
        if o.1 = r.sector ∧ o.2 = .dirty then (o.1, .issued) else o } else s.grant p r) := by
  show execArbiterGrant p s = _
  simp only [execArbiterGrant, h, Bool.and_eq_true, beq_iff_eq]
  rfl

/-! ### The watchdog of a port (R255, R256) -/

/-- A port without the transfers and requests of a requester, whose bite it counts and records. -/
def State.bar (s : State) (p : Fin 4) (q : Fin 13) : State :=
  s.modPort p fun y => { y with
    granted := y.granted.filter fun o => o.requester != q, queue := y.queue.filter fun o => o.requester != q
    lastReq := BitVec.ofNat 4 q.val, bites := satInc y.bites }

/-- What a requester has in flight and waiting at a port. -/
def Port.ofRequester (y : Port) (q : Fin 13) : List PortReq := (y.granted ++ y.queue).filter fun o => o.requester == q

theorem exec_portwdBite_hung {s : State} {p : Fin 4} {r : PortReq} (h : s.hung p = some r) :
    exec (.portwdBite p) s = .next ((((s.ports[p].ofRequester r.requester).foldl (fun (u : State) o => u.dropTransfer p o)
      (s.bar p r.requester)).guardEvent 4 p.val).event 5 2 p.val [BitVec.ofNat 64 r.requester.val]) := by
  show execPortwdBite p s = _
  rw [execPortwdBite, h]
  rfl

theorem bar_port (s : State) (p : Fin 4) (q : Fin 13) :
    (s.bar p q).ports[p].lastReq = BitVec.ofNat 4 q.val ∧ (s.bar p q).ports[p].bites = satInc s.ports[p].bites ∧
      ∀ o ∈ (s.bar p q).ports[p].granted, o.requester ≠ q := by
  rw [State.bar, modPort_ports_self]
  refine ⟨rfl, rfl, fun o ho => ?_⟩
  simpa using (List.mem_filter.mp ho).2

/-- A bite is recorded and counted, and the requester that hung has nothing more in flight: nothing after the bite grants. -/
theorem exec_portwdBite_port {s : State} {p : Fin 4} {r : PortReq} (h : s.hung p = some r) :
    ∃ u : State, exec (.portwdBite p) s = .next u ∧ u.ports[p].lastReq = BitVec.ofNat 4 r.requester.val ∧
      u.ports[p].bites = satInc s.ports[p].bites ∧ ∀ o ∈ u.ports[p].granted, o.requester ≠ r.requester := by
  obtain ⟨hlast, hbites, hgone⟩ := bar_port s p r.requester
  refine ⟨_, exec_portwdBite_hung h, ?_⟩
  have hdrop : (s.bar p r.requester).NoGrant ((s.ports[p].ofRequester r.requester).foldl
      (fun (u : State) o => u.dropTransfer p o) (s.bar p r.requester)) :=
    .foldl (fun u o => (State.NoGrant.refl u).dropTransfer p o) _ _
  obtain ⟨hlast', hbites', hsub⟩ := ((hdrop.guardEvent 4 p.val).event 5 2 p.val [BitVec.ofNat 64 r.requester.val]) p
  exact ⟨hlast'.trans hlast, hbites'.trans hbites, fun o ho => hgone o (hsub ho)⟩

/-- A dropped transfer of an agent beside the clusters: POISON where it should have written, a note where it should have read. -/
theorem dropTransfer_agent {o : PortReq} (h : 8 ≤ o.requester.val) (u : State) (p : Fin 4) :
    u.dropTransfer p o = if o.write then o.data.foldl (fun (u : State) d => u.dramPut d.1 (poisonAt 2 d.1)) u
      else u.modPort p fun y => { y with lost := (o.requester, o.sector) :: y.lost } := dif_neg (Nat.not_lt.mpr h)

theorem foldl_dropTransfer_agent {q : Fin 13} (h : 8 ≤ q.val) (y : Port) (p : Fin 4) (t : State) :
    (y.ofRequester q).foldl (fun (u : State) o => u.dropTransfer p o) t = (y.ofRequester q).foldl (fun (u : State) o =>
      if o.write then o.data.foldl (fun (u : State) d => u.dramPut d.1 (poisonAt 2 d.1)) u
      else u.modPort p fun y => { y with lost := (o.requester, o.sector) :: y.lost }) t := by
  refine List.foldl_rel (r := Eq) rfl fun o ho u u' hu => ?_
  have hq : o.requester = q := by simpa using (List.mem_filter.mp ho).2
  rw [← hu]
  exact dropTransfer_agent (hq ▸ h) u p

/-- Settles O41, a lemma per command. -/
theorem cachesAndPorts : Obligations.CachesAndPorts := by
  unfold Obligations.CachesAndPorts
  intro s k x pos e p cl q seen
  have hseen (t : State) (p : Fin 4) (a : Nat) : seen t p a (t.secded p a e) := by
    cases e with
    | clean => exact rfl
    | corrected => exact rfl
    | lost =>
      show if (t.peek a).tag = 0xFE then _ else _
      split
      case isTrue h => exact secded_lost_poison h
      case isFalse h => exact secded_lost h
  refine ⟨fun hfill hgrant => ?_, fun r hr => ?_, exec_cleanDelayExpiry_due, exec_ageSweep_due, fun htrain hpos =>
    ⟨fun hidle hheld => ?_, fun hidle hheld => ?_, exec_patrolScrub_waiting e htrain hpos⟩, fun n r hr hold => ?_,
    fun r hhung => ⟨exec_portwdBite_port hhung, fun hagent => ?_⟩⟩
  · obtain ⟨b, hb⟩ := Cluster.block_of_sector hfill (by decide)
    have hblk := blk_of_find? hb
    have hmem := List.mem_of_find?_eq_some hb
    refine ⟨⟨_, hseen _ _ _, exec_l2FillComplete_granted pos e hfill hgrant⟩, fun hnone => ?_, fun hall => ?_, endFill_awaits s k x,
      ((State.Tidy.refl s).endFill k x).mem, fun o => endFill_granted⟩
    · have hclear : b.owed[sectorIx x] = false := by
        have hnot := List.any_eq_false.mp hnone b hmem
        simpa [hblk] using hnot
      rw [endFill_sector hb, hclear]
      rfl
    · rw [endFill_sector hb, hall b hmem hblk]
      rfl
  · obtain ⟨hsector, hexec⟩ := exec_writebackAck_granted hr
    rw [hexec, ackWrite_eq, hsector]
  · rw [exec_patrolScrub_idle e htrain hpos hidle, if_pos hheld]
    rfl
  · refine ⟨s.secded p s.ports[p].scrubPos.toNat e, ?_, hseen s p _⟩
    rw [exec_patrolScrub_idle e htrain hpos hidle, hheld]
    rfl
  · have hexec := exec_arbiterGrant_least (grant_least hr hold)
    refine ⟨fun hother => ?_, fun hwrite hcluster => ?_⟩
    · have hnot : ¬ (r.write = true ∧ r.requester.val < 8) := fun ⟨hwrite, hcluster⟩ =>
        hother.elim (by simp [hwrite]) (by omega)
      rw [hexec, if_neg hnot]
      rfl
    · rw [hexec, if_pos ⟨hwrite, hcluster⟩]
      rfl
  · rw [exec_portwdBite_hung hhung, foldl_dropTransfer_agent hagent]
    rfl

end Sys2Proof.Machine
end

section
/-! SUPPORT. A Favar command that is served now: what its row does, by the answer that the command gives (R363, R364, R371). -/

namespace Sys2Proof.Machine

open Sys2Proof

section row
variable {s s1 t : State} {r : FvReq} {code : Nat} {i : Instr} {act : FvReq → State → Reply × State}
  (hs : Serves s code r s1) (hi : exec i s = .next (s.fvRow code act))
include hs hi

theorem Serves.answers {st : BitVec 8} {ws : List (BitVec 64)} (hact : act r s1 = (.done st ws, t)) :
    Answers i s r st ws t := by
  obtain ⟨hserved, halive, ⟨rest, hqueue, rfl⟩, hcmd, hsound, hfree⟩ := hs
  rw [Answers, hi]
  simp only [State.fvRow, State.dispatched, hserved, halive, hqueue, hcmd, hsound, hfree, hact, Bool.not_true, Bool.or_self,
    Bool.false_eq_true, ne_eq, not_true_eq_false, decide_false, if_false]

/-- A host slot is answered BUSY; a world is answered when the work ends. -/
theorem Serves.takesOn {work : BusyWork} (hact : act r s1 = (.busy work, t)) : TakesOn i s r work t := by
  obtain ⟨hserved, halive, ⟨rest, hqueue, rfl⟩, hcmd, hsound, hfree⟩ := hs
  rw [TakesOn, hi]
  cases hfrom : r.from_ with
  | slot k =>
    simp only [State.fvRow, State.dispatched, hserved, halive, hqueue, hcmd, hsound, hfree, hact, hfrom, Bool.not_true, Bool.or_self,
      Bool.false_eq_true, ne_eq, not_true_eq_false, decide_false, if_false]
  | world w =>
    simp only [State.fvRow, State.dispatched, hserved, halive, hqueue, hcmd, hsound, hfree, hact, hfrom, Bool.not_true, Bool.or_self,
      Bool.false_eq_true, ne_eq, not_true_eq_false, decide_false, if_false]

end row

theorem Serves.swap_clear {s s1 : State} {r : FvReq} {code : Nat} (hs : Serves s code r s1) : s.fv.swap = false := by
  have hserved := hs.served
  simp only [Favar.served, Bool.and_eq_true, Bool.not_eq_true'] at hserved
  exact hserved.2

end Sys2Proof.Machine
end

section
/-! SUPPORT. Veneer packages, their roll-out over the cores, firmware, the watchdogs and OTP, and the settlement of O57. -/

namespace Sys2Proof.Machine

open Sys2Proof

/-! ### Packages (R266, R267) -/

/-- Whether a package is for the base release, above the level committed, and fit for the firmware that runs (R266). -/
def State.packageNewer (s : State) (bs : List (BitVec 8)) : Prop :=
  leAt bs 8 2 = s.ven.base.toNat ∧ s.ven.committed.toNat < leAt bs 0xA 2 ∧ leAt bs 0x10 4 ≤ s.fv.fwver.toNat

theorem packageNewer_not {s : State} {bs : List (BitVec 8)} : ¬ s.packageNewer bs ↔
    leAt bs 8 2 ≠ s.ven.base.toNat ∨ leAt bs 0xA 2 ≤ s.ven.committed.toNat ∨ s.fv.fwver.toNat < leAt bs 0x10 4 := by
  simp only [State.packageNewer, Classical.not_and_iff_not_or_not, Nat.not_lt, Nat.not_le, ne_eq]

section stage
variable {s s1 : State} {r : FvReq} {buf : HostBuf} {bs : List (BitVec 8)} (hs : Serves s 0x70 r s1)
include hs

theorem veneerStage_discard (hdiscard : bit (r.p 0) 0 = true) (hstaged : s.ven.staged = true) :
    Answers (.veneerStage buf) s r stOk [] s1.discardStage := by
  refine hs.answers rfl ?_
  obtain ⟨rest, -, rfl⟩ := hs.front
  simp only [hdiscard, hstaged, if_true, Bool.not_true, Bool.false_eq_true, if_false]

theorem veneerStage_discard_nothing (hdiscard : bit (r.p 0) 0 = true) (hstaged : s.ven.staged = false) :
    Answers (.veneerStage buf) s r stState [] s1 := by
  refine hs.answers rfl ?_
  obtain ⟨rest, -, rfl⟩ := hs.front
  simp only [hdiscard, hstaged, if_true, Bool.not_false]

variable (hstage : bit (r.p 0) 0 = false)
include hstage

theorem veneerStage_unread {st : BitVec 8} (hbuf : hostBytes r 1 buf = .error st) :
    Answers (.veneerStage buf) s r st [] s1 := by
  refine hs.answers rfl ?_
  simp only [hstage, hbuf, Bool.false_eq_true, if_false]

variable (hbuf : hostBytes r 1 buf = .ok bs)
include hbuf

theorem veneerStage_malformed (hlayout : packageOk bs = false) : Answers (.veneerStage buf) s r stBadArg [] s1 := by
  refine hs.answers rfl ?_
  simp only [hstage, hbuf, hlayout, Bool.not_false, Bool.false_eq_true, if_false, if_true]

variable (hlayout : packageOk bs = true)
include hlayout

theorem veneerStage_unsigned (hsigned : signedBy s.fv.mcKey bs = false) : Answers (.veneerStage buf) s r stAuth [] s1 := by
  refine hs.answers rfl ?_
  obtain ⟨rest, -, rfl⟩ := hs.front
  simp only [hstage, hbuf, hlayout, hsigned, Bool.not_true, Bool.not_false, Bool.false_eq_true, if_false, if_true]

variable (hsigned : signedBy s.fv.mcKey bs = true)
include hsigned

theorem veneerStage_old (hold : ¬ s.packageNewer bs) : Answers (.veneerStage buf) s r stVersion [] s1 := by
  refine hs.answers rfl ?_
  obtain ⟨rest, -, rfl⟩ := hs.front
  rw [packageNewer_not] at hold
  simp only [hstage, hbuf, hlayout, hsigned, hold, Bool.not_true, Bool.false_eq_true, if_false, if_true]

variable (hnewer : s.packageNewer bs)
include hnewer

theorem veneerStage_pending (hpending : ¬ (s.ven.staged = false ∧ s.ven.armed = false ∧ s.ven.rollout = false)) :
    Answers (.veneerStage buf) s r stState [] s1 := by
  have hold := mt packageNewer_not.mpr (not_not_intro hnewer)
  have hstands : (s.ven.staged || s.ven.armed || s.ven.rollout) = true := by
    simpa only [Classical.not_and_iff_not_or_not, Bool.not_eq_false, Bool.or_eq_true, or_assoc] using hpending
  refine hs.answers rfl ?_
  obtain ⟨rest, -, rfl⟩ := hs.front
  simp only [hstage, hbuf, hlayout, hsigned, hold, hstands, Bool.not_true, Bool.false_eq_true, if_false, if_true]

theorem veneerStage_takesOn (hstaged : s.ven.staged = false) (harmed : s.ven.armed = false) (hrollout : s.ven.rollout = false) :
    TakesOn (.veneerStage buf) s r (.veneerStage bs) s1 := by
  have hold := mt packageNewer_not.mpr (not_not_intro hnewer)
  refine hs.takesOn rfl ?_
  obtain ⟨rest, -, rfl⟩ := hs.front
  simp only [hstage, hbuf, hlayout, hsigned, hold, hstaged, harmed, hrollout, Bool.not_true, Bool.or_self, Bool.false_eq_true,
    if_false]

end stage

theorem discardStage_core (s : State) (c : Fin 32) : s.discardStage.cores[c] =
    { s.cores[c].setShadow {} with ven := { s.cores[c].ven with pending := false } } := by
  simp only [State.discardStage, Fin.getElem_fin, Vector.getElem_map]

/-- Where no core has committed the package, Favar's copy of the active one stays (R275). -/
theorem discardStage_active {s : State} (h : ∀ d : Fin 32, (fld s.cores[d].ven.mcver 0 16 : BitVec 16) ≠ s.ven.level) :
    s.discardStage.ven.active = s.ven.active := by
  have hnone : (s.cores.toList.any fun x => fld x.ven.mcver 0 16 == s.ven.level) = false := by
    refine List.any_eq_false.mpr fun x hx => ?_
    obtain ⟨d, hd, rfl⟩ := Vector.mem_iff_getElem.mp (Vector.mem_toList_iff.mp hx)
    exact fun heq => h ⟨d, hd⟩ (eq_of_beq heq)
  simp only [State.discardStage, hnone, Bool.false_eq_true, if_false]

/-! ### Roll-out (R269 to R272) -/

section apply
variable {s s1 : State} {r : FvReq} (hs : Serves s 0x71 r s1)
include hs

theorem veneerApply_nothing (h : s.ven.staged = false ∨ s.ven.armed = true) : Answers .veneerApply s r stState [] s1 := by
  have hnone : (!s.ven.staged || s.ven.armed) = true := by
    simpa only [Bool.or_eq_true, Bool.not_eq_true'] using h
  refine hs.answers rfl ?_
  obtain ⟨rest, -, rfl⟩ := hs.front
  simp only [hnone, if_true]

variable (hstaged : s.ven.staged = true) (harmed : s.ven.armed = false)
include hstaged harmed

theorem veneerApply_arm (harm : bit (r.p 0) 0 = true) :
    TakesOn .veneerApply s r .veneerApply { s1 with ven := { s1.ven with armed := true } } := by
  refine hs.takesOn rfl ?_
  obtain ⟨rest, -, rfl⟩ := hs.front
  simp only [hstaged, harmed, harm, Bool.not_true, Bool.or_self, Bool.false_eq_true, if_false, if_true]

theorem veneerApply_now (hnow : bit (r.p 0) 0 = false) :
    TakesOn .veneerApply s r .veneerApply s1.requestCommit.veneerOutcome := by
  refine hs.takesOn rfl ?_
  obtain ⟨rest, -, rfl⟩ := hs.front
  simp only [hstaged, harmed, hnow, Bool.not_true, Bool.or_self, Bool.false_eq_true, if_false]

end apply

theorem requestCommit_core (s : State) (c : Fin 32) : s.requestCommit.cores[c] =
    if (fld s.cores[c].ven.mcver 0 16 : BitVec 16).toNat < s.ven.level.toNat ∧ s.cores[c].ven.pending = false then
      { s.cores[c] with ven := { s.cores[c].ven with pending := true, since := s.now } } else s.cores[c] := by
  simp only [State.requestCommit, Fin.getElem_fin, Vector.getElem_ofFn, Bool.and_eq_true, decide_eq_true_eq, Bool.not_eq_true']

/-- Flags joined in a register: a bit is set where a flag of its place is. -/
theorem bit_foldl_fbit {α : Type} (k : α → Nat) (p : α → Bool) {n : Nat} (h : n < 64) (l : List α) (m : BitVec 64) :
    bit (l.foldl (fun m a => m ||| fbit (k a) (p a)) m) n = (bit m n || l.any fun a => p a && k a == n) := by
  induction l generalizing m with
  | nil => rw [List.foldl_nil, List.any_nil, Bool.or_false]
  | cons a l ih =>
    have hflag : bit (fbit (k a) (p a)) n = (p a && k a == n) := by
      cases hp : p a with
      | false => exact BitVec.getLsbD_zero
      | true => exact (getLsbD_one_shiftLeft (k a) n h).trans (Bool.true_and _).symm
    rw [List.foldl_cons, ih, List.any_cons, ← hflag, ← Bool.or_assoc, bit, BitVec.getLsbD_or]
    rfl

theorem bit_foldl_fbit_fin (p : Fin 32 → Bool) (c : Fin 32) :
    bit ((List.finRange 32).foldl (fun m d => m ||| fbit d.val (p d)) 0#64) c.val = p c := by
  rw [bit_foldl_fbit _ _ (by omega)]
  have hzero : bit 0#64 c.val = false := BitVec.getLsbD_zero
  rw [hzero, Bool.false_or, Bool.eq_iff_iff, List.any_eq_true]
  constructor
  · rintro ⟨d, -, hd⟩
    simp only [Bool.and_eq_true, beq_iff_eq] at hd
    obtain ⟨hp, hdc⟩ := hd
    exact Fin.ext hdc ▸ hp
  · exact fun hp => ⟨c, List.mem_finRange c, by simp only [hp, beq_self_eq_true, Bool.and_self]⟩

theorem endVeneerApply_done {s : State} (hrollout : s.ven.rollout = false) (c : Fin 32) : ∃ m : BitVec 64,
    s.endVeneerApply = (.done stOk [m], s) ∧ (s.ven.staged = true → s.ven.armed = false →
      bit m c.val = ((fld s.cores[c].ven.mcver 0 16 : BitVec 16) != s.ven.level)) := by
  refine ⟨_, by rw [State.endVeneerApply, if_neg (Bool.eq_false_iff.mp hrollout)], fun hstaged harmed => ?_⟩
  refine (bit_foldl_fbit_fin _ c).trans ?_
  rw [hstaged, harmed]
  rfl

theorem exec_veneerCoreCommit_due {s : State} {c : Fin 32} (hdue : s.commitDue c = true) :
    exec (.veneerCoreCommit c) s = .next (s.modCore c fun x => x.commitVeneer s.ven.level).veneerOutcome := by
  show execVeneerCoreCommit c s = _
  rw [execVeneerCoreCommit, if_pos hdue]
  rfl

/-- None is forced inside STM or LDM. -/
theorem exec_seamLimitExpiry_amid {s : State} {c : Fin 32} (hforce : s.ven.force = true) (hamid : s.cores[c].amid = true) :
    exec (.seamLimitExpiry c) s = .next s := by
  show execSeamLimitExpiry c s = _
  simp only [execSeamLimitExpiry, hamid, hforce, Bool.and_self, if_true, ite_self]
  rfl

/-- The core with its HOLD window closed, which its world notes (R202, R272). -/
def State.closeHold (s : State) (c : Fin 32) (x : Core) : Core :=
  if s.holdOpen c then
    { x with lo := { x.lo with stat := setBit x.lo.stat 15 false }, holdCount := 0, hx := vset x.hx (s.world c) true }
  else x

section seam
variable {s : State} {c : Fin 32} (hpending : s.cores[c].ven.pending = true) (hdue : s.commitDue c = false)
  (hlate : s.ven.seamLimit.toNat * 1000 ≤ (s.now - s.cores[c].ven.since).toNat)
include hpending hdue hlate

theorem exec_seamLimitExpiry_abandons (hforce : s.ven.force = false) : exec (.seamLimitExpiry c) s =
    .next (s.modCore c fun x => { x with ven := { x.ven with pending := false, abandoned := true } }).veneerOutcome := by
  show execSeamLimitExpiry c s = _
  simp only [execSeamLimitExpiry, hpending, hdue, hlate, hforce, Bool.not_false, Bool.and_self, Bool.false_and, decide_true,
    Bool.false_eq_true, if_false, if_true]
  rfl

theorem exec_seamLimitExpiry_forces (hforce : s.ven.force = true) (hamid : s.cores[c].amid = false) :
    exec (.seamLimitExpiry c) s = .next (s.modCore c fun x => let y := (s.closeHold c x).commitVeneer s.ven.level
      { y with ven := { y.ven with forced := true } }).veneerOutcome := by
  show execSeamLimitExpiry c s = _
  simp only [execSeamLimitExpiry, hpending, hdue, hlate, hforce, hamid, Bool.not_false, Bool.and_self, Bool.and_false, decide_true,
    Bool.false_eq_true, if_false, if_true]
  rfl

end seam

/-! ### Firmware (R379, R380) -/

/-- The image that a file of R430 holds. -/
def FwImage.ofBytes (bs : List (BitVec 8)) : FwImage :=
  { version := BitVec.ofNat 32 (leAt bs 8 4), svn := BitVec.ofNat 8 (leAt bs 6 1), raise := leAt bs 7 1 == 1, valid := true }

section firmware
variable {s s1 : State} {r : FvReq} {buf : HostBuf} {bs : List (BitVec 8)}

section stage
variable (hs : Serves s 0x80 r s1)
include hs

theorem Serves.firmwareAuth : s1.firmwareAuth bs = s.firmwareAuth bs := by
  obtain ⟨rest, -, rfl⟩ := hs.front
  rfl

theorem fwStage_unread {st : BitVec 8} (hbuf : hostBytes r 0 buf = .error st) : Answers (.fwStage buf) s r st [] s1 := by
  refine hs.answers rfl ?_
  simp only [hbuf]

variable (hbuf : hostBytes r 0 buf = .ok bs)
include hbuf

theorem fwStage_malformed (hlayout : firmwareOk bs = false) : Answers (.fwStage buf) s r stBadArg [] s1 := by
  refine hs.answers rfl ?_
  simp only [hbuf, hlayout, Bool.not_false, if_true]

variable (hlayout : firmwareOk bs = true)
include hlayout

theorem fwStage_unsigned (hauth : s.firmwareAuth bs = false) : Answers (.fwStage buf) s r stAuth [] s1 := by
  rw [← hs.firmwareAuth] at hauth
  refine hs.answers rfl ?_
  obtain ⟨rest, -, rfl⟩ := hs.front
  simp only [hbuf, hlayout, hauth, Bool.not_true, Bool.not_false, Bool.false_eq_true, if_false, if_true]

variable (hauth : s.firmwareAuth bs = true)
include hauth

theorem fwStage_old (hold : leAt bs 8 4 ≤ s.fv.fwver.toNat ∨ leAt bs 6 1 < s.fv.svnFloor) :
    Answers (.fwStage buf) s r stVersion [] s1 := by
  rw [← hs.firmwareAuth] at hauth
  refine hs.answers rfl ?_
  obtain ⟨rest, -, rfl⟩ := hs.front
  simp only [hbuf, hlayout, hauth, hold, Bool.not_true, Bool.false_eq_true, if_false, if_true]

theorem fwStage_takesOn (hversion : s.fv.fwver.toNat < leAt bs 8 4) (hsvn : s.fv.svnFloor ≤ leAt bs 6 1) :
    TakesOn (.fwStage buf) s r (.fwStage bs) s1 := by
  have hnew : ¬ (leAt bs 8 4 ≤ s.fv.fwver.toNat ∨ leAt bs 6 1 < s.fv.svnFloor) := by omega
  rw [← hs.firmwareAuth] at hauth
  refine hs.takesOn rfl ?_
  obtain ⟨rest, -, rfl⟩ := hs.front
  simp only [hbuf, hlayout, hauth, hnew, Bool.not_true, Bool.false_eq_true, if_false]

end stage

/-- The image goes into the slot that does not run (R379). -/
theorem endFwStage_slot (s : State) (bs : List (BitVec 8)) : s.endFwStage bs = (.done stOk [], { s with
    fv := if s.fv.activeB then { s.fv with fwA := FwImage.ofBytes bs, stagedFw := true }
      else { s.fv with fwB := FwImage.ofBytes bs, stagedFw := true } }) := by
  simp only [State.endFwStage, Favar.setInactive, FwImage.ofBytes]
  split <;> rfl

/-- What bars a swap: no image staged, work outstanding other than the end of a log stream, or a world restarting (R380). -/
def State.swapBarred (s : State) : Bool :=
  !s.fv.stagedFw || (s.fv.busy.any fun b => match b.work with
    | .logClose _ _ => false
    | _ => true) || s.worlds.toList.any fun w => w.state == .restarting

section swap
variable (hs : Serves s 0x81 r s1)
include hs

theorem Serves.swapBarred : s1.swapBarred = s.swapBarred := by
  obtain ⟨rest, -, rfl⟩ := hs.front
  rfl

/-- While Favar serves, the row is the command: no swap is in progress. -/
theorem exec_fwSwap_served : exec .fwSwap s = .next (s.fvRow 0x81 fun _ s =>
    if s.swapBarred then (.done stState [], s) else (.done stOk [], s.beginSwap true)) := by
  show execFwSwap s = _
  rw [execFwSwap, if_neg (Bool.eq_false_iff.mp hs.swap_clear)]
  rfl

theorem fwSwap_barred (hbarred : s.swapBarred = true) : Answers .fwSwap s r stState [] s1 :=
  hs.answers (exec_fwSwap_served hs) (if_pos (hs.swapBarred.trans hbarred))

theorem fwSwap_begins (hfree : s.swapBarred = false) : Answers .fwSwap s r stOk [] (s1.beginSwap true) :=
  hs.answers (exec_fwSwap_served hs) (if_neg (Bool.eq_false_iff.mp (hs.swapBarred.trans hfree)))

end swap

end firmware

/-- The firmware image of slot B, or of slot A, is marked invalid (R380, R423). -/
def Favar.spoil (f : Favar) (b : Bool) : Favar :=
  if b then { f with fwB := { f.fwB with valid := false } } else { f with fwA := { f.fwA with valid := false } }

section swapping
variable {s : State} (hswap : s.fv.swap = true) (halive : s.alive = true)
include hswap halive

section ready
variable (hsoon : (s.now - s.fv.swapAt).toNat ≤ 250000000)
include hsoon

theorem exec_fwSwap_ready_new (hnew : s.fv.swapNew = true) : exec .fwSwap s = .next (State.endSwap { s with fv := { s.fv with
    activeB := !s.fv.activeB, preferB := !s.fv.activeB, stagedFw := false } } stOk) := by
  show execFwSwap s = _
  simp only [execFwSwap, hswap, halive, hnew, Nat.not_lt.mpr hsoon, Bool.not_true, decide_false, Bool.or_self, Bool.false_eq_true,
    if_false, if_true]
  rfl

theorem exec_fwSwap_ready_same (hnew : s.fv.swapNew = false) : exec .fwSwap s = .next (s.endSwap stOk) := by
  show execFwSwap s = _
  simp only [execFwSwap, hswap, halive, hnew, Nat.not_lt.mpr hsoon, Bool.not_true, decide_false, Bool.or_self, Bool.false_eq_true,
    if_false, if_true]
  rfl

end ready

section late
variable (hlate : 250000000 ≤ (s.now - s.fv.swapAt).toNat)
include hlate

theorem exec_fwSwapFallback_new (hnew : s.fv.swapNew = true) : exec .fwSwapFallback s = .next (State.endSwap
    (State.writeCrash { s with fv := { s.fv.spoil (!s.fv.activeB) with stagedFw := false } } 2 s.now 0 0) stTimeout) := by
  have hslot : s.fv.setInactive { s.fv.inactive with valid := false } = s.fv.spoil (!s.fv.activeB) := by
    simp only [Favar.setInactive, Favar.inactive, Favar.spoil]
    cases s.fv.activeB <;> rfl
  show execFwSwapFallback s = _
  simp only [execFwSwapFallback, hswap, halive, hlate, hnew, hslot, decide_true, Bool.and_self, Bool.not_true, Bool.false_eq_true,
    if_false, if_true]
  rfl

theorem exec_fwSwapFallback_same (hnew : s.fv.swapNew = false) (hother : s.fv.inactive.valid = true) :
    exec .fwSwapFallback s = .next (State.endSwap
      (State.writeCrash { s with fv := { s.fv.spoil s.fv.activeB with activeB := !s.fv.activeB } } 2 s.now 0 0) stTimeout) := by
  have hdue : ¬ (!(s.fv.swap && s.alive && decide (250000000 ≤ (s.now - s.fv.swapAt).toNat))) = true := by
    simp only [hswap, halive, hlate, decide_true, Bool.and_self, Bool.not_true, Bool.false_eq_true, not_false_iff]
  exact congrArg Host.Outcome.next ((if_neg hdue).trans ((if_neg (Bool.eq_false_iff.mp hnew)).trans (if_pos hother)))

end late

end swapping

/-! ### The watchdogs and the slots (R421, R423) -/

theorem exec_favarWatchdogExpiry_ready {s : State} (halive : s.alive = true) (hready : s.fv.ready = true) :
    exec .favarWatchdogExpiry s =
      .next ((State.writeCrash { s with pwr := { s.pwr with last := 3 } } 1 s.now 0 0).beginSwap false) := by
  show execFavarWatchdogExpiry s = _
  rw [execFavarWatchdogExpiry, if_pos (by rw [halive, hready]; rfl)]
  rfl

theorem exec_deviceWatchdogExpiry_alive {s : State} (halive : s.alive = true) : exec .deviceWatchdogExpiry s =
    .next (State.muteLanes { s with pwr := { s.pwr with wdFired := true }, safe := { s.safe with mute := true } }) := by
  show execDeviceWatchdogExpiry s = _
  rw [execDeviceWatchdogExpiry, if_pos halive]
  rfl

/-- A change of FV_STATUS noted changes what MSI-X holds pending, or sends a message. -/
theorem noteStatus_only (s old : State) : ∃ (m : BitVec 32) (out : List Emission),
    s.noteStatus old = { s with fv := { s.fv with msixPend := m }, out := out } := by
  unfold State.noteStatus State.msix
  split
  · exact ⟨_, _, rfl⟩
  · split <;> exact ⟨_, _, rfl⟩

/-- Whether the image in the other slot can be started. -/
def Favar.otherRuns (f : Favar) : Bool :=
  f.inactive.valid && bit f.fwGood (if f.activeB then 0 else 1) && decide (f.svnFloor ≤ f.inactive.svn.toNat)

theorem otherRuns_iff {f : Favar} : f.otherRuns = true ↔
    f.inactive.valid = true ∧ bit f.fwGood (if f.activeB then 0 else 1) = true ∧ f.svnFloor ≤ f.inactive.svn.toNat := by
  simp only [Favar.otherRuns, Bool.and_eq_true, decide_eq_true_eq, and_assoc]

/-- The other slot runs. -/
def State.startOther (s : State) : State :=
  { s with fv := { s.fv.spoil s.fv.activeB with
      activeB := !s.fv.activeB, ready := true, readySince := s.now, fwver := s.fv.inactive.version } }

/-- No slot runs: FWVER reads 0 and every switched domain is held in reset. -/
def State.goDark (s : State) : State :=
  { s with fv := { s.fv.spoil s.fv.activeB with fwver := 0 }
           pwr := { s.pwr with dom := s.pwr.dom.map fun (d : Dom) => { d with state := .off } } }

theorem goDark_ready (s : State) : s.goDark.fv.ready = s.fv.ready := by
  simp only [State.goDark, Favar.spoil]
  split <;> rfl

section slots
variable {s : State} (halive : s.alive = true) (hready : s.fv.ready = false) (hswap : s.fv.swap = false)
  (hrestricted : s.fv.restricted = false)
include halive hready hswap hrestricted

theorem exec_fwSlotFallback_dead : exec .fwSlotFallback s =
    .next (if s.fv.otherRuns then s.startOther.noteStatus s else s.goDark.noteStatus s) :=
  congrArg Host.Outcome.next (if_neg (by simp only [halive, hready, hswap, hrestricted, Bool.not_true, Bool.or_self,
    Bool.false_eq_true, not_false_iff]))

theorem exec_fwSlotFallback_runs (hruns : s.fv.otherRuns = true) :
    exec .fwSlotFallback s = .next (s.startOther.noteStatus s) := by
  rw [exec_fwSlotFallback_dead halive hready hswap hrestricted, if_pos hruns]

theorem exec_fwSlotFallback_dark (hnone : ¬ s.fv.otherRuns = true) : ∃ t : State, exec .fwSlotFallback s = .next t ∧
    t.fv.fwver = 0 ∧ t.fv.ready = false ∧ ∀ d : Fin 141, t.pwr.dom[d].state = .off := by
  obtain ⟨m, out, hnote⟩ := noteStatus_only s.goDark s
  have hexec := exec_fwSlotFallback_dead halive hready hswap hrestricted
  rw [if_neg hnone, hnote] at hexec
  refine ⟨_, hexec, rfl, (goDark_ready s).trans hready, fun d => ?_⟩
  simp only [State.goDark, Fin.getElem_fin, Vector.getElem_map]

end slots

/-! ### OTP and the SVN floor (R426, R427) -/

section otp
variable {s : State} (halive : s.alive = true)
include halive

theorem exec_otpWrite_customerKey (h : BitVec 384) : exec (.otpWrite (.customerKey h)) s =
    .next (if s.fv.customerSet then s else { s with fv := { s.fv with customerHash := h, customerSet := true } }) := by
  show execOtpWrite (.customerKey h) s = _
  rw [execOtpWrite, if_neg (by simp only [halive, Bool.not_true, Bool.false_eq_true, not_false_iff])]
  rfl

theorem exec_otpWrite_debug (v : BitVec 2) : exec (.otpWrite (.debug v)) s =
    .next (if v = 3 then State.noteStatus { s with fv := { s.fv with debugOtp := 3 } } s else s) := by
  show execOtpWrite (.debug v) s = _
  rw [execOtpWrite, if_neg (by simp only [halive, Bool.not_true, Bool.false_eq_true, not_false_iff])]
  rfl

theorem exec_svnFloorRaise_due (hready : s.fv.ready = true) (hraise : s.fv.active.raise = true)
    (hday : 86400000000000 ≤ (s.now - s.fv.readySince).toNat) : exec .svnFloorRaise s =
      .next { s with fv := { s.fv with svnFloor := max s.fv.svnFloor s.fv.active.svn.toNat } } := by
  show execSvnFloorRaise s = _
  rw [execSvnFloorRaise, if_pos (by simp only [halive, hready, hraise, hday, Bool.and_self, decide_true])]
  rfl

end otp

/-- Settles O57, a lemma per command and outcome. -/
theorem veneersAndFirmware : Obligations.VeneersAndFirmware := by
  unfold Obligations.VeneersAndFirmware
  intro s s1 r buf bs st c h v n newer idle x level closed f other fails working restarting down image
  refine ⟨?stage, ?discard, rfl, ?apply, requestCommit_core s c, ?applied, ⟨rfl, exec_veneerCoreCommit_due⟩, ?seam, ?fwStage,
    endFwStage_slot s bs, ?fwSwap, ?swapping, exec_favarWatchdogExpiry_ready, exec_deviceWatchdogExpiry_alive, ?slots, ?otp⟩
  case stage =>
    refine fun hs => ⟨veneerStage_discard hs, veneerStage_discard_nothing hs, fun hstage => veneerStage_unread hs hstage,
      fun hstage hbuf => ⟨veneerStage_malformed hs hstage hbuf, veneerStage_unsigned hs hstage hbuf,
        veneerStage_old hs hstage hbuf, veneerStage_pending hs hstage hbuf, fun hlayout hsigned hnewer hidle => ?_⟩⟩
    obtain ⟨hstaged, harmed, hrollout⟩ := hidle
    exact veneerStage_takesOn hs hstage hbuf hlayout hsigned hnewer hstaged harmed hrollout
  case discard => exact ⟨rfl, rfl, rfl, rfl, rfl, rfl, discardStage_core s c, discardStage_active⟩
  case apply =>
    exact fun hs => ⟨veneerApply_nothing hs, fun hstaged harmed =>
      ⟨veneerApply_arm hs hstaged harmed, veneerApply_now hs hstaged harmed⟩⟩
  case applied => exact ⟨fun hrollout => if_pos hrollout, fun hrollout => endVeneerApply_done hrollout c⟩
  case seam =>
    exact fun hpending hdue hlate => ⟨exec_seamLimitExpiry_abandons hpending hdue hlate, exec_seamLimitExpiry_amid,
      exec_seamLimitExpiry_forces hpending hdue hlate⟩
  case fwStage =>
    exact fun hs => ⟨fwStage_unread hs, fun hbuf =>
      ⟨fwStage_malformed hs hbuf, fwStage_unsigned hs hbuf, fwStage_old hs hbuf, fwStage_takesOn hs hbuf⟩⟩
  case fwSwap =>
    have hbar : s.swapBarred = (!f.stagedFw || working || restarting) := rfl
    refine fun hs => ⟨fun hbarred => fwSwap_barred hs ?_, fun hstaged hworking hrestarting => fwSwap_begins hs ?_⟩
    · rw [hbar]
      rcases hbarred with hstaged | hworking | hrestarting
      · rw [hstaged]
        rfl
      · rw [hworking, Bool.or_true, Bool.true_or]
      · rw [hrestarting, Bool.or_true]
    · rw [hbar, hstaged, hworking, hrestarting]
      rfl
  case swapping =>
    exact fun hswap halive => ⟨exec_fwSwap_ready_new hswap halive, exec_fwSwap_ready_same hswap halive,
      exec_fwSwapFallback_new hswap halive, exec_fwSwapFallback_same hswap halive⟩
  case slots =>
    exact fun halive hready hswap hrestricted =>
      ⟨fun hruns => exec_fwSlotFallback_runs halive hready hswap hrestricted (otherRuns_iff.mpr hruns),
        fun hnone => exec_fwSlotFallback_dark halive hready hswap hrestricted (mt otherRuns_iff.mp hnone)⟩
  case otp =>
    refine fun halive => ⟨fun hblank => ?_, fun hset => ?_, fun hother => ?_, fun hclosed => ?_, exec_svnFloorRaise_due halive⟩
    · rw [exec_otpWrite_customerKey halive, if_neg (Bool.eq_false_iff.mp hblank)]
    · rw [exec_otpWrite_customerKey halive, if_pos hset]
    · rw [exec_otpWrite_debug halive, if_neg hother]
    · rw [exec_otpWrite_debug halive, if_pos hclosed]

end Sys2Proof.Machine
end
